-- ==== Sys2Proof/Word.lean ====
section
/-! DEFINITION. The word type, the numeric types of the parameter `NUM = (R, K)` (00_scope.md R6, R10) with the non-finite
encodings a floating-point `NUM` has (R13), and the names of the buffers, tables and selectors. Types only: every operation
on them stands in a file under `Machine/`.

A real or a complex number is held as plain data that says how it is made. `R` and `K` are the mathematical real and
complex numbers of 00_scope.md R10: the data may use names for positive real numbers, and a claim about the machine is a
claim for every choice of the numbers named (`Valuation` in Safety.lean; log entry 1). The machine never asks which
number a name stands for. -/

namespace Sys2Proof

/-- `XLEN = 32`: an integer register or a command word (00_scope.md R6, R7); bit 0 is the least significant bit. -/
abbrev Word := BitVec 32

/-! ## The type `R` -/

/-- A real number (00_scope.md R10): gains, Doppler shifts, the sampling rate. It is `coeff` times the product of
`r_name ^ exponent` over `powers`, where `r_name` is a positive real number that the machine knows by its name alone. A
rational number is a `coeff` without `powers`; any other real number is a name, or its negative. The sign is that of
`coeff`, so that the comparisons of 42_channel.md R72 can be made. DESIGN CHOICE, safe: log entry 1. -/
structure NumR where
  /-- The rational factor. -/
  coeff : ℚ
  /-- The named factors with their exponents. -/
  powers : List (Nat × Int)
deriving DecidableEq, Repr, Inhabited

/-! ## The type `K` -/

/-- One term `coeff * ph(turn)` of a complex number, where `ph(x) = exp(i*2*pi*x)` (00_scope.md R12). -/
structure Term where
  /-- The argument of `ph`, in whole turns. -/
  turn : ℚ
  /-- The rational number that multiplies it. -/
  coeff : ℚ
deriving DecidableEq, Repr, Inhabited

/-- A complex number that is a finite sum of rational multiples of `ph` at rational arguments, such as `a + i*b` with
rational parts, `a * ph(0) + b * ph(1/4)`. Each has one canonical list of terms (`Cyc.canonical`), and every operation
answers it, so that arithmetic on these numbers is computed exactly (log entry 2). -/
structure Cyc where
  /-- The terms of the sum. -/
  terms : List Term
deriving DecidableEq, Repr, Inhabited

/-- A complex number that the host supplies: every one is `re + i*im` for two reals (00_scope.md R10, `K = R x R`); a sum
of rational multiples of roots of unity may be given as such. Whether it is 0 can be read off it (43_estimator.md R74,
V3). -/
inductive InputK where
  | exact (x : Cyc)
  | parts (re im : NumR)
deriving DecidableEq, Repr, Inhabited

/-! ## Non-finite encodings -/

/-- The encodings of a floating-point format that are no real numbers (00_scope.md R13). -/
inductive Special where
  | nan
  | posInf
  | negInf
deriving DecidableEq, Repr, Inhabited

/-- A value of the type `R` of `NUM`: a real number, or a non-finite encoding where `NUM` has them (00_scope.md R10, R13). -/
inductive RVal where
  | real (x : NumR)
  | special (s : Special)
deriving DecidableEq, Repr, Inhabited

/-- A pair of parts of which the real part or, with a finite real part, the imaginary part is non-finite (00_scope.md R13).
-/
inductive SpecialK where
  | re (s : Special) (im : RVal)
  | im (re : NumR) (s : Special)
deriving DecidableEq, Repr, Inhabited

/-- A value of the type `K` that the host supplies: a complex number, or a pair with a non-finite part. -/
inductive InputVal where
  | number (x : InputK)
  | special (z : SpecialK)
deriving DecidableEq, Repr, Inhabited

/-! ## Samples, grid cells and estimates -/

/-- A value of the type `K = R x R` of `NUM` (00_scope.md R10, R13): samples, grid cells and estimates. What can be computed
exactly is; a number made from named reals is kept as the operations that make it (00_scope.md R11, R12). What `NUM` makes of
a result where the spec leaves it open is known by a name alone, and so it may be open whether a value is a complex number or
non-finite. The machine decides nothing on such a value; what it stands for is `NumK.meaning` in Safety.lean (log entries 1,
13 and 24). An operation on numbers is only asked about where its operands are numbers. -/
inductive NumK where
  /-- A sum of rational multiples of roots of unity. -/
  | exact (x : Cyc)
  /-- `re + i*im`. -/
  | parts (re im : NumR)
  /-- `ph(x)`. -/
  | phase (x : NumR)
  /-- `x + y`. -/
  | plus (x y : NumK)
  /-- `x * y`. -/
  | times (x y : NumK)
  /-- `r * x`. -/
  | scaled (r : NumR) (x : NumK)
  /-- `x / y`. -/
  | ratio (x y : NumK)
  /-- The one of the two numbers that is larger in magnitude; the measure that a tolerance is relative to. -/
  | larger (x y : NumK)
  /-- The number a finite-precision `NUM` has for `x`: `x` with an error of at most `tol` times the magnitude of `size`
  (00_scope.md R14). The error is known by its name alone. -/
  | rounded (name : Nat) (tol : ℚ) (x size : NumK)
  /-- A non-finite value. -/
  | special (z : SpecialK)
  /-- A non-finite value that is known by its name alone. -/
  | nonFinite (name : Nat)
  /-- A value, finite or not, that is known by its name alone (93_implementation_defined.md U7). -/
  | unspecified (name : Nat)
  /-- `x / y` in a `NUM` whose division may overflow to a non-finite value; the name says whether it does (43_estimator.md
  R84). Where `x` is 0 or `x = y` the quotient, 0 or 1, does not overflow (U24, R87 (a)). -/
  | quotient (name : Nat) (x y : NumK)
  /-- `y` if `is_finite(x)`, else `z` (00_scope.md R13). -/
  | ifFinite (x y z : NumK)
  /-- `y` if `x` is the number 0, else `z`. -/
  | ifZero (x y z : NumK)
deriving DecidableEq, Repr, Inhabited

/-! ## The parameter `NUM` -/

/-- The parameter `NUM` with its `TOL` (00_scope.md R6, R10, R14). -/
inductive Num where
  /-- Exact arithmetic on the real and complex numbers. -/
  | reference
  /-- A finite-precision structure, known by a number, whose results agree with the reference within `tol`. `specials` says
  whether it has not-a-number and infinity encodings (R13). -/
  | finite (structureNo : Nat) (tol : ℚ) (specials : Bool)
deriving DecidableEq, Repr

/-- The results that a finite-precision `NUM` may round (00_scope.md R14): the samples of MOD before the guard, the cells
of DEMOD, the samples of CHAN, the per-pilot and the full-grid estimate of EST. -/
inductive Stage where
  | modulated
  | demodulated
  | received
  | pilotRatio
  | gridEstimate
deriving DecidableEq, Repr

/-! ## Names -/

/-- A selector bit of a command word: buffer 0 or buffer 1 of the kind the operation fixes (30_encoding.md R48). -/
inductive Sel where
  | zero
  | one
deriving DecidableEq, Repr, Inhabited

/-- The six buffers (10_state.md R27). -/
inductive Buf where
  | g0
  | g1
  | t0
  | t1
  | hp
  | hg
deriving DecidableEq, Repr, Inhabited

/-- The fields of an entry of the PATH table (10_state.md R25). -/
inductive PathField where
  | delay
  | gain
  | doppler
deriving DecidableEq, Repr

/-- The fields of an entry of the PILOT table (10_state.md R26). -/
inductive PilotField where
  | didx
  | lidx
  | pval
deriving DecidableEq, Repr

end Sys2Proof
end

