-- ==== Sys2Proof/Machine/CommandWord.lean ====
section
/-! DEFINITION. The fields of a command word (30_encoding.md R46). -/

namespace Sys2Proof

/-- `w[3:0]`: OPC. -/
def opcField (w : Word) : BitVec 4 := w.extractLsb' 0 4

/-- `w[4]`: SRC. -/
def srcField (w : Word) : BitVec 1 := w.extractLsb' 4 1

/-- `w[5]`: DST. -/
def dstField (w : Word) : BitVec 1 := w.extractLsb' 5 1

/-- `w[5:4]`: both selector bits. -/
def selectorField (w : Word) : BitVec 2 := w.extractLsb' 4 2

/-- `w[31:6]`: ZERO. -/
def zeroField (w : Word) : BitVec 26 := w.extractLsb' 6 26

end Sys2Proof
end

