-- ==== Sys2Proof/Config.lean ====
section
/-! DEFINITION. What an implementation fixes (00_scope.md R6): the capacities, and the values and choices the spec
leaves open, each a constant without a body, so that nothing can be proved of its value. -/

namespace Sys2Proof

/-- The size parameters of 00_scope.md R6. They are arguments of the model: a field of the state that no step
changes, so that a claim about every state is a claim about every size (log entry 3). -/
structure Caps where
  /-- `GCAP`: cells of each of G0, G1, HG. -/
  gcap : Nat
  /-- `TCAP`: samples of each of T0, T1. -/
  tcap : Nat
  /-- `PCAP`: entries of the PATH table. -/
  pcap : Nat
  /-- `QCAP`: entries of the PILOT table and of HP. -/
  qcap : Nat
deriving DecidableEq, Repr

/-- The suggested defaults of 00_scope.md R6. DESIGN CHOICE (the spec's suggestion), unsafe: log entry 3. -/
def Caps.suggested : Caps := { gcap := 4096, tcap := 8192, pcap := 16, qcap := 64 }

/-- The constraints of 00_scope.md R6 on the size parameters. -/
abbrev Caps.admissible (c : Caps) : Prop := 1 ≤ c.gcap ∧ 1 ≤ c.tcap ∧ 1 ≤ c.pcap ∧ 3 ≤ c.qcap

/-! Elements nobody has written since reset hold an unspecified value (10_state.md R29, U8). Each is a free value
that depends on how many resets there have been, on the place and on nothing else: it stays what it is until it is
written, and a reset makes it another one (70_reset_and_hazards.md R105). A pair holds the value under a `NUM` without
non-finite encodings, then the value under a `NUM` that has them. Log entry 4. -/

/-- Element `i` of a buffer, after `resets` resets. -/
opaque Config.unwrittenElement (resets : Nat) (b : Buf) (i : Nat) : InputK × InputVal

/-- `PATH[j].DELAY`. -/
opaque Config.unwrittenDelay (resets : Nat) (j : Nat) : Word

/-- `PATH[j].GAIN`. -/
opaque Config.unwrittenGain (resets : Nat) (j : Nat) : NumR × RVal

/-- `PATH[j].DOPPLER`. -/
opaque Config.unwrittenDoppler (resets : Nat) (j : Nat) : NumR × RVal

/-- `PILOT[j].DIDX`. -/
opaque Config.unwrittenDidx (resets : Nat) (j : Nat) : Word

/-- `PILOT[j].LIDX`. -/
opaque Config.unwrittenLidx (resets : Nat) (j : Nat) : Word

/-- `PILOT[j].PVAL`. -/
opaque Config.unwrittenPval (resets : Nat) (j : Nat) : InputK × InputVal

/-- The parameter `TRI` where the Delaunay triangulation of the pilot coordinates is not unique (43_estimator.md R81,
U4): the triples of pilot indices an implementation picks for the coordinates `(d, l)` of its pilots in pilot order.
`triangulation` uses it only where it satisfies R79 and R80. Log entry 5. -/
opaque Config.triangulationChoice (pilots : List (Nat × Nat)) : List (Nat × Nat × Nat)

/-- The name of what a `NUM` makes of a result where the spec leaves it open: the error in it (00_scope.md R14), whether a
division overflows and to what (43_estimator.md R84), and which value a result that depends on a non-finite input has
(00_scope.md R16, U7). It depends on the structure, known by its number, on the stage of the command, on the integers, reals
and complex values that the result depends on and on the index of the result. Names that differ may stand for one choice, and
those of equal inputs do, however the inputs are written down (10_state.md R31; `Valuation` in Safety.lean). Log entries 13 and
24. -/
opaque Config.resultName (structureNo : Nat) (stage : Stage) (words : List Nat) (reals : List RVal) (numbers : List NumK)
  (index : Nat) : Nat

/-- What a 32-bit length register holds for a sequence of `len >= 2^32` elements: the spec gives a capacity no upper
bound and states no value here. Log entry 12. -/
opaque Config.unrepresentableLength (len : Nat) : Word

/-- What `ERRINFO.INDEX` holds for an offending entry `index >= 2^24`: the spec gives a table capacity no upper bound
and states no value here. Log entry 11. -/
opaque Config.unrepresentableIndex (index : Nat) : BitVec 24

end Sys2Proof
end

