-- ==== Sys2Proof/Machine/Numeric.lean ====
section
/-! DEFINITION. The operations of the numeric structure `NUM` (00_scope.md R11 to R14): exact arithmetic on the sums of
rational multiples of roots of unity, each operation answering the canonical form of its result; the operations on all
real and complex numbers; non-finite values; and the results of a finite-precision `NUM`. -/

namespace Sys2Proof

/-! ## The canonical form

A relation between the numbers `ph(q)`, `q` rational, comes from the primes `p`: the sum of `ph(q - j/p)` over
`j = 0 .. p-1` is 0. Of each such family of `p` numbers the canonical form uses `p - 1`: those whose `p`-part is below
`1 - 1/p`. The numbers `ph(q)` with `0 <= q < 1` that are left are linearly independent over the rationals and span
the same numbers, so each number is in one way a sum of nonzero multiples of them (log entry 2). -/

/-- The prime numbers that divide `n`, in rising order. -/
def primeDivisors (n : Nat) : List Nat :=
  (List.range (n + 1)).filter fun p =>
    decide (2 ≤ p) && n % p == 0 && (List.range p).all fun d => decide (d < 2) || p % d != 0

/-- The greatest power of the prime `p` that divides `n`. -/
def primePower (p n : Nat) : Nat := Nat.gcd n (p ^ Nat.log2 n)

/-- The `p`-part of `q` modulo 1, in `[0, 1)`: the multiple of `1/p^k` that differs from `q` by a rational whose
denominator `p` does not divide. -/
def primePart (p : Nat) (q : ℚ) : ℚ :=
  let pk := primePower p q.den
  let m := q.den / pk
  Int.fract (((m ^ (pk - pk / p) % q.den : Nat) : ℚ) * q)

/-- `ph(q)` is one of the numbers the canonical form uses. -/
def inBasis (q : ℚ) : Bool :=
  decide (0 ≤ q) && decide (q < 1) &&
    (primeDivisors q.den).all fun p => decide (primePart p q < 1 - 1 / (p : ℚ))

/-- `coeff * ph(turn)` by the relation of the prime `p`, where the `p`-part of `turn` asks for it. -/
def Term.reduceAt (p : Nat) (t : Term) : List Term :=
  if 1 - 1 / (p : ℚ) ≤ primePart p t.turn then
    (List.range (p - 1)).map fun j => ⟨Int.fract (t.turn - (j + 1 : Nat) / (p : ℚ)), -t.coeff⟩
  else [t]

/-- `coeff * ph(turn)` as a sum of multiples of the numbers the canonical form uses. -/
def Term.expand (t : Term) : List Term :=
  (primeDivisors t.turn.den).foldl (fun ts p => ts.flatMap (Term.reduceAt p)) [⟨Int.fract t.turn, t.coeff⟩]

/-- The term `t` added to a list of terms that stands in rising order of `turn`. -/
def Term.insert (t : Term) : List Term → List Term
  | [] => if t.coeff = 0 then [] else [t]
  | u :: us =>
    if t.turn < u.turn then (if t.coeff = 0 then u :: us else t :: u :: us)
    else if t.turn = u.turn then
      (if t.coeff + u.coeff = 0 then us else ⟨u.turn, t.coeff + u.coeff⟩ :: us)
    else u :: Term.insert t us

/-- The canonical form of the number a list of terms sums to. -/
def normaliseTerms (ts : List Term) : List Term :=
  (ts.flatMap Term.expand).foldr Term.insert []

/-- The canonical form of a number. -/
def Cyc.normalise (x : Cyc) : Cyc := ⟨normaliseTerms x.terms⟩

/-- The list of terms is canonical: rising turns, each one the canonical form uses, no zero coefficient. -/
def canonicalTerms : List Term → Bool
  | [] => true
  | [t] => inBasis t.turn && decide (t.coeff ≠ 0)
  | t :: u :: us =>
    inBasis t.turn && decide (t.coeff ≠ 0) && decide (t.turn < u.turn) && canonicalTerms (u :: us)

/-- The number is in its canonical form. -/
def Cyc.canonical (x : Cyc) : Bool := canonicalTerms x.terms

/-! ## The operations of 00_scope.md R11, computed exactly -/

/-- The number 0. -/
def Cyc.zero : Cyc := ⟨[]⟩

/-- The number 1. -/
def Cyc.one : Cyc := ⟨[⟨0, 1⟩]⟩

/-- The rational number `r` as a complex number. -/
def Cyc.ofReal (r : ℚ) : Cyc := ⟨if r = 0 then [] else [⟨0, r⟩]⟩

/-- The number `re + i*im` (00_scope.md R10). -/
def Cyc.ofParts (re im : ℚ) : Cyc :=
  ⟨(if re = 0 then [] else [⟨0, re⟩]) ++ (if im = 0 then [] else [⟨1 / 4, im⟩])⟩

/-- `x + y`. -/
def Cyc.add (x y : Cyc) : Cyc := ⟨normaliseTerms (x.terms ++ y.terms)⟩

/-- `r * x` for a rational `r`. -/
def Cyc.scale (r : ℚ) (x : Cyc) : Cyc :=
  ⟨normaliseTerms (x.terms.map fun t => ⟨t.turn, r * t.coeff⟩)⟩

/-- `-x`. -/
def Cyc.neg (x : Cyc) : Cyc := Cyc.scale (-1) x

/-- `x - y`. -/
def Cyc.sub (x y : Cyc) : Cyc := Cyc.add x (Cyc.neg y)

/-- `x * y`. -/
def Cyc.mul (x y : Cyc) : Cyc :=
  ⟨normaliseTerms (x.terms.flatMap fun t => y.terms.map fun u => ⟨t.turn + u.turn, t.coeff * u.coeff⟩)⟩

/-- `x = 0`: both parts are zero (43_estimator.md R74, V3). -/
def Cyc.isZero (x : Cyc) : Bool := decide (x.normalise = Cyc.zero)

/-- The common denominator of the turns of `x`. -/
def Cyc.order (x : Cyc) : Nat := x.terms.foldr (fun t n => Nat.lcm t.turn.den n) 1

/-- The conjugate of `x` that takes `ph(q)` to `ph(k*q)`. -/
def Cyc.conjugate (k : Nat) (x : Cyc) : Cyc :=
  ⟨normaliseTerms (x.terms.map fun t => ⟨(k : ℚ) * t.turn, t.coeff⟩)⟩

/-- The product of the conjugates of `x` other than `x`. -/
def Cyc.cofactor (x : Cyc) : Cyc :=
  (((List.range x.order).filter fun k => decide (2 ≤ k) && Nat.gcd k x.order == 1).map
    fun k => x.conjugate k).foldr Cyc.mul Cyc.one

/-- `1 / x` for `x != 0`: the product of `x` with its other conjugates is a rational number `c`, and `1 / x` is that
of the other conjugates over `c`. -/
def Cyc.inv (x : Cyc) : Cyc :=
  let y := x.normalise
  match (Cyc.mul y y.cofactor).terms with
  | [t] => Cyc.scale (1 / t.coeff) y.cofactor
  | _ => Cyc.zero

/-- `x / y` for `y != 0`; a division by 0 is never performed (00_scope.md R11). -/
def Cyc.div (x y : Cyc) : Cyc := Cyc.mul x (Cyc.inv y)

/-- `ph(x)` at a rational number `x` (00_scope.md R12). -/
def Cyc.ph (x : ℚ) : Cyc := ⟨normaliseTerms [⟨x, 1⟩]⟩

/-! ## Real numbers -/

/-- The rational number `q` as a real number: `ofNat` and `q_to_R` of 00_scope.md R11. -/
def NumR.ofRat (q : ℚ) : NumR := ⟨q, []⟩

/-- The positive real number with this name. -/
def NumR.named (name : Nat) : NumR := ⟨1, [(name, 1)]⟩

/-- A power of a named number multiplied into a list of powers that stands in rising order of the names. -/
def insertPower (name : Nat) (e : Int) : List (Nat × Int) → List (Nat × Int)
  | [] => if e = 0 then [] else [(name, e)]
  | (other, f) :: rest =>
    if name < other then (if e = 0 then (other, f) :: rest else (name, e) :: (other, f) :: rest)
    else if name = other then (if e + f = 0 then rest else (name, e + f) :: rest)
    else (other, f) :: insertPower name e rest

/-- `x * y` of two reals. -/
def NumR.mul (x y : NumR) : NumR :=
  if x.coeff * y.coeff = 0 then NumR.ofRat 0
  else ⟨x.coeff * y.coeff, x.powers.foldr (fun p ps => insertPower p.1 p.2 ps) y.powers⟩

/-- `1 / x` of a real other than 0. -/
def NumR.inv (x : NumR) : NumR := ⟨1 / x.coeff, x.powers.map fun p => (p.1, -p.2)⟩

/-- `x / y` of two reals, `y` other than 0. -/
def NumR.div (x y : NumR) : NumR := NumR.mul x (NumR.inv y)

/-- `x > 0` (42_channel.md R72, check 1). -/
def NumR.isPositive (x : NumR) : Bool := decide (0 < x.coeff)

/-- `x >= 0` (42_channel.md R72, check 3). -/
def NumR.isNonneg (x : NumR) : Bool := decide (0 ≤ x.coeff)

/-- `x = 0`. -/
def NumR.isZero (x : NumR) : Bool := decide (x.coeff = 0)

/-! ## Complex numbers -/

/-- The number 0. -/
def NumK.zero : NumK := .exact Cyc.zero

/-- The number 1. -/
def NumK.one : NumK := .exact Cyc.one

/-- The number `re + i*im` (00_scope.md R10). -/
def NumK.ofParts (re im : NumR) : NumK :=
  if re.powers = [] ∧ im.powers = [] then .exact (Cyc.ofParts re.coeff im.coeff) else .parts re im

/-- The real number `r` as a complex number. -/
def NumK.ofReal (r : NumR) : NumK := NumK.ofParts r (NumR.ofRat 0)

/-- An operation on two numbers: computed where both can be, else what `other` makes of them. -/
def NumK.lift (op : Cyc → Cyc → Cyc) (other : NumK) (x y : NumK) : NumK :=
  match x, y with
  | .exact a, .exact b => .exact (op a b)
  | _, _ => other

/-- `x + y`. -/
def NumK.add (x y : NumK) : NumK :=
  NumK.lift Cyc.add (if x = NumK.zero then y else if y = NumK.zero then x else .plus x y) x y

/-- `x * y`. -/
def NumK.mul (x y : NumK) : NumK :=
  NumK.lift Cyc.mul
    (if x = NumK.zero ∨ y = NumK.zero then NumK.zero
    else if y = NumK.one then x
    else .times x y) x y

/-- `r * x` for a real `r`. -/
def NumK.scale (r : NumR) (x : NumK) : NumK :=
  if r.isZero = true ∨ x = NumK.zero then NumK.zero
  else
    match x, r.powers with
    | .exact a, [] => .exact (Cyc.scale r.coeff a)
    | _, _ => .scaled r x

/-- `-x`. -/
def NumK.neg (x : NumK) : NumK := NumK.scale (NumR.ofRat (-1)) x

/-- `x - y`. -/
def NumK.sub (x y : NumK) : NumK := NumK.add x (NumK.neg y)

/-- `x / y` for `y != 0`; a division by 0 is never performed (00_scope.md R11). -/
def NumK.div (x y : NumK) : NumK :=
  NumK.lift Cyc.div (if x = NumK.zero then NumK.zero else .ratio x y) x y

/-- The sum of a list of numbers, from the first on, starting from 0. -/
def NumK.sum (xs : List NumK) : NumK := xs.foldl NumK.add NumK.zero

/-- The sequence of `n` complex zeros, as numbers. -/
def NumK.zeros (n : Nat) : List NumK := List.replicate n NumK.zero

/-- The phase primitive `ph(x) = exp(i*2*pi*x)` at any real number (00_scope.md R12). -/
def ph (x : NumR) : NumK :=
  if x.isZero = true then NumK.one
  else
    match x.powers with
    | [] => .exact (Cyc.ph x.coeff)
    | _ :: _ => .phase x

/-- The same number with every part of it that is computed exactly in its canonical form. -/
def NumK.normalise : NumK → NumK
  | .exact x => .exact x.normalise
  | .parts re im => .parts re im
  | .phase x => .phase x
  | .plus x y => .plus x.normalise y.normalise
  | .times x y => .times x.normalise y.normalise
  | .scaled r x => .scaled r x.normalise
  | .ratio x y => .ratio x.normalise y.normalise
  | .larger x y => .larger x.normalise y.normalise
  | .rounded name tol x size => .rounded name tol x.normalise size.normalise
  | .special z => .special z
  | .nonFinite name => .nonFinite name
  | .unspecified name => .unspecified name
  | .quotient name x y => .quotient name x.normalise y.normalise
  | .ifFinite x y z => .ifFinite x.normalise y.normalise z.normalise
  | .ifZero x y z => .ifZero x.normalise y.normalise z.normalise

/-- Every part of the number that is computed exactly is in its canonical form. -/
def NumK.canonical : NumK → Bool
  | .exact x => x.canonical
  | .parts _ _ => true
  | .phase _ => true
  | .plus x y => x.canonical && y.canonical
  | .times x y => x.canonical && y.canonical
  | .scaled _ x => x.canonical
  | .ratio x y => x.canonical && y.canonical
  | .larger x y => x.canonical && y.canonical
  | .rounded _ _ x size => x.canonical && size.canonical
  | .special _ => true
  | .nonFinite _ => true
  | .unspecified _ => true
  | .quotient _ x y => x.canonical && y.canonical
  | .ifFinite x y z => x.canonical && y.canonical && z.canonical
  | .ifZero x y z => x.canonical && y.canonical && z.canonical

/-! ## Numbers the host supplies -/

/-- The number. -/
def InputK.num : InputK → NumK
  | .exact x => .exact x
  | .parts re im => NumK.ofParts re im

/-- The number in the form it is stored in. -/
def InputK.normalise : InputK → InputK
  | .exact x => .exact x.normalise
  | .parts re im => .parts re im

/-- The number is in the form it is stored in. -/
def InputK.canonical : InputK → Bool
  | .exact x => x.canonical
  | .parts _ _ => true

/-- `x = 0`: both parts are zero (43_estimator.md R74, V3). -/
def InputK.isZero : InputK → Bool
  | .exact x => x.isZero
  | .parts re im => re.isZero && im.isZero

/-! ## Values of `NUM`, finite or not -/

/-- The value is a real number. -/
def RVal.isFinite : RVal → Bool
  | .real _ => true
  | .special _ => false

/-- `x > 0` (42_channel.md R72, check 1): true of positive infinity, false of a not-a-number. -/
def RVal.isPositive : RVal → Bool
  | .real x => x.isPositive
  | .special s => decide (s = .posInf)

/-- `x >= 0` (42_channel.md R72, check 3): true of positive infinity, false of a not-a-number. -/
def RVal.isNonneg : RVal → Bool
  | .real x => x.isNonneg
  | .special s => decide (s = .posInf)

/-- `x = 0`. -/
def RVal.isZero : RVal → Bool
  | .real x => x.isZero
  | .special _ => false

/-- The real number; a non-finite value has none, and no result is computed from what stands for it here. -/
def RVal.toReal : RVal → NumR
  | .real x => x
  | .special _ => NumR.ofRat 0

/-- The real number as a value of `K`, or a value with this non-finite part. -/
def RVal.complex : RVal → NumK
  | .real x => NumK.ofReal x
  | .special s => .special (.re s (.real (NumR.ofRat 0)))

/-- `zeros(n)`: the sequence of `n` complex zeros (00_scope.md R9). -/
def zeros (n : Nat) : List NumK := List.replicate n NumK.zero

/-- The value is a complex number whatever its names stand for: every value of a `NUM` without non-finite encodings is. -/
def NumK.isNumber : NumK → Bool
  | .special _ => false
  | .nonFinite _ => false
  | .unspecified _ => false
  | .quotient _ _ _ => false
  | .ifFinite _ y z => y.isNumber && z.isNumber
  | .ifZero _ y z => y.isNumber && z.isNumber
  | _ => true

/-- `y` if `is_finite(x)`, else `z` (00_scope.md R13). -/
def NumK.choose (x y z : NumK) : NumK :=
  if x.isNumber = true then y
  else
    match x with
    | .special _ => z
    | .nonFinite _ => z
    | _ => .ifFinite x y z

/-- `x` if all of `inputs` are finite, else `y` (00_scope.md R16). -/
def NumK.whenFinite (inputs : List NumK) (x y : NumK) : NumK := inputs.foldr (fun input z => NumK.choose input z y) x

/-- `fix(z)` (00_scope.md R13): a non-finite value is replaced by 0. -/
def NumK.fix (z : NumK) : NumK := NumK.choose z z NumK.zero

/-- 0 if the number `x` is 0, else `y`. -/
def NumK.unlessZero (x y : NumK) : NumK :=
  match x with
  | .exact a => if a.isZero = true then NumK.zero else y
  | _ => .ifZero x NumK.zero y

/-- A value the host supplies, as a value of `K`. -/
def InputVal.val : InputVal → NumK
  | .number x => x.num
  | .special z => .special z

/-- The value is a complex number. -/
def InputVal.isFinite : InputVal → Bool
  | .number _ => true
  | .special _ => false

/-- The value in the form it is stored in. -/
def InputVal.normalise : InputVal → InputVal
  | .number x => .number x.normalise
  | .special z => .special z

/-- The value is in the form it is stored in. -/
def InputVal.canonical : InputVal → Bool
  | .number x => x.canonical
  | .special _ => true

/-- `x = 0`: both parts are zero, which is the only zero (43_estimator.md R74, V3). -/
def InputVal.isZero : InputVal → Bool
  | .number x => x.isZero
  | .special _ => false

/-! ## The parameter `NUM` -/

/-- `NUM` has not-a-number and infinity encodings (00_scope.md R13). -/
def Num.hasSpecials : Num → Bool
  | .reference => false
  | .finite _ _ specials => specials

/-- The value is one of the type `R` of `NUM` (00_scope.md R10, R13): a non-finite one only where `NUM` has such. -/
def Num.admitsR (num : Num) (x : RVal) : Bool := num.hasSpecials || x.isFinite

/-- The value is one of the type `K` of `NUM`. -/
def Num.admitsK (num : Num) (x : InputVal) : Bool := num.hasSpecials || x.isFinite

/-- The number `NUM` is known by. -/
def Num.number : Num → Nat
  | .reference => 0
  | .finite structureNo _ _ => structureNo

/-- The tolerance `TOL` (00_scope.md R6, R14): 0 for the reference. -/
def Num.tolerance : Num → ℚ
  | .reference => 0
  | .finite _ tol _ => max 0 tol

/-- A free value: the one for a `NUM` without non-finite encodings, or the one for a `NUM` that has them. -/
def Num.pick {α β : Type} (num : Num) (ofNumber : α → β) (free : α × β) : β :=
  if num.hasSpecials then free.2 else ofNumber free.1

/-! ## The results of a finite-precision `NUM` -/

/-- The largest of some numbers in magnitude. -/
def NumK.largest (xs : List NumK) : NumK := xs.foldr NumK.larger NumK.zero

/-- A number as `NUM` has it (00_scope.md R14). The reference has it exactly, and a finite-precision structure within `TOL`
of it, relative to the magnitude of `size`, with the error of this name. Log entry 13. -/
def Num.round (num : Num) (name : Nat) (size x : NumK) : NumK :=
  match num with
  | .reference => x
  | .finite _ tol _ => .rounded name tol x size

/-- A number as `NUM` has it, an exact 0 where it is 0. -/
def Num.roundNonzero (num : Num) (name : Nat) (size x : NumK) : NumK :=
  match num with
  | .reference => x
  | .finite _ tol _ => NumK.unlessZero x (.rounded name tol x size)

/-- `x / y` as `NUM` has it before rounding, `y` other than 0: it may overflow where `NUM` has non-finite encodings
(43_estimator.md R84). -/
def Num.divide (num : Num) (name : Nat) (x y : NumK) : NumK :=
  if num.hasSpecials then .quotient name x y else NumK.div x y

/-- The results of a stage as `NUM` has them, each given with the values it depends on, for a command that read these integers,
reals and complex values. Where these are finite the result is the reference's number: it is rounded relative to the largest
of them, but for those that R14 makes exact. Any other result is unspecified (00_scope.md R16, U7). Log entries 13 and 24. -/
def Num.results (num : Num) (stage : Stage) (words : List Nat) (reals : List RVal) (numbers : List NumK)
    (isExact : Nat → Bool) (results : List (List NumK × NumK)) : List NumK :=
  results.mapIdx fun k result =>
    let name := Config.resultName num.number stage words reals numbers k
    NumK.whenFinite result.1
      (if isExact k then result.2
        else num.round name (NumK.largest (results.map fun r => NumK.whenFinite r.1 r.2 NumK.zero)) result.2)
      (.unspecified name)

end Sys2Proof
end

