-- ==== Sys2Proof/Machine/HostAction.lean ====
section
/-! DEFINITION. What the host can do to the machine, one element at a time (20_memory.md R38), reset
(70_reset_and_hazards.md R104), and the longer host actions of the spec's programs (30_encoding.md R52). -/

namespace Sys2Proof.Machine

open Sys2Proof

/-- A value of the register space: a 32-bit word for registers 0 to 13, a value of `R` for register 14 (10_state.md R22). -/
inductive RegVal where
  | u32 (w : Word)
  | real (r : RVal)
deriving DecidableEq, Repr

/-- A field of a PATH entry with the value to store in it. -/
inductive PathValue where
  | delay (v : Word)
  | gain (v : RVal)
  | doppler (v : RVal)
deriving DecidableEq, Repr

/-- A field of a PILOT entry with the value to store in it. -/
inductive PilotValue where
  | didx (v : Word)
  | lidx (v : Word)
  | pval (v : InputVal)
deriving DecidableEq, Repr

/-- One host action: the primitives of 20_memory.md R38 and `Reset` (70_reset_and_hazards.md R104). -/
inductive HostAction where
  /-- `HostWriteReg(no, v)`. A write to register 0 (CMD) starts a command. -/
  | writeReg (no : Nat) (v : RegVal)
  /-- `HostReadReg(no)`. -/
  | readReg (no : Nat)
  /-- `HostWritePath(j, field, v)`. -/
  | writePath (j : Nat) (v : PathValue)
  /-- `HostReadPath(j, field)`. -/
  | readPath (j : Nat) (field : PathField)
  /-- `HostWritePilot(j, field, v)`. -/
  | writePilot (j : Nat) (v : PilotValue)
  /-- `HostReadPilot(j, field)`. -/
  | readPilot (j : Nat) (field : PilotField)
  /-- `HostWriteBuf(space, i, v)`. -/
  | writeBuf (b : Buf) (i : Nat) (v : InputVal)
  /-- `HostReadBuf(space, i)`. -/
  | readBuf (b : Buf) (i : Nat)
  /-- The reset input of the block. -/
  | reset
deriving DecidableEq, Repr

/-! ## Which actions name something that exists -/

/-- The number of elements of a buffer (10_state.md R27). -/
def capacityOf (c : Caps) : Buf → Nat
  | .g0 => c.gcap
  | .g1 => c.gcap
  | .t0 => c.tcap
  | .t1 => c.tcap
  | .hp => c.qcap
  | .hg => c.gcap

/-- The register number or element index of a host action lies in its address space (20_memory.md R33). -/
def HostAction.inRange (c : Caps) : HostAction → Bool
  | .writeReg no _ => decide (no ≤ 14)
  | .readReg no => decide (no ≤ 14)
  | .writePath j _ => decide (j < c.pcap)
  | .readPath j _ => decide (j < c.pcap)
  | .writePilot j _ => decide (j < c.qcap)
  | .readPilot j _ => decide (j < c.qcap)
  | .writeBuf b i _ => decide (i < capacityOf c b)
  | .readBuf b i => decide (i < capacityOf c b)
  | .reset => true

/-- The value that a write stores is of the type of its place (10_state.md R22, R25 to R27): a value of `R` for register 14,
a gain or a Doppler shift, a word for the other registers, a value of `K` for a pilot value or an element of a buffer. -/
def HostAction.typed (num : Num) : HostAction → Bool
  | .writeReg no (.u32 _) => decide (no ≠ 14)
  | .writeReg no (.real r) => decide (no = 14) && num.admitsR r
  | .writePath _ (.gain r) => num.admitsR r
  | .writePath _ (.doppler r) => num.admitsR r
  | .writePilot _ (.pval x) => num.admitsK x
  | .writeBuf _ _ x => num.admitsK x
  | _ => true

/-! ## The host actions of 30_encoding.md R52 -/

/-- A command line: the write of its word to CMD. -/
def HostAction.command (w : Word) : HostAction := .writeReg 0 (.u32 w)

/-- `clrerr`. -/
def HostAction.clrerr : HostAction := .writeReg 2 (.u32 0)

/-- `path j, delay, gain, doppler`. -/
def HostAction.path (j : Nat) (delay : Word) (gain doppler : RVal) : List HostAction :=
  [.writePath j (.delay delay), .writePath j (.gain gain), .writePath j (.doppler doppler)]

/-- `pilot j, d, l, p`. -/
def HostAction.pilot (j : Nat) (d l : Word) (p : InputVal) : List HostAction :=
  [.writePilot j (.didx d), .writePilot j (.lidx l), .writePilot j (.pval p)]

/-- The element writes of a `load`, the first at index `i`. -/
def HostAction.loadFrom (b : Buf) (i : Nat) : List InputVal → List HostAction
  | [] => []
  | v :: vs => .writeBuf b i v :: HostAction.loadFrom b (i + 1) vs

/-- A length as a length register holds it. A length of `2^32` or more has no 32-bit form, and the spec states no value of
the register there: it is a free value. DESIGN CHOICE, safe: log entry 12. -/
def lengthWord (len : Nat) : Word :=
  if len < 2 ^ 32 then BitVec.ofNat 32 len else Config.unrepresentableLength len

/-- `load tK, [...]`: the samples, then the length register, which for `2^32` values or more receives the free value of
`lengthWord` (log entry 12). -/
def HostAction.loadT (sel : Sel) (vs : List InputVal) : List HostAction :=
  HostAction.loadFrom (match sel with | .zero => .t0 | .one => .t1) 0 vs ++
    [.writeReg (match sel with | .zero => 11 | .one => 12) (.u32 (lengthWord vs.length))]

/-- `load gK, [...]`: the cells, Doppler-fastest. -/
def HostAction.loadG (sel : Sel) (vs : List InputVal) : List HostAction :=
  HostAction.loadFrom (match sel with | .zero => .g0 | .one => .g1) 0 vs

end Sys2Proof.Machine
end

