-- ==== Sys2Proof/Syntax.lean ====
section
/-! DEFINITION. The commands of OTFS-CMD 1.0: one constructor for each row of `spec/opcode_table.json`. -/

namespace Sys2Proof

/-- The seven commands (30_encoding.md R47). The operands are the selectors `SRC` and `DST` of the command word
(30_encoding.md R48); every other operand is implicit in the state (10_state.md R18). -/
inductive Instr where
  /-- `NOP` (44_system.md R88). -/
  | nop
  /-- `GI.INS` (40_guard_codec.md R56): `T[src]` to `T[dst]`. -/
  | giIns (src dst : Sel)
  /-- `GI.REM` (40_guard_codec.md R57): `T[src]` to `T[dst]`. -/
  | giRem (src dst : Sel)
  /-- `MOD` (41_transform_pair.md R62): `G[src]` to `T[dst]`. -/
  | mod (src dst : Sel)
  /-- `DEMOD` (41_transform_pair.md R66): `T[src]` to `G[dst]`. -/
  | demod (src dst : Sel)
  /-- `CHAN` (42_channel.md R72): `T[src]` to `T[dst]`. -/
  | chan (src dst : Sel)
  /-- `EST` (43_estimator.md R86): `G[src]` to HP and HG; its `DST` bit is 0. -/
  | est (src : Sel)
deriving DecidableEq, Repr

end Sys2Proof
end

