-- ==== Sys2Proof/WellFormed.lean ====
section
/-! DEFINITION. Which terms are well formed: which 32-bit words are commands (30_encoding.md R49) and which host
actions name something that exists (20_memory.md R33, R34, R38). The operands of `Instr` are selectors with two
values, so every term of `Instr` is well formed by its type. -/

namespace Sys2Proof

/-- None of the four conditions (a) to (d) of 30_encoding.md R49 holds: the word is one of the 23 legal words. -/
def legalWord (w : Word) : Bool :=
  !(decide (zeroField w ≠ 0) || decide (7 ≤ (opcField w).toNat) ||
    (decide (opcField w = 0) && decide (selectorField w ≠ 0)) ||
    (decide (opcField w = 6) && decide (dstField w = 1)))

/-! ## Host actions -/

/-- The host action is one the model admits at sizes `c` and under `num`. -/
def Machine.HostAction.wellFormed (c : Caps) (num : Num) (a : Machine.HostAction) : Bool := a.inRange c && a.typed num

end Sys2Proof
end

