-- ==== Sys2Proof/Decode.lean ====
section
/-! DEFINITION. The command word: its fields, its decoding and its encoding (30_encoding.md R46 to R49, R51, R53). -/

namespace Sys2Proof

/-! ## The decoder -/

/-- Why a word is no command (30_encoding.md R53 steps 3 to 6). -/
inductive IllegalWord where
  /-- Bits 31:6 are not zero: `CMD_ZERO`. -/
  | zeroBits
  /-- OPC is 7 to 15: `CMD_OPC`. -/
  | opcode
  /-- A selector bit that must be 0 is 1: `CMD_SEL`. -/
  | selector
deriving DecidableEq, Repr

/-- The buffer a selector bit chooses (30_encoding.md R48). -/
def selOfBit (b : BitVec 1) : Sel := if b = 1 then .one else .zero

/-- The command of a legal word, by its operation code (30_encoding.md R47). -/
def commandOf (opc : BitVec 4) (src dst : Sel) : Instr :=
  match opc.toNat with
  | 0 => .nop
  | 1 => .giIns src dst
  | 2 => .giRem src dst
  | 3 => .mod src dst
  | 4 => .demod src dst
  | 5 => .chan src dst
  | _ => .est src

/-- Decoding, total on all `2^32` words (30_encoding.md R49), its refusals in the order of R53 steps 3 to 6. -/
def decode (w : Word) : Except IllegalWord Instr :=
  if zeroField w ≠ 0 then .error .zeroBits
  else if 7 ≤ (opcField w).toNat then .error .opcode
  else if opcField w = 0 ∧ selectorField w ≠ 0 then .error .selector
  else if opcField w = 6 ∧ dstField w = 1 then .error .selector
  else .ok (commandOf (opcField w) (selOfBit (srcField w)) (selOfBit (dstField w)))

/-- The instruction the decoder reads from the word whose bits are `w`, `nbits` of them given by the opcode table and
the bits above them zero. A command word is not stored in bytes (20_memory.md R40, R45): its number is the word. -/
def decodeTableWord (nbits w : Nat) : Option Instr :=
  let v := w % 2 ^ nbits
  if v < 2 ^ 32 then (decode (BitVec.ofNat 32 v)).toOption else none

/-! ## The encoder -/

/-- The selector bit that chooses a buffer. -/
def Sel.bit : Sel → BitVec 1
  | .zero => 0
  | .one => 1

/-- The word of format `C` (30_encoding.md R46): `ZERO`, `DST`, `SRC`, `OPC` from the most significant bit down. -/
def commandWord (opc : BitVec 4) (src dst : Sel) : Word :=
  (0 : BitVec 26) ++ dst.bit ++ src.bit ++ opc

/-- The word of a command (30_encoding.md R47, R51). -/
def encode : Instr → Word
  | .nop => commandWord 0 .zero .zero
  | .giIns src dst => commandWord 1 src dst
  | .giRem src dst => commandWord 2 src dst
  | .mod src dst => commandWord 3 src dst
  | .demod src dst => commandWord 4 src dst
  | .chan src dst => commandWord 5 src dst
  | .est src => commandWord 6 src .zero

/-! ## Assembler syntax -/

/-- The digit `K` of an operand `tK` or `gK` (30_encoding.md R51). -/
def Sel.digit : Sel → String
  | .zero => "0"
  | .one => "1"

/-- A command as the spec's programs write it (30_encoding.md R51). -/
def assembly : Instr → String
  | .nop => "nop"
  | .giIns src dst => "gi.ins t" ++ src.digit ++ ", t" ++ dst.digit
  | .giRem src dst => "gi.rem t" ++ src.digit ++ ", t" ++ dst.digit
  | .mod src dst => "mod g" ++ src.digit ++ ", t" ++ dst.digit
  | .demod src dst => "demod t" ++ src.digit ++ ", g" ++ dst.digit
  | .chan src dst => "chan t" ++ src.digit ++ ", t" ++ dst.digit
  | .est src => "est g" ++ src.digit

end Sys2Proof
end

