-- ==== Sys2Proof/Machine/State.lean ====
section
/-! DEFINITION. The state of the machine, as plain data, and the reasons a step can stop. -/

namespace Sys2Proof.Machine

open Sys2Proof

/-- An element-addressed memory: the elements written since reset, each with its index, indices strictly rising
(`Mem.wf`). An index that is not listed has not been written since reset (10_state.md R29). -/
abbrev Mem (α : Type) := List (Nat × α)

/-- The state. Every field but the last four is the spec's own; 10_state.md R30 gives each its reset value. -/
structure State where
  /-- STATUS bit 0, BUSY (10_state.md R21): 1 only while a command is in progress. -/
  busy : Bool
  /-- STATUS bit 1, DONE (10_state.md R21). STATUS bit 2, ERR, is computed from ERRCODE. -/
  done : Bool
  /-- Register 2, ERRCODE: the latched error code, 0 for none (10_state.md R22, R23). -/
  errcode : Word
  /-- Register 3, ERRINFO. -/
  errinfo : Word
  /-- Register 4, ERRCMD. -/
  errcmd : Word
  /-- Register 5, M: the number of Doppler bins. -/
  m : Word
  /-- Register 6, N: the number of delay bins. -/
  n : Word
  /-- Register 7, GLEN: the guard length. -/
  glen : Word
  /-- Register 8, GMODE: the guard mode. -/
  gmode : Word
  /-- Register 9, NPATH. -/
  npath : Word
  /-- Register 10, NPILOT. -/
  npilot : Word
  /-- Register 11, TLEN0. -/
  tlen0 : Word
  /-- Register 12, TLEN1. -/
  tlen1 : Word
  /-- Register 13, HPLEN. -/
  hplen : Word
  /-- Register 14, FS: the sampling rate in Hz. -/
  fs : RVal
  /-- `PATH[j].DELAY` (10_state.md R25). -/
  pathDelay : Mem Word
  /-- `PATH[j].GAIN`. -/
  pathGain : Mem RVal
  /-- `PATH[j].DOPPLER`. -/
  pathDoppler : Mem RVal
  /-- `PILOT[j].DIDX` (10_state.md R26). -/
  pilotDidx : Mem Word
  /-- `PILOT[j].LIDX`. -/
  pilotLidx : Mem Word
  /-- `PILOT[j].PVAL`. -/
  pilotPval : Mem InputVal
  /-- Buffer G0 (10_state.md R27). -/
  g0 : Mem NumK
  /-- Buffer G1. -/
  g1 : Mem NumK
  /-- Buffer T0. -/
  t0 : Mem NumK
  /-- Buffer T1. -/
  t1 : Mem NumK
  /-- Buffer HP. -/
  hp : Mem NumK
  /-- Buffer HG. -/
  hg : Mem NumK
  /-- The sizes of this implementation (00_scope.md R6), which no step changes. The model's own field: log entry 3. -/
  caps : Caps
  /-- The number structure `NUM` with its `TOL` (00_scope.md R6), which no step changes. The model's own field: log
  entry 13. -/
  num : Num
  /-- How many resets there have been: the free values of unwritten elements depend on it (10_state.md R29). The
  model's own field: log entry 4. -/
  resets : Nat
  /-- The host actions still to come, in order (10_state.md R20: the position in that list is the host's). The
  model's own field: log entry 6. -/
  host : List HostAction
deriving DecidableEq, Repr

/-- Why the machine stops with a fault. An error of the spec is no fault: it is latched and the machine goes on. -/
inductive Fault where
  /-- Raised by a host access (`hostStep`) whose register number or index lies outside its address space
  (20_memory.md R33, R38; U11): the spec gives it no step. Safe. -/
  | outsideSpace (a : HostAction)
deriving DecidableEq, Repr

/-- Why the model gives a step no meaning. -/
inductive Refusal where
  /-- Raised by `exec` for an instruction that has no meaning in the model; no instruction is left without one.
  Safe. -/
  | notModelled (mnemonic : String)
  /-- Raised by a host access other than a read of STATUS while a command is in progress (70_reset_and_hazards.md
  R107; U10): the spec refuses it. Safe. -/
  | busy (a : HostAction)
  /-- Raised by a write whose value is not of the type of its place (10_state.md R22, R25 to R27), a non-finite value under
  a `NUM` without such values among them (00_scope.md R13): the spec's primitive takes no such value. Safe. -/
  | wrongType (a : HostAction)
deriving DecidableEq, Repr

/-- The machine right after its first reset (10_state.md R30, 70_reset_and_hazards.md R105): every register 0, every
table and buffer element unwritten, and nothing for the host to do. -/
def State.reset : State where
  busy := false
  done := false
  errcode := 0
  errinfo := 0
  errcmd := 0
  m := 0
  n := 0
  glen := 0
  gmode := 0
  npath := 0
  npilot := 0
  tlen0 := 0
  tlen1 := 0
  hplen := 0
  fs := .real ⟨0, []⟩
  pathDelay := []
  pathGain := []
  pathDoppler := []
  pilotDidx := []
  pilotLidx := []
  pilotPval := []
  g0 := []
  g1 := []
  t0 := []
  t1 := []
  hp := []
  hg := []
  caps := Caps.suggested
  num := .reference
  resets := 0
  host := []

end Sys2Proof.Machine
end

