-- ==== Sys2Proof/Machine/Flags.lean ====
section
/-! DEFINITION. The status flags and the words of the status and error registers (10_state.md R21, R23;
60_exceptions.md R92, R93). -/

namespace Sys2Proof.Machine

open Sys2Proof

/-- ERR is 1 exactly when ERRCODE is non-zero (10_state.md R21). -/
def State.err (s : State) : Bool := decide (s.errcode ≠ 0)

/-- A flag as a bit. -/
def flagBit (b : Bool) : BitVec 1 := if b then 1 else 0

/-- STATUS (10_state.md R23): bit 0 BUSY, bit 1 DONE, bit 2 ERR, bits 31:3 zero. -/
def State.status (s : State) : Word :=
  (0 : BitVec 29) ++ flagBit s.err ++ flagBit s.done ++ flagBit s.busy

/-- The error classes (60_exceptions.md R92). -/
inductive ErrCode where
  | shapeError
  | configurationError
  /-- Assigned so that the taxonomy is complete; nothing raises it (60_exceptions.md R99). -/
  | numericAnomaly
  | illegalCommand
deriving DecidableEq, Repr

/-- The code an error class latches in ERRCODE (60_exceptions.md R92). -/
def ErrCode.code : ErrCode → Word
  | .shapeError => 1
  | .configurationError => 2
  | .numericAnomaly => 3
  | .illegalCommand => 4

/-- The offending parameters (60_exceptions.md R93). -/
inductive Param where
  | none
  | m
  | n
  | gridCap
  | glen
  | srcLen
  | dstLen
  | fs
  | npath
  | pathGain
  | npilot
  | pilotIndex
  | pilotValue
  | pilotDup
  | pilotGeom
  | cmdZero
  | cmdOpc
  | cmdSel
deriving DecidableEq, Repr

/-- The identifier of an offending parameter (60_exceptions.md R93). -/
def Param.ident : Param → BitVec 8
  | .none => 0
  | .m => 1
  | .n => 2
  | .gridCap => 3
  | .glen => 4
  | .srcLen => 5
  | .dstLen => 6
  | .fs => 7
  | .npath => 8
  | .pathGain => 9
  | .npilot => 10
  | .pilotIndex => 11
  | .pilotValue => 12
  | .pilotDup => 13
  | .pilotGeom => 14
  | .cmdZero => 15
  | .cmdOpc => 16
  | .cmdSel => 17

/-- What a command raises: `raise <class>(PARAM = param, INDEX = index)` (60_exceptions.md R95). -/
structure CmdError where
  cls : ErrCode
  param : Param
  index : Nat
deriving DecidableEq, Repr

/-- `ERRINFO.INDEX`, bits 31:8 (10_state.md R23). An index of `2^24` or more has no 24-bit form: log entry 11. -/
def indexField (index : Nat) : BitVec 24 :=
  if index < 2 ^ 24 then BitVec.ofNat 24 index else Config.unrepresentableIndex index

/-- ERRINFO: `zext_32(param) + 256 * index` (60_exceptions.md R95). -/
def CmdError.info (e : CmdError) : Word := indexField e.index ++ e.param.ident

/-- A ShapeError of a parameter that is no table entry. -/
def shapeError (p : Param) : CmdError := ⟨.shapeError, p, 0⟩

/-- A ConfigurationError of a parameter that is no table entry. -/
def configError (p : Param) : CmdError := ⟨.configurationError, p, 0⟩

/-- A ConfigurationError of table entry `index`. -/
def tableError (p : Param) (index : Nat) : CmdError := ⟨.configurationError, p, index⟩

end Sys2Proof.Machine
end

