-- ==== Sys2Proof/Machine/Memory.lean ====
section
/-! DEFINITION. Reading and writing one element of an element-addressed memory, and a run of elements. -/

namespace Sys2Proof.Machine

open Sys2Proof

/-- The canonical form of a memory: its indices strictly rise, so that equal memories are equal data. An index that
is not listed reads as no value, so no entry is equal to what an unlisted index reads as. -/
abbrev Mem.wf {α : Type} (mem : Mem α) : Prop := mem.Pairwise fun x y => x.1 < y.1

/-- Every listed index lies below `cap`. -/
abbrev Mem.below {α : Type} (cap : Nat) (mem : Mem α) : Prop := ∀ x ∈ mem, x.1 < cap

/-- `MemRead`: what stands at index `i`, if it has been written since reset (20_memory.md R34). -/
def Mem.read {α : Type} (mem : Mem α) (i : Nat) : Option α :=
  match mem with
  | [] => none
  | (j, v) :: rest => if j = i then some v else Mem.read rest i

/-- `MemWrite`: the value `v` at index `i` (20_memory.md R34). -/
def Mem.write {α : Type} (mem : Mem α) (i : Nat) (v : α) : Mem α :=
  match mem with
  | [] => [(i, v)]
  | (j, u) :: rest =>
    if i < j then (i, v) :: (j, u) :: rest
    else if i = j then (i, v) :: rest
    else (j, u) :: Mem.write rest i v

/-- The values `vs` at index `i` and the indices after it, in rising order (00_scope.md, `store_seq`). -/
def Mem.writeFrom {α : Type} (mem : Mem α) (i : Nat) (vs : List α) : Mem α :=
  match vs with
  | [] => mem
  | v :: rest => Mem.writeFrom (mem.write i v) (i + 1) rest

end Sys2Proof.Machine
end

