-- ==== Sys2Proof/Machine/Ops.lean ====
section
/-! DEFINITION. The named operations over buffers and length registers (00_scope.md, pseudocode primitives), the error
latch with the way in and out of it, and the frame every command runs in (30_encoding.md R53). -/

namespace Sys2Proof.Machine

open Sys2Proof

/-! ## Buffers by name -/

/-- The time buffer a selector chooses (30_encoding.md R48). -/
def tBuf : Sel → Buf
  | .zero => .t0
  | .one => .t1

/-- The grid buffer a selector chooses (30_encoding.md R48). -/
def gBuf : Sel → Buf
  | .zero => .g0
  | .one => .g1

/-- The memory of a buffer. -/
def State.buf (s : State) : Buf → Mem NumK
  | .g0 => s.g0
  | .g1 => s.g1
  | .t0 => s.t0
  | .t1 => s.t1
  | .hp => s.hp
  | .hg => s.hg

/-- The state with another memory in a buffer. -/
def State.setBuf (s : State) (b : Buf) (mem : Mem NumK) : State :=
  match b with
  | .g0 => { s with g0 := mem }
  | .g1 => { s with g1 := mem }
  | .t0 => { s with t0 := mem }
  | .t1 => { s with t1 := mem }
  | .hp => { s with hp := mem }
  | .hg => { s with hg := mem }

/-- `TLEN[sel]`. -/
def State.tlen (s : State) : Sel → Word
  | .zero => s.tlen0
  | .one => s.tlen1

/-- `TLEN[sel] <- v`. -/
def State.setTlen (s : State) (sel : Sel) (v : Word) : State :=
  match sel with
  | .zero => { s with tlen0 := v }
  | .one => { s with tlen1 := v }

/-- `HPLEN <- v`. -/
def State.setHplen (s : State) (v : Word) : State := { s with hplen := v }

/-! ## Elements -/

/-- `MemRead(b, i)`: the element at index `i`; one nobody has written since reset is unspecified (10_state.md R29). -/
def State.element (s : State) (b : Buf) (i : Nat) : NumK :=
  match (s.buf b).read i with
  | some v => v
  | none => (s.num.pick InputVal.number (Config.unwrittenElement s.resets b i)).normalise.val

/-- The values `vs` at indices `0, 1, ...` of a buffer; the elements after them keep what they held (10_state.md
R28). -/
def State.storeElements (s : State) (b : Buf) (vs : List NumK) : State :=
  s.setBuf b ((s.buf b).writeFrom 0 vs)

/-- `seq(T[sel])`: the sequence a time buffer holds (20_memory.md R35). -/
def State.seq (s : State) (sel : Sel) : List NumK :=
  (List.range (s.tlen sel).toNat).map fun k => s.element (tBuf sel) k

/-- `store_seq(T[sel], vs)`: the samples, then the length register. -/
def State.storeSeq (s : State) (sel : Sel) (vs : List NumK) : State :=
  (s.storeElements (tBuf sel) vs).setTlen sel (lengthWord vs.length)

/-- An `M x N` matrix as the list of its `N` columns, each the list of its `M` cells: cell `[d, l]` is cell `d` of
column `l` (00_scope.md R9). -/
abbrev Grid := List (List NumK)

/-- `grid(G[sel], M, N)`, its cells in the order they stand in: cell `[d, l]` at index `d + M*l` (20_memory.md R36). -/
def State.grid (s : State) (sel : Sel) (m n : Nat) : List NumK :=
  (List.range (m * n)).map fun k => s.element (gBuf sel) k

/-- The cells of a grid as `store_grid(b, Y, M, N)` writes them, cell `[d, l]` at index `d + M*l` (20_memory.md R36): the
columns one after another. It is also `flatten(Y, M, N)` (41_transform_pair.md R60). -/
def flattenGrid (y : Grid) : List NumK := y.flatten

/-! ## The error latch -/

/-- `raise` (60_exceptions.md R95) during the command started by the word `w`: the code, the parameter and the
command word are latched, DONE stays as acceptance left it, the core is idle again, and nothing else is written. -/
def State.raise (s : State) (w : Word) (e : CmdError) : State :=
  { s with errcode := e.cls.code, errinfo := e.info, errcmd := w, busy := false }

/-- The error clear (44_system.md R89): the return from an error (60_exceptions.md R98). -/
def State.clearError (s : State) : State := { s with errcode := 0, errinfo := 0, errcmd := 0 }

/-! ## The frame of a command -/

/-- Acceptance (30_encoding.md R53 step 2): DONE is cleared and the command is in progress (10_state.md R21). -/
def State.accept (s : State) : State := { s with done := false, busy := true }

/-- Completion without error (30_encoding.md R53 step 7): DONE is set and the core is idle. -/
def State.complete (s : State) : State := { s with done := true, busy := false }

/-- The state after a write of the word `w` to CMD whose command has the checks `check` and the effect `effect`
(30_encoding.md R53): dropped while an error is latched (60_exceptions.md R97); else accepted; then the first check
that fails raises its error and nothing is written (60_exceptions.md R95, R96); else the effect, then DONE. The effect
reads the state as acceptance left it, so every input is read before any output is written (20_memory.md R37). -/
def commandState (w : Word) (check : State → Option CmdError) (effect : State → State) (s : State) : State :=
  if s.errcode ≠ 0 then s
  else
    match check s.accept with
    | some e => s.accept.raise w e
    | none => (effect s.accept).complete

/-- A command always finishes (70_reset_and_hazards.md R107): it answers a next state. -/
def runCommand (w : Word) (check : State → Option CmdError) (effect : State → State) (s : State) :
    Host.Outcome State Fault Refusal :=
  .next (commandState w check effect s)

/-- The lowest index below `n` with the property, if there is one (60_exceptions.md R96). -/
def firstIndex (n : Nat) (p : Nat → Bool) : Option Nat := (List.range n).find? p

end Sys2Proof.Machine
end

