-- ==== Sys2Proof/Machine/Operands.lean ====
section
/-! DEFINITION. The implicit operands of a command: the guard configuration, the grid dimensions, the path set and the
pilot set, as the registers and tables hold them (10_state.md R22, R25, R26). -/

namespace Sys2Proof.Machine

open Sys2Proof

/-- The guard modes. -/
inductive GuardMode where
  | none
  | zeroPad
  | cyclicPrefix
deriving DecidableEq, Repr

/-- The mode GMODE holds (40_guard_codec.md R54): 1 is ZeroPad, 2 is CyclicPrefix, every other value is None. -/
def guardMode (gmode : Word) : GuardMode :=
  if gmode = 1 then .zeroPad else if gmode = 2 then .cyclicPrefix else .none

/-- The guard mode of the state. -/
def State.mode (s : State) : GuardMode := guardMode s.gmode

/-- The length of a sequence of `len` samples with its guard inserted (40_guard_codec.md R54). -/
def guardedLength (len g : Nat) : GuardMode → Nat
  | .none => len
  | .zeroPad => len + g
  | .cyclicPrefix => len + g

/-- A path descriptor of numbers: delay in samples, linear gain, Doppler shift in Hz (10_state.md R25). -/
structure Path where
  delay : Nat
  gain : NumR
  doppler : NumR
deriving DecidableEq, Repr

/-- A path descriptor as the PATH table holds it. -/
structure PathEntry where
  delay : Nat
  gain : RVal
  doppler : RVal
deriving DecidableEq, Repr

/-- The descriptor in numbers; no result is computed from what stands for a non-finite field. -/
def PathEntry.path (p : PathEntry) : Path := ⟨p.delay, p.gain.toReal, p.doppler.toReal⟩

/-- The gain and the Doppler shift are numbers. -/
def PathEntry.isFinite (p : PathEntry) : Bool := p.gain.isFinite && p.doppler.isFinite

/-- `PATH[j].DELAY`; unspecified while nobody has written it since reset (10_state.md R29). -/
def State.delayAt (s : State) (j : Nat) : Word :=
  match s.pathDelay.read j with
  | some v => v
  | none => Config.unwrittenDelay s.resets j

/-- `PATH[j].GAIN`. -/
def State.gainAt (s : State) (j : Nat) : RVal :=
  match s.pathGain.read j with
  | some v => v
  | none => s.num.pick RVal.real (Config.unwrittenGain s.resets j)

/-- `PATH[j].DOPPLER`. -/
def State.dopplerAt (s : State) (j : Nat) : RVal :=
  match s.pathDoppler.read j with
  | some v => v
  | none => s.num.pick RVal.real (Config.unwrittenDoppler s.resets j)

/-- The path set: entries `0 .. NPATH-1` in index order (10_state.md R25). -/
def State.paths (s : State) : List PathEntry :=
  (List.range s.npath.toNat).map fun j => ⟨(s.delayAt j).toNat, s.gainAt j, s.dopplerAt j⟩

/-- `PILOT[j].DIDX` (10_state.md R26). -/
def State.didxAt (s : State) (j : Nat) : Word :=
  match s.pilotDidx.read j with
  | some v => v
  | none => Config.unwrittenDidx s.resets j

/-- `PILOT[j].LIDX`. -/
def State.lidxAt (s : State) (j : Nat) : Word :=
  match s.pilotLidx.read j with
  | some v => v
  | none => Config.unwrittenLidx s.resets j

/-- `PILOT[j].PVAL`. -/
def State.pvalAt (s : State) (j : Nat) : InputVal :=
  match s.pilotPval.read j with
  | some v => v
  | none => (s.num.pick InputVal.number (Config.unwrittenPval s.resets j)).normalise

/-- A pilot: zero-based Doppler index, zero-based delay index, pilot value (10_state.md R26). -/
structure Pilot where
  d : Nat
  l : Nat
  value : InputVal
deriving DecidableEq, Repr

/-- Entry `j` of the PILOT table. -/
def State.pilotAt (s : State) (j : Nat) : Pilot := ⟨(s.didxAt j).toNat, (s.lidxAt j).toNat, s.pvalAt j⟩

/-- The pilot set: entries `0 .. NPILOT-1` in index order (43_estimator.md R74). -/
def State.pilots (s : State) : List Pilot := (List.range s.npilot.toNat).map s.pilotAt

end Sys2Proof.Machine
end

