-- ==== Sys2Proof/Machine/Channel.lean ====
section
/-! DEFINITION. The Multipath Doppler Channel (42_channel.md): CHAN. -/

namespace Sys2Proof.Machine

open Sys2Proof

/-- `delayed(tx, tau)` (42_channel.md R68): shifted right by `tau` samples, zeros in front, the same length. -/
def delayed (tx : List NumK) (tau : Nat) : List NumK :=
  NumK.zeros (min tau tx.length) ++ tx.take (tx.length - min tau tx.length)

/-- `rot(nu, fs)[k] = ph(nu * k / fs)` (42_channel.md R70). -/
def rot (nu fs : NumR) (k : Nat) : NumK := ph (NumR.div (NumR.mul nu (NumR.ofRat k)) fs)

/-- The contribution of one path (42_channel.md R68 to R70): delayed, scaled by the gain, then rotated on the
receiver's time axis. -/
def pathContribution (tx : List NumK) (fs : NumR) (p : Path) : List NumK :=
  (delayed tx p.delay).mapIdx fun k v => NumK.mul (NumK.scale p.gain v) (rot p.doppler fs k)

/-- `apply(tx, fs, P)` (42_channel.md R71): the sum of the contributions, from zeros, in index order. -/
def applyChannel (tx : List NumK) (fs : NumR) (paths : List Path) : List NumK :=
  paths.foldl (fun rx p => List.zipWith NumK.add rx (pathContribution tx fs p)) (NumK.zeros tx.length)

/-- The checks of CHAN, in order (42_channel.md R72). -/
def chanCheck (src : Sel) (s : State) : Option CmdError :=
  if s.fs.isPositive = false then some (configError .fs)
  else if s.caps.pcap < s.npath.toNat then some (configError .npath)
  else
    match firstIndex s.npath.toNat fun j => !(s.gainAt j).isNonneg with
    | some j => some (tableError .pathGain j)
    | none => if s.caps.tcap < (s.tlen src).toNat then some (shapeError .srcLen) else none

/-- The path adds something other than an exact zero to sample `k` (00_scope.md R14 (b), 42_channel.md R72: a delayed
signal begins with zeros, and a gain of 0 adds exact zeros). -/
def PathEntry.reaches (p : PathEntry) (k : Nat) : Bool := decide (p.delay ≤ k) && !p.gain.isZero

/-- Sample `k` of the output is exact in every `NUM` (00_scope.md R14 (b), (c)): no path reaches it, or the path set is a
single path without Doppler, which delays and multiplies by its gain alone. -/
def channelExact (paths : List PathEntry) (k : Nat) : Bool :=
  !paths.any (fun p => p.reaches k) ||
    match paths with
    | [p] => p.doppler.isZero
    | _ => false

/-- What sample `k` of the output depends on (00_scope.md R16): for each path whose delay is at most `k`, the sampling rate, the
descriptor of the path and the sample that it delays to `k`. -/
def channelInputs (tx : List NumK) (fs : RVal) (paths : List PathEntry) (k : Nat) : List NumK :=
  (paths.filter fun p => decide (p.delay ≤ k)).flatMap fun p =>
    [fs.complex, p.gain.complex, p.doppler.complex, tx.getD (k - p.delay) NumK.zero]

/-- The samples of CHAN, as `NUM` has them (00_scope.md R14, R16). -/
def chanSamples (num : Num) (tx : List NumK) (fs : RVal) (paths : List PathEntry) : List NumK :=
  num.results .received (paths.map PathEntry.delay) (fs :: paths.flatMap fun p => [p.gain, p.doppler]) tx
    (channelExact paths)
    ((applyChannel tx fs.toReal (paths.map PathEntry.path)).mapIdx fun k x => (channelInputs tx fs paths k, x))

/-- The effect of CHAN (42_channel.md R72). -/
def chanEffect (src dst : Sel) (s : State) : State :=
  s.storeSeq dst (chanSamples s.num (s.seq src) s.fs s.paths)

/-- CHAN: apply the multipath Doppler channel (42_channel.md R72). -/
def execChan (src dst : Sel) (s : State) : Host.Outcome State Fault Refusal :=
  runCommand (encode (.chan src dst)) (chanCheck src) (chanEffect src dst) s

end Sys2Proof.Machine
end

