-- ==== Sys2Proof/Machine/Geometry.lean ====
section
/-! DEFINITION. The geometry of the pilot coordinates (43_estimator.md R76 to R83), on exact integers: the predicates,
collinearity, triangulations and the one EST uses. -/

namespace Sys2Proof.Machine

open Sys2Proof

/-- A point of the integer plane: Doppler index, delay index (43_estimator.md R76). -/
structure Point where
  d : Int
  l : Int
deriving DecidableEq, Repr

/-- `orient(A, B, C)` (43_estimator.md R77): twice the signed area of the triangle. -/
def orient (a b c : Point) : Int := (b.d - a.d) * (c.l - a.l) - (b.l - a.l) * (c.d - a.d)

/-- `incircle(A, B, C, D)` (43_estimator.md R77), the determinant expanded along its third column. -/
def incircle (a b c e : Point) : Int :=
  let ad := a.d - e.d
  let al := a.l - e.l
  let bd := b.d - e.d
  let bl := b.l - e.l
  let cd := c.d - e.d
  let cl := c.l - e.l
  (ad ^ 2 + al ^ 2) * (bd * cl - bl * cd) - (bd ^ 2 + bl ^ 2) * (ad * cl - al * cd)
    + (cd ^ 2 + cl ^ 2) * (ad * bl - al * bd)

/-- A triangle: three indices of pilots in rising order, which stands for the unordered triple. -/
structure Tri where
  a : Nat
  b : Nat
  c : Nat
deriving DecidableEq, Repr

/-- The point of index `i`. -/
def pointAt (pts : List Point) (i : Nat) : Point := pts.getD i ⟨0, 0⟩

/-- The three vertices of a triangle, as indices. -/
def Tri.indices (t : Tri) : List Nat := [t.a, t.b, t.c]

/-- `orient` of the vertices of a triangle in index order. -/
def Tri.det (pts : List Point) (t : Tri) : Int :=
  orient (pointAt pts t.a) (pointAt pts t.b) (pointAt pts t.c)

/-- The three numerators of the barycentric coordinates of `q` (43_estimator.md R82), over `Tri.det`. -/
def Tri.weights (pts : List Point) (t : Tri) (q : Point) : Int × Int × Int :=
  (orient q (pointAt pts t.b) (pointAt pts t.c),
   orient (pointAt pts t.a) q (pointAt pts t.c),
   orient (pointAt pts t.a) (pointAt pts t.b) q)

/-- `q` lies in the closed triangle: its three barycentric coordinates are `>= 0`, tested on the integers
(43_estimator.md R79, R82). -/
def Tri.contains (pts : List Point) (t : Tri) (q : Point) : Bool :=
  let w := t.weights pts q
  decide (0 ≤ w.1 * t.det pts) && decide (0 ≤ w.2.1 * t.det pts) && decide (0 ≤ w.2.2 * t.det pts)

/-- All points are on one line (43_estimator.md R78), for distinct points: with the first two in line with every
other. -/
def allCollinear (pts : List Point) : Bool :=
  (List.range pts.length).all fun c => decide (orient (pointAt pts 0) (pointAt pts 1) (pointAt pts c) = 0)

/-! ## Triangulations -/

/-- (T1) The triangle is not degenerate. -/
def Tri.nondegenerate (pts : List Point) (t : Tri) : Bool := decide (t.det pts ≠ 0)

/-- (T2) No point but its three vertices lies in the closed triangle. -/
def Tri.emptyOfPoints (pts : List Point) (t : Tri) : Bool :=
  (List.range pts.length).all fun e => t.indices.contains e || !t.contains pts (pointAt pts e)

/-- (T5) No point is strictly inside the circle through the vertices. -/
def Tri.delaunay (pts : List Point) (t : Tri) : Bool :=
  (List.range pts.length).all fun e => t.indices.contains e ||
    decide (incircle (pointAt pts t.a) (pointAt pts t.b) (pointAt pts t.c) (pointAt pts e) * t.det pts ≤ 0)

/-- The line through `i` and `j` has every vertex of `u` on it or on the side that `k` is not on. -/
def separates (pts : List Point) (i j k : Nat) (u : Tri) : Bool :=
  u.indices.all fun v =>
    decide (orient (pointAt pts i) (pointAt pts j) (pointAt pts v) *
      orient (pointAt pts i) (pointAt pts j) (pointAt pts k) ≤ 0)

/-- A side of `t` has `u` on its other side. -/
def Tri.hasSideAgainst (pts : List Point) (t u : Tri) : Bool :=
  separates pts t.a t.b t.c u || separates pts t.b t.c t.a u || separates pts t.a t.c t.b u

/-- (T3) The interiors of two non-degenerate triangles are disjoint: a side of one of them has the other on its other
side (log entry 21). -/
def Tri.disjoint (pts : List Point) (t u : Tri) : Bool :=
  t.hasSideAgainst pts u || u.hasSideAgainst pts t

/-- The side `i j`, with the third vertex `k`, is a side of the convex hull, or another triangle of `ts` has it, with
its third vertex on the other side. -/
def sideCovered (pts : List Point) (ts : List Tri) (i j k : Nat) : Bool :=
  ((List.range pts.length).all fun e =>
      decide (0 ≤ orient (pointAt pts i) (pointAt pts j) (pointAt pts e) *
        orient (pointAt pts i) (pointAt pts j) (pointAt pts k))) ||
    ts.any fun u => u.indices.contains i && u.indices.contains j &&
      u.indices.any fun v =>
        decide (orient (pointAt pts i) (pointAt pts j) (pointAt pts v) *
          orient (pointAt pts i) (pointAt pts j) (pointAt pts k) < 0)

/-- The triangulation has no boundary inside the hull: there is a triangle, and each side of each is a side of the hull or
has a triangle on its other side. -/
def hasNoInnerBoundary (pts : List Point) (ts : List Tri) : Bool :=
  !ts.isEmpty && ts.all fun t =>
    sideCovered pts ts t.a t.b t.c && sideCovered pts ts t.b t.c t.a && sideCovered pts ts t.a t.c t.b

/-- All triples of indices of points. -/
def allTriples (pts : List Point) : List Tri :=
  (List.range pts.length).flatMap fun a => (List.range pts.length).flatMap fun b =>
    (List.range pts.length).map fun c => Tri.mk a b c

/-- The integer numbers from the least to the greatest of a list. -/
def integerSpan (xs : List Int) : List Int :=
  match xs.min?, xs.max? with
  | some lo, some hi => (List.range (hi - lo + 1).toNat).map fun k => lo + k
  | _, _ => []

/-- The integer points of the convex hull: those of the least box around the points that lie in the closed triangle of
three points not on one line. -/
def hullPoints (pts : List Point) : List Point :=
  ((integerSpan (pts.map Point.d)).flatMap fun d => (integerSpan (pts.map Point.l)).map fun l => Point.mk d l).filter
    fun q => (allTriples pts).any fun t => decide (t.det pts ≠ 0) && t.contains pts q

/-- (T4) The triangles cover the convex hull: each integer point of it lies in one of them, which is all that EST asks
of a triangulation, and the union has no boundary inside the hull (log entry 21). -/
def coversHull (pts : List Point) (ts : List Tri) : Bool :=
  ((hullPoints pts).all fun q => ts.any fun t => t.contains pts q) && hasNoInnerBoundary pts ts

/-- The indices of a triangle rise and name points. -/
def Tri.proper (pts : List Point) (t : Tri) : Bool :=
  decide (t.a < t.b) && decide (t.b < t.c) && decide (t.c < pts.length)

/-- The interiors of any two triangles of the list are disjoint (T3). -/
def pairwiseDisjoint (pts : List Point) : List Tri → Bool
  | [] => true
  | t :: ts => ts.all (fun u => t.disjoint pts u) && pairwiseDisjoint pts ts

/-- The list is a triangulation of the points (43_estimator.md R79, T1 to T4) that satisfies the Delaunay condition
(43_estimator.md R80, T5). -/
def admissible (pts : List Point) (ts : List Tri) : Bool :=
  ts.all (fun t => t.proper pts && t.nondegenerate pts && t.emptyOfPoints pts && t.delaunay pts) &&
    pairwiseDisjoint pts ts && coversHull pts ts

/-! ## The triangulation EST uses -/

/-- All triangles on the points that are not degenerate and satisfy (T5), in rising order of their indices. -/
def delaunayTriangles (pts : List Point) : List Tri :=
  (allTriples pts).filter fun t => t.proper pts && t.nondegenerate pts && t.delaunay pts

/-- Among the points on the circle through its vertices the triangle has the one of the lowest index, and no further point
lies beyond its opposite side. The points on one empty circle are so cut into triangles that all meet at one vertex. -/
def Tri.inFan (pts : List Point) (t : Tri) : Bool :=
  (List.range pts.length).all fun e =>
    decide (incircle (pointAt pts t.a) (pointAt pts t.b) (pointAt pts t.c) (pointAt pts e) ≠ 0) ||
      (decide (t.a ≤ e) && decide (0 ≤ orient (pointAt pts t.b) (pointAt pts t.c) (pointAt pts e) *
        orient (pointAt pts t.b) (pointAt pts t.c) (pointAt pts t.a)))

/-- One Delaunay triangulation: where more than three points lie on an empty circle, the triangles that meet at the one
of the lowest index (log entry 5). -/
def firstTriangulation (pts : List Point) : List Tri := (delaunayTriangles pts).filter fun t => t.inFan pts

/-- The Delaunay triangulation is not unique: a further point lies on the circle, empty inside, through three of them
(43_estimator.md R81). -/
def hasTie (pts : List Point) : Bool :=
  (delaunayTriangles pts).any fun t => (List.range pts.length).any fun e =>
    !t.indices.contains e &&
      decide (incircle (pointAt pts t.a) (pointAt pts t.b) (pointAt pts t.c) (pointAt pts e) = 0)

/-- The choice of the implementation for these points. -/
def chosenTriangles (pts : List Point) : List Tri :=
  (Config.triangulationChoice (pts.map fun p => (p.d.toNat, p.l.toNat))).map fun t => ⟨t.1, t.2.1, t.2.2⟩

/-- `TRI` (43_estimator.md R81): the one Delaunay triangulation, and where there are several the implementation's
choice among them. A choice that R79 and R80 do not admit is no parameter of the spec: another one stands in for it
(log entry 5). -/
def triangulation (pts : List Point) : List Tri :=
  if hasTie pts && admissible pts (chosenTriangles pts) then chosenTriangles pts else firstTriangulation pts

end Sys2Proof.Machine
end

