-- ==== Sys2Proof/Machine/Guard.lean ====
section
/-! DEFINITION. The Guard-Interval Codec (40_guard_codec.md): `gi_insert`, `gi_remove`, GI.INS and GI.REM. -/

namespace Sys2Proof.Machine

open Sys2Proof

/-- `gi_insert(S, g, mode)` (40_guard_codec.md R54). Under CyclicPrefix it is called with `g <= len(S)` only. -/
def giInsert (samples : List NumK) (g : Nat) : GuardMode → List NumK
  | .none => samples
  | .zeroPad => samples ++ zeros g
  | .cyclicPrefix => samples.drop (samples.length - g) ++ samples

/-- `gi_remove(E, g, mode)` (40_guard_codec.md R55). Under ZeroPad and CyclicPrefix it is called with `g <= len(E)`
only. -/
def giRemove (samples : List NumK) (g : Nat) : GuardMode → List NumK
  | .none => samples
  | .zeroPad => samples.take (samples.length - g)
  | .cyclicPrefix => samples.drop g

/-- The checks of GI.INS, in order (40_guard_codec.md R56). -/
def giInsCheck (src : Sel) (s : State) : Option CmdError :=
  if s.caps.tcap < (s.tlen src).toNat then some (shapeError .srcLen)
  else if s.mode = .cyclicPrefix ∧ (s.tlen src).toNat < s.glen.toNat then some (configError .glen)
  else if s.caps.tcap < guardedLength (s.tlen src).toNat s.glen.toNat s.mode then some (shapeError .dstLen)
  else none

/-- The effect of GI.INS (40_guard_codec.md R56). -/
def giInsEffect (src dst : Sel) (s : State) : State :=
  s.storeSeq dst (giInsert (s.seq src) s.glen.toNat s.mode)

/-- GI.INS: insert a guard interval (40_guard_codec.md R56). -/
def execGiIns (src dst : Sel) (s : State) : Host.Outcome State Fault Refusal :=
  runCommand (encode (.giIns src dst)) (giInsCheck src) (giInsEffect src dst) s

/-- The checks of GI.REM, in order (40_guard_codec.md R57). -/
def giRemCheck (src : Sel) (s : State) : Option CmdError :=
  if s.caps.tcap < (s.tlen src).toNat then some (shapeError .srcLen)
  else if s.mode ≠ .none ∧ (s.tlen src).toNat < s.glen.toNat then some (shapeError .glen)
  else none

/-- The effect of GI.REM (40_guard_codec.md R57). -/
def giRemEffect (src dst : Sel) (s : State) : State :=
  s.storeSeq dst (giRemove (s.seq src) s.glen.toNat s.mode)

/-- GI.REM: remove a guard interval (40_guard_codec.md R57). -/
def execGiRem (src dst : Sel) (s : State) : Host.Outcome State Fault Refusal :=
  runCommand (encode (.giRem src dst)) (giRemCheck src) (giRemEffect src dst) s

end Sys2Proof.Machine
end

