-- ==== Sys2Proof/Machine/Transform.lean ====
section
/-! DEFINITION. The OTFS Transform Pair (41_transform_pair.md): `idft2`, `dft2`, `flatten`, `reshape`, `reconcile`, MOD
and DEMOD. -/

namespace Sys2Proof.Machine

open Sys2Proof

/-! ## The transforms -/

/-- The inverse transform along one axis (41_transform_pair.md R58, R63):
`(1/K) * sum over d of x[d] * ph(+ k*d / K)` for `k` in `0 .. K-1`, `K = len(x)`. -/
def idft (x : List NumK) : List NumK :=
  (List.range x.length).map fun k =>
    NumK.scale (NumR.ofRat (1 / (x.length : ℚ)))
      (NumK.sum (x.mapIdx fun d v => NumK.mul v (ph (NumR.ofRat ((k * d : Nat) / (x.length : ℚ))))))

/-- The forward transform along one axis (41_transform_pair.md R59, R63):
`sum over k of x[k] * ph(- k*d / K)` for `d` in `0 .. K-1`, `K = len(x)`. -/
def dft (x : List NumK) : List NumK :=
  (List.range x.length).map fun d =>
    NumK.sum (x.mapIdx fun k v => NumK.mul v (ph (NumR.ofRat (-((k * d : Nat) / (x.length : ℚ))))))

/-- The matrix whose columns are the first `rows` rows of `x`. -/
def transpose (rows : Nat) (x : Grid) : Grid :=
  (List.range rows).map fun d => x.map fun col => col.getD d NumK.zero

/-- `idft2(G, M, N)` (41_transform_pair.md R58): along the Doppler axis (each column), then along the delay axis (each
row). -/
def idft2 (g : Grid) (m n : Nat) : Grid :=
  transpose n ((transpose m (g.map idft)).map idft)

/-- `dft2(X, M, N)` (41_transform_pair.md R59): along the delay axis (each row), then along the Doppler axis (each
column). -/
def dft2 (x : Grid) (m n : Nat) : Grid :=
  (transpose n ((transpose m x).map dft)).map dft

/-- `reshape(r, M, N)` (41_transform_pair.md R60): cell `[m, n]` is `r[m + M*n]`. -/
def reshape (r : List NumK) (m n : Nat) : Grid :=
  (List.range n).map fun l => (List.range m).map fun d => r.getD (d + m * l) NumK.zero

/-- `reconcile(r, K)` (41_transform_pair.md R61): zero-padded on the right, or cut, to exactly `K` samples. -/
def reconcile (r : List NumK) (k : Nat) : List NumK := r.take k ++ zeros (k - r.length)

/-- The results of a transform with what they depend on: every one on every input. -/
def transformResults (transform : List NumK → List NumK) (xs : List NumK) : List (List NumK × NumK) :=
  (transform xs).map fun x => (xs, x)

/-! ## The checks of the grid dimensions -/

/-- The checks on M, N and `M*N` that MOD, DEMOD and EST make first, in order (41_transform_pair.md R62, R66;
43_estimator.md R86). The product is exact (00_scope.md R8). -/
def gridCheck (s : State) : Option CmdError :=
  if s.m = 0 then some (configError .m)
  else if s.n = 0 then some (configError .n)
  else if s.caps.gcap < s.m.toNat * s.n.toNat then some (configError .gridCap)
  else none

/-! ## MOD -/

/-- The checks of MOD, in order (41_transform_pair.md R62). -/
def modCheck (s : State) : Option CmdError :=
  match gridCheck s with
  | some e => some e
  | none =>
    if s.mode = .cyclicPrefix ∧ s.m.toNat * s.n.toNat < s.glen.toNat then some (configError .glen)
    else if s.caps.tcap < guardedLength (s.m.toNat * s.n.toNat) s.glen.toNat s.mode then
      some (shapeError .dstLen)
    else none

/-- `flatten(idft2(G, M, N), M, N)`: the time-domain samples of a grid, given by its cells in their order, before the guard
(41_transform_pair.md R62). -/
def modulate (cells : List NumK) (m n : Nat) : List NumK := flattenGrid (idft2 (reshape cells m n) m n)

/-- The samples of MOD before the guard, as `NUM` has them (00_scope.md R14, R16). -/
def modSamples (num : Num) (m n : Nat) (cells : List NumK) : List NumK :=
  num.results .modulated [m, n] [] cells (fun _ => false) (transformResults (fun xs => modulate xs m n) cells)

/-- The effect of MOD (41_transform_pair.md R62). The guard is moved samples and exact zeros in every `NUM`. -/
def modEffect (src dst : Sel) (s : State) : State :=
  let m := s.m.toNat
  let n := s.n.toNat
  s.storeSeq dst (giInsert (modSamples s.num m n (s.grid src m n)) s.glen.toNat s.mode)

/-- MOD: modulate a grid into a time-domain sequence (41_transform_pair.md R62). -/
def execMod (src dst : Sel) (s : State) : Host.Outcome State Fault Refusal :=
  runCommand (encode (.mod src dst)) modCheck (modEffect src dst) s

/-! ## DEMOD -/

/-- The checks of DEMOD, in order (41_transform_pair.md R66). -/
def demodCheck (src : Sel) (s : State) : Option CmdError :=
  match gridCheck s with
  | some e => some e
  | none =>
    if s.mode = .cyclicPrefix ∧ s.m.toNat * s.n.toNat < s.glen.toNat then some (configError .glen)
    else if s.caps.tcap < (s.tlen src).toNat then some (shapeError .srcLen)
    else if s.mode ≠ .none ∧ (s.tlen src).toNat < s.glen.toNat then some (shapeError .glen)
    else none

/-- The cells of `dft2` of a reshaped core sequence of `M*N` samples, in their order (41_transform_pair.md R66). -/
def demodulate (core : List NumK) (m n : Nat) : List NumK := flattenGrid (dft2 (reshape core m n) m n)

/-- The cells of DEMOD, as `NUM` has them (00_scope.md R14, R16). -/
def demodCells (num : Num) (m n : Nat) (core : List NumK) : List NumK :=
  num.results .demodulated [m, n] [] core (fun _ => false) (transformResults (fun xs => demodulate xs m n) core)

/-- The effect of DEMOD (41_transform_pair.md R66). -/
def demodEffect (src dst : Sel) (s : State) : State :=
  let m := s.m.toNat
  let n := s.n.toNat
  s.storeElements (gBuf dst)
    (demodCells s.num m n (reconcile (giRemove (s.seq src) s.glen.toNat s.mode) (m * n)))

/-- DEMOD: demodulate a time-domain sequence into a grid (41_transform_pair.md R66). -/
def execDemod (src dst : Sel) (s : State) : Host.Outcome State Fault Refusal :=
  runCommand (encode (.demod src dst)) (demodCheck src) (demodEffect src dst) s

end Sys2Proof.Machine
end

