-- ==== Sys2Proof/Machine/Estimator.lean ====
section
/-! DEFINITION. The Pilot-Aided Channel Estimator (43_estimator.md): the per-pilot ratios, the interpolation over the
grid, both with non-finite values and rounding, and EST. -/

namespace Sys2Proof.Machine

open Sys2Proof

/-- The point of a pilot (43_estimator.md R76). -/
def Pilot.point (p : Pilot) : Point := ⟨p.d, p.l⟩

/-- The points of the pilots, in pilot order. -/
def pilotPoints (ps : List Pilot) : List Point := ps.map Pilot.point

/-- Cell `[d, l]` of a matrix. -/
def gridCell (y : Grid) (d l : Nat) : NumK := (y.getD l []).getD d NumK.zero

/-- The cell of the grid in `G[src]` that a pilot received: `Y[d, l]`, at index `d + M*l` (20_memory.md R36). EST reads no
other cell (43_estimator.md R86). -/
def State.pilotCell (s : State) (src : Sel) (p : Pilot) : NumK :=
  s.element (gBuf src) (p.d + s.m.toNat * p.l)

/-- `tri_value(t, Q)` (43_estimator.md R82): the barycentric combination of the estimates at the vertices. -/
def triValue (pts : List Point) (h : List NumK) (t : Tri) (q : Point) : NumK :=
  let w := t.weights pts q
  NumK.add (NumK.add (NumK.scale (NumR.ofRat ((w.1 : ℚ) / (t.det pts : ℚ))) (h.getD t.a NumK.zero))
      (NumK.scale (NumR.ofRat ((w.2.1 : ℚ) / (t.det pts : ℚ))) (h.getD t.b NumK.zero)))
    (NumK.scale (NumR.ofRat ((w.2.2 : ℚ) / (t.det pts : ℚ))) (h.getD t.c NumK.zero))

/-- `interp(h, TRI)[d, l]` (43_estimator.md R83): the value of a triangle that has the point, 0 if none has. -/
def interp (pts : List Point) (h : List NumK) (tri : List Tri) (q : Point) : NumK :=
  match tri.find? fun t => t.contains pts q with
  | some t => triValue pts h t q
  | none => NumK.zero

/-! ## The estimate as `NUM` has it -/

/-- The pilots with the cells they received: all that an estimate depends on (43_estimator.md R86, R87 (f)). -/
abbrev Received := List (Pilot × NumK)

/-- The coordinates of the pilots. -/
def receivedWords (rs : Received) : List Nat := rs.flatMap fun r => [r.1.d, r.1.l]

/-- The received cells and the pilot values. -/
def receivedNumbers (rs : Received) : List NumK := rs.flatMap fun r => [r.2, r.1.value.val]

/-- The name of what `NUM` makes of a value of the estimate. -/
def estimateName (num : Num) (stage : Stage) (rs : Received) (place : List Nat) : Nat :=
  Config.resultName num.number stage (receivedWords rs ++ place) [] (receivedNumbers rs) 0

/-- `h_j = Y[d_j, l_j] / p_j` (43_estimator.md R75), before rounding. The division of finite numbers may overflow where `NUM`
has non-finite encodings, a non-finite cell over a number is non-finite (R84), and what a non-finite pilot value makes of the
ratio is unspecified (00_scope.md R16, U7; log entry 24). -/
def pilotRatio (num : Num) (rs : Received) (j : Nat) (r : Pilot × NumK) : NumK :=
  let name := estimateName num .pilotRatio rs [j]
  let p := r.1.value.val
  NumK.choose p (NumK.choose r.2 (num.divide name r.2 p) (.nonFinite name)) (.unspecified name)

/-- The per-pilot ratios before rounding, in pilot order. -/
def pilotRatios (num : Num) (rs : Received) : List NumK := rs.mapIdx (pilotRatio num rs)

/-- What a value of the estimate is rounded relative to: the largest finite per-pilot ratio, which is the largest value of the
whole estimate (00_scope.md R14; log entry 13). -/
def estimateSize (hs : List NumK) : NumK := NumK.largest (hs.map NumK.fix)

/-- The per-pilot estimate (43_estimator.md R75), which is not passed through `fix` (R84). A ratio of 0 stays 0 (R86, U24). -/
def perPilotEstimate (num : Num) (rs : Received) : List NumK :=
  let hs := pilotRatios num rs
  hs.mapIdx fun j h => NumK.choose h (num.roundNonzero (estimateName num .pilotRatio rs [j]) (estimateSize hs) h) h

/-- The indices of the vertices of a triangle with their weights at a point. -/
def Tri.weightedVertices (pts : List Point) (t : Tri) (q : Point) : List (Nat × Int) :=
  let w := t.weights pts q
  [(t.a, w.1), (t.b, w.2.1), (t.c, w.2.2)]

/-- The estimates that the interpolation at `q` uses: those at the vertices whose barycentric coordinate is not 0. On an edge
these are the edge's two ends, and at a vertex it is that vertex (43_estimator.md R82). -/
def Tri.usedEstimates (pts : List Point) (hs : List NumK) (t : Tri) (q : Point) : List NumK :=
  ((t.weightedVertices pts q).filter fun v => decide (v.2 ≠ 0)).map fun v => hs.getD v.1 NumK.zero

/-- `interp(h, TRI)[d, l]` (43_estimator.md R83) as `NUM` has it: the rounded value of a triangle that has the point,
non-finite where an estimate that it uses is (R84), and an exact 0 if no triangle has the point (00_scope.md R14 (b)). -/
def interpVal (num : Num) (rs : Received) (pts : List Point) (tri : List Tri) (q : Point) : NumK :=
  let hs := pilotRatios num rs
  let name := estimateName num .gridEstimate rs [q.d.toNat, q.l.toNat]
  match tri.find? fun t => t.contains pts q with
  | some t =>
    NumK.whenFinite (t.usedEstimates pts hs q) (num.round name (estimateSize hs) (interp pts hs tri q)) (.nonFinite name)
  | none => NumK.zero

/-- `H[d, l] = fix(interp(h, TRI)[d, l])` (43_estimator.md R83, R84): at a pilot, where the interpolation is the estimate of
that pilot (R82, R87 (b)), that estimate is taken with its rounding. -/
def fullGridCell (num : Num) (rs : Received) (pts : List Point) (tri : List Tri) (q : Point) : NumK :=
  NumK.fix <|
    match firstIndex pts.length fun j => decide (pointAt pts j = q) with
    | some j => (perPilotEstimate num rs).getD j NumK.zero
    | none => interpVal num rs pts tri q

/-- The full-grid estimate (43_estimator.md R83, R84), cell `[d, l]` at index `d + M*l`. -/
def fullGridEstimate (num : Num) (rs : Received) (m n : Nat) : List NumK :=
  let pts := pilotPoints (rs.map fun r => r.1)
  let tri := triangulation pts
  (List.range (m * n)).map fun k => fullGridCell num rs pts tri ⟨(k % m : Nat), (k / m : Nat)⟩

/-! ## EST -/

/-- Checks 4 to 8 of EST, in order (43_estimator.md R86), with `Q = NPILOT`. -/
def pilotCheck (s : State) : Option CmdError :=
  let q := s.npilot.toNat
  if s.caps.qcap < q then some (configError .npilot)
  else
    match firstIndex q fun j =>
        decide (s.m.toNat ≤ (s.pilotAt j).d) || decide (s.n.toNat ≤ (s.pilotAt j).l) with
    | some j => some (tableError .pilotIndex j)
    | none =>
      match firstIndex q fun j => (s.pilotAt j).value.isZero with
      | some j => some (tableError .pilotValue j)
      | none =>
        match firstIndex q fun j =>
            (List.range j).any fun i => decide ((s.pilotAt i).point = (s.pilotAt j).point) with
        | some j => some (tableError .pilotDup j)
        | none =>
          if q < 3 ∨ allCollinear (pilotPoints s.pilots) = true then some (configError .pilotGeom) else none

/-- The checks of EST, in order (43_estimator.md R86). -/
def estCheck (s : State) : Option CmdError :=
  match gridCheck s with
  | some e => some e
  | none => pilotCheck s

/-- The pilots with the cells of `G[src]` they received. -/
def State.received (s : State) (src : Sel) : Received := s.pilots.map fun p => (p, s.pilotCell src p)

/-- The effect of EST (43_estimator.md R86): HP, HPLEN and HG. -/
def estEffect (src : Sel) (s : State) : State :=
  let rs := s.received src
  ((s.storeElements .hp (perPilotEstimate s.num rs)).setHplen s.npilot).storeElements .hg
    (fullGridEstimate s.num rs s.m.toNat s.n.toNat)

/-- EST: estimate the channel from pilots (43_estimator.md R86). -/
def execEst (src : Sel) (s : State) : Host.Outcome State Fault Refusal :=
  runCommand (encode (.est src)) estCheck (estEffect src) s

end Sys2Proof.Machine
end

