-- ==== Sys2Proof/Machine/System.lean ====
section
/-! DEFINITION. The system operations (44_system.md): NOP. The error clear and status polling are host accesses
(`Machine/HostAccess.lean`). -/

namespace Sys2Proof.Machine

open Sys2Proof

/-- NOP (44_system.md R88): `STATUS.DONE <- 1` and nothing else. -/
def execNop (s : State) : Host.Outcome State Fault Refusal :=
  runCommand (encode .nop) (fun _ => none) (fun t => t) s

end Sys2Proof.Machine
end

