-- ==== Sys2Proof/Machine/Dispatch.lean ====
section
/-! DEFINITION. The meaning of every command, by its constructor. -/

namespace Sys2Proof.Machine
open Sys2Proof

def exec (i : Instr) (s : State) : Host.Outcome State Fault Refusal :=
  match i with
  | .nop => Sys2Proof.Machine.execNop s
  | .giIns src dst => Sys2Proof.Machine.execGiIns src dst s
  | .giRem src dst => Sys2Proof.Machine.execGiRem src dst s
  | .mod src dst => Sys2Proof.Machine.execMod src dst s
  | .demod src dst => Sys2Proof.Machine.execDemod src dst s
  | .chan src dst => Sys2Proof.Machine.execChan src dst s
  | .est src => Sys2Proof.Machine.execEst src s

end Sys2Proof.Machine
end

