-- ==== Sys2Proof/Machine/HostAccess.lean ====
section
/-! DEFINITION. The host's accesses (20_memory.md R38): register, table and buffer reads and writes, the write to CMD
that starts a command (30_encoding.md R53), the error clear (44_system.md R89) and reset (70_reset_and_hazards.md
R105). -/

namespace Sys2Proof.Machine

open Sys2Proof

/-! ## The write to CMD -/

/-- The error of a word that is no command (30_encoding.md R53 steps 3 to 6). -/
def illegalCommand : IllegalWord → CmdError
  | .zeroBits => ⟨.illegalCommand, .cmdZero, 0⟩
  | .opcode => ⟨.illegalCommand, .cmdOpc, 0⟩
  | .selector => ⟨.illegalCommand, .cmdSel, 0⟩

/-- `HostWriteReg(0, w)` (30_encoding.md R53): the command of a legal word runs; any other word is dropped while an
error is latched and else raises IllegalCommand. -/
def writeCmd (w : Word) (s : State) : Host.Outcome State Fault Refusal :=
  match decode w with
  | .ok i => exec i s
  | .error e => runCommand w (fun _ => some (illegalCommand e)) (fun t => t) s

/-! ## Registers -/

/-- `HostWriteReg(no, v)` for a register other than CMD (10_state.md R22, R23, R24): a configuration register stores
the value, ERRCODE clears the latch, a read-only register ignores it. -/
def State.writeReg (s : State) (no : Nat) (v : Word) : State :=
  match no with
  | 2 => s.clearError
  | 5 => { s with m := v }
  | 6 => { s with n := v }
  | 7 => { s with glen := v }
  | 8 => { s with gmode := v }
  | 9 => { s with npath := v }
  | 10 => { s with npilot := v }
  | 11 => { s with tlen0 := v }
  | 12 => { s with tlen1 := v }
  | _ => s

/-- `HostReadReg(no)` (10_state.md R22): CMD is write-only and reads 0. -/
def State.readReg (s : State) (no : Nat) : RegVal :=
  match no with
  | 1 => .u32 s.status
  | 2 => .u32 s.errcode
  | 3 => .u32 s.errinfo
  | 4 => .u32 s.errcmd
  | 5 => .u32 s.m
  | 6 => .u32 s.n
  | 7 => .u32 s.glen
  | 8 => .u32 s.gmode
  | 9 => .u32 s.npath
  | 10 => .u32 s.npilot
  | 11 => .u32 s.tlen0
  | 12 => .u32 s.tlen1
  | 13 => .u32 s.hplen
  | 14 => .real s.fs
  | _ => .u32 0

/-! ## Tables and buffers -/

/-- `HostWritePath(j, field, v)` (10_state.md R24, R25). -/
def State.writePath (s : State) (j : Nat) : PathValue → State
  | .delay v => { s with pathDelay := s.pathDelay.write j v }
  | .gain v => { s with pathGain := s.pathGain.write j v }
  | .doppler v => { s with pathDoppler := s.pathDoppler.write j v }

/-- `HostReadPath(j, field)`. -/
def State.readPath (s : State) (j : Nat) : PathField → PathValue
  | .delay => .delay (s.delayAt j)
  | .gain => .gain (s.gainAt j)
  | .doppler => .doppler (s.dopplerAt j)

/-- `HostWritePilot(j, field, v)` (10_state.md R24, R26). A number is stored in its canonical form (log entry 2). -/
def State.writePilot (s : State) (j : Nat) : PilotValue → State
  | .didx v => { s with pilotDidx := s.pilotDidx.write j v }
  | .lidx v => { s with pilotLidx := s.pilotLidx.write j v }
  | .pval v => { s with pilotPval := s.pilotPval.write j v.normalise }

/-- `HostReadPilot(j, field)`. -/
def State.readPilot (s : State) (j : Nat) : PilotField → PilotValue
  | .didx => .didx (s.didxAt j)
  | .lidx => .lidx (s.lidxAt j)
  | .pval => .pval (s.pvalAt j)

/-- `HostWriteBuf(b, i, v)` (20_memory.md R38). A number is stored in its canonical form (log entry 2). -/
def State.writeBuf (s : State) (b : Buf) (i : Nat) (v : InputVal) : State :=
  s.setBuf b ((s.buf b).write i v.normalise.val)

/-- `HostReadBuf(b, i)`. -/
def State.readBuf (s : State) (b : Buf) (i : Nat) : NumK := s.element b i

/-! ## Reset -/

/-- `Reset` (70_reset_and_hazards.md R104, R105): every register 0, every table and buffer element unspecified,
whatever it held. The sizes, `NUM` and what the host has still to do are no state of the core. -/
def State.doReset (s : State) : State :=
  { State.reset with caps := s.caps, num := s.num, resets := s.resets + 1, host := s.host }

/-! ## One host action -/

/-- The access a host action makes, where it is admitted. A read changes no state (20_memory.md R38); what it answers
is `State.readReg`, `State.readPath`, `State.readPilot` or `State.readBuf` of the state. -/
def performAccess (a : HostAction) (s : State) : Host.Outcome State Fault Refusal :=
  match a with
  | .writeReg no (.u32 w) => if no = 0 then writeCmd w s else .next (s.writeReg no w)
  | .writeReg _ (.real r) => .next { s with fs := r }
  | .readReg _ => .next s
  | .writePath j v => .next (s.writePath j v)
  | .readPath _ _ => .next s
  | .writePilot j v => .next (s.writePilot j v)
  | .readPilot _ _ => .next s
  | .writeBuf b i v => .next (s.writeBuf b i v)
  | .readBuf _ _ => .next s
  | .reset => .next s.doReset

/-- One host action. While a command is in progress only STATUS may be read (70_reset_and_hazards.md R107); an access
outside its address space is not admitted (20_memory.md R38), nor a write of a value of another type. -/
def hostStep (a : HostAction) (s : State) : Host.Outcome State Fault Refusal :=
  if s.busy = true ∧ a ≠ .readReg 1 then .refused (.busy a)
  else if a.inRange s.caps = false then .fault (.outsideSpace a)
  else if a.typed s.num = false then .refused (.wrongType a)
  else performAccess a s

end Sys2Proof.Machine
end

