-- ==== Sys2Proof/Machine/Step.lean ====
section
/-! DEFINITION. One step of the machine: the host's next action. -/

namespace Sys2Proof.Machine

open Sys2Proof

/-- One step: the host takes its next action (10_state.md R17, R20). With none left the core is idle and all state is
retained (60_exceptions.md R103): log entry 7. -/
def step (s : State) : Host.Outcome State Fault Refusal :=
  match s.host with
  | [] => .next s
  | a :: rest => hostStep a { s with host := rest }

/-- The state whose next step writes the word with the bits `w` to CMD: a command word is not fetched, it is what the
host writes to CMD (10_state.md R20; log entry 6). -/
def State.withFetchWord (s : State) (nbits w : Nat) : State :=
  { s with host := .command (BitVec.ofNat 32 (w % 2 ^ nbits)) :: s.host }

end Sys2Proof.Machine
end

