-- ==== Sys2Proof/Safety.lean ====
section
/-! DEFINITION. The terms claims are stated in: the real and complex numbers the model's numbers stand for, the invariant of
the state, and what counts as a run that has gone right. -/

namespace Sys2Proof

/-! ## The reference meaning of numbers (00_scope.md R10, R12, R14) -/

/-- The phase primitive of the reference, `exp(i*2*pi*x)` (00_scope.md R12). -/
noncomputable def phase (x : ℝ) : ℂ := Complex.exp (2 * Real.pi * Complex.I * (x : ℂ))

/-- The real number a `NumR` stands for, where the names of reals stand for the numbers `real`. -/
noncomputable def NumR.valueWith (real : ℕ → ℝ) (x : NumR) : ℝ :=
  (x.coeff : ℝ) * (x.powers.map fun p => real p.1 ^ p.2).prod

/-- The complex number a term stands for. -/
noncomputable def Term.value (t : Term) : ℂ := (t.coeff : ℂ) * phase t.turn

/-- The complex number a list of terms sums to. -/
noncomputable def termsValue (ts : List Term) : ℂ := (ts.map Term.value).sum

/-- The complex number a sum of rational multiples of roots of unity stands for. -/
noncomputable def Cyc.value (x : Cyc) : ℂ := termsValue x.terms

/-- `re + i*im` of the two reals. -/
noncomputable def partsValueWith (real : ℕ → ℝ) (re im : NumR) : ℂ :=
  (re.valueWith real : ℂ) + Complex.I * (im.valueWith real : ℂ)

/-! ### Values of `NUM` (00_scope.md R10, R13) -/

/-- A value of the type `R`. -/
inductive RValue where
  | real (x : ℝ)
  | special (s : Special)

/-- A pair of parts of which one is non-finite. -/
inductive SpecialValue where
  | re (s : Special) (im : RValue)
  | im (re : ℝ) (s : Special)

/-- A value of the type `K`. -/
inductive KValue where
  | number (z : ℂ)
  | special (z : SpecialValue)

/-- The complex number; a non-finite value has none, and what stands for it here is not asked about. -/
noncomputable def KValue.toComplex : KValue → ℂ
  | .number z => z
  | .special _ => 0

/-- `is_finite(z)` (00_scope.md R13). -/
def KValue.finite : KValue → Prop
  | .number _ => True
  | .special _ => False

/-- What a `NUM` makes of one result where the spec leaves it open. -/
structure Choice where
  /-- The error of a rounded number, in units of its tolerance (00_scope.md R14). -/
  error : ℂ
  /-- The value of a result that depends on a non-finite input (U7). -/
  unspecified : KValue
  /-- The value of a result that is non-finite (43_estimator.md R84). -/
  nonFinite : SpecialValue
  /-- What the quotient overflows to, if it does (43_estimator.md R84). -/
  overflow : Option SpecialValue

/-- The value of `R` that a `RVal` stands for, where the names of reals stand for the numbers `real`. -/
noncomputable def RVal.meaningWith (real : ℕ → ℝ) : RVal → RValue
  | .real x => .real (x.valueWith real)
  | .special s => .special s

/-- The non-finite value that a `SpecialK` stands for. -/
noncomputable def SpecialK.meaningWith (real : ℕ → ℝ) : SpecialK → SpecialValue
  | .re s y => .re s (y.meaningWith real)
  | .im x s => .im (x.valueWith real) s

/-- The quotient of two numbers in a `NUM` whose division overflows as `overflow` says: not where it is 0 (U24) and not where
the numbers are equal (43_estimator.md R87 (a)). -/
noncomputable def quotientValue (overflow : Option SpecialValue) (x y : ℂ) : KValue :=
  match overflow with
  | none => .number (x / y)
  | some z => if x = 0 ∨ x = y then .number (x / y) else .special z

/-- The value of `K` that a `NumK` stands for, where the names of reals stand for the numbers `real` and the names of results
for the choices `choice`. -/
noncomputable def NumK.meaningWith (real : ℕ → ℝ) (choice : ℕ → Choice) : NumK → KValue
  | .exact x => .number x.value
  | .parts re im => .number (partsValueWith real re im)
  | .phase x => .number (Sys2Proof.phase (x.valueWith real))
  | .plus x y => .number ((x.meaningWith real choice).toComplex + (y.meaningWith real choice).toComplex)
  | .times x y => .number ((x.meaningWith real choice).toComplex * (y.meaningWith real choice).toComplex)
  | .scaled r x => .number ((r.valueWith real : ℂ) * (x.meaningWith real choice).toComplex)
  | .ratio x y => .number ((x.meaningWith real choice).toComplex / (y.meaningWith real choice).toComplex)
  | .larger x y =>
    .number (if ‖(y.meaningWith real choice).toComplex‖ ≤ ‖(x.meaningWith real choice).toComplex‖
      then (x.meaningWith real choice).toComplex else (y.meaningWith real choice).toComplex)
  | .rounded name tol x size =>
    .number ((x.meaningWith real choice).toComplex +
      ((max 0 tol : ℚ) : ℂ) * (‖(size.meaningWith real choice).toComplex‖ : ℂ) * (choice name).error)
  | .special z => .special (z.meaningWith real)
  | .nonFinite name => .special (choice name).nonFinite
  | .unspecified name => (choice name).unspecified
  | .quotient name x y =>
    quotientValue (choice name).overflow (x.meaningWith real choice).toComplex (y.meaningWith real choice).toComplex
  | .ifFinite x y z =>
    match x.meaningWith real choice with
    | .number _ => y.meaningWith real choice
    | .special _ => z.meaningWith real choice
  | .ifZero x y z =>
    match x.meaningWith real choice with
    | .number x => if x = 0 then y.meaningWith real choice else z.meaningWith real choice
    | .special _ => z.meaningWith real choice

/-- The complex number a `NumK` stands for, where it stands for one. -/
noncomputable def NumK.valueWith (real : ℕ → ℝ) (choice : ℕ → Choice) (x : NumK) : ℂ :=
  (x.meaningWith real choice).toComplex

/-- What DEMOD makes of the errors of MOD on a grid of these cells, with the errors of DEMOD itself added, at cell `c`, in
units of the tolerance (41_transform_pair.md R59): the error of the round trip. -/
noncomputable def roundTripError (real : ℕ → ℝ) (choice : ℕ → Choice) (structureNo : ℕ) (tol : ℚ) (specials : Bool)
    (m n : ℕ) (cells : List NumK) (c : ℕ) : ℂ :=
  let samples := Machine.modSamples (.finite structureNo tol specials) m n cells
  ∑ k ∈ Finset.range (m * n),
      (choice (Config.resultName structureNo .modulated [m, n] [] cells k)).error *
        (‖(NumK.largest (Machine.modulate cells m n)).valueWith real choice‖ : ℂ) *
        phase (-((k % m * (c % m) : Nat) / (m : ℝ) + (k / m * (c / m) : Nat) / (n : ℝ))) +
    (choice (Config.resultName structureNo .demodulated [m, n] [] samples c)).error *
      (‖(NumK.largest (Machine.demodulate samples m n)).valueWith real choice‖ : ℂ)

/-- The round trip holds within the tolerance of every finite-precision `NUM` (41_transform_pair.md R67, 00_scope.md R14):
for finite cells, the error of the round trip at a cell is at most the tolerance times the magnitude of one of the cells. -/
def RoundTripWithinTolerance (real : ℕ → ℝ) (choice : ℕ → Choice) : Prop :=
  ∀ (structureNo : ℕ) (tol : ℚ) (specials : Bool) (m n : ℕ) (cells : List NumK),
    0 < m → 0 < n → cells.length = m * n → (∀ x ∈ cells, (x.meaningWith real choice).finite) → 0 < tol →
    ∀ c < m * n, ∃ j < m * n,
      ‖roundTripError real choice structureNo tol specials m n cells c‖ ≤
        ‖(cells.getD j NumK.zero).valueWith real choice‖

/-- The choices of a `NUM` are a function of the values of the inputs, however these are written down (10_state.md R31):
results of equal inputs, whose names may differ, have one choice. -/
def ChoicesDependOnValues (real : ℕ → ℝ) (choice : ℕ → Choice) : Prop :=
  ∀ (structureNo : ℕ) (stage : Stage) (words : List ℕ) (reals reals' : List RVal) (numbers numbers' : List NumK)
    (index : ℕ),
    reals.map (RVal.meaningWith real) = reals'.map (RVal.meaningWith real) →
    numbers.map (NumK.meaningWith real choice) = numbers'.map (NumK.meaningWith real choice) →
    choice (Config.resultName structureNo stage words reals numbers index) =
      choice (Config.resultName structureNo stage words reals' numbers' index)

/-- What the names in numbers stand for: a positive real number for each name of a real, and for each name of a result what
`NUM` makes of it, with an error of magnitude at most 1, such that equal inputs have equal results and the round trip holds
within the tolerance. A claim about numbers is made for every valuation: for all real and complex inputs, and for every
rounding and every non-finite result that 00_scope.md R14, R16 and 43_estimator.md R84 admit of a finite-precision `NUM` (log
entries 1, 13 and 24). -/
structure Valuation where
  /-- The positive real number with a name. -/
  real : ℕ → ℝ
  real_pos : ∀ name, 0 < real name
  /-- What `NUM` makes of the result with a name. -/
  choice : ℕ → Choice
  error_le : ∀ name, ‖(choice name).error‖ ≤ 1
  dependOnValues : ChoicesDependOnValues real choice
  roundTrip : RoundTripWithinTolerance real choice

/-- The real number a `NumR` stands for. -/
noncomputable def NumR.value (v : Valuation) (x : NumR) : ℝ := x.valueWith v.real

/-- `re + i*im` of the two reals. -/
noncomputable def partsValue (v : Valuation) (re im : NumR) : ℂ := (re.value v : ℂ) + Complex.I * (im.value v : ℂ)

/-- The complex number a number of the host stands for. -/
noncomputable def InputK.value (v : Valuation) : InputK → ℂ
  | .exact x => x.value
  | .parts re im => partsValue v re im

/-- The value of `K` that a `NumK` stands for. -/
noncomputable def NumK.meaning (v : Valuation) (x : NumK) : KValue := x.meaningWith v.real v.choice

/-- The value is a complex number: `is_finite(x)` (00_scope.md R13). -/
def NumK.finite (v : Valuation) (x : NumK) : Prop := (x.meaning v).finite

/-- The complex number a `NumK` stands for; what stands for it where the value is non-finite is not asked about. -/
noncomputable def NumK.value (v : Valuation) (x : NumK) : ℂ := (x.meaning v).toComplex

/-- The value of `R` that a `RVal` stands for. -/
noncomputable def RVal.meaning (v : Valuation) (x : RVal) : RValue := x.meaningWith v.real

/-- The real number of a value of `R`; 0 for a non-finite value, which has none and is not asked about. -/
noncomputable def RVal.value (v : Valuation) : RVal → ℝ
  | .real x => x.value v
  | .special _ => 0

/-- `x > 0`, where positive infinity is positive and a not-a-number is not (42_channel.md R72). -/
def RVal.positive (v : Valuation) : RVal → Prop
  | .real x => 0 < x.value v
  | .special s => s = .posInf

/-- `x >= 0`, where positive infinity is not negative and a not-a-number satisfies no comparison (42_channel.md R72). -/
def RVal.nonneg (v : Valuation) : RVal → Prop
  | .real x => 0 ≤ x.value v
  | .special s => s = .posInf

/-- The complex number of a value the host supplies; 0 for a non-finite value, which has none and is not asked about. -/
noncomputable def InputVal.value (v : Valuation) : InputVal → ℂ
  | .number x => x.value v
  | .special _ => 0

/-- The value is 0: both parts are zero (43_estimator.md R74). -/
def InputVal.zero (v : Valuation) (x : InputVal) : Prop := x.isFinite = true ∧ x.value v = 0

/-- The values of `K` are the same, however they are written down. -/
abbrev NumK.sameValue (x : NumK) (v : Valuation) (y : NumK) : Prop := x.meaning v = y.meaning v

/-- The values `y 0, y 1, ...` agree with the reference values `x 0, x 1, ...` within the tolerance of `NUM`: each error is
at most `TOL` times the magnitude of one of the reference values (00_scope.md R14, log entry 13). `n` values of a
command's result are compared. The tolerance of the reference is 0, and agreement within it is equality. -/
def Num.agree (num : Num) (n : Nat) (y x : Nat → ℂ) : Prop :=
  ∀ k < n, ∃ j < n, ‖y k - x k‖ ≤ (num.tolerance : ℝ) * ‖x j‖

namespace Machine

/-! ## The invariant of the state -/

/-- Every memory has its canonical form. -/
abbrev State.memoriesWf (s : State) : Prop :=
  s.pathDelay.wf ∧ s.pathGain.wf ∧ s.pathDoppler.wf ∧ s.pilotDidx.wf ∧ s.pilotLidx.wf ∧ s.pilotPval.wf ∧
    s.g0.wf ∧ s.g1.wf ∧ s.t0.wf ∧ s.t1.wf ∧ s.hp.wf ∧ s.hg.wf

/-- No memory lists an index outside its address space (20_memory.md R33, R34). -/
abbrev State.memoriesInRange (s : State) : Prop :=
  s.pathDelay.below s.caps.pcap ∧ s.pathGain.below s.caps.pcap ∧ s.pathDoppler.below s.caps.pcap ∧
    s.pilotDidx.below s.caps.qcap ∧ s.pilotLidx.below s.caps.qcap ∧ s.pilotPval.below s.caps.qcap ∧
    s.g0.below s.caps.gcap ∧ s.g1.below s.caps.gcap ∧ s.t0.below s.caps.tcap ∧ s.t1.below s.caps.tcap ∧
    s.hp.below s.caps.qcap ∧ s.hg.below s.caps.gcap

/-- Every number of a memory is in its canonical form. -/
abbrev Mem.numbersCanonical (mem : Mem NumK) : Prop := ∀ x ∈ mem, x.2.canonical = true

/-- Every number of every memory is in its canonical form: what is computed exactly is one datum for each number (log
entry 2). -/
abbrev State.numbersCanonical (s : State) : Prop :=
  (∀ x ∈ s.pilotPval, x.2.canonical = true) ∧ s.g0.numbersCanonical ∧ s.g1.numbersCanonical ∧ s.t0.numbersCanonical ∧
    s.t1.numbersCanonical ∧ s.hp.numbersCanonical ∧ s.hg.numbersCanonical

/-- Every number of a memory is finite. -/
abbrev Mem.numbersFinite (mem : Mem NumK) : Prop := ∀ x ∈ mem, x.2.isNumber = true

/-- Without non-finite encodings in `NUM` every stored value is a number (00_scope.md R13: `is_finite` is true of every
element). -/
abbrev State.valuesAdmitted (s : State) : Prop :=
  s.num.hasSpecials = false →
    s.fs.isFinite = true ∧ (∀ x ∈ s.pathGain, x.2.isFinite = true) ∧ (∀ x ∈ s.pathDoppler, x.2.isFinite = true) ∧
    (∀ x ∈ s.pilotPval, x.2.isFinite = true) ∧ s.g0.numbersFinite ∧ s.g1.numbersFinite ∧ s.t0.numbersFinite ∧
    s.t1.numbersFinite ∧ s.hp.numbersFinite ∧ s.hg.numbersFinite

/-- The error latch is as 10_state.md R21 to R23 and 60_exceptions.md R92, R95, R99 leave it: ERRCODE is one of the
codes that are latched; with none latched ERRINFO and ERRCMD are 0; with one latched DONE is 0. -/
abbrev State.latchConsistent (s : State) : Prop :=
  (s.errcode = 0 ∨ s.errcode = 1 ∨ s.errcode = 2 ∨ s.errcode = 4) ∧
    (s.errcode = 0 → s.errinfo = 0 ∧ s.errcmd = 0) ∧ (s.errcode ≠ 0 → s.done = false)

/-- HPLEN describes HP: it is at most the number of its elements (10_state.md R22, R28). -/
abbrev State.hplenInRange (s : State) : Prop := s.hplen.toNat ≤ s.caps.qcap

/-- The invariant: no command is in progress between steps (10_state.md R17, R21), the memories are canonical and in
range, the latch is consistent, HPLEN is in range, and every stored value is one of `NUM`. -/
abbrev State.Inv (s : State) : Prop :=
  s.busy = false ∧ s.memoriesWf ∧ s.memoriesInRange ∧ s.latchConsistent ∧ s.hplenInRange ∧
    s.valuesAdmitted

/-! ## A run that has gone right -/

/-- No error is latched: a run that ends otherwise has gone wrong (60_exceptions.md R97). -/
abbrev State.unlatched (s : State) : Prop := s.errcode = 0

/-- The last command completed without error (44_system.md R90): DONE = 1, ERR = 0. -/
abbrev State.succeeded (s : State) : Prop := s.done = true ∧ s.errcode = 0

/-! ## What a command reads and writes (10_state.md R19, R28) -/

/-- How many leading elements of a buffer a command writes when it completes (10_state.md R28). -/
def State.writtenLength (s : State) : Instr → Buf → Nat
  | .nop, _ => 0
  | .giIns src dst, b => if b = tBuf dst then guardedLength (s.tlen src).toNat s.glen.toNat s.mode else 0
  | .giRem src dst, b =>
    if b = tBuf dst then (s.tlen src).toNat - (if s.mode = .none then 0 else s.glen.toNat) else 0
  | .mod _ dst, b =>
    if b = tBuf dst then guardedLength (s.m.toNat * s.n.toNat) s.glen.toNat s.mode else 0
  | .demod _ dst, b => if b = gBuf dst then s.m.toNat * s.n.toNat else 0
  | .chan src dst, b => if b = tBuf dst then (s.tlen src).toNat else 0
  | .est _, b => if b = .hp then s.npilot.toNat else if b = .hg then s.m.toNat * s.n.toNat else 0

/-- The length register of the time buffer is one the command writes. -/
def writesTlen : Instr → Sel → Bool
  | .giIns _ dst, sel => decide (sel = dst)
  | .giRem _ dst, sel => decide (sel = dst)
  | .mod _ dst, sel => decide (sel = dst)
  | .chan _ dst, sel => decide (sel = dst)
  | _, _ => false

/-- The configuration registers M, N, GLEN, GMODE, NPATH, NPILOT and FS, the two tables, the sizes, `NUM`, the number of
resets and the host's further actions are the same. -/
abbrev State.sameConfiguration (s t : State) : Prop :=
  t.m = s.m ∧ t.n = s.n ∧ t.glen = s.glen ∧ t.gmode = s.gmode ∧ t.npath = s.npath ∧ t.npilot = s.npilot ∧
    t.fs = s.fs ∧ t.pathDelay = s.pathDelay ∧ t.pathGain = s.pathGain ∧ t.pathDoppler = s.pathDoppler ∧
    t.pilotDidx = s.pilotDidx ∧ t.pilotLidx = s.pilotLidx ∧ t.pilotPval = s.pilotPval ∧ t.caps = s.caps ∧
    t.num = s.num ∧ t.resets = s.resets ∧ t.host = s.host

/-- The two states hold the same sequence in the time buffers `a` and `b`. -/
abbrev State.sameSeq (s t : State) (a b : Sel) : Prop :=
  s.tlen a = t.tlen b ∧ ∀ k < (s.tlen a).toNat, s.element (tBuf a) k = t.element (tBuf b) k

/-- The two states hold the same grid of the size `M x N` of `s` in the grid buffer `a`. -/
abbrev State.sameGrid (s t : State) (a : Sel) : Prop :=
  ∀ k < s.m.toNat * s.n.toNat, s.element (gBuf a) k = t.element (gBuf a) k

/-- The two states have the same pilots, which received the same cells of `G[src]`. -/
abbrev State.samePilots (s t : State) (src : Sel) : Prop :=
  s.npilot = t.npilot ∧ ∀ j < s.npilot.toNat, s.pilotAt j = t.pilotAt j ∧
    s.pilotCell src (s.pilotAt j) = t.pilotCell src (t.pilotAt j)

/-- The two states agree on every register, table entry and element that the command reads: its column of 10_state.md R19;
of the grid, EST reads the cells at the pilots alone (43_estimator.md R86). -/
def State.sameReads (s t : State) (i : Instr) : Prop :=
  s.errcode = t.errcode ∧ s.caps = t.caps ∧
    match i with
    | .nop => True
    | .giIns src _ => s.glen = t.glen ∧ s.gmode = t.gmode ∧ s.sameSeq t src src
    | .giRem src _ => s.glen = t.glen ∧ s.gmode = t.gmode ∧ s.sameSeq t src src
    | .mod src _ => s.m = t.m ∧ s.n = t.n ∧ s.glen = t.glen ∧ s.gmode = t.gmode ∧ s.sameGrid t src
    | .demod src _ => s.m = t.m ∧ s.n = t.n ∧ s.glen = t.glen ∧ s.gmode = t.gmode ∧ s.sameSeq t src src
    | .chan src _ => s.fs = t.fs ∧ s.npath = t.npath ∧ s.sameSeq t src src ∧
        ∀ j < s.npath.toNat, s.delayAt j = t.delayAt j ∧ s.gainAt j = t.gainAt j ∧ s.dopplerAt j = t.dopplerAt j
    | .est src => s.m = t.m ∧ s.n = t.n ∧ s.samePilots t src

/-- The two states agree on everything that the result of the command is a function of: what it reads, the sizes and `NUM`
(10_state.md R31). -/
def State.sameInputs (s t : State) (i : Instr) : Prop := s.sameReads t i ∧ s.num = t.num

/-- The two states hold the same values in the time buffers `a` and `b`. -/
abbrev State.sameSeqValues (s t : State) (v : Valuation) (a b : Sel) : Prop :=
  s.tlen a = t.tlen b ∧ ∀ k < (s.tlen a).toNat, (s.element (tBuf a) k).sameValue v (t.element (tBuf b) k)

/-- The two states have pilots at the same places with the same values, which received the same values in `G[src]`. -/
abbrev State.samePilotValues (s t : State) (v : Valuation) (src : Sel) : Prop :=
  s.npilot = t.npilot ∧ ∀ j < s.npilot.toNat, s.didxAt j = t.didxAt j ∧ s.lidxAt j = t.lidxAt j ∧
    (s.pvalAt j).val.sameValue v (t.pvalAt j).val ∧
    (s.pilotCell src (s.pilotAt j)).sameValue v (t.pilotCell src (t.pilotAt j))

/-- The two states agree on everything that the result of the command is a function of, as `sameInputs` says, but on the values
of `R` and `K` as values and not as data: how a value was made or written down is no state (10_state.md R31). -/
def State.sameInputValues (s t : State) (v : Valuation) (i : Instr) : Prop :=
  s.errcode = t.errcode ∧ s.caps = t.caps ∧ s.num = t.num ∧
    match i with
    | .nop => True
    | .giIns src _ => s.glen = t.glen ∧ s.gmode = t.gmode ∧ s.sameSeqValues t v src src
    | .giRem src _ => s.glen = t.glen ∧ s.gmode = t.gmode ∧ s.sameSeqValues t v src src
    | .mod src _ => s.m = t.m ∧ s.n = t.n ∧ s.glen = t.glen ∧ s.gmode = t.gmode ∧
        ∀ k < s.m.toNat * s.n.toNat, (s.element (gBuf src) k).sameValue v (t.element (gBuf src) k)
    | .demod src _ => s.m = t.m ∧ s.n = t.n ∧ s.glen = t.glen ∧ s.gmode = t.gmode ∧ s.sameSeqValues t v src src
    | .chan src _ => s.fs.meaning v = t.fs.meaning v ∧ s.npath = t.npath ∧ s.sameSeqValues t v src src ∧
        ∀ j < s.npath.toNat, s.delayAt j = t.delayAt j ∧ (s.gainAt j).meaning v = (t.gainAt j).meaning v ∧
          (s.dopplerAt j).meaning v = (t.dopplerAt j).meaning v
    | .est src => s.m = t.m ∧ s.n = t.n ∧ s.samePilotValues t v src

/-- The cells of the `M x N` grid in `G[src]` are finite. -/
abbrev State.gridFinite (s : State) (v : Valuation) (src : Sel) : Prop :=
  ∀ k < s.m.toNat * s.n.toNat, (s.element (gBuf src) k).finite v

/-- The length of `T[src]` with its guard removed (40_guard_codec.md R55). -/
def State.coreLength (s : State) (src : Sel) : Nat :=
  (s.tlen src).toNat - (if s.mode = .none then 0 else s.glen.toNat)

/-- Sample `k` of `T[src]` with its guard removed (40_guard_codec.md R55). -/
def State.coreElement (s : State) (src : Sel) (k : Nat) : NumK :=
  s.element (tBuf src) (if s.mode = .cyclicPrefix then s.glen.toNat + k else k)

/-- The samples of `T[src]` that DEMOD reads, the first `M*N` behind the guard, are finite. -/
abbrev State.coreFinite (s : State) (v : Valuation) (src : Sel) : Prop :=
  ∀ k < s.m.toNat * s.n.toNat, k < s.coreLength src → (s.coreElement src k).finite v

/-- The pilot values and the cells of `G[src]` at the pilots are finite. -/
abbrev State.pilotsFinite (s : State) (v : Valuation) (src : Sel) : Prop :=
  ∀ j < s.npilot.toNat, (s.pilotAt j).value.isFinite = true ∧ (s.pilotCell src (s.pilotAt j)).finite v

/-- What sample `k` of the channel's output depends on is finite: for each path whose delay is at most `k`, the sampling rate,
the descriptor and the sample delayed to `k` (00_scope.md R16). -/
abbrev State.channelFinite (s : State) (v : Valuation) (src : Sel) (k : Nat) : Prop :=
  ∀ j < s.npath.toNat, (s.delayAt j).toNat ≤ k →
    s.fs.isFinite = true ∧ (s.gainAt j).isFinite = true ∧ (s.dopplerAt j).isFinite = true ∧
      (s.element (tBuf src) (k - (s.delayAt j).toNat)).finite v

/-- Everything the command computes with is finite (00_scope.md R16); GI.INS and GI.REM compute nothing. -/
def State.inputsFinite (s : State) (v : Valuation) : Instr → Prop
  | .mod src _ => s.gridFinite v src
  | .demod src _ => s.coreFinite v src
  | .chan src _ => ∀ k < (s.tlen src).toNat, s.channelFinite v src k
  | .est src => s.pilotsFinite v src
  | _ => True

/-! ## The reference results (41_transform_pair.md, 42_channel.md, 43_estimator.md), in complex numbers -/

/-- `M*N`. -/
def State.cells (s : State) : Nat := s.m.toNat * s.n.toNat

/-- Cell `[d, l]` of the grid in `G[src]`. -/
noncomputable def State.cellValue (s : State) (v : Valuation) (src : Sel) (d l : Nat) : ℂ :=
  (s.element (gBuf src) (d + s.m.toNat * l)).value v

/-- Sample `k` of `flatten(idft2(G))`: the inverse transform at row `k mod M`, column `k div M`
(41_transform_pair.md R58, R60). -/
noncomputable def State.modulatedSample (s : State) (v : Valuation) (src : Sel) (k : Nat) : ℂ :=
  1 / ((s.m.toNat : ℂ) * (s.n.toNat : ℂ)) *
    ∑ l ∈ Finset.range s.n.toNat, ∑ d ∈ Finset.range s.m.toNat,
      s.cellValue v src d l *
        phase ((k % s.m.toNat * d : Nat) / (s.m.toNat : ℝ) + (k / s.m.toNat * l : Nat) / (s.n.toNat : ℝ))

/-- Sample `k` of `T[src]` with its guard removed, 0 past its end (40_guard_codec.md R55, 41_transform_pair.md R61). -/
noncomputable def State.coreSample (s : State) (v : Valuation) (src : Sel) (k : Nat) : ℂ :=
  if k < s.coreLength src then (s.coreElement src k).value v else 0

/-- Cell `[d, l]` of the forward transform of the reconciled core of `T[src]` (41_transform_pair.md R59 to R61). -/
noncomputable def State.demodulatedCell (s : State) (v : Valuation) (src : Sel) (d l : Nat) : ℂ :=
  ∑ c ∈ Finset.range s.n.toNat, ∑ r ∈ Finset.range s.m.toNat,
    s.coreSample v src (r + s.m.toNat * c) *
      phase (-((r * d : Nat) / (s.m.toNat : ℝ) + (c * l : Nat) / (s.n.toNat : ℝ)))

/-- Sample `k` of the channel's output (42_channel.md R71). -/
noncomputable def State.channelSample (s : State) (v : Valuation) (src : Sel) (k : Nat) : ℂ :=
  ∑ j ∈ Finset.range s.npath.toNat,
    if (s.delayAt j).toNat ≤ k then
      ((s.gainAt j).value v : ℂ) * (s.element (tBuf src) (k - (s.delayAt j).toNat)).value v *
        phase ((s.dopplerAt j).value v * k / s.fs.value v)
    else 0

/-- The point of pilot `j`. -/
def State.pilotPoint (s : State) (j : Nat) : Point := (s.pilotAt j).point

/-- The estimate at pilot `j`: `Y[d_j, l_j] / p_j` (43_estimator.md R75). -/
noncomputable def State.pilotRatio (s : State) (v : Valuation) (src : Sel) (j : Nat) : ℂ :=
  (s.pilotCell src (s.pilotAt j)).value v / (s.pilotAt j).value.value v

/-- A pilot set valid for the grid of the state (43_estimator.md R74, V1 to V5). -/
structure State.pilotsValid (s : State) (v : Valuation) : Prop where
  count : s.npilot.toNat ≤ s.caps.qcap
  inGrid : ∀ j < s.npilot.toNat, (s.pilotAt j).d < s.m.toNat ∧ (s.pilotAt j).l < s.n.toNat
  nonzero : ∀ j < s.npilot.toNat, ¬ (s.pilotAt j).value.zero v
  distinct : ∀ i < s.npilot.toNat, ∀ j < s.npilot.toNat, s.pilotPoint i = s.pilotPoint j → i = j
  notCollinear : ∃ a < s.npilot.toNat, ∃ b < s.npilot.toNat, ∃ c < s.npilot.toNat,
    orient (s.pilotPoint a) (s.pilotPoint b) (s.pilotPoint c) ≠ 0

/-- A grid size the commands accept (41_transform_pair.md R62 checks 1 to 3). -/
abbrev State.gridValid (s : State) : Prop := s.m ≠ 0 ∧ s.n ≠ 0 ∧ s.m.toNat * s.n.toNat ≤ s.caps.gcap

/-- The barycentric combination of the values `h` at the vertices of a triangle (43_estimator.md R82). -/
noncomputable def barycentric (pts : List Point) (h : Nat → ℂ) (t : Tri) (q : Point) : ℂ :=
  ((t.weights pts q).1 : ℂ) / (t.det pts : ℂ) * h t.a + ((t.weights pts q).2.1 : ℂ) / (t.det pts : ℂ) * h t.b +
    ((t.weights pts q).2.2 : ℂ) / (t.det pts : ℂ) * h t.c

/-- The line through two points, as a function of a point `(x, y)`: `orient` with that point for its third. -/
def lineSide (a b : Point) (x y : ℚ) : ℚ := (b.d - a.d) * (y - a.l) - (b.l - a.l) * (x - a.d)

/-- `(x, y)` lies in the interior of the triangle: its three barycentric coordinates are positive (43_estimator.md R79,
R82). -/
def Tri.interior (pts : List Point) (t : Tri) (x y : ℚ) : Prop :=
  0 < lineSide (pointAt pts t.b) (pointAt pts t.c) x y * t.det pts ∧
    0 < lineSide (pointAt pts t.c) (pointAt pts t.a) x y * t.det pts ∧
    0 < lineSide (pointAt pts t.a) (pointAt pts t.b) x y * t.det pts

/-- The point lies in the convex hull: in the closed triangle of three points that are not on one line
(43_estimator.md R79). -/
def inHull (pts : List Point) (q : Point) : Prop :=
  ∃ t : Tri, t.a < pts.length ∧ t.b < pts.length ∧ t.c < pts.length ∧ t.det pts ≠ 0 ∧ t.contains pts q = true

end Machine

end Sys2Proof
end

