-- ==== Sys2Proof/Certificates/Slice0/Obligations.lean ====
section
/-! DEFINITION. The statements for the provers. -/

open Sys2Proof Sys2Proof.Machine

/-! ## Encoding -/

/-- Decoding and encoding are inverse to each other: a word decodes to a command exactly when it is that command's
word (30_encoding.md R46 to R49). -/
def Obligations.DecodeInvertsEncode : Prop :=
  ∀ (w : Word) (i : Instr), decode w = .ok i ↔ w = encode i

/-- The legal words are the 23 the spec lists (30_encoding.md section 3), and none of them meets a condition of
R49. -/
def Obligations.LegalWordsAreTheTwentyThree : Prop :=
  ∀ w : Word,
    ((∃ i, decode w = .ok i) ↔
      w ∈ [0x00, 0x01, 0x11, 0x21, 0x31, 0x02, 0x12, 0x22, 0x32, 0x03, 0x13, 0x23, 0x33, 0x04, 0x14, 0x24, 0x34,
        0x05, 0x15, 0x25, 0x35, 0x06, 0x16]) ∧
    ((∃ i, decode w = .ok i) ↔ legalWord w = true)

/-- Words written out from 30_encoding.md R46, R47 and 95_test_vectors.md B.1 decode to the commands they stand for. -/
def Obligations.TableWordsDecode : Prop :=
  decode 0x00000000 = .ok .nop ∧ decode 0x00000021 = .ok (.giIns .zero .one) ∧
    decode 0x00000012 = .ok (.giRem .one .zero) ∧ decode 0x00000003 = .ok (.mod .zero .zero) ∧
    decode 0x00000034 = .ok (.demod .one .one) ∧ decode 0x00000025 = .ok (.chan .zero .one) ∧
    decode 0x00000016 = .ok (.est .one)

/-- The decoder refuses in the order of 30_encoding.md R53 steps 3 to 6, said on the number of the word. -/
def Obligations.DecodeRefusesInTheListedOrder : Prop :=
  ∀ w : Word,
    (64 ≤ w.toNat → decode w = .error .zeroBits) ∧
    (w.toNat < 64 → 7 ≤ w.toNat % 16 → decode w = .error .opcode) ∧
    (w.toNat < 64 → w.toNat % 16 = 0 → 16 ≤ w.toNat → decode w = .error .selector) ∧
    (w.toNat < 64 → w.toNat % 16 = 6 → 32 ≤ w.toNat → decode w = .error .selector) ∧
    (w.toNat < 64 → w.toNat % 16 < 7 → (w.toNat % 16 = 0 → w.toNat < 16) → (w.toNat % 16 = 6 → w.toNat < 32) →
      ∃ i, decode w = .ok i)

/-! ## The write to CMD -/

/-- A step at which the host writes a legal word to CMD is `exec` of its command, on the state with that action taken
off the host's list (10_state.md R20, 30_encoding.md R53). -/
def Obligations.StepRunsTheDecodedCommand : Prop :=
  ∀ (s : State) (w : Word) (i : Instr) (rest : List HostAction),
    s.host = .writeReg 0 (.u32 w) :: rest → s.busy = false → decode w = .ok i →
      step s = exec i { s with host := rest }

/-- An illegal word, written while no error is latched, raises IllegalCommand with the PARAM of the first step of R53
that it fails, and changes nothing but the status and error registers (30_encoding.md R49, R53). -/
def Obligations.IllegalWordRaisesIllegalCommand : Prop :=
  ∀ (s : State) (w : Word), s.errcode = 0 → legalWord w = false →
    writeCmd w s = .next { s with
      done := false, busy := false, errcode := 4, errcmd := w,
      errinfo := if 64 ≤ w.toNat then 15 else if 7 ≤ w.toNat % 16 then 16 else 17 }

/-- While an error is latched (60_exceptions.md R97): a write to CMD, legal or not, changes no state at all; every other
admitted host access still answers a next state; and the latch holds the first error: no host action but a write to
ERRCODE and reset changes it. -/
def Obligations.LatchedErrorDropsCommands : Prop :=
  ∀ s : State, s.errcode ≠ 0 →
    (∀ w : Word, writeCmd w s = .next s) ∧ (∀ i : Instr, exec i s = .next s) ∧
    (s.busy = false → ∀ a : HostAction, a.wellFormed s.caps s.num = true → ∃ t, hostStep a s = .next t) ∧
    (∀ (t : State) (a : HostAction), hostStep a s = .next t → (∀ v, a ≠ .writeReg 2 v) → a ≠ .reset →
      t.errcode = s.errcode ∧ t.errinfo = s.errinfo ∧ t.errcmd = s.errcmd)

/-- What the first read of STATUS after a write to CMD shows (44_system.md R90): DONE alone for success, ERR alone for
an error that command raised, and, where an error was latched before, the unchanged earlier state with ERR = 1. -/
def Obligations.StatusTellsTheOutcome : Prop :=
  ∀ (s t : State) (w : Word), writeCmd w s = .next t →
    (s.errcode = 0 → (t.done = true ∧ t.errcode = 0 ∧ t.readReg 1 = .u32 2) ∨
      (t.done = false ∧ t.errcode ≠ 0 ∧ t.readReg 1 = .u32 4 ∧ t.errcmd = w)) ∧
    (s.errcode ≠ 0 → t = s ∧ t.err = true)

/-- A raised error is precise (60_exceptions.md R95): for every word written to CMD with no error latched, if an error
is latched afterwards then the state is the one before but for DONE, ERRCODE, ERRINFO and ERRCMD (BUSY is 0 again):
ERRCODE is the code of an error, ERRINFO its `param + 256 * index` (for an index that the 24 bits of ERRINFO.INDEX
hold: log entry 11), ERRCMD the word, DONE is 0 and ERR reads 1. The identifiers of the parameters are those of
60_exceptions.md R93, in the order of its table, the codes of the classes those of R92, and INDEX is 0 but for the entry of a
table. -/
def Obligations.RaisedErrorIsPrecise : Prop :=
  (∀ (s t : State) (w : Word), s.errcode = 0 → writeCmd w s = .next t → t.errcode ≠ 0 →
    t.err = true ∧ ∃ e : CmdError,
      t = { s with done := false, busy := false, errcode := e.cls.code, errinfo := e.info, errcmd := w }) ∧
  (∀ (s : State) (w : Word) (e : CmdError), s.accept.raise w e =
    { s with done := false, busy := false, errcode := e.cls.code, errinfo := e.info, errcmd := w }) ∧
  (∀ e : CmdError, e.index < 2 ^ 24 → e.info.toNat = e.param.ident.toNat + 256 * e.index) ∧
  ([Param.none, .m, .n, .gridCap, .glen, .srcLen, .dstLen, .fs, .npath, .pathGain, .npilot, .pilotIndex, .pilotValue,
    .pilotDup, .pilotGeom, .cmdZero, .cmdOpc, .cmdSel].map fun p => p.ident.toNat) =
      [0, 1, 2, 3, 4, 5, 6, 7, 8, 9, 10, 11, 12, 13, 14, 15, 16, 17] ∧
  ([ErrCode.shapeError, .configurationError, .numericAnomaly, .illegalCommand].map fun c => c.code.toNat) =
    [1, 2, 3, 4] ∧
  (∀ (p : Param) (j : Nat), shapeError p = ⟨.shapeError, p, 0⟩ ∧ configError p = ⟨.configurationError, p, 0⟩ ∧
    tableError p j = ⟨.configurationError, p, j⟩)

/-- Which command can raise which error, by ERRCODE and ERRINFO.PARAM (60_exceptions.md R94). -/
def Obligations.EachCommandRaisesOnlyItsErrors : Prop :=
  ∀ (s t : State), s.errcode = 0 →
    (∀ (w : Word), legalWord w = false → writeCmd w s = .next t →
      (t.errcode.toNat, t.errinfo.toNat % 256) ∈ [(4, 15), (4, 16), (4, 17)]) ∧
    (∀ i : Instr, exec i s = .next t → t.errcode ≠ 0 →
      (t.errcode.toNat, t.errinfo.toNat % 256) ∈
        (match i with
        | .nop => []
        | .giIns _ _ => [(2, 4), (1, 5), (1, 6)]
        | .giRem _ _ => [(1, 5), (1, 4)]
        | .mod _ _ => [(2, 1), (2, 2), (2, 3), (2, 4), (1, 6)]
        | .demod _ _ => [(2, 1), (2, 2), (2, 3), (2, 4), (1, 5), (1, 4)]
        | .chan _ _ => [(2, 7), (2, 8), (2, 9), (1, 5)]
        | .est _ => [(2, 1), (2, 2), (2, 3), (2, 10), (2, 11), (2, 12), (2, 13), (2, 14)] : List (Nat × Nat)))

/-! ## Frames and dependence -/

/-- The frame of every command (10_state.md R19, R28): the configuration registers and the tables keep their values;
only the length register of the destination time buffer and, for EST, HPLEN may change; an element of a buffer may
change only among the leading elements the command writes, as many as its result has; and ERRINFO and ERRCMD change
only with ERRCODE. -/
def Obligations.CommandsWriteOnlyTheirOutputs : Prop :=
  ∀ (i : Instr) (s t : State), exec i s = .next t →
    s.sameConfiguration t ∧
    (∀ sel, writesTlen i sel = false → t.tlen sel = s.tlen sel) ∧
    ((∀ src, i ≠ .est src) → t.hplen = s.hplen) ∧
    (∀ (b : Buf) (k : Nat), s.writtenLength i b ≤ k → t.element b k = s.element b k) ∧
    (t.errcode = s.errcode → t.errinfo = s.errinfo ∧ t.errcmd = s.errcmd)

/-- A command's result depends on nothing but what it reads (10_state.md R19, R31): on two states that agree there it raises
the same error or writes the same lengths and elements, in every `NUM`. It depends on the values of `R` and `K` alone and not
on how they were made or written down: on two states that hold the same values there it leaves the same values. Of the grid
EST reads the cells at the pilots alone (43_estimator.md R86), and its estimates do not depend on M and N but through which
grid points exist (R87 (f)): two EST commands that succeed on the same pilots with the same cells there, whatever M, N and the
other cells are, write the same per-pilot estimates and the same value at every grid point that both have. -/
def Obligations.ResultDependsOnlyOnInputs : Prop :=
  (∀ (i : Instr) (s s' t t' : State), s.sameInputs s' i → s.errcode = 0 →
    exec i s = .next t → exec i s' = .next t' →
      t.done = t'.done ∧ t.errcode = t'.errcode ∧
      (t.errcode ≠ 0 → t.errinfo = t'.errinfo ∧ t.errcmd = t'.errcmd) ∧
      (t.errcode = 0 →
        (∀ (b : Buf) (k : Nat), k < s.writtenLength i b → t.element b k = t'.element b k) ∧
        (∀ sel, writesTlen i sel = true → t.tlen sel = t'.tlen sel) ∧
        (∀ src, i = .est src → t.hplen = t'.hplen))) ∧
  (∀ (v : Valuation) (i : Instr) (s s' t t' : State), s.sameInputValues s' v i → s.errcode = 0 →
    exec i s = .next t → exec i s' = .next t' →
      t.done = t'.done ∧ t.errcode = t'.errcode ∧
      (t.errcode ≠ 0 → t.errinfo = t'.errinfo ∧ t.errcmd = t'.errcmd) ∧
      (t.errcode = 0 →
        (∀ (b : Buf) (k : Nat), k < s.writtenLength i b → (t.element b k).sameValue v (t'.element b k)) ∧
        (∀ sel, writesTlen i sel = true → t.tlen sel = t'.tlen sel) ∧
        (∀ src, i = .est src → t.hplen = t'.hplen))) ∧
  (∀ (src : Sel) (s s' t t' : State), s.samePilots s' src → s.num = s'.num → s.errcode = 0 → s'.errcode = 0 →
    exec (.est src) s = .next t → exec (.est src) s' = .next t' → t.errcode = 0 → t'.errcode = 0 →
      (∀ j < s.npilot.toNat, t.element .hp j = t'.element .hp j) ∧
      ∀ d l, d < s.m.toNat → d < s'.m.toNat → l < s.n.toNat → l < s'.n.toNat →
        t.element .hg (d + s.m.toNat * l) = t'.element .hg (d + s'.m.toNat * l))

/-- Source and destination may be the same time buffer (20_memory.md R37): GI.INS, GI.REM and CHAN leave the same
sequence in it as they leave in the other buffer. -/
def Obligations.AliasedCommandsReadBeforeTheyWrite : Prop :=
  ∀ (op : Sel → Sel → Instr), (op = .giIns ∨ op = .giRem ∨ op = .chan) →
    ∀ (s t u : State) (src other : Sel), s.errcode = 0 →
      exec (op src src) s = .next t → exec (op src other) s = .next u →
        t.errcode = u.errcode ∧ (t.errcode = 0 → t.sameSeq u src other)

/-! ## NOP and the error latch -/

/-- NOP (44_system.md R88): its word is 0 and its syntax `nop`; it sets DONE and changes nothing else; while an error is
latched it is dropped; and a word with OPC 0 and a non-zero selector raises IllegalCommand(CMD_SEL). -/
def Obligations.NopSetsDoneOnly : Prop :=
  encode .nop = 0 ∧ assembly .nop = "nop" ∧
  (∀ s : State, s.errcode = 0 → s.busy = false → exec .nop s = .next { s with done := true }) ∧
  (∀ s : State, s.errcode ≠ 0 → exec .nop s = .next s) ∧
  (∀ (s : State) (w : Word), w = 0x10 ∨ w = 0x20 ∨ w = 0x30 → decode w = .error .selector ∧
    (s.errcode = 0 → ∃ t, writeCmd w s = .next t ∧ t.errcode = 4 ∧ t.errinfo = 17))

/-- The error clear (44_system.md R89): a host write of any value to ERRCODE sets ERRCODE, ERRINFO and ERRCMD to 0,
whether or not an error is latched, and changes nothing else; ERR then reads 0; `clrerr` is such a write; and nothing
but such a write and reset takes a latched error away. -/
def Obligations.ErrorClearClearsTheLatchOnly : Prop :=
  HostAction.clrerr = .writeReg 2 (.u32 0) ∧
  (∀ (s : State) (v : Word), s.busy = false →
    hostStep (.writeReg 2 (.u32 v)) s = .next { s with errcode := 0, errinfo := 0, errcmd := 0 } ∧
      State.err { s with errcode := 0, errinfo := 0, errcmd := 0 } = false) ∧
  (∀ (s t : State) (a : HostAction), s.errcode ≠ 0 → hostStep a s = .next t → t.errcode = 0 →
    (∃ v, a = .writeReg 2 v) ∨ a = .reset)

/-- STATUS (10_state.md R21, R23): bit 0 is BUSY, bit 1 is DONE, bit 2 is 1 exactly when ERRCODE is non-zero, and the
other bits are 0. -/
def Obligations.StatusWordHoldsTheFlags : Prop :=
  ∀ s : State,
    s.status.getLsbD 0 = s.busy ∧ s.status.getLsbD 1 = s.done ∧
      (s.status.getLsbD 2 = true ↔ s.errcode ≠ 0) ∧ ∀ k, 3 ≤ k → s.status.getLsbD k = false

/-! ## The guard codec -/

/-- `gi_insert`, mode by mode and element by element (40_guard_codec.md R54), with the modes as GMODE holds them. -/
def Obligations.GuardInsertElements : Prop :=
  (∀ v : Word, guardMode v = if v.toNat = 1 then .zeroPad else if v.toNat = 2 then .cyclicPrefix else .none) ∧
  ∀ (xs : List NumK) (g : Nat),
    giInsert xs g .none = xs ∧
    ((giInsert xs g .zeroPad).length = xs.length + g ∧
      (∀ k < xs.length, (giInsert xs g .zeroPad)[k]? = xs[k]?) ∧
      (∀ k, xs.length ≤ k → k < xs.length + g → (giInsert xs g .zeroPad)[k]? = some NumK.zero)) ∧
    (g ≤ xs.length →
      (giInsert xs g .cyclicPrefix).length = xs.length + g ∧
      (∀ k < g, (giInsert xs g .cyclicPrefix)[k]? = xs[xs.length - g + k]?) ∧
      (∀ k, g ≤ k → k < xs.length + g → (giInsert xs g .cyclicPrefix)[k]? = xs[k - g]?)) ∧
    (∀ md, giInsert xs 0 md = xs)

/-- `gi_remove`, mode by mode and element by element (40_guard_codec.md R55); with `g = 0` it is the identity and with
`g = len(E)` it leaves the empty sequence. -/
def Obligations.GuardRemoveElements : Prop :=
  ∀ (xs : List NumK) (g : Nat),
    giRemove xs g .none = xs ∧
    (g ≤ xs.length →
      ((giRemove xs g .zeroPad).length = xs.length - g ∧
        ∀ k < xs.length - g, (giRemove xs g .zeroPad)[k]? = xs[k]?) ∧
      ((giRemove xs g .cyclicPrefix).length = xs.length - g ∧
        ∀ k < xs.length - g, (giRemove xs g .cyclicPrefix)[k]? = xs[g + k]?)) ∧
    (∀ md, giRemove xs 0 md = xs) ∧
    (∀ md, md ≠ .none → giRemove xs xs.length md = [])

/-- The guard codec inverse (40_guard_codec.md, properties of R54, R55): removing an inserted guard gives the sequence
back, under ZeroPad for every guard length and under CyclicPrefix for `g <= len(S)`. -/
def Obligations.GuardRemovalInvertsInsertion : Prop :=
  ∀ (xs : List NumK) (g : Nat) (md : GuardMode), (md = .cyclicPrefix → g ≤ xs.length) →
    giRemove (giInsert xs g md) g md = xs

/-- GI.INS completes, and what it leaves (40_guard_codec.md R56): the samples, moved as they are, finite
or not (00_scope.md U7), the guard, and the length where it has a 32-bit word (log entry 12). -/
def Obligations.GiInsWritesTheGuardedSequence : Prop :=
  ∀ (src dst : Sel) (s : State), s.errcode = 0 →
    (s.tlen src).toNat ≤ s.caps.tcap → (s.mode = .cyclicPrefix → s.glen.toNat ≤ (s.tlen src).toNat) →
    guardedLength (s.tlen src).toNat s.glen.toNat s.mode ≤ s.caps.tcap →
    ∃ t, exec (.giIns src dst) s = .next t ∧ t.succeeded ∧
      (guardedLength (s.tlen src).toNat s.glen.toNat s.mode < 2 ^ 32 →
        (t.tlen dst).toNat = guardedLength (s.tlen src).toNat s.glen.toNat s.mode) ∧
      (s.mode = .none → ∀ k < (s.tlen src).toNat, t.element (tBuf dst) k = s.element (tBuf src) k) ∧
      (s.mode = .zeroPad →
        (∀ k < (s.tlen src).toNat, t.element (tBuf dst) k = s.element (tBuf src) k) ∧
        ∀ k < s.glen.toNat, t.element (tBuf dst) ((s.tlen src).toNat + k) = NumK.zero) ∧
      (s.mode = .cyclicPrefix →
        (∀ k < s.glen.toNat,
          t.element (tBuf dst) k = s.element (tBuf src) ((s.tlen src).toNat - s.glen.toNat + k)) ∧
        ∀ k < (s.tlen src).toNat, t.element (tBuf dst) (s.glen.toNat + k) = s.element (tBuf src) k)

/-- The errors of GI.INS in the order of its checks (40_guard_codec.md R56). -/
def Obligations.GiInsErrorsInOrder : Prop :=
  ∀ (src dst : Sel) (s : State), s.errcode = 0 →
    (s.caps.tcap < (s.tlen src).toNat →
      exec (.giIns src dst) s = .next (s.accept.raise (encode (.giIns src dst)) (shapeError .srcLen))) ∧
    ((s.tlen src).toNat ≤ s.caps.tcap → s.mode = .cyclicPrefix → (s.tlen src).toNat < s.glen.toNat →
      exec (.giIns src dst) s = .next (s.accept.raise (encode (.giIns src dst)) (configError .glen))) ∧
    ((s.tlen src).toNat ≤ s.caps.tcap → (s.mode = .cyclicPrefix → s.glen.toNat ≤ (s.tlen src).toNat) →
      s.caps.tcap < guardedLength (s.tlen src).toNat s.glen.toNat s.mode →
      exec (.giIns src dst) s = .next (s.accept.raise (encode (.giIns src dst)) (shapeError .dstLen)))

/-- GI.REM completes, and what it leaves (40_guard_codec.md R57): the samples without the guard, and their number. -/
def Obligations.GiRemWritesTheCoreSequence : Prop :=
  ∀ (src dst : Sel) (s : State), s.errcode = 0 →
    (s.tlen src).toNat ≤ s.caps.tcap → (s.mode ≠ .none → s.glen.toNat ≤ (s.tlen src).toNat) →
    ∃ t, exec (.giRem src dst) s = .next t ∧ t.succeeded ∧
      (t.tlen dst).toNat = s.coreLength src ∧
      (s.mode ≠ .cyclicPrefix →
        ∀ k < s.coreLength src, t.element (tBuf dst) k = s.element (tBuf src) k) ∧
      (s.mode = .cyclicPrefix →
        ∀ k < s.coreLength src, t.element (tBuf dst) k = s.element (tBuf src) (s.glen.toNat + k))

/-- The errors of GI.REM in the order of its checks (40_guard_codec.md R57). -/
def Obligations.GiRemErrorsInOrder : Prop :=
  ∀ (src dst : Sel) (s : State), s.errcode = 0 →
    (s.caps.tcap < (s.tlen src).toNat →
      exec (.giRem src dst) s = .next (s.accept.raise (encode (.giRem src dst)) (shapeError .srcLen))) ∧
    ((s.tlen src).toNat ≤ s.caps.tcap → s.mode ≠ .none → (s.tlen src).toNat < s.glen.toNat →
      exec (.giRem src dst) s = .next (s.accept.raise (encode (.giRem src dst)) (shapeError .glen)))

/-! ## The transform pair -/

/-- MOD completes, in every `NUM`, and what it leaves (41_transform_pair.md R62): under the reference `NUM`, on finite cells,
the inverse transform of the grid, sample by sample as a complex number (R58, R60, R63); always its guard, of exact zeros or
of copied samples (40_guard_codec.md R54), and its length where it has a 32-bit word (log entry 12). What the samples are
under a finite-precision `NUM` is said in FinitePrecisionAgreesWithTheReference. -/
def Obligations.ModWritesTheInverseTransform : Prop :=
  ∀ (v : Valuation) (src dst : Sel) (s : State), s.errcode = 0 → s.gridValid →
    (s.mode = .cyclicPrefix → s.glen.toNat ≤ s.cells) →
    guardedLength s.cells s.glen.toNat s.mode ≤ s.caps.tcap →
    ∃ t, exec (.mod src dst) s = .next t ∧ t.succeeded ∧
      (guardedLength s.cells s.glen.toNat s.mode < 2 ^ 32 →
        (t.tlen dst).toNat = guardedLength s.cells s.glen.toNat s.mode) ∧
      (s.num = .reference → s.gridFinite v src → ∀ k < s.cells,
        (t.element (tBuf dst) (if s.mode = .cyclicPrefix then s.glen.toNat + k else k)).value v =
          s.modulatedSample v src k) ∧
      (s.mode = .zeroPad → ∀ k < s.glen.toNat, t.element (tBuf dst) (s.cells + k) = NumK.zero) ∧
      (s.mode = .cyclicPrefix → ∀ k < s.glen.toNat,
        t.element (tBuf dst) k = t.element (tBuf dst) (s.cells + k))

/-- The errors of MOD in the order of its checks (41_transform_pair.md R62); `M*N` is the exact product (00_scope.md
R8). -/
def Obligations.ModErrorsInOrder : Prop :=
  ∀ (src dst : Sel) (s : State), s.errcode = 0 →
    (s.m = 0 → exec (.mod src dst) s = .next (s.accept.raise (encode (.mod src dst)) (configError .m))) ∧
    (s.m ≠ 0 → s.n = 0 → exec (.mod src dst) s = .next (s.accept.raise (encode (.mod src dst)) (configError .n))) ∧
    (s.m ≠ 0 → s.n ≠ 0 → s.caps.gcap < s.cells →
      exec (.mod src dst) s = .next (s.accept.raise (encode (.mod src dst)) (configError .gridCap))) ∧
    (s.gridValid → s.mode = .cyclicPrefix → s.cells < s.glen.toNat →
      exec (.mod src dst) s = .next (s.accept.raise (encode (.mod src dst)) (configError .glen))) ∧
    (s.gridValid → (s.mode = .cyclicPrefix → s.glen.toNat ≤ s.cells) →
      s.caps.tcap < guardedLength s.cells s.glen.toNat s.mode →
      exec (.mod src dst) s = .next (s.accept.raise (encode (.mod src dst)) (shapeError .dstLen)))

/-- DEMOD completes, in every `NUM`, whatever the length of the core sequence is (41_transform_pair.md R61, R66;
60_exceptions.md R100); under the reference `NUM`, on finite samples, it leaves the forward transform of the core, padded with
zeros or cut to `M*N` samples, cell by cell as a complex number (R59 to R61, R63); no length register changes. What the cells
are under a finite-precision `NUM` is said in FinitePrecisionAgreesWithTheReference. -/
def Obligations.DemodWritesTheForwardTransform : Prop :=
  ∀ (v : Valuation) (src dst : Sel) (s : State), s.errcode = 0 → s.gridValid →
    (s.mode = .cyclicPrefix → s.glen.toNat ≤ s.cells) → (s.tlen src).toNat ≤ s.caps.tcap →
    (s.mode ≠ .none → s.glen.toNat ≤ (s.tlen src).toNat) →
    ∃ t, exec (.demod src dst) s = .next t ∧ t.succeeded ∧ t.tlen0 = s.tlen0 ∧ t.tlen1 = s.tlen1 ∧
      (s.num = .reference → s.coreFinite v src → ∀ d < s.m.toNat, ∀ l < s.n.toNat,
        (t.element (gBuf dst) (d + s.m.toNat * l)).value v = s.demodulatedCell v src d l)

/-- The errors of DEMOD in the order of its checks (41_transform_pair.md R66). -/
def Obligations.DemodErrorsInOrder : Prop :=
  ∀ (src dst : Sel) (s : State), s.errcode = 0 →
    (s.m = 0 → exec (.demod src dst) s = .next (s.accept.raise (encode (.demod src dst)) (configError .m))) ∧
    (s.m ≠ 0 → s.n = 0 →
      exec (.demod src dst) s = .next (s.accept.raise (encode (.demod src dst)) (configError .n))) ∧
    (s.m ≠ 0 → s.n ≠ 0 → s.caps.gcap < s.cells →
      exec (.demod src dst) s = .next (s.accept.raise (encode (.demod src dst)) (configError .gridCap))) ∧
    (s.gridValid → s.mode = .cyclicPrefix → s.cells < s.glen.toNat →
      exec (.demod src dst) s = .next (s.accept.raise (encode (.demod src dst)) (configError .glen))) ∧
    (s.gridValid → (s.mode = .cyclicPrefix → s.glen.toNat ≤ s.cells) → s.caps.tcap < (s.tlen src).toNat →
      exec (.demod src dst) s = .next (s.accept.raise (encode (.demod src dst)) (shapeError .srcLen))) ∧
    (s.gridValid → (s.mode = .cyclicPrefix → s.glen.toNat ≤ s.cells) → (s.tlen src).toNat ≤ s.caps.tcap →
      s.mode ≠ .none → (s.tlen src).toNat < s.glen.toNat →
      exec (.demod src dst) s = .next (s.accept.raise (encode (.demod src dst)) (shapeError .glen)))

/-- `flatten` and `reshape` are column-major, Doppler-fastest (41_transform_pair.md R60): cell `[r, c]` is sample
`r + M*c` in both, and reshaping a flattened matrix gives it back. -/
def Obligations.FlattenAndReshapeAreInverse : Prop :=
  ∀ (m n : Nat),
    (∀ b : Grid, b.length = n → (∀ col ∈ b, col.length = m) →
      (flattenGrid b).length = m * n ∧
      (∀ r < m, ∀ c < n, (flattenGrid b)[r + m * c]? = some (gridCell b r c)) ∧
      reshape (flattenGrid b) m n = b) ∧
    (∀ xs : List NumK, xs.length = m * n → ∀ r < m, ∀ c < n,
      some (gridCell (reshape xs m n) r c) = xs[r + m * c]?)

/-- Length reconciliation (41_transform_pair.md R61): exactly `K` samples, the first ones kept, zeros after them. -/
def Obligations.ReconcilePadsOrTruncates : Prop :=
  ∀ (r : List NumK) (k : Nat),
    (reconcile r k).length = k ∧
    (r.length < k → reconcile r k = r ++ zeros (k - r.length)) ∧
    (k ≤ r.length → reconcile r k = r.take k)

/-- The round trip (41_transform_pair.md R67): a MOD that succeeds, then a DEMOD of its output with the same M, N, GLEN
and GMODE and the sequence untouched, succeeds in every `NUM`, and gives a grid of finite cells back: exactly under the
reference `NUM`, as complex numbers, and within `TOL` otherwise, relative to the largest cell (log entry 13). What else the
host does between the two does not matter. The buffer is smaller than `2^32`, so that its length has a word (log entry 12).
-/
def Obligations.DemodulationInvertsModulation : Prop :=
  ∀ (v : Valuation) (a b c : Sel) (s t t' : State), s.errcode = 0 → s.caps.tcap < 2 ^ 32 →
    exec (.mod a b) s = .next t → t.errcode = 0 →
    t'.errcode = 0 → t'.m = s.m → t'.n = s.n → t'.glen = s.glen → t'.gmode = s.gmode → t'.caps = s.caps →
    t'.num = s.num → t.sameSeq t' b b →
    ∃ u, exec (.demod b c) t' = .next u ∧ u.succeeded ∧
      (s.gridFinite v a →
        (s.num = .reference → ∀ d < s.m.toNat, ∀ l < s.n.toNat, u.cellValue v c d l = s.cellValue v a d l) ∧
        s.num.agree s.cells (fun k => (u.element (gBuf c) k).value v) fun k => (s.element (gBuf a) k).value v)

/-! ## The channel -/

/-- CHAN completes, in every `NUM`, and leaves the length of its source and, under the reference `NUM`, the sum of the
delayed, scaled and rotated paths, sample by sample as a complex number, where what the sample depends on is finite
(42_channel.md R68 to R72). What the samples are under a finite-precision `NUM` is said in
FinitePrecisionAgreesWithTheReference. -/
def Obligations.ChanWritesTheSumOfPaths : Prop :=
  ∀ (v : Valuation) (src dst : Sel) (s : State), s.errcode = 0 → s.fs.positive v →
    s.npath.toNat ≤ s.caps.pcap → (∀ j < s.npath.toNat, (s.gainAt j).nonneg v) →
    (s.tlen src).toNat ≤ s.caps.tcap →
    ∃ t, exec (.chan src dst) s = .next t ∧ t.succeeded ∧ t.tlen dst = s.tlen src ∧
      (s.num = .reference → ∀ k < (s.tlen src).toNat, s.channelFinite v src k →
        (t.element (tBuf dst) k).value v = s.channelSample v src k)

/-- The errors of CHAN in the order of its checks (42_channel.md R72); a not-a-number is neither positive nor
non-negative, and positive infinity is both; of several gains that fail the lowest index is reported (60_exceptions.md R96).
-/
def Obligations.ChanErrorsInOrder : Prop :=
  ∀ (v : Valuation) (src dst : Sel) (s : State), s.errcode = 0 →
    (¬ s.fs.positive v → exec (.chan src dst) s = .next (s.accept.raise (encode (.chan src dst)) (configError .fs))) ∧
    (s.fs.positive v → s.caps.pcap < s.npath.toNat →
      exec (.chan src dst) s = .next (s.accept.raise (encode (.chan src dst)) (configError .npath))) ∧
    (s.fs.positive v → s.npath.toNat ≤ s.caps.pcap → ∀ j < s.npath.toNat, ¬ (s.gainAt j).nonneg v →
      (∀ i < j, (s.gainAt i).nonneg v) →
      exec (.chan src dst) s = .next (s.accept.raise (encode (.chan src dst)) (tableError .pathGain j))) ∧
    (s.fs.positive v → s.npath.toNat ≤ s.caps.pcap → (∀ j < s.npath.toNat, (s.gainAt j).nonneg v) →
      s.caps.tcap < (s.tlen src).toNat →
      exec (.chan src dst) s = .next (s.accept.raise (encode (.chan src dst)) (shapeError .srcLen)))

/-- The delay line (42_channel.md R68): the same length, zeros in front, the rest shifted right; a delay of the length
or more leaves zeros alone, and a delay of 0 the sequence itself. -/
def Obligations.DelayShiftsRightLinearly : Prop :=
  ∀ (tx : List NumK) (tau : Nat),
    (delayed tx tau).length = tx.length ∧
    (∀ k < min tau tx.length, (delayed tx tau)[k]? = some NumK.zero) ∧
    (∀ k, tau ≤ k → k < tx.length → (delayed tx tau)[k]? = tx[k - tau]?) ∧
    (tx.length ≤ tau → delayed tx tau = NumK.zeros tx.length) ∧ delayed tx 0 = tx

/-- The channel is linear in its input (42_channel.md R73 (a)), for inputs of equal length and complex scalars. -/
def Obligations.ChannelIsLinear : Prop :=
  ∀ (v : Valuation) (xs ys zs : List NumK) (a b : ℂ) (fs : NumR) (paths : List Path),
    ys.length = xs.length → zs.length = xs.length →
    (∀ k < xs.length, (zs.getD k NumK.zero).value v =
      a * (xs.getD k NumK.zero).value v + b * (ys.getD k NumK.zero).value v) →
    ∀ k < xs.length, ((applyChannel zs fs paths).getD k NumK.zero).value v =
      a * ((applyChannel xs fs paths).getD k NumK.zero).value v +
        b * ((applyChannel ys fs paths).getD k NumK.zero).value v

/-- Properties of the channel (42_channel.md R73): (b) a single path of zero delay and zero Doppler is the identity
scaled by the gain; (c) the order of the paths does not affect the result; (e) the output is as long as the input. -/
def Obligations.PathOrderDoesNotMatter : Prop :=
  ∀ (v : Valuation) (tx : List NumK) (fs : NumR),
    (∀ (g nu : NumR) (k : Nat), nu.value v = 0 → k < tx.length →
      ((applyChannel tx fs [⟨0, g, nu⟩]).getD k NumK.zero).value v =
        (g.value v : ℂ) * (tx.getD k NumK.zero).value v) ∧
    (∀ paths paths' : List Path, paths.Perm paths' →
      (applyChannel tx fs paths).length = tx.length ∧
      ∀ k, ((applyChannel tx fs paths).getD k NumK.zero).value v =
        ((applyChannel tx fs paths').getD k NumK.zero).value v)

/-! ## The estimator -/

/-- EST completes on a valid pilot set, in every `NUM`, sets HPLEN to the number of pilots, leaves exactly 0 at every grid
point outside the convex hull (43_estimator.md R74, R83, R86; 00_scope.md R14 (b)) and a finite value at every grid point,
whatever the received cells and the pilot values are, finite or not (R84, R85); no error is latched then (60_exceptions.md
R99). -/
def Obligations.EstCompletesOnValidPilots : Prop :=
  ∀ (v : Valuation) (src : Sel) (s : State), s.errcode = 0 → s.gridValid → s.pilotsValid v →
    ∃ t, exec (.est src) s = .next t ∧ t.succeeded ∧ t.hplen = s.npilot ∧
      t.tlen0 = s.tlen0 ∧ t.tlen1 = s.tlen1 ∧
      (∀ k < s.cells, (t.element .hg k).finite v) ∧
      ∀ d < s.m.toNat, ∀ l < s.n.toNat, ¬ inHull (pilotPoints s.pilots) ⟨d, l⟩ →
        t.element .hg (d + s.m.toNat * l) = NumK.zero

/-- The per-pilot estimate (43_estimator.md R75): under the reference `NUM` HP holds the complex ratio of the received cell
to the pilot value, in pilot order, where both are finite. In every `NUM` a cell holding 0 gives 0 (R86, U24), a non-finite cell
over a finite pilot value gives a non-finite estimate, which is not passed through `fix` (R84; log entry 24), and where every
pilot cell holds its pilot value every estimate is finite and within `TOL` of 1 (R87 (a)). What else it is under a
finite-precision `NUM` is said in FinitePrecisionAgreesWithTheReference. -/
def Obligations.EstWritesThePilotRatios : Prop :=
  ∀ (v : Valuation) (src : Sel) (s t : State), s.errcode = 0 → s.gridValid → s.pilotsValid v →
    exec (.est src) s = .next t →
    (∀ j < s.npilot.toNat, (s.pilotAt j).value.isFinite = true →
      (s.num = .reference → (s.pilotCell src (s.pilotAt j)).finite v →
        (t.element .hp j).meaning v = .number (s.pilotRatio v src j)) ∧
      ((s.pilotCell src (s.pilotAt j)).meaning v = .number 0 → (t.element .hp j).meaning v = .number 0) ∧
      (¬ (s.pilotCell src (s.pilotAt j)).finite v → ¬ (t.element .hp j).finite v)) ∧
    ((∀ j < s.npilot.toNat, (s.pilotAt j).value.isFinite = true ∧
        (s.pilotCell src (s.pilotAt j)).sameValue v (s.pilotAt j).value.val) →
      ∀ j < s.npilot.toNat, (t.element .hp j).finite v ∧
        ‖(t.element .hp j).value v - 1‖ ≤ (s.num.tolerance : ℝ))

/-- The full-grid estimate (43_estimator.md R82, R83): at a grid point in a closed triangle of `TRI`, under the reference
`NUM` and on finite pilots, the barycentric combination of the per-pilot estimates at the vertices of one of them; 0 at a
point in none, in every `NUM`. Where a triangle with the point has a vertex whose coordinate is not 0 and whose estimate is
non-finite, the cell is 0 (R84, 60_exceptions.md R99). Where its vertices whose coordinate is not 0 have finite estimates,
whatever the others are, the cell is their barycentric combination in every `NUM` (R82: on an edge the value depends on the
edge's two ends alone), within `TOL` (00_scope.md R14). That `TOL` is relative to the largest estimate is the model's choice (log
entry 13), and so is that an interpolation of finite estimates does not overflow (log entry 24). -/
def Obligations.EstInterpolatesInATriangle : Prop :=
  ∀ (v : Valuation) (src : Sel) (s t : State), s.errcode = 0 → s.gridValid → s.pilotsValid v →
    exec (.est src) s = .next t →
    ∀ d < s.m.toNat, ∀ l < s.n.toNat,
      ((∃ tri ∈ triangulation (pilotPoints s.pilots), tri.contains (pilotPoints s.pilots) ⟨d, l⟩ = true ∧
        (s.num = .reference → s.pilotsFinite v src → (t.element .hg (d + s.m.toNat * l)).value v =
          barycentric (pilotPoints s.pilots) (s.pilotRatio v src) tri ⟨d, l⟩)) ∨
      ((∀ tri ∈ triangulation (pilotPoints s.pilots), tri.contains (pilotPoints s.pilots) ⟨d, l⟩ = false) ∧
        t.element .hg (d + s.m.toNat * l) = NumK.zero)) ∧
      ∀ tri ∈ triangulation (pilotPoints s.pilots), tri.contains (pilotPoints s.pilots) ⟨d, l⟩ = true →
        ((∃ w ∈ tri.weightedVertices (pilotPoints s.pilots) ⟨d, l⟩, w.2 ≠ 0 ∧ ¬ (t.element .hp w.1).finite v) →
          (t.element .hg (d + s.m.toNat * l)).meaning v = .number 0) ∧
        ((∀ j < s.npilot.toNat, (s.pilotAt j).value.isFinite = true) →
          (∀ w ∈ tri.weightedVertices (pilotPoints s.pilots) ⟨d, l⟩, w.2 ≠ 0 → (t.element .hp w.1).finite v) →
          ∃ j < s.npilot.toNat, (t.element .hp j).finite v ∧
            ‖(t.element .hg (d + s.m.toNat * l)).value v -
                barycentric (pilotPoints s.pilots) (s.pilotRatio v src) tri ⟨d, l⟩‖ ≤
              (s.num.tolerance : ℝ) * ‖s.pilotRatio v src j‖)

/-- With exactly three pilots there is only one triangulation (43_estimator.md R81): under the reference `NUM` and on finite
pilots the estimate at a grid point in the closed triangle of the three is the barycentric combination of their ratios, and in
every `NUM` it is 0 elsewhere. -/
def Obligations.ThreePilotsDetermineTheEstimate : Prop :=
  ∀ (v : Valuation) (src : Sel) (s t : State), s.errcode = 0 → s.gridValid → s.pilotsValid v → s.npilot = 3 →
    exec (.est src) s = .next t →
    triangulation (pilotPoints s.pilots) = [⟨0, 1, 2⟩] ∧
    ∀ d < s.m.toNat, ∀ l < s.n.toNat,
      if (Tri.mk 0 1 2).contains (pilotPoints s.pilots) ⟨d, l⟩ = true then
        s.num = .reference → s.pilotsFinite v src → (t.element .hg (d + s.m.toNat * l)).value v =
          barycentric (pilotPoints s.pilots) (s.pilotRatio v src) ⟨0, 1, 2⟩ ⟨d, l⟩
      else t.element .hg (d + s.m.toNat * l) = NumK.zero

/-- The errors of EST in the order of its checks (43_estimator.md R86), of a table scan the lowest index
(60_exceptions.md R96). -/
def Obligations.EstErrorsInOrder : Prop :=
  ∀ (v : Valuation) (src : Sel) (s : State), s.errcode = 0 →
    (s.m = 0 → exec (.est src) s = .next (s.accept.raise (encode (.est src)) (configError .m))) ∧
    (s.m ≠ 0 → s.n = 0 → exec (.est src) s = .next (s.accept.raise (encode (.est src)) (configError .n))) ∧
    (s.m ≠ 0 → s.n ≠ 0 → s.caps.gcap < s.cells →
      exec (.est src) s = .next (s.accept.raise (encode (.est src)) (configError .gridCap))) ∧
    (s.gridValid → s.caps.qcap < s.npilot.toNat →
      exec (.est src) s = .next (s.accept.raise (encode (.est src)) (configError .npilot))) ∧
    (s.gridValid → s.npilot.toNat ≤ s.caps.qcap →
      (∀ j < s.npilot.toNat, (s.m.toNat ≤ (s.pilotAt j).d ∨ s.n.toNat ≤ (s.pilotAt j).l) →
        (∀ i < j, (s.pilotAt i).d < s.m.toNat ∧ (s.pilotAt i).l < s.n.toNat) →
        exec (.est src) s = .next (s.accept.raise (encode (.est src)) (tableError .pilotIndex j))) ∧
      ((∀ j < s.npilot.toNat, (s.pilotAt j).d < s.m.toNat ∧ (s.pilotAt j).l < s.n.toNat) →
        (∀ j < s.npilot.toNat, (s.pilotAt j).value.zero v →
          (∀ i < j, ¬ (s.pilotAt i).value.zero v) →
          exec (.est src) s = .next (s.accept.raise (encode (.est src)) (tableError .pilotValue j))) ∧
        ((∀ j < s.npilot.toNat, ¬ (s.pilotAt j).value.zero v) →
          (∀ j < s.npilot.toNat, (∃ i < j, s.pilotPoint i = s.pilotPoint j) →
            (∀ k < j, ∀ i < k, s.pilotPoint i ≠ s.pilotPoint k) →
            exec (.est src) s = .next (s.accept.raise (encode (.est src)) (tableError .pilotDup j))) ∧
          ((∀ i < s.npilot.toNat, ∀ j < s.npilot.toNat, s.pilotPoint i = s.pilotPoint j → i = j) →
            (s.npilot.toNat < 3 ∨ ∀ a < s.npilot.toNat, ∀ b < s.npilot.toNat, ∀ c < s.npilot.toNat,
              orient (s.pilotPoint a) (s.pilotPoint b) (s.pilotPoint c) = 0) →
            exec (.est src) s = .next (s.accept.raise (encode (.est src)) (configError .pilotGeom))))))

/-- The triangulation EST uses is made of triangles on the points that satisfy (T1), (T2), (T3) and (T5)
(43_estimator.md R79, R80), for distinct points, whatever the implementation chooses at ties. (T3) is said on points: no
rational point lies in the interiors of two triangles that stand at different places of the list. (T4) is
TrianglesCoverTheConvexHull. -/
def Obligations.TriangulationSatisfiesDelaunay : Prop :=
  ∀ pts : List Point, pts.Nodup →
    (∀ t ∈ triangulation pts, t.proper pts = true ∧ t.det pts ≠ 0 ∧
      (∀ e < pts.length, t.contains pts (pointAt pts e) = true → e ∈ t.indices) ∧
      (∀ e < pts.length, e ∉ t.indices →
        incircle (pointAt pts t.a) (pointAt pts t.b) (pointAt pts t.c) (pointAt pts e) * t.det pts ≤ 0)) ∧
    (triangulation pts).Pairwise fun t u => ∀ x y : ℚ, ¬ (t.interior pts x y ∧ u.interior pts x y)

/-- The interpolation reproduces the per-pilot estimates (43_estimator.md R87 (b)): for distinct points that are not all on
one line, its value at a pilot is the estimate of that pilot; and EST leaves at the cell of each pilot of a valid set its
per-pilot estimate, passed through `fix`, in every `NUM`. -/
def Obligations.InterpolationReproducesThePilots : Prop :=
  (∀ (v : Valuation) (pts : List Point) (h : List NumK) (j : Nat), pts.Nodup →
    (∃ a < pts.length, ∃ b < pts.length, ∃ c < pts.length,
      orient (pointAt pts a) (pointAt pts b) (pointAt pts c) ≠ 0) →
    h.length = pts.length → j < pts.length →
    (interp pts h (triangulation pts) (pointAt pts j)).value v = (h.getD j NumK.zero).value v) ∧
  (∀ (v : Valuation) (src : Sel) (s t : State), s.errcode = 0 → s.gridValid → s.pilotsValid v →
    exec (.est src) s = .next t → ∀ j < s.npilot.toNat,
      t.element .hg ((s.pilotAt j).d + s.m.toNat * (s.pilotAt j).l) = (t.element .hp j).fix)

/-- If all per-pilot estimates are one value, the interpolation is that value wherever a triangle has the point, and 0
elsewhere (43_estimator.md R87 (c)): the barycentric coordinates sum to 1. And under the reference `NUM` the full-grid
estimate is linear in the received cells, for one pilot set (R87 (d)). -/
def Obligations.EqualEstimatesInterpolateToThemselves : Prop :=
  (∀ (v : Valuation) (pts : List Point) (h : List NumK) (c : ℂ) (q : Point),
    (∀ x ∈ h, x.value v = c) → h.length = pts.length →
    (interp pts h (triangulation pts) q).value v =
      if (triangulation pts).any (fun t => t.contains pts q) then c else 0) ∧
  (∀ (v : Valuation) (src : Sel) (a b : ℂ) (s s' u t t' w : State),
    s.errcode = 0 → s'.errcode = 0 → u.errcode = 0 →
    s.num = .reference → s'.num = .reference → u.num = .reference →
    exec (.est src) s = .next t → exec (.est src) s' = .next t' → exec (.est src) u = .next w →
    t.errcode = 0 → t'.errcode = 0 → w.errcode = 0 →
    s'.m = s.m → s'.n = s.n → u.m = s.m → u.n = s.n → s'.npilot = s.npilot → u.npilot = s.npilot →
    (∀ j < s.npilot.toNat, s'.pilotAt j = s.pilotAt j ∧ u.pilotAt j = s.pilotAt j) →
    s.pilotsFinite v src → s'.pilotsFinite v src → u.pilotsFinite v src →
    (∀ j < s.npilot.toNat, (u.pilotCell src (u.pilotAt j)).value v =
      a * (s.pilotCell src (s.pilotAt j)).value v + b * (s'.pilotCell src (s'.pilotAt j)).value v) →
    ∀ k < s.cells, (w.element .hg k).value v = a * (t.element .hg k).value v + b * (t'.element .hg k).value v)

/-- Distinct points are all on one line exactly when every three of them are (43_estimator.md R78). -/
def Obligations.CollinearityIsDecidedFromTheFirstTwo : Prop :=
  ∀ pts : List Point, pts.Nodup →
    (allCollinear pts = true ↔ ∀ a < pts.length, ∀ b < pts.length, ∀ c < pts.length,
      orient (pointAt pts a) (pointAt pts b) (pointAt pts c) = 0)

/-- The geometric predicates (43_estimator.md R77): their formulas; `orient` is 0 exactly when the three points are on
one line, and changes its sign with the sense of rotation; `incircle * orient` is positive exactly when the point is
strictly inside the circle through the three, 0 when it is on it, negative when it is outside. The circle is given by
its centre `(x, y)` and the square `r` of its radius. -/
def Obligations.OrientAndIncircleDecideLineAndCircle : Prop :=
  ∀ a b c : Point,
    orient a b c = (b.d - a.d) * (c.l - a.l) - (b.l - a.l) * (c.d - a.d) ∧
    (∀ e : Point, incircle a b c e = Matrix.det
      !![a.d - e.d, a.l - e.l, (a.d - e.d) ^ 2 + (a.l - e.l) ^ 2;
         b.d - e.d, b.l - e.l, (b.d - e.d) ^ 2 + (b.l - e.l) ^ 2;
         c.d - e.d, c.l - e.l, (c.d - e.d) ^ 2 + (c.l - e.l) ^ 2]) ∧
    (orient a b c = 0 ↔ ∃ u v w : ℤ, (u ≠ 0 ∨ v ≠ 0) ∧
      u * a.d + v * a.l = w ∧ u * b.d + v * b.l = w ∧ u * c.d + v * c.l = w) ∧
    orient a c b = -orient a b c ∧
    (orient a b c ≠ 0 → ∀ x y r : ℚ,
      (a.d - x) ^ 2 + (a.l - y) ^ 2 = r → (b.d - x) ^ 2 + (b.l - y) ^ 2 = r → (c.d - x) ^ 2 + (c.l - y) ^ 2 = r →
      ∀ e : Point,
        (0 < incircle a b c e * orient a b c ↔ (e.d - x) ^ 2 + (e.l - y) ^ 2 < r) ∧
        (incircle a b c e * orient a b c = 0 ↔ (e.d - x) ^ 2 + (e.l - y) ^ 2 = r) ∧
        (incircle a b c e * orient a b c < 0 ↔ r < (e.d - x) ^ 2 + (e.l - y) ^ 2))

/-! ## Numbers -/

/-- The operations on the model's numbers are those of the reference (00_scope.md R11), as real and complex numbers; a
division by 0 is not asked about. Every real and every complex number is the value of one of them: names stand for any
family of numbers (00_scope.md R10; that numbers are held as data with names is the model's own, log entry 1), and the sign
of a real and whether a complex number is 0 are what the tests of the machine find. Finite operands give finite results, and
`fix` keeps a finite value and replaces any other by 0 (R13). -/
def Obligations.OperationsAreTheReferenceOperations : Prop :=
  (∀ (v : Valuation) (x y : NumK), (NumK.add x y).value v = x.value v + y.value v ∧
    (NumK.sub x y).value v = x.value v - y.value v ∧ (NumK.mul x y).value v = x.value v * y.value v ∧
    (y.value v ≠ 0 → (NumK.div x y).value v = x.value v / y.value v)) ∧
  (∀ (v : Valuation) (r : NumR) (x : NumK), (NumK.scale r x).value v = (r.value v : ℂ) * x.value v ∧
    (NumK.ofReal r).value v = (r.value v : ℂ)) ∧
  (∀ (v : Valuation) (a b : NumR), (NumR.mul a b).value v = a.value v * b.value v ∧
    (b.value v ≠ 0 → (NumR.div a b).value v = a.value v / b.value v) ∧
    (NumK.ofParts a b).value v = (a.value v : ℂ) + Complex.I * (b.value v : ℂ) ∧
    (a.isPositive = true ↔ 0 < a.value v) ∧ (a.isNonneg = true ↔ 0 ≤ a.value v)) ∧
  (∀ (v : Valuation) (q : ℚ), (NumR.ofRat q).value v = (q : ℝ)) ∧
  (∀ v : Valuation, NumK.zero.value v = 0 ∧ NumK.one.value v = 1) ∧
  (∀ (v : Valuation) (x : InputVal), x.val.value v = x.value v ∧ (x.val.finite v ↔ x.isFinite = true) ∧
    (x.isZero = true ↔ x.zero v)) ∧
  (∀ (v : Valuation) (r : NumR) (x y : NumK), x.finite v → y.finite v →
    (NumK.add x y).finite v ∧ (NumK.sub x y).finite v ∧ (NumK.mul x y).finite v ∧ (NumK.div x y).finite v ∧
      (NumK.scale r x).finite v) ∧
  (∀ (v : Valuation) (x : NumK), (x.finite v → x.fix.meaning v = x.meaning v) ∧
    (¬ x.finite v → x.fix.meaning v = .number 0) ∧ (x.isNumber = true → x.finite v)) ∧
  (∀ r : ℕ → ℝ, ∃ (v : Valuation) (x : ℕ → NumR), ∀ k, (x k).value v = r k) ∧
  (∀ z : ℕ → ℂ, ∃ (v : Valuation) (x : ℕ → InputK), ∀ k, (x k).value v = z k)

/-- The phase primitive, at every real number, is `exp(i*2*pi*x)` and satisfies the laws of 00_scope.md R12. -/
def Obligations.PhasePrimitiveLaws : Prop :=
  (∀ v : Valuation,
    (∀ x : NumR, (ph x).value v = Complex.exp (2 * Real.pi * Complex.I * (x.value v : ℂ))) ∧
    (∀ x : NumR, x.value v = 0 → (ph x).value v = 1) ∧
    (∀ x y z : NumR, z.value v = x.value v + y.value v → (ph z).value v = (ph x).value v * (ph y).value v) ∧
    (∀ (x : NumR) (n : ℤ), x.value v = n → (ph x).value v = 1) ∧
    (∀ x : NumR, ‖(ph x).value v‖ = 1) ∧
    (∀ x : NumR, x.value v = 1 / 4 → (ph x).value v = Complex.I) ∧
    (∀ x : NumR, x.value v = 1 / 2 → (ph x).value v = -1) ∧
    (∀ x : NumR, x.value v = 3 / 4 → (ph x).value v = -Complex.I) ∧
    (∀ x y : NumR, y.value v = -x.value v → (ph y).value v = (starRingEnd ℂ) ((ph x).value v)) ∧
    (∀ (n : ℕ) (a : ℤ), 1 ≤ n →
      ∑ k ∈ Finset.range n, (ph (NumR.ofRat ((a : ℚ) * k / n))).value v = if (n : ℤ) ∣ a then (n : ℂ) else 0))

/-- Two sums of rational multiples of roots of unity have the same canonical form exactly when they are the same complex
number, and the canonical form is canonical: equality of canonical data is equality in the reference (00_scope.md R10, R14;
the representation is the model's own, log entry 2). On any number, taking the canonical form of its parts keeps its value.
-/
def Obligations.CanonicalFormsDecideEquality : Prop :=
  (∀ x y : Cyc, (x.normalise = y.normalise ↔ x.value = y.value) ∧ x.normalise.canonical = true ∧
    (x.canonical = true → x.normalise = x)) ∧
  (∀ x : NumK, x.normalise.canonical = true ∧ (x.canonical = true → x.normalise = x) ∧
    ∀ v : Valuation, x.normalise.value v = x.value v)

/-! ## Reset and the host's accesses -/

/-- After reset every integer register is 0, FS is the real number 0, no table or buffer element has been written, and with
these values alone NOP, GI.INS and GI.REM succeed on the empty sequence while MOD, DEMOD and EST raise ConfigurationError(M)
and CHAN raises ConfigurationError(FS) (10_state.md R30). -/
def Obligations.ResetValues : Prop :=
  (∀ no ≤ 13, State.reset.readReg no = .u32 0) ∧ State.reset.readReg 14 = .real (.real (NumR.ofRat 0)) ∧
  (∀ b : Buf, State.reset.buf b = []) ∧ State.reset.pathDelay = [] ∧ State.reset.pathGain = [] ∧
  State.reset.pathDoppler = [] ∧ State.reset.pilotDidx = [] ∧ State.reset.pilotLidx = [] ∧
  State.reset.pilotPval = [] ∧
  (∃ t, exec .nop State.reset = .next t ∧ t.succeeded) ∧
  (∀ a b : Sel, (∃ t, exec (.giIns a b) State.reset = .next t ∧ t.succeeded ∧ t.tlen b = 0) ∧
    (∃ t, exec (.giRem a b) State.reset = .next t ∧ t.succeeded ∧ t.tlen b = 0) ∧
    (∃ t, exec (.mod a b) State.reset = .next t ∧ t.errcode = 2 ∧ t.errinfo = 1) ∧
    (∃ t, exec (.demod a b) State.reset = .next t ∧ t.errcode = 2 ∧ t.errinfo = 1) ∧
    (∃ t, exec (.est a) State.reset = .next t ∧ t.errcode = 2 ∧ t.errinfo = 1) ∧
    (∃ t, exec (.chan a b) State.reset = .next t ∧ t.errcode = 2 ∧ t.errinfo = 7))

/-- The reset action takes any state between commands to the reset values, whatever the tables and buffers held
(70_reset_and_hazards.md R105); the count of resets, which makes the unspecified elements other ones, is the model's
own (log entry 4); the sizes, `NUM` and the host's further actions are no state of the core (log entry 15). -/
def Obligations.ResetActionRestoresResetValues : Prop :=
  ∀ s : State, s.busy = false →
    hostStep .reset s =
      .next { State.reset with caps := s.caps, num := s.num, resets := s.resets + 1, host := s.host }

/-- A host write to a configuration register stores the value, whatever it is, and raises nothing; it is read back unchanged,
and no other register reads otherwise (10_state.md R22, R24). Registers 5 to 12 are M, N, GLEN, GMODE, NPATH, NPILOT, TLEN0
and TLEN1, as the commands read them, 1 is STATUS, 2 ERRCODE, 3 ERRINFO, 4 ERRCMD, 13 HPLEN and 14 FS. A write to STATUS,
ERRINFO, ERRCMD or HPLEN is ignored, and CMD reads 0 (R22, R23). -/
def Obligations.RegisterWritesAreReadBack : Prop :=
  ∀ (s : State), s.busy = false →
    (∀ (no : Nat) (v : Word), 5 ≤ no → no ≤ 12 →
      ∃ t, hostStep (.writeReg no (.u32 v)) s = .next t ∧ t.readReg no = .u32 v ∧
        (∀ other, other ≠ no → t.readReg other = s.readReg other) ∧
        (∀ b, t.buf b = s.buf b) ∧ t.pathDelay = s.pathDelay ∧ t.pathGain = s.pathGain ∧
        t.pathDoppler = s.pathDoppler ∧ t.pilotDidx = s.pilotDidx ∧ t.pilotLidx = s.pilotLidx ∧
        t.pilotPval = s.pilotPval) ∧
    (∀ v : Word, hostStep (.writeReg 5 (.u32 v)) s = .next { s with m := v } ∧
      hostStep (.writeReg 6 (.u32 v)) s = .next { s with n := v } ∧
      hostStep (.writeReg 7 (.u32 v)) s = .next { s with glen := v } ∧
      hostStep (.writeReg 8 (.u32 v)) s = .next { s with gmode := v } ∧
      hostStep (.writeReg 9 (.u32 v)) s = .next { s with npath := v } ∧
      hostStep (.writeReg 10 (.u32 v)) s = .next { s with npilot := v } ∧
      hostStep (.writeReg 11 (.u32 v)) s = .next { s with tlen0 := v } ∧
      hostStep (.writeReg 12 (.u32 v)) s = .next { s with tlen1 := v }) ∧
    (∀ r : RVal, s.num.admitsR r = true → hostStep (.writeReg 14 (.real r)) s = .next { s with fs := r } ∧
      State.readReg { s with fs := r } 14 = .real r) ∧
    (∀ (no : Nat) (v : Word), no = 1 ∨ no = 3 ∨ no = 4 ∨ no = 13 →
      hostStep (.writeReg no (.u32 v)) s = .next s) ∧
    s.readReg 0 = .u32 0 ∧ s.readReg 1 = .u32 s.status ∧ s.readReg 2 = .u32 s.errcode ∧ s.readReg 3 = .u32 s.errinfo ∧
    s.readReg 4 = .u32 s.errcmd ∧ s.readReg 5 = .u32 s.m ∧ s.readReg 6 = .u32 s.n ∧ s.readReg 7 = .u32 s.glen ∧
    s.readReg 8 = .u32 s.gmode ∧ s.readReg 9 = .u32 s.npath ∧ s.readReg 10 = .u32 s.npilot ∧
    s.readReg 11 = .u32 s.tlen0 ∧ s.readReg 12 = .u32 s.tlen1 ∧ s.readReg 13 = .u32 s.hplen ∧ s.readReg 14 = .real s.fs

/-- A host write to an element of a buffer stores the number, and every other element of every buffer and every other
register and table is as before (20_memory.md R38, R42; 10_state.md R24). -/
def Obligations.BufferWritesAreReadBack : Prop :=
  ∀ (s : State) (b : Buf) (i : Nat) (x : InputVal), s.busy = false → i < capacityOf s.caps b →
    s.num.admitsK x = true →
    ∃ t, hostStep (.writeBuf b i x) s = .next t ∧ (∀ v : Valuation, (t.readBuf b i).value v = x.value v) ∧
      (t.readBuf b i).isNumber = x.isFinite ∧ (∀ z, x = .special z → t.readBuf b i = .special z) ∧
      (∀ (c : Buf) (k : Nat), (c ≠ b ∨ k ≠ i) → t.readBuf c k = s.readBuf c k) ∧
      s.sameConfiguration t ∧ ∀ no, t.readReg no = s.readReg no

/-- A host write to a field of a table entry stores the value, and every other field of every entry, every register and
every buffer is as before (10_state.md R24 to R26). -/
def Obligations.TableWritesAreReadBack : Prop :=
  ∀ (s : State) (j : Nat), s.busy = false →
    (j < s.caps.pcap → ∀ (delay : Word) (gain doppler : RVal),
      s.num.admitsR gain = true → s.num.admitsR doppler = true →
      (∃ t, hostStep (.writePath j (.delay delay)) s = .next t ∧ t.delayAt j = delay ∧
        (∀ k, k ≠ j → t.delayAt k = s.delayAt k) ∧ t = { s with pathDelay := t.pathDelay }) ∧
      (∃ t, hostStep (.writePath j (.gain gain)) s = .next t ∧ t.gainAt j = gain ∧
        (∀ k, k ≠ j → t.gainAt k = s.gainAt k) ∧ t = { s with pathGain := t.pathGain }) ∧
      (∃ t, hostStep (.writePath j (.doppler doppler)) s = .next t ∧ t.dopplerAt j = doppler ∧
        (∀ k, k ≠ j → t.dopplerAt k = s.dopplerAt k) ∧ t = { s with pathDoppler := t.pathDoppler })) ∧
    (j < s.caps.qcap → ∀ (d l : Word) (p : InputVal), s.num.admitsK p = true →
      (∃ t, hostStep (.writePilot j (.didx d)) s = .next t ∧ t.didxAt j = d ∧
        (∀ k, k ≠ j → t.didxAt k = s.didxAt k) ∧ t = { s with pilotDidx := t.pilotDidx }) ∧
      (∃ t, hostStep (.writePilot j (.lidx l)) s = .next t ∧ t.lidxAt j = l ∧
        (∀ k, k ≠ j → t.lidxAt k = s.lidxAt k) ∧ t = { s with pilotLidx := t.pilotLidx }) ∧
      (∃ t, hostStep (.writePilot j (.pval p)) s = .next t ∧ (∀ v : Valuation, (t.pvalAt j).value v = p.value v) ∧
        (t.pvalAt j).isFinite = p.isFinite ∧ (∀ z, p = .special z → t.pvalAt j = .special z) ∧
        (∀ k, k ≠ j → t.pvalAt k = s.pvalAt k) ∧ t = { s with pilotPval := t.pilotPval }))

/-- The host's accesses (20_memory.md R38, 70_reset_and_hazards.md R107): one outside its address space gets no next
state; neither does a write whose value is not of the type of its place (10_state.md R22), of the wrong kind for a register
or, under a `NUM` without non-finite encodings, non-finite (00_scope.md R13), nor any access but a read of STATUS while a
command is in progress; every other gets one, a read of STATUS while busy among them; and a read changes no state. That the
stops are these faults and refusals is the model's own (log entry 8). -/
def Obligations.OnlyAdmittedAccessesHaveAStep : Prop :=
  ∀ (s : State) (a : HostAction),
    (s.busy = true → a ≠ .readReg 1 → hostStep a s = .refused (.busy a)) ∧
    hostStep (.readReg 1) s = .next s ∧
    (s.busy = false → a.inRange s.caps = false → hostStep a s = .fault (.outsideSpace a)) ∧
    (s.busy = false → a.inRange s.caps = true → a.typed s.num = false → hostStep a s = .refused (.wrongType a)) ∧
    (a.typed s.num = false ↔
      (∃ r, ∃ no ≠ 14, a = .writeReg no (.real r)) ∨ (∃ w, a = .writeReg 14 (.u32 w)) ∨
      (s.num.hasSpecials = false ∧
        ((∃ x, a = .writeReg 14 (.real (.special x))) ∨ (∃ j x, a = .writePath j (.gain (.special x))) ∨
          (∃ j x, a = .writePath j (.doppler (.special x))) ∨ (∃ j x, a = .writePilot j (.pval (.special x))) ∨
          (∃ b i x, a = .writeBuf b i (.special x))))) ∧
    (s.busy = false → a.wellFormed s.caps s.num = true → ∃ t, hostStep a s = .next t) ∧
    (((∃ no, a = .readReg no) ∨ (∃ j f, a = .readPath j f) ∨ (∃ j f, a = .readPilot j f) ∨
      (∃ b i, a = .readBuf b i)) → ∀ t, hostStep a s = .next t → t = s)

/-! ## Invariants -/

/-- The invariants hold after reset (10_state.md R30), with the model's choice of sizes (log entry 3). -/
def Obligations.InvariantHoldsAtReset : Prop :=
  State.reset.Inv ∧ State.reset.numbersCanonical

/-- Every step keeps the invariant: no command is left in progress, memories keep their canonical form and stay inside
their address spaces (20_memory.md R34), the error latch stays consistent and never holds code 3 (60_exceptions.md
R92, R97, R99), HPLEN describes HP, and under a `NUM` without non-finite encodings
every stored value stays finite (00_scope.md R13). -/
def Obligations.EveryStepKeepsTheInvariant : Prop :=
  ∀ s s' : State, s.Inv → step s = .next s' → s'.Inv

/-- Every step keeps every stored number in its canonical form: the parts of it that are computed exactly stay one datum for
each number (log entry 2). -/
def Obligations.EveryStepKeepsNumbersCanonical : Prop :=
  ∀ s s' : State, s.numbersCanonical → step s = .next s' → s'.numbersCanonical

/-- From a state between commands every step on an admitted host action answers a next state: there is no command, word
or configuration without a successor, and every command finishes (70_reset_and_hazards.md R107). The idle step is the
model's own (log entry 7). -/
def Obligations.EveryAdmittedStepHasASuccessor : Prop :=
  ∀ s : State, s.Inv → (∀ a rest, s.host = a :: rest → a.wellFormed s.caps s.num = true) →
    ∃ s', step s = .next s' ∧ s'.Inv

/-! ## The triangulation covers the hull, and the finite-precision `NUM` -/

/-- (T4) of 43_estimator.md R79, at the integer points, which are all that EST asks about: for distinct points that are not
all on one line, a point lies in the convex hull exactly when it lies in a closed triangle of the triangulation EST uses,
whatever the implementation chooses at ties. -/
def Obligations.TrianglesCoverTheConvexHull : Prop :=
  ∀ pts : List Point, pts.Nodup →
    (∃ a < pts.length, ∃ b < pts.length, ∃ c < pts.length,
      orient (pointAt pts a) (pointAt pts b) (pointAt pts c) ≠ 0) →
    ∀ q : Point, inHull pts q ↔ ∃ t ∈ triangulation pts, t.contains pts q = true

/-- The finite-precision `NUM` (00_scope.md R14): on inputs that are finite (R16), each command ends as under the reference
`NUM` on the same inputs, with the same error or the same lengths, and each element it writes agrees with the reference's
within `TOL`, but for an EST with a division that overflows (43_estimator.md R84), which is seen in a non-finite element of
HP; relative to the largest of them is the model's reading of `TOL` (log entry 13). Exactly as under the reference are (a)
the outputs of GI.INS and GI.REM; (b) the zeros of CHAN before every path's delay, at a delay of the length or more and
without paths; (c) the single path without Doppler, which gives the gain times the delayed samples. The zeros outside the
hull are in EstCompletesOnValidPilots, the guard of MOD in ModWritesTheInverseTransform, the round trip in
DemodulationInvertsModulation. -/
def Obligations.FinitePrecisionAgreesWithTheReference : Prop :=
  (∀ (v : Valuation) (i : Instr) (s s' t r : State), s.errcode = 0 → s.sameReads s' i → s'.num = .reference →
    s.inputsFinite v i → exec i s = .next t → exec i s' = .next r →
    (∀ src, i = .est src → t.errcode = 0 → ∀ j < s.npilot.toNat, (t.element .hp j).finite v) →
      t.done = r.done ∧ t.errcode = r.errcode ∧
      (t.errcode ≠ 0 → t.errinfo = r.errinfo ∧ t.errcmd = r.errcmd) ∧
      (t.errcode = 0 →
        (∀ sel, writesTlen i sel = true → t.tlen sel = r.tlen sel) ∧ (∀ src, i = .est src → t.hplen = r.hplen) ∧
        ∀ b : Buf, s.num.agree (s.writtenLength i b) (fun k => (t.element b k).value v)
          fun k => (r.element b k).value v)) ∧
  (∀ (op : Sel → Sel → Instr), (op = .giIns ∨ op = .giRem) →
    ∀ (src dst : Sel) (s s' t r : State), s.errcode = 0 → s.sameReads s' (op src dst) → s'.num = .reference →
      exec (op src dst) s = .next t → exec (op src dst) s' = .next r → t.errcode = 0 →
      ∀ k < s.writtenLength (op src dst) (tBuf dst), t.element (tBuf dst) k = r.element (tBuf dst) k) ∧
  (∀ (v : Valuation) (src dst : Sel) (s t : State), s.errcode = 0 → exec (.chan src dst) s = .next t →
    t.errcode = 0 →
    (∀ k < (s.tlen src).toNat, (∀ j < s.npath.toNat, k < (s.delayAt j).toNat) →
      t.element (tBuf dst) k = NumK.zero) ∧
    (s.npath = 1 → (s.dopplerAt 0).value v = 0 → ∀ k < (s.tlen src).toNat, (s.delayAt 0).toNat ≤ k →
      s.channelFinite v src k →
      (t.element (tBuf dst) k).value v =
        ((s.gainAt 0).value v : ℂ) * (s.element (tBuf src) (k - (s.delayAt 0).toNat)).value v))
end

