-- ==== Sys2Proof/Laws/Numeric.lean ====
section
/-! SUPPORT. The numbers of the model stand for the complex numbers of the reference (00_scope.md R11, R12): taking the
canonical form of a list of terms keeps its value, the operations on reals are those of the reference, and rounding does
what 00_scope.md R14 allows. -/

namespace Sys2Proof

/-! ## The phase -/

@[simp] theorem phase_zero : phase 0 = 1 := by simp [phase]

theorem phase_add (x y : ℝ) : phase (x + y) = phase x * phase y := by
  rw [phase, phase, phase, ← Complex.exp_add]
  push_cast
  ring_nf

theorem phase_intCast (n : ℤ) : phase n = 1 := by
  rw [phase]
  simpa [mul_comm, mul_left_comm, mul_assoc] using Complex.exp_int_mul_two_pi_mul_I n

/-- The phase at a rational number. -/
noncomputable def ratPhase (x : ℚ) : ℂ := phase x

theorem ratPhase_eq (x : ℚ) : ratPhase x = Complex.exp (2 * Real.pi * Complex.I * (x : ℂ)) := by
  rw [ratPhase, phase, Complex.ofReal_ratCast]

theorem Term.value_eq (t : Term) : t.value = (t.coeff : ℂ) * ratPhase t.turn := rfl

@[simp] theorem ratPhase_zero : ratPhase 0 = 1 := by simp [ratPhase_eq]

theorem ratPhase_add (x y : ℚ) : ratPhase (x + y) = ratPhase x * ratPhase y := by
  rw [ratPhase, Rat.cast_add, phase_add, ratPhase, ratPhase]

theorem ratPhase_intCast (n : ℤ) : ratPhase n = 1 := by rw [ratPhase, Rat.cast_intCast, phase_intCast]

theorem ratPhase_sub_intCast (x : ℚ) (n : ℤ) : ratPhase (x - n) = ratPhase x := by
  have h := ratPhase_add (x - n) n
  rw [sub_add_cancel, ratPhase_intCast, mul_one] at h
  exact h.symm

theorem ratPhase_fract (x : ℚ) : ratPhase (Int.fract x) = ratPhase x := ratPhase_sub_intCast x ⌊x⌋

theorem ratPhase_neg_mul (x : ℚ) : ratPhase (-x) * ratPhase x = 1 := by
  rw [← ratPhase_add, neg_add_cancel, ratPhase_zero]

theorem ratPhase_natCast_mul (n : ℕ) (x : ℚ) : ratPhase (n * x) = ratPhase x ^ n := by
  induction n with
  | zero => simp
  | succ n ih => rw [Nat.cast_succ, add_mul, one_mul, ratPhase_add, ih, pow_succ]

/-- `ph(-1/p)` is a primitive root of unity of order `p`. -/
theorem isPrimitiveRoot_ratPhase {p : ℕ} (hp : p ≠ 0) : IsPrimitiveRoot (ratPhase (-(1 / (p : ℚ)))) p := by
  have h := (Complex.isPrimitiveRoot_exp p hp).inv
  rw [← Complex.exp_neg] at h
  have e : ratPhase (-(1 / (p : ℚ))) = Complex.exp (-(2 * Real.pi * Complex.I / p)) := by
    rw [ratPhase_eq]
    congr 1
    push_cast
    ring
  rw [e]
  exact h

/-- The relation of a prime: the numbers `ph(q - j/p)`, `j = 0 .. p-1`, sum to 0. -/
theorem sum_ratPhase_sub_eq_zero {p : ℕ} (hp : 2 ≤ p) (q : ℚ) :
    ∑ j ∈ Finset.range p, ratPhase (q - j / (p : ℚ)) = 0 := by
  have h : ∀ j : ℕ, ratPhase (q - j / (p : ℚ)) = ratPhase q * ratPhase (-(1 / (p : ℚ))) ^ j := fun j => by
    rw [← ratPhase_natCast_mul, ← ratPhase_add]
    congr 1
    ring
  simp only [h, ← Finset.mul_sum]
  rw [(isPrimitiveRoot_ratPhase (by omega)).geom_sum_eq_zero (by omega), mul_zero]

/-! ## The value of a list of terms -/

@[simp] theorem termsValue_nil : termsValue [] = 0 := rfl

@[simp] theorem termsValue_cons (t : Term) (ts : List Term) : termsValue (t :: ts) = t.value + termsValue ts := by
  simp [termsValue]

@[simp] theorem termsValue_append (ts us : List Term) : termsValue (ts ++ us) = termsValue ts + termsValue us := by
  simp [termsValue]

theorem termsValue_flatMap {f : Term → List Term} {ts : List Term}
    (h : ∀ t ∈ ts, termsValue (f t) = t.value) : termsValue (ts.flatMap f) = termsValue ts := by
  induction ts with
  | nil => rfl
  | cons t ts ih =>
    rw [List.flatMap_cons, termsValue_append, termsValue_cons, h t (by simp),
      ih fun u hu => h u (by simp [hu])]

@[simp] theorem Term.value_fract (x c : ℚ) : Term.value ⟨Int.fract x, c⟩ = Term.value ⟨x, c⟩ := by
  simp [Term.value_eq, ratPhase_fract]

theorem sum_map_range_eq (f : ℕ → ℂ) (n : ℕ) :
    ((List.range n).map f).sum = ∑ j ∈ Finset.range n, f j := by
  induction n with
  | zero => rfl
  | succ n ih => rw [List.range_succ, List.map_append, List.sum_append, ih, Finset.sum_range_succ]; simp

/-- A reduction by the relation of a prime keeps the value. -/
theorem termsValue_reduceAt {p : ℕ} (hp : 2 ≤ p) (t : Term) : termsValue (t.reduceAt p) = t.value := by
  unfold Term.reduceAt
  split
  · have h := sum_ratPhase_sub_eq_zero hp t.turn
    obtain ⟨k, rfl⟩ : ∃ k, p = k + 1 := ⟨p - 1, by omega⟩
    rw [Finset.sum_range_succ'] at h
    simp only [Nat.cast_zero, zero_div, sub_zero] at h
    have hf : ∀ j : ℕ, Term.value ⟨Int.fract (t.turn - (j + 1 : ℕ) / ((k + 1 : ℕ) : ℚ)), -t.coeff⟩ =
        -(t.coeff : ℂ) * ratPhase (t.turn - (j + 1 : ℕ) / ((k + 1 : ℕ) : ℚ)) := fun j => by
      simp only [Term.value_eq, ratPhase_fract, Rat.cast_neg]
    rw [Nat.add_sub_cancel, termsValue, List.map_map, sum_map_range_eq]
    simp only [Function.comp_def, hf, ← Finset.mul_sum]
    rw [eq_neg_of_add_eq_zero_left h, Term.value_eq]
    ring
  · simp

theorem two_le_of_mem_primeDivisors {p n : ℕ} (h : p ∈ primeDivisors n) : 2 ≤ p := by
  simp only [primeDivisors, List.mem_filter, Bool.and_eq_true, decide_eq_true_eq] at h
  exact h.2.1.1

/-- The expansion of a term keeps its value. -/
theorem termsValue_expand (t : Term) : termsValue t.expand = t.value := by
  have h : ∀ (ps : List ℕ) (ts : List Term), (∀ p ∈ ps, 2 ≤ p) →
      termsValue (ps.foldl (fun ts p => ts.flatMap (Term.reduceAt p)) ts) = termsValue ts := by
    intro ps
    induction ps with
    | nil => intro ts _; rfl
    | cons p ps ih =>
      intro ts hps
      rw [List.foldl_cons, ih _ fun q hq => hps q (by simp [hq])]
      exact termsValue_flatMap fun t _ => termsValue_reduceAt (hps p (by simp)) t
  rw [Term.expand, h _ _ fun p hp => two_le_of_mem_primeDivisors hp]
  simp

/-- Adding a term to an ordered list adds its value. -/
theorem termsValue_insert (t : Term) (ts : List Term) : termsValue (t.insert ts) = t.value + termsValue ts := by
  induction ts with
  | nil =>
    unfold Term.insert
    split
    · rename_i h
      simp [Term.value_eq, h]
    · simp
  | cons u us ih =>
    unfold Term.insert
    split
    · split
      · rename_i h
        simp [Term.value_eq, h]
      · simp
    · split
      · rename_i h
        split
        · rename_i hc
          have hc' : (t.coeff : ℂ) + u.coeff = 0 := by exact_mod_cast hc
          simp only [termsValue_cons, Term.value_eq, h]
          rw [← add_assoc, ← add_mul, hc', zero_mul, zero_add]
        · simp only [termsValue_cons, Term.value_eq, h]
          push_cast
          ring
      · rw [termsValue_cons, ih, termsValue_cons]
        ring

/-- Taking the canonical form of a list of terms keeps its value. -/
theorem termsValue_normaliseTerms (ts : List Term) : termsValue (normaliseTerms ts) = termsValue ts := by
  have h : ∀ us : List Term, termsValue (us.foldr Term.insert []) = termsValue us := by
    intro us
    induction us with
    | nil => rfl
    | cons u us ih => rw [List.foldr_cons, termsValue_insert, ih, termsValue_cons]
  rw [normaliseTerms, h]
  exact termsValue_flatMap fun t _ => termsValue_expand t

@[simp] theorem Cyc.value_normalise (x : Cyc) : x.normalise.value = x.value := termsValue_normaliseTerms x.terms

@[simp] theorem Cyc.value_zero : Cyc.zero.value = 0 := rfl

@[simp] theorem Cyc.value_one : Cyc.one.value = 1 := by
  simp [Cyc.value, Cyc.one, Term.value_eq]

theorem Cyc.value_ofParts (re im : ℚ) : (Cyc.ofParts re im).value = (re : ℂ) + Complex.I * (im : ℂ) := by
  have h : ratPhase (1 / 4) = Complex.I := by
    have e : 2 * (Real.pi : ℂ) * Complex.I * (1 / 4) = Real.pi / 2 * Complex.I := by ring
    rw [ratPhase_eq]
    push_cast
    rw [e, Complex.exp_pi_div_two_mul_I]
  have h1 : termsValue (if re = 0 then [] else [⟨0, re⟩]) = (re : ℂ) := by
    split
    · rename_i h0
      simp [h0]
    · simp [Term.value_eq]
  have h2 : termsValue (if im = 0 then [] else [⟨1 / 4, im⟩]) = Complex.I * (im : ℂ) := by
    split
    · rename_i h0
      simp [h0]
    · rw [termsValue_cons, Term.value_eq, h, termsValue_nil, add_zero, mul_comm]
  rw [Cyc.value, Cyc.ofParts, termsValue_append, h1, h2]

/-! ## Real numbers -/

/-- The product of the named factors is positive, so that the sign of a real is that of its coefficient. -/
theorem NumR.powers_pos (v : Valuation) (ps : List (ℕ × ℤ)) : 0 < (ps.map fun p => v.real p.1 ^ p.2).prod := by
  induction ps with
  | nil => simp
  | cons p ps ih =>
    rw [List.map_cons, List.prod_cons]
    exact mul_pos (zpow_pos (v.real_pos _) _) ih

theorem NumR.value_eq (v : Valuation) (x : NumR) :
    x.value v = (x.coeff : ℝ) * (x.powers.map fun p => v.real p.1 ^ p.2).prod := rfl

theorem NumR.isPositive_iff (v : Valuation) (x : NumR) : x.isPositive = true ↔ 0 < x.value v := by
  rw [NumR.value_eq, mul_pos_iff_of_pos_right (NumR.powers_pos v _), NumR.isPositive, decide_eq_true_eq]
  exact_mod_cast Iff.rfl

theorem NumR.isNonneg_iff (v : Valuation) (x : NumR) : x.isNonneg = true ↔ 0 ≤ x.value v := by
  rw [NumR.value_eq, mul_nonneg_iff_of_pos_right (NumR.powers_pos v _), NumR.isNonneg, decide_eq_true_eq]
  exact_mod_cast Iff.rfl

theorem NumR.isZero_iff (v : Valuation) (x : NumR) : x.isZero = true ↔ x.value v = 0 := by
  rw [NumR.value_eq, mul_eq_zero, or_iff_left (NumR.powers_pos v _).ne', NumR.isZero, decide_eq_true_eq]
  exact_mod_cast Iff.rfl

theorem NumR.value_ofRat (v : Valuation) (q : ℚ) : (NumR.ofRat q).value v = q := by
  simp [NumR.value_eq, NumR.ofRat]

theorem NumR.value_named (v : Valuation) (name : ℕ) : (NumR.named name).value v = v.real name := by
  simp [NumR.value_eq, NumR.named]

theorem prod_insertPower (v : Valuation) (name : ℕ) (e : ℤ) (ps : List (ℕ × ℤ)) :
    ((insertPower name e ps).map fun p => v.real p.1 ^ p.2).prod =
      v.real name ^ e * (ps.map fun p => v.real p.1 ^ p.2).prod := by
  induction ps with
  | nil =>
    unfold insertPower
    split
    · rename_i h
      simp [h]
    · simp
  | cons p ps ih =>
    obtain ⟨other, f⟩ := p
    unfold insertPower
    split
    · split
      · rename_i h
        simp [h]
      · simp
    · split
      · rename_i h
        subst h
        split
        · rename_i h0
          rw [List.map_cons, List.prod_cons, ← mul_assoc, ← zpow_add₀ (v.real_pos name).ne', h0, zpow_zero, one_mul]
        · rw [List.map_cons, List.prod_cons, List.map_cons, List.prod_cons, ← mul_assoc,
            ← zpow_add₀ (v.real_pos name).ne']
      · rw [List.map_cons, List.prod_cons, ih, List.map_cons, List.prod_cons]
        ring

theorem NumR.value_mul (v : Valuation) (x y : NumR) : (NumR.mul x y).value v = x.value v * y.value v := by
  have h : ∀ ps : List (ℕ × ℤ),
      ((ps.foldr (fun p qs => insertPower p.1 p.2 qs) y.powers).map fun p => v.real p.1 ^ p.2).prod =
        (ps.map fun p => v.real p.1 ^ p.2).prod * (y.powers.map fun p => v.real p.1 ^ p.2).prod := by
    intro ps
    induction ps with
    | nil => simp
    | cons p ps ih => rw [List.foldr_cons, prod_insertPower, ih, List.map_cons, List.prod_cons, mul_assoc]
  unfold NumR.mul
  split
  · rename_i h0
    have h0' : (x.coeff : ℝ) * y.coeff = 0 := by exact_mod_cast h0
    rw [NumR.value_ofRat, NumR.value_eq, NumR.value_eq, mul_mul_mul_comm, h0']
    simp
  · rw [NumR.value_eq, h, NumR.value_eq, NumR.value_eq]
    push_cast
    ring

theorem NumR.value_inv (v : Valuation) (x : NumR) : x.inv.value v = (x.value v)⁻¹ := by
  have h : ∀ ps : List (ℕ × ℤ), ((ps.map fun p => (p.1, -p.2)).map fun p => v.real p.1 ^ p.2).prod =
      ((ps.map fun p => v.real p.1 ^ p.2).prod)⁻¹ := by
    intro ps
    induction ps with
    | nil => simp
    | cons p ps ih =>
      rw [List.map_cons, List.map_cons, List.prod_cons, ih, List.map_cons, List.prod_cons, mul_inv, zpow_neg]
  rw [NumR.value_eq, NumR.inv, h, NumR.value_eq, mul_inv]
  push_cast
  ring

theorem NumR.value_div (v : Valuation) (x y : NumR) : (NumR.div x y).value v = x.value v / y.value v := by
  rw [NumR.div, NumR.value_mul, NumR.value_inv, div_eq_mul_inv]

/-! ## Complex numbers -/

theorem NumK.value_exact (v : Valuation) (x : Cyc) : (NumK.exact x).value v = x.value := rfl
theorem NumK.value_parts (v : Valuation) (re im : NumR) : (NumK.parts re im).value v = partsValue v re im := rfl
theorem NumK.value_phase (v : Valuation) (x : NumR) : (NumK.phase x).value v = Sys2Proof.phase (x.value v) := rfl
theorem NumK.value_plus (v : Valuation) (x y : NumK) : (NumK.plus x y).value v = x.value v + y.value v := rfl
theorem NumK.value_times (v : Valuation) (x y : NumK) : (NumK.times x y).value v = x.value v * y.value v := rfl
theorem NumK.value_scaled (v : Valuation) (r : NumR) (x : NumK) :
    (NumK.scaled r x).value v = (r.value v : ℂ) * x.value v := rfl
theorem NumK.value_ratio (v : Valuation) (x y : NumK) : (NumK.ratio x y).value v = x.value v / y.value v := rfl
theorem NumK.value_larger (v : Valuation) (x y : NumK) :
    (NumK.larger x y).value v = if ‖y.value v‖ ≤ ‖x.value v‖ then x.value v else y.value v := rfl
theorem NumK.value_rounded (v : Valuation) (e : ℕ) (tol : ℚ) (x size : NumK) :
    (NumK.rounded e tol x size).value v =
      x.value v + ((max 0 tol : ℚ) : ℂ) * (‖size.value v‖ : ℂ) * (v.choice e).error := rfl
theorem NumK.meaning_quotient (v : Valuation) (name : ℕ) (x y : NumK) :
    (NumK.quotient name x y).meaning v = quotientValue (v.choice name).overflow (x.value v) (y.value v) := rfl

/-- A choice by `is_finite` (00_scope.md R13). -/
theorem NumK.meaning_ifFinite (v : Valuation) (x y z : NumK) [Decidable (x.finite v)] :
    (NumK.ifFinite x y z).meaning v = if x.finite v then y.meaning v else z.meaning v := by
  have e : (NumK.ifFinite x y z).meaning v =
      match x.meaning v with
      | .number _ => y.meaning v
      | .special _ => z.meaning v := rfl
  rw [e]
  cases h : x.meaning v with
  | number a => rw [if_pos (by rw [NumK.finite, h]; trivial)]
  | special a => rw [if_neg (by rw [NumK.finite, h]; exact not_false)]

/-- A choice by whether a number is 0. -/
theorem NumK.meaning_ifZero (v : Valuation) (x y z : NumK) [Decidable (x.finite v ∧ x.value v = 0)] :
    (NumK.ifZero x y z).meaning v = if x.finite v ∧ x.value v = 0 then y.meaning v else z.meaning v := by
  have e : (NumK.ifZero x y z).meaning v =
      match x.meaning v with
      | .number a => if a = 0 then y.meaning v else z.meaning v
      | .special _ => z.meaning v := rfl
  rw [e]
  cases h : x.meaning v with
  | number a => simp [NumK.finite, NumK.value, h, KValue.finite, KValue.toComplex]
  | special a => simp [NumK.finite, h, KValue.finite]

@[simp] theorem NumK.value_zero (v : Valuation) : NumK.zero.value v = 0 := rfl

@[simp] theorem NumK.value_one (v : Valuation) : NumK.one.value v = 1 := Cyc.value_one

theorem NumK.value_ofParts (v : Valuation) (re im : NumR) : (NumK.ofParts re im).value v = partsValue v re im := by
  unfold NumK.ofParts
  split
  · rename_i h
    simp [NumK.value_exact, Cyc.value_ofParts, partsValue, NumR.value_eq, h.1, h.2]
  · rfl

theorem InputK.value_num (v : Valuation) (x : InputK) : x.num.value v = x.value v := by
  cases x with
  | exact x => rfl
  | parts re im => exact NumK.value_ofParts v re im

theorem InputK.value_normalise (v : Valuation) (x : InputK) : x.normalise.value v = x.value v := by
  cases x with
  | exact x => exact Cyc.value_normalise x
  | parts re im => rfl

/-- Taking the canonical form of the parts of a number keeps what it stands for. -/
theorem NumK.meaning_normalise (v : Valuation) (x : NumK) : x.normalise.meaning v = x.meaning v := by
  induction x with
  | exact x => exact congrArg KValue.number (Cyc.value_normalise x)
  | parts _ _ => rfl
  | phase _ => rfl
  | special _ => rfl
  | nonFinite _ => rfl
  | unspecified _ => rfl
  | scaled r x hx =>
    simp only [NumK.meaning] at hx
    simp only [NumK.normalise, NumK.meaning, NumK.meaningWith, hx]
  | ifFinite x y z hx hy hz =>
    simp only [NumK.meaning] at hx hy hz
    simp only [NumK.normalise, NumK.meaning, NumK.meaningWith, hx, hy, hz]
  | ifZero x y z hx hy hz =>
    simp only [NumK.meaning] at hx hy hz
    simp only [NumK.normalise, NumK.meaning, NumK.meaningWith, hx, hy, hz]
  | _ =>
    rename_i hx hy
    simp only [NumK.meaning] at hx hy
    simp only [NumK.normalise, NumK.meaning, NumK.meaningWith, hx, hy]

theorem NumK.value_normalise (v : Valuation) (x : NumK) : x.normalise.value v = x.value v := by
  rw [NumK.value, NumK.meaning_normalise, NumK.value]

/-! ## Finite values -/

theorem NumK.finite_iff (v : Valuation) (x : NumK) : x.finite v ↔ ∃ z, x.meaning v = .number z := by
  unfold NumK.finite
  cases x.meaning v <;> simp [KValue.finite]

/-- A finite value is its complex number. -/
theorem NumK.meaning_eq_number {v : Valuation} {x : NumK} (h : x.finite v) : x.meaning v = .number (x.value v) := by
  obtain ⟨z, hz⟩ := (NumK.finite_iff v x).1 h
  rw [NumK.value, hz]
  rfl

theorem NumK.not_finite_special (v : Valuation) (z : SpecialK) : ¬ (NumK.special z).finite v := not_false

theorem NumK.not_finite_nonFinite (v : Valuation) (name : ℕ) : ¬ (NumK.nonFinite name).finite v := not_false

/-- What is a number whatever the names stand for is finite. -/
theorem NumK.finite_of_isNumber {v : Valuation} {x : NumK} (h : x.isNumber = true) : x.finite v := by
  classical
  induction x with
  | special _ => simp [NumK.isNumber] at h
  | nonFinite _ => simp [NumK.isNumber] at h
  | unspecified _ => simp [NumK.isNumber] at h
  | quotient _ _ _ => simp [NumK.isNumber] at h
  | ifFinite x y z _ hy hz =>
    simp only [NumK.isNumber, Bool.and_eq_true] at h
    rw [NumK.finite, NumK.meaning_ifFinite]
    split
    · exact hy h.1
    · exact hz h.2
  | ifZero x y z _ hy hz =>
    simp only [NumK.isNumber, Bool.and_eq_true] at h
    rw [NumK.finite, NumK.meaning_ifZero]
    split
    · exact hy h.1
    · exact hz h.2
  | _ => trivial

@[simp] theorem NumK.finite_zero (v : Valuation) : NumK.zero.finite v := trivial

@[simp] theorem NumK.meaning_zero (v : Valuation) : NumK.zero.meaning v = .number 0 := rfl

/-- A choice by `is_finite` answers what the test says, whatever form it is kept in. -/
theorem NumK.meaning_choose (v : Valuation) (x y z : NumK) [Decidable (x.finite v)] :
    (NumK.choose x y z).meaning v = if x.finite v then y.meaning v else z.meaning v := by
  unfold NumK.choose
  split
  · rename_i h
    rw [if_pos (NumK.finite_of_isNumber h)]
  · split
    · rw [if_neg (NumK.not_finite_special v _)]
    · rw [if_neg (NumK.not_finite_nonFinite v _)]
    · exact NumK.meaning_ifFinite v x y z

/-- A value that depends on inputs is the first one exactly where all of them are finite (00_scope.md R16). -/
theorem NumK.meaning_whenFinite (v : Valuation) (inputs : List NumK) (x y : NumK)
:
    ((∀ input ∈ inputs, input.finite v) → (NumK.whenFinite inputs x y).meaning v = x.meaning v) ∧
      ((∃ input ∈ inputs, ¬ input.finite v) → (NumK.whenFinite inputs x y).meaning v = y.meaning v) := by
  classical
  induction inputs with
  | nil => simp [NumK.whenFinite]
  | cons a inputs ih =>
    have e : (NumK.whenFinite (a :: inputs) x y).meaning v =
        if a.finite v then (NumK.whenFinite inputs x y).meaning v else y.meaning v := NumK.meaning_choose v a _ y
    rw [e]
    by_cases ha : a.finite v
    · simp only [ha, if_true, List.forall_mem_cons, true_and, List.exists_mem_cons_iff, not_true, false_or]
      exact ih
    · simp [ha]

/-- `fix` (00_scope.md R13). -/
theorem NumK.meaning_fix (v : Valuation) (x : NumK) [Decidable (x.finite v)] :
    x.fix.meaning v = if x.finite v then x.meaning v else .number 0 :=
  NumK.meaning_choose v x x NumK.zero

/-- `fix` answers a finite value always (43_estimator.md R85). -/
@[simp] theorem NumK.finite_fix (v : Valuation) (x : NumK) : x.fix.finite v := by
  classical
  rw [NumK.finite, NumK.meaning_fix]
  split
  · assumption
  · trivial

/-- A quotient that is 0 or 1 does not overflow (43_estimator.md R87 (a), U24), and a finite one is that of the reference. -/
theorem quotientValue_spec (overflow : Option SpecialValue) (x y : ℂ) :
    (x = 0 ∨ x = y → quotientValue overflow x y = .number (x / y)) ∧
      ((quotientValue overflow x y).finite → quotientValue overflow x y = .number (x / y)) := by
  unfold quotientValue
  cases overflow with
  | none => simp
  | some z =>
    refine ⟨fun h => if_pos h, ?_⟩
    dsimp only
    split
    · exact fun _ => rfl
    · exact fun h => h.elim

/-! ## The rounding of a finite-precision `NUM` -/

/-- The reference has every number exactly. -/
@[simp] theorem Num.round_reference (e : ℕ) (size x : NumK) : Num.reference.round e size x = x := rfl

/-- The number of results a stage has is the same in every `NUM`. -/
@[simp] theorem Num.length_results (num : Num) (stage : Stage) (words : List ℕ) (reals : List RVal) (numbers : List NumK)
    (isExact : ℕ → Bool) (results : List (List NumK × NumK)) :
    (num.results stage words reals numbers isExact results).length = results.length := by
  simp [Num.results]

/-- Everything a result can be: where what it depends on is finite, the reference's number where it must be exact and else that
number rounded relative to the largest of the results; an unspecified value else. -/
theorem Num.getElem?_results {num : Num} {stage : Stage} {words : List ℕ} {reals : List RVal} {numbers : List NumK}
    {isExact : ℕ → Bool} {results : List (List NumK × NumK)} {k : ℕ} {inputs : List NumK} {x : NumK}
    (h : results[k]? = some (inputs, x)) :
    (num.results stage words reals numbers isExact results)[k]? =
      some (NumK.whenFinite inputs
        (if isExact k then x
          else num.round (Config.resultName num.number stage words reals numbers k)
            (NumK.largest (results.map fun r => NumK.whenFinite r.1 r.2 NumK.zero)) x)
        (.unspecified (Config.resultName num.number stage words reals numbers k))) := by
  simp [Num.results, List.getElem?_mapIdx, h]

/-- The largest of some numbers is 0 or one of them, and no number exceeds it in magnitude. -/
theorem NumK.largest_spec (v : Valuation) (xs : List NumK) :
    (∀ x ∈ xs, ‖x.value v‖ ≤ ‖(NumK.largest xs).value v‖) ∧
      ((NumK.largest xs).value v = 0 ∨ ∃ x ∈ xs, (NumK.largest xs).value v = x.value v) := by
  induction xs with
  | nil => simp [NumK.largest]
  | cons x xs ih =>
    have e : (NumK.largest (x :: xs)).value v =
        if ‖(NumK.largest xs).value v‖ ≤ ‖x.value v‖ then x.value v else (NumK.largest xs).value v := rfl
    rw [e]
    split
    · rename_i h
      refine ⟨fun y hy => ?_, .inr ⟨x, by simp, rfl⟩⟩
      rcases List.mem_cons.1 hy with rfl | hy
      · exact le_rfl
      · exact (ih.1 y hy).trans h
    · rename_i h
      refine ⟨fun y hy => ?_, ?_⟩
      · rcases List.mem_cons.1 hy with rfl | hy
        · exact (not_le.1 h).le
        · exact ih.1 y hy
      · rcases ih.2 with h0 | ⟨y, hy, hv⟩
        · exact .inl h0
        · exact .inr ⟨y, by simp [hy], hv⟩

/-- A rounded number is off by at most its tolerance times the magnitude it is relative to. -/
theorem NumK.norm_rounded_sub_le (v : Valuation) (e : ℕ) (tol : ℚ) (x size : NumK) :
    ‖(NumK.rounded e tol x size).value v - x.value v‖ ≤ ((max 0 tol : ℚ) : ℝ) * ‖size.value v‖ := by
  have h : (0 : ℝ) ≤ ((max 0 tol : ℚ) : ℝ) := by exact_mod_cast le_max_left 0 tol
  have e1 : (NumK.rounded e tol x size).value v - x.value v =
      ((((max 0 tol : ℚ) : ℝ) * ‖size.value v‖ : ℝ) : ℂ) * (v.choice e).error := by
    rw [NumK.value_rounded, Complex.ofReal_mul, Complex.ofReal_ratCast, add_sub_cancel_left]
  rw [e1, norm_mul, Complex.norm_real, Real.norm_of_nonneg (by positivity)]
  exact mul_le_of_le_one_right (by positivity) (v.error_le e)

/-- A number is off by at most the tolerance of `NUM` times the magnitude it is rounded relative to. -/
theorem Num.norm_round_sub_le (v : Valuation) (num : Num) (e : ℕ) (size x : NumK) :
    ‖(num.round e size x).value v - x.value v‖ ≤ (num.tolerance : ℝ) * ‖size.value v‖ := by
  cases num with
  | reference => simp [Num.tolerance]
  | finite structureNo tol specials => exact NumK.norm_rounded_sub_le v e tol x size

/-- A `NUM` without errors and without non-finite results. -/
def Choice.none : Choice := ⟨0, .number 0, .re .nan (.special .nan), .none⟩

/-- There are valuations: without errors the round trip holds, with any positive reals for the names. -/
def Valuation.ofReals (real : ℕ → ℝ) (h : ∀ name, 0 < real name) : Valuation where
  real := real
  real_pos := h
  choice := fun _ => Choice.none
  error_le := fun _ => by simp [Choice.none]
  dependOnValues := fun _ _ _ _ _ _ _ _ _ _ => rfl
  roundTrip := fun _ _ _ _ _ _ _ _ _ _ _ c hc => ⟨c, hc, by simp [roundTripError, Choice.none]⟩

/-! ## Values the host supplies -/

theorem RVal.isPositive_iff (v : Valuation) (x : RVal) : x.isPositive = true ↔ x.positive v := by
  cases x with
  | real x => exact NumR.isPositive_iff v x
  | special s => exact decide_eq_true_iff

theorem RVal.isNonneg_iff (v : Valuation) (x : RVal) : x.isNonneg = true ↔ x.nonneg v := by
  cases x with
  | real x => exact NumR.isNonneg_iff v x
  | special s => exact decide_eq_true_iff

/-- The value of a number the host supplies is that of the value stored for it. -/
theorem InputVal.value_val (v : Valuation) (x : InputVal) : x.val.value v = x.value v := by
  cases x with
  | number x => exact InputK.value_num v x
  | special z => rfl

/-- A value the host supplies is stored as a number exactly where it is one. -/
theorem InputVal.isNumber_val (x : InputVal) : x.val.isNumber = x.isFinite := by
  cases x with
  | number x =>
    cases x with
    | exact x => rfl
    | parts re im =>
      show (NumK.ofParts re im).isNumber = true
      unfold NumK.ofParts
      split <;> rfl
  | special z => rfl

theorem InputVal.value_normalise (v : Valuation) (x : InputVal) : x.normalise.value v = x.value v := by
  cases x with
  | number x => exact InputK.value_normalise v x
  | special z => rfl

end Sys2Proof
end

