-- ==== Sys2Proof/Laws/Canonical.lean ====
section
/-! SUPPORT. The canonical form of a number is the only one (log entry 2): the numbers `ph(q)` that it uses are linearly
independent over the rationals, because those whose denominators divide `n` are no more than the degree of the
cyclotomic field of order `n`. Hence canonical lists of terms with one value are equal. For the division, the product of
the conjugates of a number is rational. The operations on numbers then stand for those of the reference. -/

namespace Sys2Proof

/-! ## The `p`-part of a rational number -/

/-- `r` is the `p`-part of `q`: in `[0, 1)`, a fraction over a power of `p`, and `q - r` has no `p` in its
denominator. -/
def IsPart (p : ℕ) (q r : ℚ) : Prop :=
  0 ≤ r ∧ r < 1 ∧ (∃ (k : ℕ) (a : ℤ), r = a / (p : ℚ) ^ k) ∧ ¬ p ∣ (q - r).den

theorem not_dvd_den_add {p : ℕ} (hp : p.Prime) {x y : ℚ} (hx : ¬ p ∣ x.den) (hy : ¬ p ∣ y.den) :
    ¬ p ∣ (x + y).den := fun h =>
  ((hp.dvd_mul).1 (h.trans (Rat.add_den_dvd x y))).elim hx hy

theorem not_dvd_den_neg {p : ℕ} {x : ℚ} (hx : ¬ p ∣ x.den) : ¬ p ∣ (-x).den := by rwa [Rat.neg_den]

theorem not_dvd_den_sub {p : ℕ} (hp : p.Prime) {x y : ℚ} (hx : ¬ p ∣ x.den) (hy : ¬ p ∣ y.den) :
    ¬ p ∣ (x - y).den := sub_eq_add_neg x y ▸ not_dvd_den_add hp hx (not_dvd_den_neg hy)

theorem not_dvd_den_div {p : ℕ} {a : ℤ} {m : ℕ} (hm : ¬ p ∣ m) : ¬ p ∣ ((a : ℚ) / m).den := fun h => by
  have : ((a : ℚ) / (m : ℤ)).den ∣ m := by exact_mod_cast Rat.den_dvd a m
  rw [Int.cast_natCast] at this
  exact hm (h.trans this)

theorem not_dvd_den_intCast {p : ℕ} (hp : p.Prime) (n : ℤ) : ¬ p ∣ ((n : ℚ)).den := by
  simpa using hp.one_lt.ne'

/-- A fraction over a power of `p` without `p` in its denominator is an integer. -/
theorem exists_int_of_not_dvd {p : ℕ} (hp : p.Prime) {k : ℕ} {a : ℤ} {x : ℚ} (hx : x = a / (p : ℚ) ^ k)
    (h : ¬ p ∣ x.den) : ∃ n : ℤ, x = n := by
  have hd : x.den ∣ p ^ k := by
    have : ((a : ℚ) / ((p ^ k : ℕ) : ℤ)).den ∣ p ^ k := by exact_mod_cast Rat.den_dvd a (p ^ k : ℕ)
    have e : x = (a : ℚ) / ((p ^ k : ℕ) : ℤ) := by rw [hx]; push_cast; rfl
    rwa [← e] at this
  obtain ⟨j, -, hj⟩ := (Nat.dvd_prime_pow hp).1 hd
  have : x.den = 1 := by
    rcases j with _ | j
    · simpa using hj
    · exact absurd (hj ▸ dvd_pow_self p (Nat.succ_ne_zero j)) h
  exact ⟨x.num, ((Rat.den_eq_one_iff x).1 this).symm⟩

/-- `q` and `q'` with the same `p`-part up to `p`-integral numbers have the same `p`-part. -/
theorem IsPart.eq {p : ℕ} (hp : p.Prime) {q q' r r' : ℚ} (h : IsPart p q r) (h' : IsPart p q' r')
    (hq : ¬ p ∣ (q - q').den) : r = r' := by
  obtain ⟨h0, h1, ⟨k, a, ha⟩, hd⟩ := h
  obtain ⟨h0', h1', ⟨k', a', ha'⟩, hd'⟩ := h'
  have hp0 : (p : ℚ) ≠ 0 := by exact_mod_cast hp.ne_zero
  have hden : ¬ p ∣ (r - r').den := by
    have e : r - r' = (q - q') - (q - r) + (q' - r') := by ring
    rw [e]
    exact not_dvd_den_add hp (not_dvd_den_sub hp hq hd) hd'
  obtain ⟨n, hn⟩ := exists_int_of_not_dvd (k := k + k') (a := a * p ^ k' - a' * p ^ k) hp
    (by rw [ha, ha']; push_cast; rw [pow_add]; field_simp) hden
  have : n = 0 := by
    have u : (n : ℚ) < 1 := by rw [← hn]; linarith
    have l : (-1 : ℚ) < n := by rw [← hn]; linarith
    have u' : n < 1 := by exact_mod_cast u
    have l' : -1 < n := by exact_mod_cast l
    omega
  rw [this, Int.cast_zero, sub_eq_zero] at hn
  exact hn

/-- The greatest power of `p` that divides `n`. -/
theorem primePower_spec {p n : ℕ} (hp : p.Prime) (hn : n ≠ 0) :
    (∃ k, primePower p n = p ^ k) ∧ primePower p n ∣ n ∧ ¬ p ∣ n / primePower p n := by
  have hk : ∃ k, primePower p n = p ^ k := by
    obtain ⟨k, -, h⟩ := (Nat.dvd_prime_pow hp).1 (Nat.gcd_dvd_right n (p ^ Nat.log2 n))
    exact ⟨k, h⟩
  refine ⟨hk, Nat.gcd_dvd_left _ _, fun hd => ?_⟩
  obtain ⟨k, hk⟩ := hk
  have hdvd : p ^ (k + 1) ∣ n := by
    obtain ⟨c, hc⟩ := hd
    have hn' : primePower p n * (n / primePower p n) = n := Nat.mul_div_cancel' (Nat.gcd_dvd_left _ _)
    refine ⟨c, ?_⟩
    rw [← hn', hc, hk]
    ring
  have hle : k + 1 ≤ Nat.log2 n := by
    rw [Nat.le_log2 hn]
    exact (Nat.pow_le_pow_left hp.two_le _).trans (Nat.le_of_dvd (Nat.pos_of_ne_zero hn) hdvd)
  have hg : p ^ (k + 1) ∣ primePower p n := Nat.dvd_gcd hdvd (pow_dvd_pow p hle)
  rw [hk] at hg
  have := (Nat.pow_dvd_pow_iff_le_right hp.one_lt).1 hg
  omega

theorem primePart_isPart {p : ℕ} (hp : p.Prime) (q : ℚ) : IsPart p q (primePart p q) := by
  obtain ⟨⟨k, hk⟩, hdvd, hnd⟩ := primePower_spec hp q.den_ne_zero
  set pk := primePower p q.den with hpk
  set m := q.den / pk with hm
  have hden : pk * m = q.den := Nat.mul_div_cancel' hdvd
  have hpk0 : pk ≠ 0 := by rw [hk]; exact pow_ne_zero _ hp.ne_zero
  have hm0 : m ≠ 0 := fun h => q.den_ne_zero (by rw [← hden, h, mul_zero])
  set e := pk - pk / p with he
  set c := m ^ e % q.den with hc
  have he0 : e ≠ 0 := by
    have : pk / p < pk := Nat.div_lt_self (Nat.pos_of_ne_zero hpk0) hp.one_lt
    omega
  have hmc : m ∣ c := by
    rw [hc]
    exact (Nat.dvd_mod_iff ⟨pk, by rw [← hden]; ring⟩).2 (dvd_pow_self m he0)
  have hc1 : (pk : ℤ) ∣ (c : ℤ) - 1 := by
    have hcm : c ≡ m ^ e [MOD pk] := (Nat.mod_modEq _ _).of_dvd hdvd
    have h1 : m ^ e ≡ 1 [MOD pk] := by
      rcases Nat.eq_zero_or_pos k with rfl | hkpos
      · rw [hk, pow_zero]; exact Nat.modEq_one
      · have het : e = pk.totient := by
          rw [he, hk, Nat.totient_prime_pow hp hkpos]
          obtain ⟨j, rfl⟩ := Nat.exists_eq_succ_of_ne_zero hkpos.ne'
          rw [Nat.succ_eq_add_one, pow_succ, Nat.mul_div_cancel _ hp.pos, Nat.add_sub_cancel, Nat.mul_sub, mul_one]
        rw [het]
        exact Nat.ModEq.pow_totient (by rw [hk]; exact (Nat.Coprime.pow_left _ ((hp.coprime_iff_not_dvd).2 hnd)).symm)
    have := (Nat.modEq_iff_dvd.1 (hcm.trans h1).symm)
    simpa using this
  have hval : primePart p q = Int.fract ((c : ℚ) * q) := rfl
  obtain ⟨c', hc'⟩ := hmc
  obtain ⟨b, hb⟩ := hc1
  have hq : q = q.num / ((pk : ℚ) * m) := by
    conv_lhs => rw [← Rat.num_div_den q, ← hden]
    push_cast; rfl
  have hpkq : (pk : ℚ) ≠ 0 := by exact_mod_cast hpk0
  have hmq : (m : ℚ) ≠ 0 := by exact_mod_cast hm0
  have hcq : (c : ℚ) * q = (c' * q.num : ℤ) / (p : ℚ) ^ k := by
    have hpkk : (pk : ℚ) = (p : ℚ) ^ k := by rw [hk]; push_cast; rfl
    rw [← hpkk]
    conv_lhs => rw [hq, hc']
    push_cast
    field_simp
  rw [hval]
  refine ⟨Int.fract_nonneg _, Int.fract_lt_one _, ⟨k, c' * q.num - ⌊(c : ℚ) * q⌋ * p ^ k, ?_⟩, ?_⟩
  · have hp0 : (p : ℚ) ^ k ≠ 0 := pow_ne_zero _ (by exact_mod_cast hp.ne_zero)
    rw [Int.fract]
    generalize ⌊(c : ℚ) * q⌋ = f
    rw [hcq]
    push_cast
    field_simp
  · have e1 : q - Int.fract ((c : ℚ) * q) = ((⌊(c : ℚ) * q⌋ : ℤ) : ℚ) - (b * q.num : ℤ) / (m : ℚ) := by
      rw [Int.fract]
      have hb' : (c : ℚ) = pk * b + 1 := by
        have : (c : ℤ) = pk * b + 1 := by omega
        exact_mod_cast this
      have : (c : ℚ) * q - q = (b * q.num : ℤ) / (m : ℚ) := by
        rw [hb']
        conv_lhs => rw [hq]
        push_cast
        field_simp
        ring
      rw [← this]
      ring
    rw [e1]
    exact not_dvd_den_sub hp (not_dvd_den_intCast hp _) (not_dvd_den_div hnd)

/-! ## The `p`-part of the terms of a reduction -/

theorem primePart_congr {p : ℕ} (hp : p.Prime) {q q' : ℚ} (h : ¬ p ∣ (q - q').den) :
    primePart p q = primePart p q' :=
  (primePart_isPart hp q).eq hp (primePart_isPart hp q') h

theorem primePart_eq_zero {p : ℕ} (hp : p.Prime) {q : ℚ} (h : ¬ p ∣ q.den) : primePart p q = 0 :=
  (primePart_isPart hp q).eq hp (q' := q) ⟨le_rfl, one_pos, ⟨0, 0, by simp⟩, by simpa using h⟩
    (by simpa using hp.one_lt.ne')

theorem primePart_reduced {p j : ℕ} (hp : p.Prime) {q : ℚ} (h : 1 - 1 / (p : ℚ) ≤ primePart p q) (hj : j + 1 < p) :
    primePart p (Int.fract (q - (j + 1 : ℕ) / (p : ℚ))) < 1 - 1 / (p : ℚ) := by
  have hp0 : (0 : ℚ) < p := by exact_mod_cast hp.pos
  obtain ⟨-, h1, ⟨k, a, ha⟩, hd⟩ := primePart_isPart hp q
  have hjp : ((j + 1 : ℕ) : ℚ) / p ≤ 1 - 1 / (p : ℚ) := by
    rw [div_le_iff₀ hp0, sub_mul, one_mul, div_mul_cancel₀ _ hp0.ne']
    have : ((j + 1 + 1 : ℕ) : ℚ) ≤ p := by exact_mod_cast hj
    push_cast at this ⊢
    linarith
  have hj0 : 1 / (p : ℚ) ≤ ((j + 1 : ℕ) : ℚ) / p := by
    apply div_le_div_of_nonneg_right _ hp0.le
    push_cast
    linarith [Nat.cast_nonneg (α := ℚ) j]
  have hpos : 0 < 1 / (p : ℚ) := by positivity
  have : primePart p (Int.fract (q - (j + 1 : ℕ) / (p : ℚ))) = primePart p q - (j + 1 : ℕ) / (p : ℚ) := by
    refine (primePart_isPart hp _).eq hp (q' := Int.fract (q - (j + 1 : ℕ) / (p : ℚ)))
      ⟨by linarith, by linarith, ⟨k + 1, a * p - (j + 1 : ℕ) * p ^ k, ?_⟩, ?_⟩ (by simpa using hp.one_lt.ne')
    · rw [ha]
      push_cast
      rw [pow_succ]
      field_simp
    · have e : Int.fract (q - (j + 1 : ℕ) / (p : ℚ)) - (primePart p q - (j + 1 : ℕ) / (p : ℚ)) =
          (q - primePart p q) - ((⌊q - (j + 1 : ℕ) / (p : ℚ)⌋ : ℤ) : ℚ) := by
        rw [Int.fract]
        ring
      rw [e]
      exact not_dvd_den_sub hp hd (not_dvd_den_intCast hp _)
  rw [this]
  linarith

theorem primePart_reduced_of_ne {p r j : ℕ} (hp : p.Prime) (hr : r.Prime) (hpr : p ≠ r) (q : ℚ) :
    primePart p (Int.fract (q - (j : ℕ) / (r : ℚ))) = primePart p q := by
  apply primePart_congr hp
  have e : Int.fract (q - (j : ℕ) / (r : ℚ)) - q = -(((j : ℤ) : ℚ) / (r : ℕ)) - ((⌊q - (j : ℕ) / (r : ℚ)⌋ : ℤ) : ℚ) := by
    rw [Int.fract]
    push_cast
    ring
  rw [e]
  exact not_dvd_den_sub hp (not_dvd_den_neg (not_dvd_den_div fun h => hpr ((Nat.prime_dvd_prime_iff_eq hp hr).1 h)))
    (not_dvd_den_intCast hp _)

theorem den_dvd_of_eq {q : ℚ} {n : ℕ} {a : ℤ} (h : q = a / (n : ℚ)) : q.den ∣ n := by
  have : ((a : ℚ) / (n : ℤ)).den ∣ n := by exact_mod_cast Rat.den_dvd a n
  rwa [Int.cast_natCast, ← h] at this

theorem eq_div_of_den_dvd {q : ℚ} {n : ℕ} (hn : n ≠ 0) (h : q.den ∣ n) : ∃ a : ℤ, q = a / (n : ℚ) := by
  obtain ⟨c, rfl⟩ := h
  have hc : (c : ℚ) ≠ 0 := by
    rintro h
    exact hn (by rw [Nat.cast_eq_zero.1 h, mul_zero])
  refine ⟨q.num * c, ?_⟩
  have hd : (q.den : ℚ) ≠ 0 := by exact_mod_cast q.den_ne_zero
  conv_lhs => rw [← Rat.num_div_den q]
  push_cast
  field_simp

theorem den_fract_dvd {q : ℚ} {n : ℕ} (hn : n ≠ 0) (h : q.den ∣ n) : (Int.fract q).den ∣ n := by
  obtain ⟨a, ha⟩ := eq_div_of_den_dvd hn h
  have hn' : (n : ℚ) ≠ 0 := by exact_mod_cast hn
  refine den_dvd_of_eq (a := a - ⌊q⌋ * n) ?_
  rw [Int.fract]
  generalize ⌊q⌋ = f
  rw [ha]
  push_cast
  field_simp

theorem den_reduced_dvd {p n j : ℕ} {q : ℚ} (hp : p.Prime) (hn : n ≠ 0) (h : q.den ∣ n) (hpn : p ∣ n) :
    (Int.fract (q - (j : ℕ) / (p : ℚ))).den ∣ n := by
  obtain ⟨a, ha⟩ := eq_div_of_den_dvd hn h
  obtain ⟨c, rfl⟩ := hpn
  have hp0 : (p : ℚ) ≠ 0 := by exact_mod_cast hp.ne_zero
  have hc : (c : ℚ) ≠ 0 := by
    rintro h
    exact hn (by rw [Nat.cast_eq_zero.1 h, mul_zero])
  refine den_fract_dvd hn (den_dvd_of_eq (a := a - j * c) ?_)
  rw [ha]
  push_cast
  field_simp

/-! ## The numbers the canonical form uses -/

theorem mem_primeDivisors {p n : ℕ} (hn : n ≠ 0) : p ∈ primeDivisors n ↔ p.Prime ∧ p ∣ n := by
  simp only [primeDivisors, List.mem_filter, List.mem_range, Bool.and_eq_true, decide_eq_true_eq, beq_iff_eq,
    List.all_eq_true, Bool.or_eq_true, bne_iff_ne, ne_eq]
  constructor
  · rintro ⟨-, ⟨h2, hmod⟩, h⟩
    refine ⟨Nat.prime_def_lt.2 ⟨h2, fun m hm hd => ?_⟩, Nat.dvd_of_mod_eq_zero hmod⟩
    rcases h m hm with h | h
    · have : m ≠ 0 := fun h0 => by rw [h0, zero_dvd_iff] at hd; omega
      omega
    · exact absurd (Nat.mod_eq_zero_of_dvd hd) h
  · rintro ⟨hp, hd⟩
    refine ⟨Nat.lt_succ_of_le (Nat.le_of_dvd (Nat.pos_of_ne_zero hn) hd), ⟨hp.two_le, Nat.mod_eq_zero_of_dvd hd⟩,
      fun d hd' => ?_⟩
    by_cases h : d < 2
    · exact .inl h
    · refine .inr fun hm => ?_
      rcases (Nat.dvd_prime hp).1 (Nat.dvd_of_mod_eq_zero hm) with h1 | h1 <;> omega

theorem nodup_primeDivisors (n : ℕ) : (primeDivisors n).Nodup := List.nodup_range.filter _

theorem inBasis_iff (q : ℚ) :
    inBasis q = true ↔ 0 ≤ q ∧ q < 1 ∧ ∀ p : ℕ, p.Prime → p ∣ q.den → primePart p q < 1 - 1 / (p : ℚ) := by
  simp only [inBasis, Bool.and_eq_true, decide_eq_true_eq, List.all_eq_true, mem_primeDivisors q.den_ne_zero, and_assoc,
    and_imp]

theorem Term.mem_reduceAt {p : ℕ} {t u : Term} (h : u ∈ t.reduceAt p) :
    (1 - 1 / (p : ℚ) ≤ primePart p t.turn ∧
      ∃ j, j + 1 < p ∧ u = ⟨Int.fract (t.turn - (j + 1 : ℕ) / (p : ℚ)), -t.coeff⟩) ∨
    (primePart p t.turn < 1 - 1 / (p : ℚ) ∧ u = t) := by
  unfold Term.reduceAt at h
  split at h
  · rename_i hp
    obtain ⟨j, hj, rfl⟩ := List.mem_map.1 h
    exact .inl ⟨hp, j, by have := List.mem_range.1 hj; omega, rfl⟩
  · rename_i hp
    exact .inr ⟨not_le.1 hp, List.mem_singleton.1 h⟩

/-- What holds of the terms when the relations of the primes `done` have been applied. -/
structure Term.Reduced (n : ℕ) (done : List ℕ) (t : Term) : Prop where
  nonneg : 0 ≤ t.turn
  lt_one : t.turn < 1
  den : t.turn.den ∣ n
  part : ∀ p ∈ done, primePart p t.turn < 1 - 1 / (p : ℚ)

theorem reduced_foldl {n : ℕ} (hn : n ≠ 0) (ps : List ℕ) (hps : ∀ p ∈ ps, p.Prime ∧ p ∣ n) :
    ∀ (done : List ℕ) (ts : List Term), (∀ p ∈ done, p.Prime) → (done ++ ps).Nodup →
      (∀ t ∈ ts, t.Reduced n done) →
      ∀ t ∈ ps.foldl (fun ts p => ts.flatMap (Term.reduceAt p)) ts, t.Reduced n (done ++ ps) := by
  induction ps with
  | nil => intro done ts _ _ h t ht; simpa using h t ht
  | cons p ps ih =>
    intro done ts hdone hnd h
    obtain ⟨hp, hpn⟩ := hps p (List.mem_cons_self ..)
    have e : done ++ p :: ps = (done ++ [p]) ++ ps := by simp
    rw [e] at hnd ⊢
    refine ih (fun r hr => hps r (List.mem_cons_of_mem _ hr)) (done ++ [p]) _ ?_ hnd ?_
    · intro r hr
      rcases List.mem_append.1 hr with hr | hr
      · exact hdone r hr
      · rwa [List.mem_singleton.1 hr]
    · intro u hu
      obtain ⟨t, ht, hut⟩ := List.mem_flatMap.1 hu
      have hr := h t ht
      have hpd : p ∉ done := fun hmem =>
        (List.nodup_append.1 (List.nodup_append.1 hnd).1).2.2 p hmem p (List.mem_singleton_self p) rfl
      rcases Term.mem_reduceAt hut with ⟨hge, j, hj, rfl⟩ | ⟨hlt, rfl⟩
      · refine ⟨Int.fract_nonneg _, Int.fract_lt_one _, den_reduced_dvd hp hn hr.den hpn, fun r hrm => ?_⟩
        rcases List.mem_append.1 hrm with hrm | hrm
        · rw [primePart_reduced_of_ne (hdone r hrm) hp (fun e => hpd (e ▸ hrm))]
          exact hr.part r hrm
        · rw [List.mem_singleton.1 hrm]
          exact primePart_reduced hp hge hj
      · refine ⟨hr.nonneg, hr.lt_one, hr.den, fun r hrm => ?_⟩
        rcases List.mem_append.1 hrm with hrm | hrm
        · exact hr.part r hrm
        · rwa [List.mem_singleton.1 hrm]

/-- The terms of an expansion are multiples of numbers the canonical form uses, and no new denominators come in. -/
theorem Term.mem_expand {t u : Term} (h : u ∈ t.expand) : inBasis u.turn = true ∧ u.turn.den ∣ t.turn.den := by
  have hn := t.turn.den_ne_zero
  have hr : u.Reduced t.turn.den ([] ++ primeDivisors t.turn.den) := by
    refine reduced_foldl hn _ (fun p hp => (mem_primeDivisors hn).1 hp) [] _ (by simp)
      (by simpa using nodup_primeDivisors _) ?_ u h
    intro v hv
    rw [List.mem_singleton.1 hv]
    exact ⟨Int.fract_nonneg _, Int.fract_lt_one _, den_fract_dvd hn dvd_rfl, by simp⟩
  refine ⟨(inBasis_iff _).2 ⟨hr.nonneg, hr.lt_one, fun p hp hd => hr.part p ?_⟩, hr.den⟩
  simpa using (mem_primeDivisors hn).2 ⟨hp, hd.trans hr.den⟩

/-! ## Canonical lists -/

/-- A list of terms is canonical: turns strictly rise, each is one the canonical form uses, and no coefficient is 0. -/
theorem canonicalTerms_iff (ts : List Term) :
    canonicalTerms ts = true ↔
      ts.Pairwise (fun t u => t.turn < u.turn) ∧ ∀ t ∈ ts, inBasis t.turn = true ∧ t.coeff ≠ 0 := by
  induction ts with
  | nil => simp [canonicalTerms]
  | cons t us ih =>
    cases us with
    | nil => simp [canonicalTerms]
    | cons u us =>
      simp only [canonicalTerms, Bool.and_eq_true, decide_eq_true_eq, ih]
      constructor
      · rintro ⟨⟨⟨hb, hc⟩, hlt⟩, hp, hall⟩
        refine ⟨List.pairwise_cons.2 ⟨fun v hv => ?_, hp⟩, ?_⟩
        · rcases List.mem_cons.1 hv with rfl | hv
          · exact hlt
          · exact hlt.trans ((List.pairwise_cons.1 hp).1 v hv)
        · intro v hv
          rcases List.mem_cons.1 hv with rfl | hv
          · exact ⟨hb, hc⟩
          · exact hall v hv
      · rintro ⟨hp, hall⟩
        have h := List.pairwise_cons.1 hp
        exact ⟨⟨hall t (List.mem_cons_self ..), h.1 u (List.mem_cons_self ..)⟩, h.2,
          fun v hv => hall v (List.mem_cons_of_mem _ hv)⟩

theorem Term.mem_insert {t u : Term} {ts : List Term} (h : u ∈ t.insert ts) :
    u.turn = t.turn ∨ u ∈ ts := by
  induction ts with
  | nil =>
    unfold Term.insert at h
    split at h
    · simp at h
    · exact .inl (by rw [List.mem_singleton.1 h])
  | cons v vs ih =>
    unfold Term.insert at h
    split at h
    · split at h
      · exact .inr h
      · exact (List.mem_cons.1 h).imp (fun e => by rw [e]) id
    · split at h
      · rename_i hv
        split at h
        · exact .inr (List.mem_cons_of_mem _ h)
        · rcases List.mem_cons.1 h with rfl | h
          · exact .inl hv.symm
          · exact .inr (List.mem_cons_of_mem _ h)
      · rcases List.mem_cons.1 h with rfl | h
        · exact .inr (List.mem_cons_self ..)
        · exact (ih h).imp id (List.mem_cons_of_mem _)

theorem Term.canonical_insert {t : Term} {ts : List Term} (ht : inBasis t.turn = true)
    (h : canonicalTerms ts = true) : canonicalTerms (t.insert ts) = true := by
  rw [canonicalTerms_iff] at h ⊢
  induction ts with
  | nil =>
    unfold Term.insert
    split
    · simp
    · rename_i hc
      simp [ht, hc]
  | cons v vs ih =>
    obtain ⟨hp, hall⟩ := h
    have hp' := List.pairwise_cons.1 hp
    have hv := hall v (List.mem_cons_self ..)
    have hall' : ∀ u ∈ vs, inBasis u.turn = true ∧ u.coeff ≠ 0 := fun u hu => hall u (List.mem_cons_of_mem _ hu)
    unfold Term.insert
    split
    · rename_i hlt
      split
      · exact ⟨hp, hall⟩
      · rename_i hc
        refine ⟨List.pairwise_cons.2 ⟨fun u hu => ?_, hp⟩, fun u hu => ?_⟩
        · rcases List.mem_cons.1 hu with rfl | hu
          · exact hlt
          · exact hlt.trans (hp'.1 u hu)
        · rcases List.mem_cons.1 hu with rfl | hu
          · exact ⟨ht, hc⟩
          · exact hall u hu
    · split
      · split
        · exact ⟨hp'.2, hall'⟩
        · rename_i hc
          refine ⟨List.pairwise_cons.2 ⟨hp'.1, hp'.2⟩, fun u hu => ?_⟩
          rcases List.mem_cons.1 hu with rfl | hu
          · exact ⟨hv.1, hc⟩
          · exact hall' u hu
      · rename_i hlt hne
        obtain ⟨ip, iall⟩ := ih ⟨hp'.2, hall'⟩
        refine ⟨List.pairwise_cons.2 ⟨fun u hu => ?_, ip⟩, fun u hu => ?_⟩
        · rcases Term.mem_insert hu with e | hu
          · rw [e]
            exact lt_of_le_of_ne (not_lt.1 hlt) (Ne.symm hne)
          · exact hp'.1 u hu
        · rcases List.mem_cons.1 hu with rfl | hu
          · exact hv
          · exact iall u hu

/-- The canonical form is canonical. -/
theorem canonicalTerms_normaliseTerms (ts : List Term) : canonicalTerms (normaliseTerms ts) = true := by
  have : ∀ us : List Term, (∀ u ∈ us, inBasis u.turn = true) → canonicalTerms (us.foldr Term.insert []) = true := by
    intro us hus
    induction us with
    | nil => rfl
    | cons u us ih =>
      exact Term.canonical_insert (hus u (List.mem_cons_self ..)) (ih fun v hv => hus v (List.mem_cons_of_mem _ hv))
  refine this _ fun u hu => ?_
  obtain ⟨t, -, hut⟩ := List.mem_flatMap.1 hu
  exact (Term.mem_expand hut).1

/-! ## The numbers the canonical form uses are linearly independent -/

/-- Those of them whose denominator divides `n`. -/
def basisTurns (n : ℕ) : Finset ℚ :=
  ((Finset.range n).image fun k : ℕ => (k : ℚ) / n).filter fun q => inBasis q = true

theorem mem_basisTurns {n : ℕ} (hn : n ≠ 0) {q : ℚ} : q ∈ basisTurns n ↔ inBasis q = true ∧ q.den ∣ n := by
  have hn' : (0 : ℚ) < n := by exact_mod_cast Nat.pos_of_ne_zero hn
  simp only [basisTurns, Finset.mem_filter, Finset.mem_image, Finset.mem_range]
  constructor
  · rintro ⟨⟨k, -, rfl⟩, hb⟩
    exact ⟨hb, den_dvd_of_eq (a := k) (by push_cast; rfl)⟩
  · rintro ⟨hb, hd⟩
    refine ⟨?_, hb⟩
    obtain ⟨h0, h1, -⟩ := (inBasis_iff q).1 hb
    obtain ⟨a, rfl⟩ := eq_div_of_den_dvd hn hd
    have ha0 : 0 ≤ a := by
      have := (le_div_iff₀ hn').1 h0
      rw [zero_mul] at this
      exact_mod_cast this
    have ha1 : a < n := by
      have := (div_lt_one hn').1 h1
      exact_mod_cast this
    refine ⟨a.toNat, by omega, ?_⟩
    congr 1
    have : ((a.toNat : ℤ) : ℚ) = (a : ℚ) := by rw [Int.toNat_of_nonneg ha0]
    exact_mod_cast this

/-- The `p`-part of a number whose denominator divides `n`, as a multiple of `1 / p^(exponent of p in n)`. -/
theorem exists_primePart_eq {p n : ℕ} (hp : p.Prime) (hn : n ≠ 0) {q : ℚ} (hd : q.den ∣ n) :
    ∃ z : ℤ, primePart p q * (p : ℚ) ^ n.factorization p = z := by
  obtain ⟨h0, h1, ⟨k, a, ha⟩, hi⟩ := primePart_isPart hp q
  have hp0 : (p : ℚ) ≠ 0 := by exact_mod_cast hp.ne_zero
  refine exists_int_of_not_dvd (k := k) (a := a * p ^ n.factorization p) hp (by rw [ha]; push_cast; field_simp) ?_
  obtain ⟨b, hb⟩ := eq_div_of_den_dvd hn hd
  have hnm := Nat.ordProj_mul_ordCompl_eq_self n p
  have hm : ¬ p ∣ n / p ^ n.factorization p := Nat.not_dvd_ordCompl hp hn
  have hm0 : ((n / p ^ n.factorization p : ℕ) : ℚ) ≠ 0 := by
    rintro h
    rw [Nat.cast_eq_zero.1 h] at hm
    exact hm (dvd_zero p)
  have e : primePart p q * (p : ℚ) ^ n.factorization p =
      (b : ℚ) / (n / p ^ n.factorization p : ℕ) - (q - primePart p q) * ((p ^ n.factorization p : ℕ) : ℤ) := by
    have hq : q * (p : ℚ) ^ n.factorization p = (b : ℚ) / (n / p ^ n.factorization p : ℕ) := by
      have hn'' : (n : ℚ) = (p : ℚ) ^ n.factorization p * (n / p ^ n.factorization p : ℕ) := by
        exact_mod_cast hnm.symm
      conv_lhs => rw [hb, hn'']
      field_simp
    rw [← hq]
    push_cast
    ring
  rw [e]
  refine not_dvd_den_sub hp (not_dvd_den_div hm) fun h => ?_
  rcases (hp.dvd_mul).1 (h.trans (Rat.mul_den_dvd _ _)) with h | h
  · exact hi h
  · exact not_dvd_den_intCast hp _ h

theorem card_basisTurns_le {n : ℕ} (hn : n ≠ 0) : (basisTurns n).card ≤ n.totient := by
  have ht : n.totient = (n.primeFactors.pi fun p => Finset.range (p ^ (n.factorization p - 1) * (p - 1))).card := by
    rw [Finset.card_pi, Nat.totient_eq_prod_factorization hn, Finsupp.prod, Nat.support_factorization]
    simp
  rw [ht]
  refine Finset.card_le_card_of_injOn (fun q p _ => ⌊primePart p q * (p : ℚ) ^ n.factorization p⌋₊) ?_ ?_
  · intro q hq
    obtain ⟨hb, hd⟩ := (mem_basisTurns hn).1 hq
    refine Finset.mem_pi.2 fun p hpn => Finset.mem_range.2 ?_
    have hp := Nat.prime_of_mem_primeFactors hpn
    have hp0 : (0 : ℚ) < p := by exact_mod_cast hp.pos
    have hpos : 0 < n.factorization p := hp.factorization_pos_of_dvd hn (Nat.dvd_of_mem_primeFactors hpn)
    have hlt : primePart p q < 1 - 1 / (p : ℚ) := by
      by_cases hpd : p ∣ q.den
      · exact ((inBasis_iff q).1 hb).2.2 p hp hpd
      · rw [primePart_eq_zero hp hpd, sub_pos, div_lt_one hp0]
        exact_mod_cast hp.one_lt
    rw [Nat.floor_lt (mul_nonneg (primePart_isPart hp q).1 (by positivity))]
    have e : (((p ^ (n.factorization p - 1) * (p - 1) : ℕ)) : ℚ) = (1 - 1 / (p : ℚ)) * (p : ℚ) ^ n.factorization p := by
      obtain ⟨j, hj⟩ := Nat.exists_eq_succ_of_ne_zero hpos.ne'
      rw [hj, Nat.succ_eq_add_one, Nat.add_sub_cancel]
      push_cast [Nat.cast_sub hp.one_le]
      rw [pow_succ]
      field_simp
    rw [e]
    exact mul_lt_mul_of_pos_right hlt (by positivity)
  · intro q hq q' hq' heq
    obtain ⟨hb, hd⟩ := (mem_basisTurns hn).1 hq
    obtain ⟨hb', hd'⟩ := (mem_basisTurns hn).1 hq'
    have hpart : ∀ p : ℕ, p.Prime → ¬ p ∣ (q - q').den := by
      intro p hp
      by_cases hpn : p ∣ n
      · have h := congrFun (congrFun heq p) (Nat.mem_primeFactors.2 ⟨hp, hpn, hn⟩)
        obtain ⟨z, hz⟩ := exists_primePart_eq hp hn hd
        obtain ⟨z', hz'⟩ := exists_primePart_eq hp hn hd'
        have hpos : (0 : ℚ) < (p : ℚ) ^ n.factorization p := pow_pos (by exact_mod_cast hp.pos) _
        have h0 : 0 ≤ z := by
          have := mul_nonneg (primePart_isPart hp q).1 hpos.le
          rw [hz] at this
          exact_mod_cast this
        have h0' : 0 ≤ z' := by
          have := mul_nonneg (primePart_isPart hp q').1 hpos.le
          rw [hz'] at this
          exact_mod_cast this
        simp only [hz, hz'] at h
        have hzz : z = z' := by
          lift z to ℕ using h0
          lift z' to ℕ using h0'
          simpa using h
        have hpp : primePart p q = primePart p q' := by
          have : primePart p q * (p : ℚ) ^ n.factorization p = primePart p q' * (p : ℚ) ^ n.factorization p := by
            rw [hz, hz', hzz]
          exact mul_right_cancel₀ hpos.ne' this
        have e : q - q' = (q - primePart p q) - (q' - primePart p q') := by rw [hpp]; ring
        rw [e]
        exact not_dvd_den_sub hp (primePart_isPart hp q).2.2.2 (primePart_isPart hp q').2.2.2
      · exact not_dvd_den_sub hp (fun h => hpn (h.trans hd)) (fun h => hpn (h.trans hd'))
    have hone : (q - q').den = 1 := by
      by_contra hne
      obtain ⟨p, hp, hpd⟩ := Nat.exists_prime_and_dvd hne
      exact hpart p hp hpd
    have hint := (Rat.den_eq_one_iff _).1 hone
    obtain ⟨h0, h1, -⟩ := (inBasis_iff q).1 hb
    obtain ⟨h0', h1', -⟩ := (inBasis_iff q').1 hb'
    have hl : -1 < (q - q').num := by
      have : (-1 : ℚ) < (q - q').num := by rw [hint]; linarith
      exact_mod_cast this
    have hu : (q - q').num < 1 := by
      have : (((q - q').num : ℤ) : ℚ) < 1 := by rw [hint]; linarith
      exact_mod_cast this
    have hz : (q - q').num = 0 := by omega
    rw [hz, Int.cast_zero] at hint
    exact (sub_eq_zero.1 hint.symm)

/-- The value of terms as a rational combination of the numbers of `basisTurns`. -/
theorem termsValue_mem_span {n : ℕ} (hn : n ≠ 0) {ts : List Term}
    (h : ∀ t ∈ ts, inBasis t.turn = true ∧ t.turn.den ∣ n) :
    termsValue ts ∈ Submodule.span ℚ (Set.range fun q : basisTurns n => ratPhase q) := by
  induction ts with
  | nil => simp
  | cons t ts ih =>
    rw [termsValue_cons]
    refine Submodule.add_mem _ ?_ (ih fun u hu => h u (List.mem_cons_of_mem _ hu))
    have e : t.value = t.coeff • ratPhase t.turn := by rw [Term.value_eq, Rat.smul_def]
    rw [e]
    exact Submodule.smul_mem _ _ (Submodule.subset_span
      ⟨⟨t.turn, (mem_basisTurns hn).2 (h t (List.mem_cons_self ..))⟩, rfl⟩)

theorem isPrimitiveRoot_ratPhase_inv {n : ℕ} (hn : n ≠ 0) : IsPrimitiveRoot (ratPhase (1 / (n : ℚ))) n := by
  have h := (isPrimitiveRoot_ratPhase hn).inv
  have e : ratPhase (1 / (n : ℚ)) = (ratPhase (-(1 / (n : ℚ))))⁻¹ := eq_inv_of_mul_eq_one_right (ratPhase_neg_mul _)
  rwa [e]

theorem linearIndependent_basisTurns {n : ℕ} (hn : n ≠ 0) :
    LinearIndependent ℚ fun q : basisTurns n => ratPhase (q : ℚ) := by
  rw [linearIndependent_iff_card_le_finrank_span, Fintype.card_coe]
  refine (card_basisTurns_le hn).trans ?_
  set ζ := ratPhase (1 / (n : ℚ)) with hζ
  have hprim : IsPrimitiveRoot ζ n := isPrimitiveRoot_ratPhase_inv hn
  have hdeg : (minpoly ℚ ζ).natDegree = n.totient := by
    rw [← Polynomial.cyclotomic_eq_minpoly_rat hprim (Nat.pos_of_ne_zero hn), Polynomial.natDegree_cyclotomic]
  have hli := linearIndependent_pow (K := ℚ) ζ
  have hcard := finrank_span_eq_card hli
  rw [Fintype.card_fin, hdeg] at hcard
  rw [← hcard, Set.finrank]
  have : Module.Finite ℚ (Submodule.span ℚ (Set.range fun q : basisTurns n => ratPhase (q : ℚ))) :=
    FiniteDimensional.span_of_finite ℚ (Set.finite_range _)
  refine Submodule.finrank_mono (Submodule.span_le.2 ?_)
  rintro _ ⟨i, rfl⟩
  have hi : ζ ^ (i : ℕ) = termsValue (Term.expand ⟨(i : ℕ) * (1 / (n : ℚ)), 1⟩) := by
    rw [termsValue_expand, Term.value_eq, ratPhase_natCast_mul]
    simp [hζ]
  simp only [SetLike.mem_coe]
  rw [hi]
  refine termsValue_mem_span hn fun u hu => ?_
  obtain ⟨hb, hd⟩ := Term.mem_expand hu
  exact ⟨hb, hd.trans (den_dvd_of_eq (a := (i : ℕ)) (by push_cast; ring))⟩

/-! ## Equal numbers have equal canonical forms -/

/-- The coefficient of `ph(q)` in a list of terms. -/
def coeffAt (ts : List Term) (q : ℚ) : ℚ := (ts.map fun t => if t.turn = q then t.coeff else 0).sum

theorem termsValue_eq_sum_coeffAt {n : ℕ} (hn : n ≠ 0) {ts : List Term}
    (h : ∀ t ∈ ts, inBasis t.turn = true ∧ t.turn.den ∣ n) :
    termsValue ts = ∑ q : basisTurns n, coeffAt ts q • ratPhase (q : ℚ) := by
  induction ts with
  | nil => simp [coeffAt]
  | cons t ts ih =>
    rw [termsValue_cons, ih fun u hu => h u (List.mem_cons_of_mem _ hu)]
    have e : ∀ q : basisTurns n, coeffAt (t :: ts) q • ratPhase (q : ℚ) =
        (if (⟨t.turn, (mem_basisTurns hn).2 (h t (List.mem_cons_self ..))⟩ : basisTurns n) = q
          then t.coeff • ratPhase (q : ℚ) else 0) + coeffAt ts q • ratPhase (q : ℚ) := fun q => by
      rw [coeffAt, List.map_cons, List.sum_cons, ← coeffAt, add_smul]
      congr 1
      rw [ite_smul, zero_smul]
      simp only [← Subtype.val_inj]
    simp only [e, Finset.sum_add_distrib, Finset.sum_ite_eq, Finset.mem_univ, if_true]
    rw [Term.value_eq, Rat.smul_def]

theorem coeffAt_eq_zero {ts : List Term} {q : ℚ} (h : ∀ t ∈ ts, q < t.turn) : coeffAt ts q = 0 := by
  induction ts with
  | nil => rfl
  | cons t ts ih =>
    rw [coeffAt, List.map_cons, List.sum_cons, ← coeffAt, ih fun u hu => h u (List.mem_cons_of_mem _ hu),
      if_neg (h t (List.mem_cons_self ..)).ne', add_zero]

theorem coeffAt_cons_self {t : Term} {ts : List Term} (h : ∀ u ∈ ts, t.turn < u.turn) :
    coeffAt (t :: ts) t.turn = t.coeff := by
  rw [coeffAt, List.map_cons, List.sum_cons, ← coeffAt, coeffAt_eq_zero h, if_pos rfl, add_zero]

theorem eq_of_coeffAt_eq {ts us : List Term} (ht : canonicalTerms ts = true) (hu : canonicalTerms us = true)
    (h : ∀ q, coeffAt ts q = coeffAt us q) : ts = us := by
  rw [canonicalTerms_iff] at ht hu
  induction ts generalizing us with
  | nil =>
    cases us with
    | nil => rfl
    | cons u us =>
      have := h u.turn
      rw [coeffAt_cons_self (List.pairwise_cons.1 hu.1).1] at this
      exact absurd this.symm (hu.2 u (List.mem_cons_self ..)).2
  | cons t ts ih =>
    have htp := List.pairwise_cons.1 ht.1
    have htc := (ht.2 t (List.mem_cons_self ..)).2
    cases us with
    | nil =>
      have := h t.turn
      rw [coeffAt_cons_self htp.1] at this
      exact absurd this htc
    | cons u us =>
      have hup := List.pairwise_cons.1 hu.1
      have huc := (hu.2 u (List.mem_cons_self ..)).2
      have hturn : t.turn = u.turn := by
        rcases lt_trichotomy t.turn u.turn with hlt | he | hlt
        · have := h t.turn
          rw [coeffAt_cons_self htp.1, coeffAt_eq_zero] at this
          · exact absurd this htc
          · intro v hv
            rcases List.mem_cons.1 hv with rfl | hv
            · exact hlt
            · exact hlt.trans (hup.1 v hv)
        · exact he
        · have := h u.turn
          rw [coeffAt_cons_self hup.1, coeffAt_eq_zero] at this
          · exact absurd this.symm huc
          · intro v hv
            rcases List.mem_cons.1 hv with rfl | hv
            · exact hlt
            · exact hlt.trans (htp.1 v hv)
      have hcoeff : t.coeff = u.coeff := by
        have := h t.turn
        rwa [coeffAt_cons_self htp.1, hturn, coeffAt_cons_self hup.1] at this
      have htu : t = u := by
        cases t; cases u; simp only [Term.mk.injEq]; exact ⟨hturn, hcoeff⟩
      subst htu
      congr 1
      refine ih ⟨htp.2, fun v hv => ht.2 v (List.mem_cons_of_mem _ hv)⟩
        ⟨hup.2, fun v hv => hu.2 v (List.mem_cons_of_mem _ hv)⟩ fun q => ?_
      have := h q
      rw [coeffAt, coeffAt, List.map_cons, List.map_cons, List.sum_cons, List.sum_cons] at this
      exact add_left_cancel this

/-- The common denominator of the turns of a list of terms. -/
theorem exists_den_dvd (ts : List Term) : ∃ n : ℕ, n ≠ 0 ∧ ∀ t ∈ ts, t.turn.den ∣ n := by
  induction ts with
  | nil => exact ⟨1, one_ne_zero, by simp⟩
  | cons t ts ih =>
    obtain ⟨n, hn, h⟩ := ih
    refine ⟨t.turn.den * n, mul_ne_zero t.turn.den_ne_zero hn, fun u hu => ?_⟩
    rcases List.mem_cons.1 hu with rfl | hu
    · exact dvd_mul_right _ _
    · exact (h u hu).mul_left _

/-- Canonical lists of terms with the same value are equal. -/
theorem eq_of_termsValue_eq {ts us : List Term} (ht : canonicalTerms ts = true) (hu : canonicalTerms us = true)
    (h : termsValue ts = termsValue us) : ts = us := by
  obtain ⟨n, hn, hden⟩ := exists_den_dvd (ts ++ us)
  have ht' : ∀ t ∈ ts, inBasis t.turn = true ∧ t.turn.den ∣ n := fun t hm =>
    ⟨(((canonicalTerms_iff ts).1 ht).2 t hm).1, hden t (List.mem_append_left _ hm)⟩
  have hu' : ∀ t ∈ us, inBasis t.turn = true ∧ t.turn.den ∣ n := fun t hm =>
    ⟨(((canonicalTerms_iff us).1 hu).2 t hm).1, hden t (List.mem_append_right _ hm)⟩
  refine eq_of_coeffAt_eq ht hu fun q => ?_
  rw [termsValue_eq_sum_coeffAt hn ht', termsValue_eq_sum_coeffAt hn hu', ← sub_eq_zero, ← Finset.sum_sub_distrib] at h
  by_cases hq : q ∈ basisTurns n
  · have := Fintype.linearIndependent_iff.1 (linearIndependent_basisTurns hn)
      (fun r => coeffAt ts r - coeffAt us r) (by simpa only [sub_smul] using h) ⟨q, hq⟩
    exact sub_eq_zero.1 this
  · have hz : ∀ vs : List Term, (∀ t ∈ vs, inBasis t.turn = true ∧ t.turn.den ∣ n) → coeffAt vs q = 0 := by
      intro vs hvs
      refine List.sum_eq_zero fun x hx => ?_
      obtain ⟨t, hm, rfl⟩ := List.mem_map.1 hx
      rw [if_neg]
      rintro rfl
      exact hq ((mem_basisTurns hn).2 (hvs t hm))
    rw [hz ts ht', hz us hu']

theorem Cyc.canonical_normalise (x : Cyc) : x.normalise.canonical = true := canonicalTerms_normaliseTerms x.terms

/-- Canonical numbers with the same value are equal. -/
theorem Cyc.eq_of_value_eq {x y : Cyc} (hx : x.canonical = true) (hy : y.canonical = true) (h : x.value = y.value) :
    x = y := by
  cases x; cases y
  exact congrArg Cyc.mk (eq_of_termsValue_eq hx hy h)

/-! ## The operations as complex numbers -/

theorem termsValue_map_scale (r : ℚ) (ts : List Term) :
    termsValue (ts.map fun t => ⟨t.turn, r * t.coeff⟩) = (r : ℂ) * termsValue ts := by
  induction ts with
  | nil => simp
  | cons t ts ih =>
    rw [List.map_cons, termsValue_cons, termsValue_cons, ih, Term.value_eq, Term.value_eq]
    push_cast
    ring

theorem Cyc.value_scale (r : ℚ) (x : Cyc) : (Cyc.scale r x).value = (r : ℂ) * x.value := by
  rw [Cyc.value, Cyc.scale, termsValue_normaliseTerms, termsValue_map_scale, Cyc.value]

theorem Cyc.value_add (x y : Cyc) : (Cyc.add x y).value = x.value + y.value := by
  rw [Cyc.value, Cyc.add, termsValue_normaliseTerms, termsValue_append, Cyc.value, Cyc.value]

theorem Cyc.value_mul (x y : Cyc) : (Cyc.mul x y).value = x.value * y.value := by
  rw [Cyc.value, Cyc.mul, termsValue_normaliseTerms, Cyc.value, Cyc.value]
  have h : ∀ (t : Term) (us : List Term),
      termsValue (us.map fun u => ⟨t.turn + u.turn, t.coeff * u.coeff⟩) = t.value * termsValue us := by
    intro t us
    induction us with
    | nil => simp
    | cons u us ih =>
      rw [List.map_cons, termsValue_cons, termsValue_cons, ih, Term.value_eq, Term.value_eq, Term.value_eq, ratPhase_add]
      push_cast
      ring
  induction x.terms with
  | nil => simp
  | cons t ts ih => rw [List.flatMap_cons, termsValue_append, termsValue_cons, ih, h, add_mul]

/-! ## The product of the conjugates of a number is rational -/

theorem order_ne_zero (x : Cyc) : x.order ≠ 0 := by
  have : ∀ ts : List Term, ts.foldr (fun t n => Nat.lcm t.turn.den n) 1 ≠ 0 := by
    intro ts
    induction ts with
    | nil => simp
    | cons t ts ih => exact Nat.lcm_ne_zero t.turn.den_ne_zero ih
  exact this x.terms

theorem den_dvd_order {x : Cyc} {t : Term} (h : t ∈ x.terms) : t.turn.den ∣ x.order := by
  have : ∀ ts : List Term, t ∈ ts → t.turn.den ∣ ts.foldr (fun t n => Nat.lcm t.turn.den n) 1 := by
    intro ts
    induction ts with
    | nil => simp
    | cons u ts ih =>
      intro hm
      rcases List.mem_cons.1 hm with rfl | hm
      · exact Nat.dvd_lcm_left _ _
      · exact (ih hm).trans (Nat.dvd_lcm_right _ _)
  exact this x.terms h

/-- The value of the conjugate that takes `ph(q)` to `ph(k*q)`. -/
theorem value_conjugate (k : ℕ) (x : Cyc) :
    (x.conjugate k).value = (x.terms.map fun t => (t.coeff : ℂ) * ratPhase t.turn ^ k).sum := by
  rw [Cyc.value, Cyc.conjugate, termsValue_normaliseTerms, termsValue, List.map_map]
  congr 1
  refine List.map_congr_left fun t _ => ?_
  rw [Function.comp_apply, Term.value_eq, ratPhase_natCast_mul]

/-- The product of the conjugates of a number whose denominators divide `n` is a rational number, not 0 where the number
is not 0. -/
theorem exists_prod_conjugates {n : ℕ} (hn : n ≠ 0) {F : Type} [Field F] [Algebra ℚ F]
    [IsCyclotomicExtension {n} ℚ F] (ts : List Term)
    (hts : ∀ t ∈ ts, 0 ≤ t.turn ∧ t.turn.den ∣ n) (h0 : termsValue ts ≠ 0) :
    ∃ r : ℚ, r ≠ 0 ∧ (r : ℂ) = ∏ k ∈ (Finset.range n).filter (fun k => k.Coprime n),
      (ts.map fun t => (t.coeff : ℂ) * ratPhase t.turn ^ k).sum := by
  have : NeZero n := ⟨hn⟩
  have hn' : (n : ℚ) ≠ 0 := by exact_mod_cast hn
  let z : F := IsCyclotomicExtension.zeta n ℚ F
  have hz : IsPrimitiveRoot z n := IsCyclotomicExtension.zeta_spec n ℚ F
  have : FiniteDimensional ℚ F := IsCyclotomicExtension.finiteDimensional {n} ℚ F
  have hirr := Polynomial.cyclotomic.irreducible_rat (Nat.pos_of_ne_zero hn)
  set ζ := ratPhase (1 / (n : ℚ)) with hζ
  have hprim : IsPrimitiveRoot ζ n := isPrimitiveRoot_ratPhase_inv hn
  -- the number in the cyclotomic field
  let a : Term → ℕ := fun t => (t.turn * n).num.toNat
  have ha : ∀ t ∈ ts, ratPhase t.turn = ζ ^ a t := by
    intro t ht
    obtain ⟨b, hb⟩ := eq_div_of_den_dvd hn (hts t ht).2
    have hb0 : 0 ≤ b := by
      have := (hts t ht).1
      rw [hb, le_div_iff₀ (by positivity), zero_mul] at this
      exact_mod_cast this
    have hab : a t = b.toNat := by
      show (t.turn * n).num.toNat = _
      rw [hb, div_mul_cancel₀ _ hn', Rat.num_intCast]
    rw [hab, hζ, ← ratPhase_natCast_mul, hb]
    congr 1
    have : ((b.toNat : ℤ) : ℚ) = (b : ℚ) := by rw [Int.toNat_of_nonneg hb0]
    have h2 : ((b.toNat : ℕ) : ℚ) = (b : ℚ) := by exact_mod_cast this
    rw [h2]
    ring
  let Y : F := (ts.map fun t => algebraMap ℚ F t.coeff * z ^ a t).sum
  have hσ : ∀ σ : F →ₐ[ℚ] ℂ, σ Y = (ts.map fun t => (t.coeff : ℂ) * σ z ^ a t).sum := by
    intro σ
    rw [map_list_sum, List.map_map]
    congr 1
    refine List.map_congr_left fun t _ => ?_
    simp
  have hnorm := Algebra.norm_eq_prod_embeddings ℚ ℂ Y
  let e := hz.embeddingsEquivPrimitiveRoots ℂ hirr
  have he : ∀ σ : F →ₐ[ℚ] ℂ, ((e σ : primitiveRoots n ℂ) : ℂ) = σ z := fun σ =>
    IsPrimitiveRoot.embeddingsEquivPrimitiveRoots_apply_coe hz ℂ hirr σ
  have hprod : ∏ σ : F →ₐ[ℚ] ℂ, σ Y =
      ∏ μ : primitiveRoots n ℂ, (ts.map fun t => (t.coeff : ℂ) * (μ : ℂ) ^ a t).sum := by
    refine Fintype.prod_equiv e _ _ fun σ => ?_
    rw [hσ, he]
  have hk : ∏ μ : primitiveRoots n ℂ, (ts.map fun t => (t.coeff : ℂ) * (μ : ℂ) ^ a t).sum =
      ∏ k ∈ (Finset.range n).filter (fun k => k.Coprime n), (ts.map fun t => (t.coeff : ℂ) * ratPhase t.turn ^ k).sum := by
    rw [Finset.prod_coe_sort (primitiveRoots n ℂ) fun μ => (ts.map fun t => (t.coeff : ℂ) * μ ^ a t).sum]
    symm
    refine Finset.prod_bij (fun k _ => ζ ^ k) ?_ ?_ ?_ ?_
    · intro k hk
      rw [mem_primitiveRoots (Nat.pos_of_ne_zero hn)]
      exact hprim.pow_of_coprime k (Finset.mem_filter.1 hk).2
    · intro k hk k' hk' h
      exact hprim.pow_inj (Finset.mem_range.1 (Finset.mem_filter.1 hk).1)
        (Finset.mem_range.1 (Finset.mem_filter.1 hk').1) h
    · intro μ hμ
      rw [mem_primitiveRoots (Nat.pos_of_ne_zero hn)] at hμ
      obtain ⟨k, hk, hc, rfl⟩ := hprim.isPrimitiveRoot_iff.1 hμ
      exact ⟨k, Finset.mem_filter.2 ⟨Finset.mem_range.2 hk, hc⟩, rfl⟩
    · intro k _
      congr 1
      refine List.map_congr_left fun t ht => ?_
      rw [ha t ht, ← pow_mul, ← pow_mul, mul_comm k]
  refine ⟨Algebra.norm ℚ Y, ?_, ?_⟩
  · rw [Algebra.norm_ne_zero_iff]
    intro hY
    let σ : F →ₐ[ℚ] ℂ := e.symm ⟨ζ, (mem_primitiveRoots (Nat.pos_of_ne_zero hn)).2 hprim⟩
    have hσz : σ z = ζ := by rw [← he σ, Equiv.apply_symm_apply]
    apply h0
    have := hσ σ
    rw [hY, map_zero, hσz] at this
    rw [termsValue, this]
    congr 1
    refine List.map_congr_left fun t ht => ?_
    rw [Term.value_eq, ha t ht]
  · rw [← hk, ← hprod, ← hnorm]
    simp

theorem value_foldr_mul (xs : List Cyc) :
    (xs.foldr Cyc.mul Cyc.one).value = (xs.map Cyc.value).prod := by
  induction xs with
  | nil => simp
  | cons x xs ih => rw [List.foldr_cons, Cyc.value_mul, ih, List.map_cons, List.prod_cons]

/-- A number other than 0, times the product of its other conjugates, is a rational number other than 0. -/
theorem exists_mul_cofactor {y : Cyc} (hy : y.canonical = true) (h0 : y.value ≠ 0) :
    ∃ r : ℚ, r ≠ 0 ∧ y.value * y.cofactor.value = (r : ℂ) := by
  have hterms := ((canonicalTerms_iff y.terms).1 hy).2
  have hn := order_ne_zero y
  have : NeZero y.order := ⟨hn⟩
  have := CyclotomicField.isCyclotomicExtension y.order ℚ
  obtain ⟨r, hr, hprod⟩ := @exists_prod_conjugates y.order hn (CyclotomicField y.order ℚ) _ _ this y.terms
    (fun t ht => ⟨((inBasis_iff _).1 (hterms t ht).1).1, den_dvd_order ht⟩) h0
  refine ⟨r, hr, ?_⟩
  rw [hprod, Cyc.cofactor, value_foldr_mul, List.map_map]
  have hfun : (Cyc.value ∘ fun k => y.conjugate k) =
      fun k => (y.terms.map fun t => (t.coeff : ℂ) * ratPhase t.turn ^ k).sum := by
    funext k
    exact value_conjugate k y
  rw [hfun]
  set f : ℕ → ℂ := fun k => (y.terms.map fun t => (t.coeff : ℂ) * ratPhase t.turn ^ k).sum with hf
  have h1 : y.value = f 1 := by
    rw [hf, Cyc.value, termsValue]
    simp only [pow_one]
    rfl
  have hlist : (((List.range y.order).filter fun k => decide (2 ≤ k) && Nat.gcd k y.order == 1).map f).prod =
      ∏ k ∈ (Finset.range y.order).filter (fun k => 2 ≤ k ∧ k.Coprime y.order), f k := by
    rw [← List.prod_toFinset f (List.nodup_range.filter _)]
    refine Finset.prod_congr ?_ fun _ _ => rfl
    ext k
    simp [Nat.coprime_iff_gcd_eq_one]
  rw [hlist]
  rcases Nat.lt_or_ge 1 y.order with h | h
  · have hset : (Finset.range y.order).filter (fun k => k.Coprime y.order) =
        insert 1 ((Finset.range y.order).filter fun k => 2 ≤ k ∧ k.Coprime y.order) := by
      ext k
      simp only [Finset.mem_filter, Finset.mem_range, Finset.mem_insert]
      constructor
      · rintro ⟨hk, hc⟩
        rcases k with _ | _ | k
        · rw [Nat.coprime_zero_left] at hc
          omega
        · exact .inl rfl
        · exact .inr ⟨hk, by omega, hc⟩
      · rintro (rfl | ⟨hk, -, hc⟩)
        · exact ⟨h, Nat.coprime_one_left _⟩
        · exact ⟨hk, hc⟩
    rw [hset, Finset.prod_insert (by simp), h1]
  · have hone : y.order = 1 := by omega
    have hzero : f 0 = f 1 := by
      rw [hf]
      simp only
      congr 1
      refine List.map_congr_left fun t ht => ?_
      have hd := den_dvd_order ht
      rw [hone, Nat.dvd_one, Rat.den_eq_one_iff] at hd
      rw [← hd, ratPhase_intCast, one_pow, one_pow]
    rw [hone, h1, ← hzero]
    simp [Finset.filter_singleton]

/-- The inverse of a number other than 0. -/
theorem Cyc.value_inv {x : Cyc} (h : x.value ≠ 0) : x.inv.value = x.value⁻¹ := by
  have hv : x.normalise.value = x.value := Cyc.value_normalise x
  have hy0 : x.normalise.value ≠ 0 := by rwa [hv]
  obtain ⟨r, hr, hmul⟩ := exists_mul_cofactor (Cyc.canonical_normalise x) hy0
  have hrterm : Cyc.mul x.normalise x.normalise.cofactor = ⟨[⟨0, r⟩]⟩ := by
    refine Cyc.eq_of_value_eq (canonicalTerms_normaliseTerms _) ?_ ?_
    · rw [Cyc.canonical, canonicalTerms_iff]
      refine ⟨List.pairwise_singleton _ _, fun t ht => ?_⟩
      rw [List.mem_singleton.1 ht]
      exact ⟨(inBasis_iff 0).2 ⟨le_rfl, one_pos, fun p hp hd => absurd hd (by simpa using hp.one_lt.ne')⟩, hr⟩
    · rw [Cyc.value_mul, hmul]
      simp [Cyc.value, Term.value_eq]
  have hrc : (r : ℂ) ≠ 0 := by exact_mod_cast hr
  rw [Cyc.inv]
  simp only [hrterm]
  rw [Cyc.value_scale, ← hv]
  refine eq_inv_of_mul_eq_one_right ?_
  push_cast
  rw [mul_left_comm, hmul, one_div, inv_mul_cancel₀ hrc]

theorem Cyc.value_div {x y : Cyc} (h : y.value ≠ 0) : (Cyc.div x y).value = x.value / y.value := by
  rw [Cyc.div, Cyc.value_mul, Cyc.value_inv h, div_eq_mul_inv]

/-! ## The operations on all complex numbers -/

/-- What an operation on two numbers answers: the canonical result for two numbers that are computed exactly, and else
what is made of them. -/
theorem NumK.value_lift (v : Valuation) (f : ℂ → ℂ → ℂ) {op : Cyc → Cyc → Cyc} {other : NumK} {x y : NumK}
    (hop : ∀ a b, x = .exact a → y = .exact b → (op a b).value = f a.value b.value)
    (hother : other.value v = f (x.value v) (y.value v)) :
    (NumK.lift op other x y).value v = f (x.value v) (y.value v) := by
  unfold NumK.lift
  split
  · rename_i a b
    exact hop a b rfl rfl
  · exact hother

theorem NumK.value_add (v : Valuation) (x y : NumK) : (NumK.add x y).value v = x.value v + y.value v := by
  refine NumK.value_lift v (· + ·) (fun a b _ _ => Cyc.value_add a b) ?_
  split
  · rename_i h
    simp [h]
  · split
    · rename_i h
      simp [h]
    · rfl

theorem NumK.value_mul (v : Valuation) (x y : NumK) : (NumK.mul x y).value v = x.value v * y.value v := by
  refine NumK.value_lift v (· * ·) (fun a b _ _ => Cyc.value_mul a b) ?_
  split
  · rename_i h
    rcases h with h | h <;> simp [h]
  · split
    · rename_i h
      simp [h]
    · rfl

theorem NumK.value_scale (v : Valuation) (r : NumR) (x : NumK) :
    (NumK.scale r x).value v = (r.value v : ℂ) * x.value v := by
  unfold NumK.scale
  split
  · rename_i h
    rcases h with h | h
    · simp [(NumR.isZero_iff v r).1 h]
    · simp [h]
  · split
    · rename_i hp _
      simp [NumK.value_exact, Cyc.value_scale, NumR.value_eq, hp]
    · rfl

/-- The test for 0 (43_estimator.md R74) finds the number 0 and no other. -/
theorem Cyc.isZero_iff (x : Cyc) : x.isZero = true ↔ x.value = 0 := by
  rw [Cyc.isZero, decide_eq_true_eq]
  refine ⟨fun h => by rw [← Cyc.value_normalise, h, Cyc.value_zero], fun h => ?_⟩
  exact Cyc.eq_of_value_eq (Cyc.canonical_normalise x) rfl (by rw [Cyc.value_normalise, h, Cyc.value_zero])

/-- A number that is 0 stays 0. -/
theorem NumK.meaning_unlessZero (v : Valuation) (x y : NumK) [Decidable (x.finite v ∧ x.value v = 0)] :
    (NumK.unlessZero x y).meaning v = if x.finite v ∧ x.value v = 0 then .number 0 else y.meaning v := by
  unfold NumK.unlessZero
  split
  · rename_i a _
    have e : a.isZero = true ↔ (NumK.exact a).finite v ∧ (NumK.exact a).value v = 0 :=
      (Cyc.isZero_iff a).trans (and_iff_right trivial).symm
    split
    · rename_i h
      rw [if_pos (e.1 h)]
      rfl
    · rename_i h
      rw [if_neg fun h' => h (e.2 h')]
  · exact NumK.meaning_ifZero v x NumK.zero y

end Sys2Proof
end

