-- ==== Sys2Proof/Laws/Memory.lean ====
section
/-! SUPPORT. What reading and writing elements do: a write is read back, leaves every other index alone, and keeps the
canonical form and the range of a memory. -/

namespace Sys2Proof.Machine

open Sys2Proof

variable {α : Type}

@[simp] theorem Mem.read_nil (i : Nat) : Mem.read ([] : Mem α) i = none := rfl

theorem Mem.read_cons (x : Nat × α) (mem : Mem α) (i : Nat) :
    Mem.read (x :: mem) i = if x.1 = i then some x.2 else Mem.read mem i := rfl

@[simp] theorem Mem.writeFrom_nil (mem : Mem α) (i : Nat) : mem.writeFrom i [] = mem := rfl

@[simp] theorem Mem.writeFrom_cons (mem : Mem α) (i : Nat) (v : α) (vs : List α) :
    mem.writeFrom i (v :: vs) = (mem.write i v).writeFrom (i + 1) vs := rfl

/-- An index below every listed index reads as no value. -/
theorem Mem.read_eq_none_of_lt {mem : Mem α} {i : Nat} (h : ∀ x ∈ mem, i < x.1) : mem.read i = none := by
  induction mem with
  | nil => rfl
  | cons x rest ih =>
    have hx : i < x.1 := h x (by simp)
    rw [Mem.read_cons, if_neg (by omega)]
    exact ih fun y hy => h y (by simp [hy])

/-- A write is read back at its index, and every other index reads as before. -/
theorem Mem.read_write (mem : Mem α) (i j : Nat) (v : α) :
    (mem.write i v).read j = if j = i then some v else mem.read j := by
  induction mem with
  | nil => simp [Mem.write, Mem.read_cons, eq_comm]
  | cons x rest ih =>
    obtain ⟨k, u⟩ := x
    unfold Mem.write
    split
    · by_cases h : j = i
      · simp [Mem.read_cons, h]
      · simp [Mem.read_cons, h, Ne.symm h]
    · split
      · subst_vars
        by_cases h : j = k
        · simp [Mem.read_cons, h]
        · simp [Mem.read_cons, h, Ne.symm h]
      · rw [Mem.read_cons, ih, Mem.read_cons]
        by_cases h : j = i
        · subst h
          rw [if_neg (by omega), if_pos rfl, if_pos rfl]
        · rw [if_neg h, if_neg h]

theorem Mem.mem_write {mem : Mem α} {i : Nat} {v : α} {x : Nat × α} (h : x ∈ mem.write i v) :
    x = (i, v) ∨ x ∈ mem := by
  induction mem with
  | nil => exact .inl (by simpa [Mem.write] using h)
  | cons y rest ih =>
    obtain ⟨k, u⟩ := y
    unfold Mem.write at h
    split at h
    · simpa using h
    · split at h
      · rcases List.mem_cons.mp h with h | h
        · exact .inl h
        · exact .inr (by simp [h])
      · rcases List.mem_cons.mp h with h | h
        · exact .inr (by simp [h])
        · exact (ih h).imp id fun h => by simp [h]

/-- A write keeps the canonical form. -/
theorem Mem.wf_write {mem : Mem α} (h : mem.wf) (i : Nat) (v : α) : (mem.write i v).wf := by
  induction mem with
  | nil => simp [Mem.write]
  | cons y rest ih =>
    obtain ⟨k, u⟩ := y
    have hk : ∀ x ∈ rest, k < x.1 := fun x hx => List.rel_of_pairwise_cons h hx
    unfold Mem.write
    split
    · rename_i hik
      refine List.pairwise_cons.mpr ⟨fun x hx => ?_, h⟩
      rcases List.mem_cons.mp hx with rfl | hx
      · exact hik
      · exact hik.trans (hk x hx)
    · split
      · subst_vars
        exact List.pairwise_cons.mpr ⟨hk, h.of_cons⟩
      · refine List.pairwise_cons.mpr ⟨fun x hx => ?_, ih h.of_cons⟩
        rcases Mem.mem_write hx with rfl | hx
        · show k < i
          omega
        · exact hk x hx

/-- A write below `cap` keeps every listed index below `cap`. -/
theorem Mem.below_write {mem : Mem α} {cap : Nat} (h : mem.below cap) {i : Nat} (hi : i < cap) (v : α) :
    (mem.write i v).below cap := by
  intro x hx
  rcases Mem.mem_write hx with rfl | hx
  · exact hi
  · exact h x hx

/-- A run of writes is read back at its indices, and every other index reads as before. -/
theorem Mem.read_writeFrom (vs : List α) (mem : Mem α) (i j : Nat) :
    (mem.writeFrom i vs).read j = if i ≤ j ∧ j < i + vs.length then vs[j - i]? else mem.read j := by
  induction vs generalizing mem i with
  | nil => simp [show ¬ (i ≤ j ∧ j < i) by omega]
  | cons v vs ih =>
    rw [Mem.writeFrom_cons, ih, Mem.read_write]
    by_cases h1 : i + 1 ≤ j ∧ j < i + 1 + vs.length
    · obtain ⟨n, hn⟩ : ∃ n, j = i + 1 + n := ⟨j - (i + 1), by omega⟩
      have h2 : i ≤ j ∧ j < i + (v :: vs).length := by simp; omega
      rw [if_pos h1, if_pos h2, show j - i = (j - (i + 1)) + 1 by omega, List.getElem?_cons_succ]
    · rw [if_neg h1]
      by_cases h3 : j = i
      · subst h3
        simp
      · rw [if_neg h3, if_neg (by simp; omega)]

/-- A run of writes keeps the canonical form. -/
theorem Mem.wf_writeFrom {vs : List α} {mem : Mem α} (h : mem.wf) (i : Nat) : (mem.writeFrom i vs).wf := by
  induction vs generalizing mem i with
  | nil => exact h
  | cons v vs ih => exact ih (Mem.wf_write h i v) (i + 1)

/-- A run of writes that ends at or below `cap` keeps every listed index below `cap`. -/
theorem Mem.below_writeFrom {vs : List α} {mem : Mem α} {cap : Nat} (h : mem.below cap) {i : Nat}
    (hi : i + vs.length ≤ cap) : (mem.writeFrom i vs).below cap := by
  induction vs generalizing mem i with
  | nil => exact h
  | cons v vs ih =>
    simp only [List.length_cons] at hi
    exact ih (Mem.below_write h (by omega) v) (by omega)

/-- What a run of writes leaves in a memory is one of its values or stood there before. -/
theorem Mem.mem_writeFrom {vs : List α} {mem : Mem α} {i : Nat} {x : Nat × α} (h : x ∈ mem.writeFrom i vs) :
    x.2 ∈ vs ∨ x ∈ mem := by
  induction vs generalizing mem i with
  | nil => exact .inr h
  | cons v vs ih =>
    rcases ih h with h | h
    · exact .inl (by simp [h])
    · rcases Mem.mem_write h with rfl | h
      · exact .inl (by simp)
      · exact .inr h

/-- In a canonical memory the listed entries are what is read. -/
theorem Mem.read_of_mem {mem : Mem α} (h : mem.wf) {x : Nat × α} (hx : x ∈ mem) : mem.read x.1 = some x.2 := by
  induction mem with
  | nil => simp at hx
  | cons y rest ih =>
    rw [Mem.read_cons]
    rcases List.mem_cons.mp hx with rfl | hx
    · simp
    · have := List.rel_of_pairwise_cons h hx
      rw [if_neg (by omega)]
      exact ih h.of_cons hx

end Sys2Proof.Machine
end

