-- ==== Sys2Proof/Laws/State.lean ====
section
/-! SUPPORT. One lemma per field and update of the state, so that no proof unfolds a record update. -/

namespace Sys2Proof.Machine

open Sys2Proof


/-! ## `State.accept` -/

@[simp] theorem State.accept_busy (s : State) :
    (s.accept).busy = true := rfl
@[simp] theorem State.accept_done (s : State) :
    (s.accept).done = false := rfl
@[simp] theorem State.accept_errcode (s : State) :
    (s.accept).errcode = s.errcode := rfl
@[simp] theorem State.accept_errinfo (s : State) :
    (s.accept).errinfo = s.errinfo := rfl
@[simp] theorem State.accept_errcmd (s : State) :
    (s.accept).errcmd = s.errcmd := rfl
@[simp] theorem State.accept_m (s : State) :
    (s.accept).m = s.m := rfl
@[simp] theorem State.accept_n (s : State) :
    (s.accept).n = s.n := rfl
@[simp] theorem State.accept_glen (s : State) :
    (s.accept).glen = s.glen := rfl
@[simp] theorem State.accept_gmode (s : State) :
    (s.accept).gmode = s.gmode := rfl
@[simp] theorem State.accept_npath (s : State) :
    (s.accept).npath = s.npath := rfl
@[simp] theorem State.accept_npilot (s : State) :
    (s.accept).npilot = s.npilot := rfl
@[simp] theorem State.accept_tlen0 (s : State) :
    (s.accept).tlen0 = s.tlen0 := rfl
@[simp] theorem State.accept_tlen1 (s : State) :
    (s.accept).tlen1 = s.tlen1 := rfl
@[simp] theorem State.accept_hplen (s : State) :
    (s.accept).hplen = s.hplen := rfl
@[simp] theorem State.accept_fs (s : State) :
    (s.accept).fs = s.fs := rfl
@[simp] theorem State.accept_pathDelay (s : State) :
    (s.accept).pathDelay = s.pathDelay := rfl
@[simp] theorem State.accept_pathGain (s : State) :
    (s.accept).pathGain = s.pathGain := rfl
@[simp] theorem State.accept_pathDoppler (s : State) :
    (s.accept).pathDoppler = s.pathDoppler := rfl
@[simp] theorem State.accept_pilotDidx (s : State) :
    (s.accept).pilotDidx = s.pilotDidx := rfl
@[simp] theorem State.accept_pilotLidx (s : State) :
    (s.accept).pilotLidx = s.pilotLidx := rfl
@[simp] theorem State.accept_pilotPval (s : State) :
    (s.accept).pilotPval = s.pilotPval := rfl
@[simp] theorem State.accept_g0 (s : State) :
    (s.accept).g0 = s.g0 := rfl
@[simp] theorem State.accept_g1 (s : State) :
    (s.accept).g1 = s.g1 := rfl
@[simp] theorem State.accept_t0 (s : State) :
    (s.accept).t0 = s.t0 := rfl
@[simp] theorem State.accept_t1 (s : State) :
    (s.accept).t1 = s.t1 := rfl
@[simp] theorem State.accept_hp (s : State) :
    (s.accept).hp = s.hp := rfl
@[simp] theorem State.accept_hg (s : State) :
    (s.accept).hg = s.hg := rfl
@[simp] theorem State.accept_caps (s : State) :
    (s.accept).caps = s.caps := rfl
@[simp] theorem State.accept_num (s : State) :
    (s.accept).num = s.num := rfl
@[simp] theorem State.accept_resets (s : State) :
    (s.accept).resets = s.resets := rfl
@[simp] theorem State.accept_host (s : State) :
    (s.accept).host = s.host := rfl

/-! ## `State.complete` -/

@[simp] theorem State.complete_busy (s : State) :
    (s.complete).busy = false := rfl
@[simp] theorem State.complete_done (s : State) :
    (s.complete).done = true := rfl
@[simp] theorem State.complete_errcode (s : State) :
    (s.complete).errcode = s.errcode := rfl
@[simp] theorem State.complete_errinfo (s : State) :
    (s.complete).errinfo = s.errinfo := rfl
@[simp] theorem State.complete_errcmd (s : State) :
    (s.complete).errcmd = s.errcmd := rfl
@[simp] theorem State.complete_m (s : State) :
    (s.complete).m = s.m := rfl
@[simp] theorem State.complete_n (s : State) :
    (s.complete).n = s.n := rfl
@[simp] theorem State.complete_glen (s : State) :
    (s.complete).glen = s.glen := rfl
@[simp] theorem State.complete_gmode (s : State) :
    (s.complete).gmode = s.gmode := rfl
@[simp] theorem State.complete_npath (s : State) :
    (s.complete).npath = s.npath := rfl
@[simp] theorem State.complete_npilot (s : State) :
    (s.complete).npilot = s.npilot := rfl
@[simp] theorem State.complete_tlen0 (s : State) :
    (s.complete).tlen0 = s.tlen0 := rfl
@[simp] theorem State.complete_tlen1 (s : State) :
    (s.complete).tlen1 = s.tlen1 := rfl
@[simp] theorem State.complete_hplen (s : State) :
    (s.complete).hplen = s.hplen := rfl
@[simp] theorem State.complete_fs (s : State) :
    (s.complete).fs = s.fs := rfl
@[simp] theorem State.complete_pathDelay (s : State) :
    (s.complete).pathDelay = s.pathDelay := rfl
@[simp] theorem State.complete_pathGain (s : State) :
    (s.complete).pathGain = s.pathGain := rfl
@[simp] theorem State.complete_pathDoppler (s : State) :
    (s.complete).pathDoppler = s.pathDoppler := rfl
@[simp] theorem State.complete_pilotDidx (s : State) :
    (s.complete).pilotDidx = s.pilotDidx := rfl
@[simp] theorem State.complete_pilotLidx (s : State) :
    (s.complete).pilotLidx = s.pilotLidx := rfl
@[simp] theorem State.complete_pilotPval (s : State) :
    (s.complete).pilotPval = s.pilotPval := rfl
@[simp] theorem State.complete_g0 (s : State) :
    (s.complete).g0 = s.g0 := rfl
@[simp] theorem State.complete_g1 (s : State) :
    (s.complete).g1 = s.g1 := rfl
@[simp] theorem State.complete_t0 (s : State) :
    (s.complete).t0 = s.t0 := rfl
@[simp] theorem State.complete_t1 (s : State) :
    (s.complete).t1 = s.t1 := rfl
@[simp] theorem State.complete_hp (s : State) :
    (s.complete).hp = s.hp := rfl
@[simp] theorem State.complete_hg (s : State) :
    (s.complete).hg = s.hg := rfl
@[simp] theorem State.complete_caps (s : State) :
    (s.complete).caps = s.caps := rfl
@[simp] theorem State.complete_num (s : State) :
    (s.complete).num = s.num := rfl
@[simp] theorem State.complete_resets (s : State) :
    (s.complete).resets = s.resets := rfl
@[simp] theorem State.complete_host (s : State) :
    (s.complete).host = s.host := rfl

/-! ## `State.raise` -/

@[simp] theorem State.raise_busy (s : State) (w : Word) (e : CmdError) :
    (s.raise w e).busy = false := rfl
@[simp] theorem State.raise_done (s : State) (w : Word) (e : CmdError) :
    (s.raise w e).done = s.done := rfl
@[simp] theorem State.raise_errcode (s : State) (w : Word) (e : CmdError) :
    (s.raise w e).errcode = e.cls.code := rfl
@[simp] theorem State.raise_errinfo (s : State) (w : Word) (e : CmdError) :
    (s.raise w e).errinfo = e.info := rfl
@[simp] theorem State.raise_errcmd (s : State) (w : Word) (e : CmdError) :
    (s.raise w e).errcmd = w := rfl
@[simp] theorem State.raise_m (s : State) (w : Word) (e : CmdError) :
    (s.raise w e).m = s.m := rfl
@[simp] theorem State.raise_n (s : State) (w : Word) (e : CmdError) :
    (s.raise w e).n = s.n := rfl
@[simp] theorem State.raise_glen (s : State) (w : Word) (e : CmdError) :
    (s.raise w e).glen = s.glen := rfl
@[simp] theorem State.raise_gmode (s : State) (w : Word) (e : CmdError) :
    (s.raise w e).gmode = s.gmode := rfl
@[simp] theorem State.raise_npath (s : State) (w : Word) (e : CmdError) :
    (s.raise w e).npath = s.npath := rfl
@[simp] theorem State.raise_npilot (s : State) (w : Word) (e : CmdError) :
    (s.raise w e).npilot = s.npilot := rfl
@[simp] theorem State.raise_tlen0 (s : State) (w : Word) (e : CmdError) :
    (s.raise w e).tlen0 = s.tlen0 := rfl
@[simp] theorem State.raise_tlen1 (s : State) (w : Word) (e : CmdError) :
    (s.raise w e).tlen1 = s.tlen1 := rfl
@[simp] theorem State.raise_hplen (s : State) (w : Word) (e : CmdError) :
    (s.raise w e).hplen = s.hplen := rfl
@[simp] theorem State.raise_fs (s : State) (w : Word) (e : CmdError) :
    (s.raise w e).fs = s.fs := rfl
@[simp] theorem State.raise_pathDelay (s : State) (w : Word) (e : CmdError) :
    (s.raise w e).pathDelay = s.pathDelay := rfl
@[simp] theorem State.raise_pathGain (s : State) (w : Word) (e : CmdError) :
    (s.raise w e).pathGain = s.pathGain := rfl
@[simp] theorem State.raise_pathDoppler (s : State) (w : Word) (e : CmdError) :
    (s.raise w e).pathDoppler = s.pathDoppler := rfl
@[simp] theorem State.raise_pilotDidx (s : State) (w : Word) (e : CmdError) :
    (s.raise w e).pilotDidx = s.pilotDidx := rfl
@[simp] theorem State.raise_pilotLidx (s : State) (w : Word) (e : CmdError) :
    (s.raise w e).pilotLidx = s.pilotLidx := rfl
@[simp] theorem State.raise_pilotPval (s : State) (w : Word) (e : CmdError) :
    (s.raise w e).pilotPval = s.pilotPval := rfl
@[simp] theorem State.raise_g0 (s : State) (w : Word) (e : CmdError) :
    (s.raise w e).g0 = s.g0 := rfl
@[simp] theorem State.raise_g1 (s : State) (w : Word) (e : CmdError) :
    (s.raise w e).g1 = s.g1 := rfl
@[simp] theorem State.raise_t0 (s : State) (w : Word) (e : CmdError) :
    (s.raise w e).t0 = s.t0 := rfl
@[simp] theorem State.raise_t1 (s : State) (w : Word) (e : CmdError) :
    (s.raise w e).t1 = s.t1 := rfl
@[simp] theorem State.raise_hp (s : State) (w : Word) (e : CmdError) :
    (s.raise w e).hp = s.hp := rfl
@[simp] theorem State.raise_hg (s : State) (w : Word) (e : CmdError) :
    (s.raise w e).hg = s.hg := rfl
@[simp] theorem State.raise_caps (s : State) (w : Word) (e : CmdError) :
    (s.raise w e).caps = s.caps := rfl
@[simp] theorem State.raise_num (s : State) (w : Word) (e : CmdError) :
    (s.raise w e).num = s.num := rfl
@[simp] theorem State.raise_resets (s : State) (w : Word) (e : CmdError) :
    (s.raise w e).resets = s.resets := rfl
@[simp] theorem State.raise_host (s : State) (w : Word) (e : CmdError) :
    (s.raise w e).host = s.host := rfl

/-! ## `State.clearError` -/

@[simp] theorem State.clearError_busy (s : State) :
    (s.clearError).busy = s.busy := rfl
@[simp] theorem State.clearError_done (s : State) :
    (s.clearError).done = s.done := rfl
@[simp] theorem State.clearError_errcode (s : State) :
    (s.clearError).errcode = 0 := rfl
@[simp] theorem State.clearError_errinfo (s : State) :
    (s.clearError).errinfo = 0 := rfl
@[simp] theorem State.clearError_errcmd (s : State) :
    (s.clearError).errcmd = 0 := rfl
@[simp] theorem State.clearError_m (s : State) :
    (s.clearError).m = s.m := rfl
@[simp] theorem State.clearError_n (s : State) :
    (s.clearError).n = s.n := rfl
@[simp] theorem State.clearError_glen (s : State) :
    (s.clearError).glen = s.glen := rfl
@[simp] theorem State.clearError_gmode (s : State) :
    (s.clearError).gmode = s.gmode := rfl
@[simp] theorem State.clearError_npath (s : State) :
    (s.clearError).npath = s.npath := rfl
@[simp] theorem State.clearError_npilot (s : State) :
    (s.clearError).npilot = s.npilot := rfl
@[simp] theorem State.clearError_tlen0 (s : State) :
    (s.clearError).tlen0 = s.tlen0 := rfl
@[simp] theorem State.clearError_tlen1 (s : State) :
    (s.clearError).tlen1 = s.tlen1 := rfl
@[simp] theorem State.clearError_hplen (s : State) :
    (s.clearError).hplen = s.hplen := rfl
@[simp] theorem State.clearError_fs (s : State) :
    (s.clearError).fs = s.fs := rfl
@[simp] theorem State.clearError_pathDelay (s : State) :
    (s.clearError).pathDelay = s.pathDelay := rfl
@[simp] theorem State.clearError_pathGain (s : State) :
    (s.clearError).pathGain = s.pathGain := rfl
@[simp] theorem State.clearError_pathDoppler (s : State) :
    (s.clearError).pathDoppler = s.pathDoppler := rfl
@[simp] theorem State.clearError_pilotDidx (s : State) :
    (s.clearError).pilotDidx = s.pilotDidx := rfl
@[simp] theorem State.clearError_pilotLidx (s : State) :
    (s.clearError).pilotLidx = s.pilotLidx := rfl
@[simp] theorem State.clearError_pilotPval (s : State) :
    (s.clearError).pilotPval = s.pilotPval := rfl
@[simp] theorem State.clearError_g0 (s : State) :
    (s.clearError).g0 = s.g0 := rfl
@[simp] theorem State.clearError_g1 (s : State) :
    (s.clearError).g1 = s.g1 := rfl
@[simp] theorem State.clearError_t0 (s : State) :
    (s.clearError).t0 = s.t0 := rfl
@[simp] theorem State.clearError_t1 (s : State) :
    (s.clearError).t1 = s.t1 := rfl
@[simp] theorem State.clearError_hp (s : State) :
    (s.clearError).hp = s.hp := rfl
@[simp] theorem State.clearError_hg (s : State) :
    (s.clearError).hg = s.hg := rfl
@[simp] theorem State.clearError_caps (s : State) :
    (s.clearError).caps = s.caps := rfl
@[simp] theorem State.clearError_num (s : State) :
    (s.clearError).num = s.num := rfl
@[simp] theorem State.clearError_resets (s : State) :
    (s.clearError).resets = s.resets := rfl
@[simp] theorem State.clearError_host (s : State) :
    (s.clearError).host = s.host := rfl

/-! ## `State.setHplen` -/

@[simp] theorem State.setHplen_busy (s : State) (v : Word) :
    (s.setHplen v).busy = s.busy := rfl
@[simp] theorem State.setHplen_done (s : State) (v : Word) :
    (s.setHplen v).done = s.done := rfl
@[simp] theorem State.setHplen_errcode (s : State) (v : Word) :
    (s.setHplen v).errcode = s.errcode := rfl
@[simp] theorem State.setHplen_errinfo (s : State) (v : Word) :
    (s.setHplen v).errinfo = s.errinfo := rfl
@[simp] theorem State.setHplen_errcmd (s : State) (v : Word) :
    (s.setHplen v).errcmd = s.errcmd := rfl
@[simp] theorem State.setHplen_m (s : State) (v : Word) :
    (s.setHplen v).m = s.m := rfl
@[simp] theorem State.setHplen_n (s : State) (v : Word) :
    (s.setHplen v).n = s.n := rfl
@[simp] theorem State.setHplen_glen (s : State) (v : Word) :
    (s.setHplen v).glen = s.glen := rfl
@[simp] theorem State.setHplen_gmode (s : State) (v : Word) :
    (s.setHplen v).gmode = s.gmode := rfl
@[simp] theorem State.setHplen_npath (s : State) (v : Word) :
    (s.setHplen v).npath = s.npath := rfl
@[simp] theorem State.setHplen_npilot (s : State) (v : Word) :
    (s.setHplen v).npilot = s.npilot := rfl
@[simp] theorem State.setHplen_tlen0 (s : State) (v : Word) :
    (s.setHplen v).tlen0 = s.tlen0 := rfl
@[simp] theorem State.setHplen_tlen1 (s : State) (v : Word) :
    (s.setHplen v).tlen1 = s.tlen1 := rfl
@[simp] theorem State.setHplen_hplen (s : State) (v : Word) :
    (s.setHplen v).hplen = v := rfl
@[simp] theorem State.setHplen_fs (s : State) (v : Word) :
    (s.setHplen v).fs = s.fs := rfl
@[simp] theorem State.setHplen_pathDelay (s : State) (v : Word) :
    (s.setHplen v).pathDelay = s.pathDelay := rfl
@[simp] theorem State.setHplen_pathGain (s : State) (v : Word) :
    (s.setHplen v).pathGain = s.pathGain := rfl
@[simp] theorem State.setHplen_pathDoppler (s : State) (v : Word) :
    (s.setHplen v).pathDoppler = s.pathDoppler := rfl
@[simp] theorem State.setHplen_pilotDidx (s : State) (v : Word) :
    (s.setHplen v).pilotDidx = s.pilotDidx := rfl
@[simp] theorem State.setHplen_pilotLidx (s : State) (v : Word) :
    (s.setHplen v).pilotLidx = s.pilotLidx := rfl
@[simp] theorem State.setHplen_pilotPval (s : State) (v : Word) :
    (s.setHplen v).pilotPval = s.pilotPval := rfl
@[simp] theorem State.setHplen_g0 (s : State) (v : Word) :
    (s.setHplen v).g0 = s.g0 := rfl
@[simp] theorem State.setHplen_g1 (s : State) (v : Word) :
    (s.setHplen v).g1 = s.g1 := rfl
@[simp] theorem State.setHplen_t0 (s : State) (v : Word) :
    (s.setHplen v).t0 = s.t0 := rfl
@[simp] theorem State.setHplen_t1 (s : State) (v : Word) :
    (s.setHplen v).t1 = s.t1 := rfl
@[simp] theorem State.setHplen_hp (s : State) (v : Word) :
    (s.setHplen v).hp = s.hp := rfl
@[simp] theorem State.setHplen_hg (s : State) (v : Word) :
    (s.setHplen v).hg = s.hg := rfl
@[simp] theorem State.setHplen_caps (s : State) (v : Word) :
    (s.setHplen v).caps = s.caps := rfl
@[simp] theorem State.setHplen_num (s : State) (v : Word) :
    (s.setHplen v).num = s.num := rfl
@[simp] theorem State.setHplen_resets (s : State) (v : Word) :
    (s.setHplen v).resets = s.resets := rfl
@[simp] theorem State.setHplen_host (s : State) (v : Word) :
    (s.setHplen v).host = s.host := rfl

/-! ## `State.setTlen` -/

@[simp] theorem State.setTlen_busy (s : State) (sel : Sel) (v : Word) :
    (s.setTlen sel v).busy = s.busy := by cases sel <;> rfl
@[simp] theorem State.setTlen_done (s : State) (sel : Sel) (v : Word) :
    (s.setTlen sel v).done = s.done := by cases sel <;> rfl
@[simp] theorem State.setTlen_errcode (s : State) (sel : Sel) (v : Word) :
    (s.setTlen sel v).errcode = s.errcode := by cases sel <;> rfl
@[simp] theorem State.setTlen_errinfo (s : State) (sel : Sel) (v : Word) :
    (s.setTlen sel v).errinfo = s.errinfo := by cases sel <;> rfl
@[simp] theorem State.setTlen_errcmd (s : State) (sel : Sel) (v : Word) :
    (s.setTlen sel v).errcmd = s.errcmd := by cases sel <;> rfl
@[simp] theorem State.setTlen_m (s : State) (sel : Sel) (v : Word) :
    (s.setTlen sel v).m = s.m := by cases sel <;> rfl
@[simp] theorem State.setTlen_n (s : State) (sel : Sel) (v : Word) :
    (s.setTlen sel v).n = s.n := by cases sel <;> rfl
@[simp] theorem State.setTlen_glen (s : State) (sel : Sel) (v : Word) :
    (s.setTlen sel v).glen = s.glen := by cases sel <;> rfl
@[simp] theorem State.setTlen_gmode (s : State) (sel : Sel) (v : Word) :
    (s.setTlen sel v).gmode = s.gmode := by cases sel <;> rfl
@[simp] theorem State.setTlen_npath (s : State) (sel : Sel) (v : Word) :
    (s.setTlen sel v).npath = s.npath := by cases sel <;> rfl
@[simp] theorem State.setTlen_npilot (s : State) (sel : Sel) (v : Word) :
    (s.setTlen sel v).npilot = s.npilot := by cases sel <;> rfl
@[simp] theorem State.setTlen_hplen (s : State) (sel : Sel) (v : Word) :
    (s.setTlen sel v).hplen = s.hplen := by cases sel <;> rfl
@[simp] theorem State.setTlen_fs (s : State) (sel : Sel) (v : Word) :
    (s.setTlen sel v).fs = s.fs := by cases sel <;> rfl
@[simp] theorem State.setTlen_pathDelay (s : State) (sel : Sel) (v : Word) :
    (s.setTlen sel v).pathDelay = s.pathDelay := by cases sel <;> rfl
@[simp] theorem State.setTlen_pathGain (s : State) (sel : Sel) (v : Word) :
    (s.setTlen sel v).pathGain = s.pathGain := by cases sel <;> rfl
@[simp] theorem State.setTlen_pathDoppler (s : State) (sel : Sel) (v : Word) :
    (s.setTlen sel v).pathDoppler = s.pathDoppler := by cases sel <;> rfl
@[simp] theorem State.setTlen_pilotDidx (s : State) (sel : Sel) (v : Word) :
    (s.setTlen sel v).pilotDidx = s.pilotDidx := by cases sel <;> rfl
@[simp] theorem State.setTlen_pilotLidx (s : State) (sel : Sel) (v : Word) :
    (s.setTlen sel v).pilotLidx = s.pilotLidx := by cases sel <;> rfl
@[simp] theorem State.setTlen_pilotPval (s : State) (sel : Sel) (v : Word) :
    (s.setTlen sel v).pilotPval = s.pilotPval := by cases sel <;> rfl
@[simp] theorem State.setTlen_g0 (s : State) (sel : Sel) (v : Word) :
    (s.setTlen sel v).g0 = s.g0 := by cases sel <;> rfl
@[simp] theorem State.setTlen_g1 (s : State) (sel : Sel) (v : Word) :
    (s.setTlen sel v).g1 = s.g1 := by cases sel <;> rfl
@[simp] theorem State.setTlen_t0 (s : State) (sel : Sel) (v : Word) :
    (s.setTlen sel v).t0 = s.t0 := by cases sel <;> rfl
@[simp] theorem State.setTlen_t1 (s : State) (sel : Sel) (v : Word) :
    (s.setTlen sel v).t1 = s.t1 := by cases sel <;> rfl
@[simp] theorem State.setTlen_hp (s : State) (sel : Sel) (v : Word) :
    (s.setTlen sel v).hp = s.hp := by cases sel <;> rfl
@[simp] theorem State.setTlen_hg (s : State) (sel : Sel) (v : Word) :
    (s.setTlen sel v).hg = s.hg := by cases sel <;> rfl
@[simp] theorem State.setTlen_caps (s : State) (sel : Sel) (v : Word) :
    (s.setTlen sel v).caps = s.caps := by cases sel <;> rfl
@[simp] theorem State.setTlen_num (s : State) (sel : Sel) (v : Word) :
    (s.setTlen sel v).num = s.num := by cases sel <;> rfl
@[simp] theorem State.setTlen_resets (s : State) (sel : Sel) (v : Word) :
    (s.setTlen sel v).resets = s.resets := by cases sel <;> rfl
@[simp] theorem State.setTlen_host (s : State) (sel : Sel) (v : Word) :
    (s.setTlen sel v).host = s.host := by cases sel <;> rfl

/-! ## `State.setBuf` -/

@[simp] theorem State.setBuf_busy (s : State) (b : Buf) (mem : Mem NumK) :
    (s.setBuf b mem).busy = s.busy := by cases b <;> rfl
@[simp] theorem State.setBuf_done (s : State) (b : Buf) (mem : Mem NumK) :
    (s.setBuf b mem).done = s.done := by cases b <;> rfl
@[simp] theorem State.setBuf_errcode (s : State) (b : Buf) (mem : Mem NumK) :
    (s.setBuf b mem).errcode = s.errcode := by cases b <;> rfl
@[simp] theorem State.setBuf_errinfo (s : State) (b : Buf) (mem : Mem NumK) :
    (s.setBuf b mem).errinfo = s.errinfo := by cases b <;> rfl
@[simp] theorem State.setBuf_errcmd (s : State) (b : Buf) (mem : Mem NumK) :
    (s.setBuf b mem).errcmd = s.errcmd := by cases b <;> rfl
@[simp] theorem State.setBuf_m (s : State) (b : Buf) (mem : Mem NumK) :
    (s.setBuf b mem).m = s.m := by cases b <;> rfl
@[simp] theorem State.setBuf_n (s : State) (b : Buf) (mem : Mem NumK) :
    (s.setBuf b mem).n = s.n := by cases b <;> rfl
@[simp] theorem State.setBuf_glen (s : State) (b : Buf) (mem : Mem NumK) :
    (s.setBuf b mem).glen = s.glen := by cases b <;> rfl
@[simp] theorem State.setBuf_gmode (s : State) (b : Buf) (mem : Mem NumK) :
    (s.setBuf b mem).gmode = s.gmode := by cases b <;> rfl
@[simp] theorem State.setBuf_npath (s : State) (b : Buf) (mem : Mem NumK) :
    (s.setBuf b mem).npath = s.npath := by cases b <;> rfl
@[simp] theorem State.setBuf_npilot (s : State) (b : Buf) (mem : Mem NumK) :
    (s.setBuf b mem).npilot = s.npilot := by cases b <;> rfl
@[simp] theorem State.setBuf_tlen0 (s : State) (b : Buf) (mem : Mem NumK) :
    (s.setBuf b mem).tlen0 = s.tlen0 := by cases b <;> rfl
@[simp] theorem State.setBuf_tlen1 (s : State) (b : Buf) (mem : Mem NumK) :
    (s.setBuf b mem).tlen1 = s.tlen1 := by cases b <;> rfl
@[simp] theorem State.setBuf_hplen (s : State) (b : Buf) (mem : Mem NumK) :
    (s.setBuf b mem).hplen = s.hplen := by cases b <;> rfl
@[simp] theorem State.setBuf_fs (s : State) (b : Buf) (mem : Mem NumK) :
    (s.setBuf b mem).fs = s.fs := by cases b <;> rfl
@[simp] theorem State.setBuf_pathDelay (s : State) (b : Buf) (mem : Mem NumK) :
    (s.setBuf b mem).pathDelay = s.pathDelay := by cases b <;> rfl
@[simp] theorem State.setBuf_pathGain (s : State) (b : Buf) (mem : Mem NumK) :
    (s.setBuf b mem).pathGain = s.pathGain := by cases b <;> rfl
@[simp] theorem State.setBuf_pathDoppler (s : State) (b : Buf) (mem : Mem NumK) :
    (s.setBuf b mem).pathDoppler = s.pathDoppler := by cases b <;> rfl
@[simp] theorem State.setBuf_pilotDidx (s : State) (b : Buf) (mem : Mem NumK) :
    (s.setBuf b mem).pilotDidx = s.pilotDidx := by cases b <;> rfl
@[simp] theorem State.setBuf_pilotLidx (s : State) (b : Buf) (mem : Mem NumK) :
    (s.setBuf b mem).pilotLidx = s.pilotLidx := by cases b <;> rfl
@[simp] theorem State.setBuf_pilotPval (s : State) (b : Buf) (mem : Mem NumK) :
    (s.setBuf b mem).pilotPval = s.pilotPval := by cases b <;> rfl
@[simp] theorem State.setBuf_caps (s : State) (b : Buf) (mem : Mem NumK) :
    (s.setBuf b mem).caps = s.caps := by cases b <;> rfl
@[simp] theorem State.setBuf_num (s : State) (b : Buf) (mem : Mem NumK) :
    (s.setBuf b mem).num = s.num := by cases b <;> rfl
@[simp] theorem State.setBuf_resets (s : State) (b : Buf) (mem : Mem NumK) :
    (s.setBuf b mem).resets = s.resets := by cases b <;> rfl
@[simp] theorem State.setBuf_host (s : State) (b : Buf) (mem : Mem NumK) :
    (s.setBuf b mem).host = s.host := by cases b <;> rfl

/-! ## `State.storeElements` -/

@[simp] theorem State.storeElements_busy (s : State) (b : Buf) (vs : List NumK) :
    (s.storeElements b vs).busy = s.busy := by simp [State.storeElements]
@[simp] theorem State.storeElements_done (s : State) (b : Buf) (vs : List NumK) :
    (s.storeElements b vs).done = s.done := by simp [State.storeElements]
@[simp] theorem State.storeElements_errcode (s : State) (b : Buf) (vs : List NumK) :
    (s.storeElements b vs).errcode = s.errcode := by simp [State.storeElements]
@[simp] theorem State.storeElements_errinfo (s : State) (b : Buf) (vs : List NumK) :
    (s.storeElements b vs).errinfo = s.errinfo := by simp [State.storeElements]
@[simp] theorem State.storeElements_errcmd (s : State) (b : Buf) (vs : List NumK) :
    (s.storeElements b vs).errcmd = s.errcmd := by simp [State.storeElements]
@[simp] theorem State.storeElements_m (s : State) (b : Buf) (vs : List NumK) :
    (s.storeElements b vs).m = s.m := by simp [State.storeElements]
@[simp] theorem State.storeElements_n (s : State) (b : Buf) (vs : List NumK) :
    (s.storeElements b vs).n = s.n := by simp [State.storeElements]
@[simp] theorem State.storeElements_glen (s : State) (b : Buf) (vs : List NumK) :
    (s.storeElements b vs).glen = s.glen := by simp [State.storeElements]
@[simp] theorem State.storeElements_gmode (s : State) (b : Buf) (vs : List NumK) :
    (s.storeElements b vs).gmode = s.gmode := by simp [State.storeElements]
@[simp] theorem State.storeElements_npath (s : State) (b : Buf) (vs : List NumK) :
    (s.storeElements b vs).npath = s.npath := by simp [State.storeElements]
@[simp] theorem State.storeElements_npilot (s : State) (b : Buf) (vs : List NumK) :
    (s.storeElements b vs).npilot = s.npilot := by simp [State.storeElements]
@[simp] theorem State.storeElements_tlen0 (s : State) (b : Buf) (vs : List NumK) :
    (s.storeElements b vs).tlen0 = s.tlen0 := by simp [State.storeElements]
@[simp] theorem State.storeElements_tlen1 (s : State) (b : Buf) (vs : List NumK) :
    (s.storeElements b vs).tlen1 = s.tlen1 := by simp [State.storeElements]
@[simp] theorem State.storeElements_hplen (s : State) (b : Buf) (vs : List NumK) :
    (s.storeElements b vs).hplen = s.hplen := by simp [State.storeElements]
@[simp] theorem State.storeElements_fs (s : State) (b : Buf) (vs : List NumK) :
    (s.storeElements b vs).fs = s.fs := by simp [State.storeElements]
@[simp] theorem State.storeElements_pathDelay (s : State) (b : Buf) (vs : List NumK) :
    (s.storeElements b vs).pathDelay = s.pathDelay := by simp [State.storeElements]
@[simp] theorem State.storeElements_pathGain (s : State) (b : Buf) (vs : List NumK) :
    (s.storeElements b vs).pathGain = s.pathGain := by simp [State.storeElements]
@[simp] theorem State.storeElements_pathDoppler (s : State) (b : Buf) (vs : List NumK) :
    (s.storeElements b vs).pathDoppler = s.pathDoppler := by simp [State.storeElements]
@[simp] theorem State.storeElements_pilotDidx (s : State) (b : Buf) (vs : List NumK) :
    (s.storeElements b vs).pilotDidx = s.pilotDidx := by simp [State.storeElements]
@[simp] theorem State.storeElements_pilotLidx (s : State) (b : Buf) (vs : List NumK) :
    (s.storeElements b vs).pilotLidx = s.pilotLidx := by simp [State.storeElements]
@[simp] theorem State.storeElements_pilotPval (s : State) (b : Buf) (vs : List NumK) :
    (s.storeElements b vs).pilotPval = s.pilotPval := by simp [State.storeElements]
@[simp] theorem State.storeElements_caps (s : State) (b : Buf) (vs : List NumK) :
    (s.storeElements b vs).caps = s.caps := by simp [State.storeElements]
@[simp] theorem State.storeElements_num (s : State) (b : Buf) (vs : List NumK) :
    (s.storeElements b vs).num = s.num := by simp [State.storeElements]
@[simp] theorem State.storeElements_resets (s : State) (b : Buf) (vs : List NumK) :
    (s.storeElements b vs).resets = s.resets := by simp [State.storeElements]
@[simp] theorem State.storeElements_host (s : State) (b : Buf) (vs : List NumK) :
    (s.storeElements b vs).host = s.host := by simp [State.storeElements]

/-! ## `State.storeSeq` -/

@[simp] theorem State.storeSeq_busy (s : State) (sel : Sel) (vs : List NumK) :
    (s.storeSeq sel vs).busy = s.busy := by simp [State.storeSeq]
@[simp] theorem State.storeSeq_done (s : State) (sel : Sel) (vs : List NumK) :
    (s.storeSeq sel vs).done = s.done := by simp [State.storeSeq]
@[simp] theorem State.storeSeq_errcode (s : State) (sel : Sel) (vs : List NumK) :
    (s.storeSeq sel vs).errcode = s.errcode := by simp [State.storeSeq]
@[simp] theorem State.storeSeq_errinfo (s : State) (sel : Sel) (vs : List NumK) :
    (s.storeSeq sel vs).errinfo = s.errinfo := by simp [State.storeSeq]
@[simp] theorem State.storeSeq_errcmd (s : State) (sel : Sel) (vs : List NumK) :
    (s.storeSeq sel vs).errcmd = s.errcmd := by simp [State.storeSeq]
@[simp] theorem State.storeSeq_m (s : State) (sel : Sel) (vs : List NumK) :
    (s.storeSeq sel vs).m = s.m := by simp [State.storeSeq]
@[simp] theorem State.storeSeq_n (s : State) (sel : Sel) (vs : List NumK) :
    (s.storeSeq sel vs).n = s.n := by simp [State.storeSeq]
@[simp] theorem State.storeSeq_glen (s : State) (sel : Sel) (vs : List NumK) :
    (s.storeSeq sel vs).glen = s.glen := by simp [State.storeSeq]
@[simp] theorem State.storeSeq_gmode (s : State) (sel : Sel) (vs : List NumK) :
    (s.storeSeq sel vs).gmode = s.gmode := by simp [State.storeSeq]
@[simp] theorem State.storeSeq_npath (s : State) (sel : Sel) (vs : List NumK) :
    (s.storeSeq sel vs).npath = s.npath := by simp [State.storeSeq]
@[simp] theorem State.storeSeq_npilot (s : State) (sel : Sel) (vs : List NumK) :
    (s.storeSeq sel vs).npilot = s.npilot := by simp [State.storeSeq]
@[simp] theorem State.storeSeq_hplen (s : State) (sel : Sel) (vs : List NumK) :
    (s.storeSeq sel vs).hplen = s.hplen := by simp [State.storeSeq]
@[simp] theorem State.storeSeq_fs (s : State) (sel : Sel) (vs : List NumK) :
    (s.storeSeq sel vs).fs = s.fs := by simp [State.storeSeq]
@[simp] theorem State.storeSeq_pathDelay (s : State) (sel : Sel) (vs : List NumK) :
    (s.storeSeq sel vs).pathDelay = s.pathDelay := by simp [State.storeSeq]
@[simp] theorem State.storeSeq_pathGain (s : State) (sel : Sel) (vs : List NumK) :
    (s.storeSeq sel vs).pathGain = s.pathGain := by simp [State.storeSeq]
@[simp] theorem State.storeSeq_pathDoppler (s : State) (sel : Sel) (vs : List NumK) :
    (s.storeSeq sel vs).pathDoppler = s.pathDoppler := by simp [State.storeSeq]
@[simp] theorem State.storeSeq_pilotDidx (s : State) (sel : Sel) (vs : List NumK) :
    (s.storeSeq sel vs).pilotDidx = s.pilotDidx := by simp [State.storeSeq]
@[simp] theorem State.storeSeq_pilotLidx (s : State) (sel : Sel) (vs : List NumK) :
    (s.storeSeq sel vs).pilotLidx = s.pilotLidx := by simp [State.storeSeq]
@[simp] theorem State.storeSeq_pilotPval (s : State) (sel : Sel) (vs : List NumK) :
    (s.storeSeq sel vs).pilotPval = s.pilotPval := by simp [State.storeSeq]
@[simp] theorem State.storeSeq_caps (s : State) (sel : Sel) (vs : List NumK) :
    (s.storeSeq sel vs).caps = s.caps := by simp [State.storeSeq]
@[simp] theorem State.storeSeq_num (s : State) (sel : Sel) (vs : List NumK) :
    (s.storeSeq sel vs).num = s.num := by simp [State.storeSeq]
@[simp] theorem State.storeSeq_resets (s : State) (sel : Sel) (vs : List NumK) :
    (s.storeSeq sel vs).resets = s.resets := by simp [State.storeSeq]
@[simp] theorem State.storeSeq_host (s : State) (sel : Sel) (vs : List NumK) :
    (s.storeSeq sel vs).host = s.host := by simp [State.storeSeq]

/-! ## Length registers and buffers by name -/

theorem State.tlen_setTlen (s : State) (a b : Sel) (v : Word) :
    (s.setTlen a v).tlen b = if a = b then v else s.tlen b := by
  cases a <;> cases b <;> rfl

theorem State.buf_setBuf (s : State) (a b : Buf) (mem : Mem NumK) :
    (s.setBuf a mem).buf b = if a = b then mem else s.buf b := by
  cases a <;> cases b <;> rfl

@[simp] theorem State.accept_buf (s : State) (b : Buf) :
    (s.accept).buf b = s.buf b := by cases b <;> rfl
@[simp] theorem State.accept_tlen (s : State) (sel : Sel) :
    (s.accept).tlen sel = s.tlen sel := by cases sel <;> rfl
@[simp] theorem State.complete_buf (s : State) (b : Buf) :
    (s.complete).buf b = s.buf b := by cases b <;> rfl
@[simp] theorem State.complete_tlen (s : State) (sel : Sel) :
    (s.complete).tlen sel = s.tlen sel := by cases sel <;> rfl
@[simp] theorem State.raise_buf (s : State) (w : Word) (e : CmdError) (b : Buf) :
    (s.raise w e).buf b = s.buf b := by cases b <;> rfl
@[simp] theorem State.raise_tlen (s : State) (w : Word) (e : CmdError) (sel : Sel) :
    (s.raise w e).tlen sel = s.tlen sel := by cases sel <;> rfl
@[simp] theorem State.clearError_buf (s : State) (b : Buf) :
    (s.clearError).buf b = s.buf b := by cases b <;> rfl
@[simp] theorem State.clearError_tlen (s : State) (sel : Sel) :
    (s.clearError).tlen sel = s.tlen sel := by cases sel <;> rfl
@[simp] theorem State.setHplen_buf (s : State) (v : Word) (b : Buf) :
    (s.setHplen v).buf b = s.buf b := by cases b <;> rfl
@[simp] theorem State.setHplen_tlen (s : State) (v : Word) (sel : Sel) :
    (s.setHplen v).tlen sel = s.tlen sel := by cases sel <;> rfl
@[simp] theorem State.setTlen_buf (s : State) (sel : Sel) (v : Word) (b : Buf) :
    (s.setTlen sel v).buf b = s.buf b := by cases sel <;> cases b <;> rfl
@[simp] theorem State.setBuf_tlen (s : State) (b : Buf) (mem : Mem NumK) (sel : Sel) :
    (s.setBuf b mem).tlen sel = s.tlen sel := by cases b <;> cases sel <;> rfl

end Sys2Proof.Machine
end

