-- ==== Sys2Proof/Laws/Ops.lean ====
section
/-! SUPPORT. What the shared operations do, said once each: storing elements, the frame of a command, the free values of
lengths and indices. -/

namespace Sys2Proof.Machine

open Sys2Proof

/-- What is stored in a buffer is read there, and every other element of every buffer reads as before. -/
theorem State.element_storeElements (s : State) (b : Buf) (vs : List NumK) (c : Buf) (i : Nat) :
    (s.storeElements b vs).element c i =
      if c = b ∧ i < vs.length then vs.getD i NumK.zero else s.element c i := by
  unfold State.element State.storeElements
  rw [State.buf_setBuf, State.setBuf_resets, State.setBuf_num]
  by_cases hb : b = c
  · subst hb
    rw [if_pos rfl, Mem.read_writeFrom]
    by_cases hi : i < vs.length
    · simp [hi, List.getD_eq_getElem?_getD]
    · simp [hi]
  · rw [if_neg hb, if_neg (by tauto)]

@[simp] theorem State.element_setTlen (s : State) (sel : Sel) (v : Word) (b : Buf) (i : Nat) :
    (s.setTlen sel v).element b i = s.element b i := by
  simp [State.element]

@[simp] theorem State.element_setHplen (s : State) (v : Word) (b : Buf) (i : Nat) :
    (s.setHplen v).element b i = s.element b i := by
  simp [State.element]

@[simp] theorem State.element_accept (s : State) (b : Buf) (i : Nat) : s.accept.element b i = s.element b i := by
  simp [State.element]

@[simp] theorem State.element_complete (s : State) (b : Buf) (i : Nat) : s.complete.element b i = s.element b i := by
  simp [State.element]

@[simp] theorem State.element_raise (s : State) (w : Word) (e : CmdError) (b : Buf) (i : Nat) :
    (s.raise w e).element b i = s.element b i := by
  simp [State.element]

/-- `store_seq` writes the samples of its time buffer and no other element. -/
theorem State.element_storeSeq (s : State) (sel : Sel) (vs : List NumK) (b : Buf) (i : Nat) :
    (s.storeSeq sel vs).element b i =
      if b = tBuf sel ∧ i < vs.length then vs.getD i NumK.zero else s.element b i := by
  simp [State.storeSeq, State.element_storeElements]

/-- `store_seq` sets the length register of its time buffer and no other. -/
theorem State.tlen_storeSeq (s : State) (sel : Sel) (vs : List NumK) (other : Sel) :
    (s.storeSeq sel vs).tlen other = if sel = other then lengthWord vs.length else s.tlen other := by
  simp [State.storeSeq, State.tlen_setTlen, State.storeElements]

@[simp] theorem State.length_seq (s : State) (sel : Sel) : (s.seq sel).length = (s.tlen sel).toNat := by
  simp [State.seq]

/-- A length below `2^32` is held exactly. -/
theorem toNat_lengthWord {len : Nat} (h : len < 2 ^ 32) : (lengthWord len).toNat = len := by
  rw [lengthWord, if_pos h, BitVec.toNat_ofNat, Nat.mod_eq_of_lt h]

@[simp] theorem State.seq_accept (s : State) (sel : Sel) : s.accept.seq sel = s.seq sel := by
  simp [State.seq]

@[simp] theorem State.grid_accept (s : State) (sel : Sel) (m n : Nat) : s.accept.grid sel m n = s.grid sel m n := by
  simp [State.grid]

@[simp] theorem State.mode_accept (s : State) : s.accept.mode = s.mode := rfl

@[simp] theorem State.paths_accept (s : State) : s.accept.paths = s.paths := rfl

@[simp] theorem State.pilots_accept (s : State) : s.accept.pilots = s.pilots := rfl

/-- A write to CMD while an error is latched is dropped. -/
theorem commandState_latched {w : Word} {check : State → Option CmdError} {effect : State → State} {s : State}
    (h : s.errcode ≠ 0) : commandState w check effect s = s :=
  if_pos h

/-- A command whose check fails raises that error. -/
theorem commandState_raises {w : Word} {check : State → Option CmdError} {effect : State → State} {s : State}
    {e : CmdError} (h : s.errcode = 0) (hc : check s.accept = some e) :
    commandState w check effect s = s.accept.raise w e := by
  simp [commandState, h, hc]

/-- A command whose checks all pass has its effect and completes. -/
theorem commandState_completes {w : Word} {check : State → Option CmdError} {effect : State → State} {s : State}
    (h : s.errcode = 0) (hc : check s.accept = none) :
    commandState w check effect s = (effect s.accept).complete := by
  simp [commandState, h, hc]

/-- Everything the frame of a command can do: drop it, raise an error, or complete. -/
theorem commandState_cases (w : Word) (check : State → Option CmdError) (effect : State → State) (s : State) :
    (s.errcode ≠ 0 ∧ commandState w check effect s = s) ∨
      (∃ e, s.errcode = 0 ∧ check s.accept = some e ∧ commandState w check effect s = s.accept.raise w e) ∨
      (s.errcode = 0 ∧ check s.accept = none ∧
        commandState w check effect s = (effect s.accept).complete) := by
  by_cases h : s.errcode = 0
  · cases hc : check s.accept with
    | some e => exact .inr (.inl ⟨e, h, rfl, commandState_raises h hc⟩)
    | none => exact .inr (.inr ⟨h, rfl, commandState_completes h hc⟩)
  · exact .inl ⟨h, commandState_latched h⟩

/-- The lowest index with the property is found exactly when there is one. -/
theorem firstIndex_eq_some {n : Nat} {p : Nat → Bool} {j : Nat} :
    firstIndex n p = some j ↔ j < n ∧ p j = true ∧ ∀ i < j, p i = false := by
  simp only [firstIndex, List.find?_range_eq_some, List.mem_range]
  constructor
  · rintro ⟨hp, hj, hi⟩
    exact ⟨hj, hp, fun i h => by simpa using hi i h⟩
  · rintro ⟨hj, hp, hi⟩
    exact ⟨hp, hj, fun i h => by simpa using hi i h⟩

/-- No index is found exactly when none has the property. -/
theorem firstIndex_eq_none {n : Nat} {p : Nat → Bool} :
    firstIndex n p = none ↔ ∀ j < n, p j = false := by
  simp [firstIndex]

end Sys2Proof.Machine
end

