-- ==== Sys2Proof/Laws/Components.lean ====
section
/-! SUPPORT. The shapes of the components' results: how long each sequence and each matrix is, and what a triangle of
the triangulation is. -/

namespace Sys2Proof.Machine

open Sys2Proof

/-! ## The guard codec -/

@[simp] theorem length_zeros (n : Nat) : (zeros n).length = n := by simp [zeros]

theorem length_giInsert {xs : List NumK} {g : Nat} {md : GuardMode} (h : md = .cyclicPrefix → g ≤ xs.length) :
    (giInsert xs g md).length = guardedLength xs.length g md := by
  cases md with
  | none => rfl
  | zeroPad => simp [giInsert, guardedLength]
  | cyclicPrefix =>
    have := h rfl
    simp only [giInsert, guardedLength, List.length_append, List.length_drop]
    omega

@[simp] theorem length_giRemove (xs : List NumK) (g : Nat) (md : GuardMode) :
    (giRemove xs g md).length = xs.length - (if md = .none then 0 else g) := by
  cases md <;> simp [giRemove]

/-! ## The transform pair -/

@[simp] theorem length_idft (xs : List NumK) : (idft xs).length = xs.length := by simp [idft]

@[simp] theorem length_dft (xs : List NumK) : (dft xs).length = xs.length := by simp [dft]

@[simp] theorem length_transpose (rows : Nat) (x : Grid) : (transpose rows x).length = rows := by simp [transpose]

theorem length_of_mem_transpose {rows : Nat} {x : Grid} {col : List NumK} (h : col ∈ transpose rows x) :
    col.length = x.length := by
  obtain ⟨d, -, rfl⟩ := List.mem_map.mp h
  simp

/-- A matrix of `n` columns of `m` cells has `m * n` cells. -/
theorem length_flatten_grid {b : Grid} {m n : Nat} (hn : b.length = n) (hm : ∀ col ∈ b, col.length = m) :
    b.flatten.length = m * n := by
  induction b generalizing n with
  | nil => subst hn; simp
  | cons col b ih =>
    rw [List.flatten_cons, List.length_append, hm col (by simp), ih rfl fun c hc => hm c (by simp [hc])]
    rw [List.length_cons] at hn
    subst hn
    ring

theorem length_flatten_idft2 (g : Grid) (m n : Nat) : (idft2 g m n).flatten.length = m * n :=
  length_flatten_grid (by simp [idft2]) fun col h => by simpa using length_of_mem_transpose h

theorem length_flatten_dft2 (x : Grid) (m n : Nat) : (dft2 x m n).flatten.length = m * n :=
  length_flatten_grid (by simp [dft2]) fun col h => by
    obtain ⟨c, hc, rfl⟩ := List.mem_map.mp h
    simpa using length_of_mem_transpose hc

@[simp] theorem length_reconcile (r : List NumK) (k : Nat) : (reconcile r k).length = k := by
  simp only [reconcile, List.length_append, List.length_take, length_zeros]
  omega

@[simp] theorem length_modulate (cells : List NumK) (m n : Nat) : (modulate cells m n).length = m * n :=
  length_flatten_idft2 _ m n

@[simp] theorem length_demodulate (core : List NumK) (m n : Nat) : (demodulate core m n).length = m * n :=
  length_flatten_dft2 _ m n

@[simp] theorem length_transformResults (f : List NumK → List NumK) (xs : List NumK) :
    (transformResults f xs).length = (f xs).length := by
  simp [transformResults]

@[simp] theorem length_modSamples (num : Num) (m n : Nat) (cells : List NumK) :
    (modSamples num m n cells).length = m * n := by
  simp [modSamples]

@[simp] theorem length_demodCells (num : Num) (m n : Nat) (core : List NumK) :
    (demodCells num m n core).length = m * n := by
  simp [demodCells]

@[simp] theorem State.length_grid (s : State) (sel : Sel) (m n : Nat) : (s.grid sel m n).length = m * n := by
  simp [State.grid]

/-! ## The channel -/

@[simp] theorem length_delayed (tx : List NumK) (tau : Nat) : (delayed tx tau).length = tx.length := by
  simp only [delayed, NumK.zeros, List.length_append, List.length_replicate, List.length_take]
  omega

@[simp] theorem length_pathContribution (tx : List NumK) (fs : NumR) (p : Path) :
    (pathContribution tx fs p).length = tx.length := by
  simp [pathContribution]

@[simp] theorem length_applyChannel (tx : List NumK) (fs : NumR) (paths : List Path) :
    (applyChannel tx fs paths).length = tx.length := by
  have h : ∀ (ps : List Path) (rx : List NumK), rx.length = tx.length →
      (ps.foldl (fun rx p => List.zipWith NumK.add rx (pathContribution tx fs p)) rx).length = tx.length := by
    intro ps
    induction ps with
    | nil => intro rx hrx; exact hrx
    | cons p ps ih => intro rx hrx; exact ih _ (by simp [hrx])
  exact h _ _ (by simp [NumK.zeros])

@[simp] theorem length_chanSamples (num : Num) (tx : List NumK) (fs : RVal) (paths : List PathEntry) :
    (chanSamples num tx fs paths).length = tx.length := by
  simp [chanSamples]

/-! ## The estimator -/

@[simp] theorem State.length_pilots (s : State) : s.pilots.length = s.npilot.toNat := by simp [State.pilots]

@[simp] theorem State.length_received (s : State) (src : Sel) : (s.received src).length = s.npilot.toNat := by
  simp [State.received]

@[simp] theorem length_pilotRatios (num : Num) (rs : Received) : (pilotRatios num rs).length = rs.length := by
  simp [pilotRatios]

@[simp] theorem length_perPilotEstimate (num : Num) (rs : Received) :
    (perPilotEstimate num rs).length = rs.length := by
  simp [perPilotEstimate]

@[simp] theorem length_fullGridEstimate (num : Num) (rs : Received) (m n : Nat) :
    (fullGridEstimate num rs m n).length = m * n := by
  simp [fullGridEstimate]

/-- Every cell of the full-grid estimate is finite (43_estimator.md R85), whatever the cells and the pilot values are. -/
theorem finite_fullGridCell (v : Valuation) (num : Num) (rs : Received) (pts : List Point) (tri : List Tri) (q : Point) :
    (fullGridCell num rs pts tri q).finite v :=
  NumK.finite_fix v _

/-- The triangles the fans are made of satisfy (T5). -/
theorem mem_firstTriangulation {pts : List Point} {t : Tri} (h : t ∈ firstTriangulation pts) :
    t ∈ delaunayTriangles pts :=
  List.mem_of_mem_filter h

/-- A triangle of `TRI` names three points by rising indices, is not degenerate and satisfies (T5). -/
theorem mem_triangulation {pts : List Point} {t : Tri} (h : t ∈ triangulation pts) :
    t.proper pts = true ∧ t.nondegenerate pts = true ∧ t.delaunay pts = true := by
  unfold triangulation at h
  split at h
  · rename_i hc
    simp only [admissible, Bool.and_eq_true, List.all_eq_true] at hc
    obtain ⟨⟨⟨h1, h2⟩, -⟩, h4⟩ := hc.2.1.1 t h
    exact ⟨h1, h2, h4⟩
  · have hd := mem_firstTriangulation h
    simp only [delaunayTriangles, List.mem_filter, Bool.and_eq_true] at hd
    exact ⟨hd.2.1.1, hd.2.1.2, hd.2.2⟩

end Sys2Proof.Machine
end

