-- ==== Sys2Proof/Laws/PerInstr.lean ====
section
/-! SUPPORT. The family `EncodesItsRow`: the word of each command matches its row of the opcode table
(30_encoding.md section 3). -/

namespace Sys2Proof.Laws

open Sys2Proof

/-- The mask and the match of a command's row in the opcode table. -/
def tableRow : Instr → Word × Word
  | .nop => (0xFFFFFFFF, 0x00000000)
  | .giIns _ _ => (0xFFFFFFCF, 0x00000001)
  | .giRem _ _ => (0xFFFFFFCF, 0x00000002)
  | .mod _ _ => (0xFFFFFFCF, 0x00000003)
  | .demod _ _ => (0xFFFFFFCF, 0x00000004)
  | .chan _ _ => (0xFFFFFFCF, 0x00000005)
  | .est _ => (0xFFFFFFEF, 0x00000006)

/-- The encoded word, under the row's mask, is the row's match. -/
def EncodesItsRow.Statement (i : Instr) : Prop := encode i &&& (tableRow i).1 = (tableRow i).2

theorem EncodesItsRow.nop : EncodesItsRow.Statement .nop := by unfold EncodesItsRow.Statement; decide

theorem EncodesItsRow.giIns (src dst : Sel) : EncodesItsRow.Statement (.giIns src dst) := by
  unfold EncodesItsRow.Statement
  cases src <;> cases dst <;> decide

theorem EncodesItsRow.giRem (src dst : Sel) : EncodesItsRow.Statement (.giRem src dst) := by
  unfold EncodesItsRow.Statement
  cases src <;> cases dst <;> decide

theorem EncodesItsRow.mod (src dst : Sel) : EncodesItsRow.Statement (.mod src dst) := by
  unfold EncodesItsRow.Statement
  cases src <;> cases dst <;> decide

theorem EncodesItsRow.demod (src dst : Sel) : EncodesItsRow.Statement (.demod src dst) := by
  unfold EncodesItsRow.Statement
  cases src <;> cases dst <;> decide

theorem EncodesItsRow.chan (src dst : Sel) : EncodesItsRow.Statement (.chan src dst) := by
  unfold EncodesItsRow.Statement
  cases src <;> cases dst <;> decide

theorem EncodesItsRow.est (src : Sel) : EncodesItsRow.Statement (.est src) := by
  unfold EncodesItsRow.Statement
  cases src <;> decide

end Sys2Proof.Laws
end

