-- ==== Sys2Proof/Laws/Step.lean ====
section
/-! SUPPORT. What one step can do: every instruction answers a next state, and a host action does one of the things
listed here. -/

namespace Sys2Proof.Machine

open Sys2Proof

/-- The word, the checks and the effect of each command, as its meaning gives them to the shared frame. -/
def commandParts : Instr → Word × (State → Option CmdError) × (State → State)
  | .nop => (encode .nop, fun _ => none, fun t => t)
  | .giIns src dst => (encode (.giIns src dst), giInsCheck src, giInsEffect src dst)
  | .giRem src dst => (encode (.giRem src dst), giRemCheck src, giRemEffect src dst)
  | .mod src dst => (encode (.mod src dst), modCheck, modEffect src dst)
  | .demod src dst => (encode (.demod src dst), demodCheck src, demodEffect src dst)
  | .chan src dst => (encode (.chan src dst), chanCheck src, chanEffect src dst)
  | .est src => (encode (.est src), estCheck, estEffect src)

/-- Every instruction runs in the shared frame, and so answers a next state. -/
theorem exec_eq (i : Instr) (s : State) :
    exec i s = .next (commandState (commandParts i).1 (commandParts i).2.1 (commandParts i).2.2 s) := by
  cases i <;> rfl

/-- Every write to CMD runs in the shared frame with the written word: a legal word its command, any other word an
IllegalCommand. -/
theorem writeCmd_cases (w : Word) (s : State) :
    (∃ i, decode w = .ok i ∧ writeCmd w s = exec i s) ∨
      (∃ e, decode w = .error e ∧
        writeCmd w s = .next (commandState w (fun _ => some (illegalCommand e)) (fun t => t) s)) := by
  unfold writeCmd
  cases h : decode w with
  | ok i => exact .inl ⟨i, rfl, rfl⟩
  | error e => exact .inr ⟨e, rfl, rfl⟩

/-- A host action that answers a next state was admitted, and did what its access does. -/
theorem hostStep_next {a : HostAction} {s s' : State} (h : hostStep a s = .next s') :
    (s.busy = true → a = .readReg 1) ∧ a.inRange s.caps = true ∧ a.typed s.num = true ∧
      performAccess a s = .next s' := by
  unfold hostStep at h
  split at h
  · cases h
  · rename_i hb
    split at h
    · cases h
    · rename_i hr
      split at h
      · cases h
      · rename_i ht
        refine ⟨fun hs => ?_, by simpa using hr, by simpa using ht, h⟩
        by_contra hn
        exact hb ⟨hs, hn⟩

/-- A step that answers a next state is idle or performs the host's next action. -/
theorem step_next {s s' : State} (h : step s = .next s') :
    (s.host = [] ∧ s' = s) ∨
      ∃ a rest, s.host = a :: rest ∧ hostStep a { s with host := rest } = .next s' := by
  unfold step at h
  split at h
  · rename_i hs
    cases h
    exact .inl ⟨hs, rfl⟩
  · rename_i a rest hs
    exact .inr ⟨a, rest, hs, h⟩

/-- After reset every memory has its canonical form. -/
theorem State.reset_memoriesWf : State.reset.memoriesWf := by
  simp [State.memoriesWf, State.reset, Mem.wf]

end Sys2Proof.Machine
end

