-- ==== Sys2Proof/Tests/Slice0.lean ====
section
/-! SUPPORT. Tests. Expected values are those of 95_test_vectors.md (the vector is named at each test) or written out
from the encoding of 30_encoding.md; the theorems `witness_…` show states and operands that meet the hypotheses of the
statements. -/

namespace Sys2Proof.Tests

open Sys2Proof Sys2Proof.Machine

/- One test after another: many kernel evaluations at once need a thread each. -/
set_option Elab.async false

/-! ## Helpers -/

/-- The number `a + i*b` of a vector. -/
def c (a b : ℚ) : NumK := .exact (Cyc.ofParts a b)

/-- The number `a + i*b` of a vector, as the host supplies it. -/
def p (a b : ℚ) : InputVal := .number (.exact (Cyc.ofParts a b))

/-- The tolerance and the reference value of a rounded number. -/
def roundedPart : NumK → Option (ℚ × NumK)
  | .rounded _ tol x _ => some (tol, x)
  | _ => none

/-- A rational number of a vector, as a real. -/
abbrev r (q : ℚ) : RVal := .real (NumR.ofRat q)

/-- The not-a-number of `K`. -/
def nan : SpecialK := .re .nan (.special .nan)

/-- A floating-point `NUM` with the tolerance 1/100. -/
def float : Num := .finite 1 (1 / 100) true

/-- A valuation: every name of a real is 2, and there are no errors. -/
noncomputable def twos : Valuation := Valuation.ofReals (fun _ => 2) fun _ => two_pos

/-- Elements that are plain numbers are finite. -/
theorem finite_elements {s : State} {b : Buf} {n : Nat} (h : ∀ k < n, (s.element b k).isNumber = true) (v : Valuation) :
    ∀ k < n, (s.element b k).finite v := fun k hk => NumK.finite_of_isNumber (h k hk)

/-- A sample of the channel that depends on plain numbers depends on finite inputs. -/
theorem channelFinite_of {s : State} {src : Sel} {k : Nat} (v : Valuation)
    (h : ∀ j < s.npath.toNat, (s.delayAt j).toNat ≤ k →
      s.fs.isFinite = true ∧ (s.gainAt j).isFinite = true ∧ (s.dopplerAt j).isFinite = true ∧
        (s.element (tBuf src) (k - (s.delayAt j).toNat)).isNumber = true) : s.channelFinite v src k := fun j hj hd =>
  let ⟨h1, h2, h3, h4⟩ := h j hj hd
  ⟨h1, h2, h3, NumK.finite_of_isNumber h4⟩

/-- Pilots that are plain numbers are finite. -/
theorem pilotsFinite_of {s : State} {src : Sel} (v : Valuation)
    (h : ∀ j < s.npilot.toNat, (s.pilotAt j).value.isFinite = true ∧ (s.pilotCell src (s.pilotAt j)).isNumber = true) :
    s.pilotsFinite v src := fun j hj => ⟨(h j hj).1, NumK.finite_of_isNumber (h j hj).2⟩

/-- The value is non-finite whatever the names stand for. -/
def isNonFinite : NumK → Bool
  | .special _ => true
  | .nonFinite _ => true
  | _ => false

theorem not_finite_of {x : NumK} (h : isNonFinite x = true) (v : Valuation) : ¬ x.finite v := by
  cases x with
  | special z => exact NumK.not_finite_special v z
  | nonFinite name => exact NumK.not_finite_nonFinite v name
  | _ => cases h

/-- A memory that holds these values from index 0 on. -/
def filled (xs : List NumK) : Mem NumK := Mem.writeFrom [] 0 xs

/-- The state after an outcome; the reset state where there is none. -/
def after (o : Host.Outcome State Fault Refusal) : State :=
  match o with
  | .next s => s
  | .fault _ => State.reset
  | .refused _ => State.reset

/-- The leading `n` elements of a buffer. -/
def elements (s : State) (b : Buf) (n : Nat) : List NumK := (List.range n).map (s.element b)

/-- T0 = [1, 2, 3, 4], GLEN = 2 (95_test_vectors.md B.2). -/
def seq4 (gmode : Word) : State :=
  { State.reset with
    t0 := filled [c 1 0, c 2 0, c 3 0, c 4 0], tlen0 := 4, glen := 2, gmode := gmode }

/-- The grid `[[1, 2], [3, 4]]` in G0, GLEN = 1 (95_test_vectors.md V-M1). -/
def grid22 (gmode : Word) : State :=
  { State.reset with m := 2, n := 2, glen := 1, gmode := gmode, g0 := filled [c 1 0, c 3 0, c 2 0, c 4 0] }

/-- T0 = [0, 2.5, -1, -0.5, 0], CyclicPrefix, GLEN = 1 (41_transform_pair.md R66). -/
def time5 : State :=
  { State.reset with
    m := 2, n := 2, glen := 1, gmode := 2, tlen0 := 5
    t0 := filled [c 0 0, c (5 / 2) 0, c (-1) 0, c (-1 / 2) 0, c 0 0] }

/-- T0 = [1, i, -1, -i], FS = 4, the paths (0, 1, 0) and (1, 2, 1) (95_test_vectors.md V-C2). -/
def paths2 : State :=
  { State.reset with
    fs := r 4, npath := 2, tlen0 := 4, t0 := filled [c 1 0, c 0 1, c (-1) 0, c 0 (-1)]
    pathDelay := [(0, 0), (1, 1)], pathGain := [(0, r 1), (1, r 2)], pathDoppler := [(0, r 0), (1, r 1)] }

/-- M = N = 3, the pilots (0,0,1), (2,0,2i), (0,2,-1) and their cells of G0 (95_test_vectors.md V-E1). -/
def pilots3 : State :=
  { State.reset with
    m := 3, n := 3, npilot := 3, g0 := [(0, c 1 1), (2, c 0 4), (6, c 0 3)]
    pilotDidx := [(0, 0), (1, 2), (2, 0)], pilotLidx := [(0, 0), (1, 0), (2, 2)]
    pilotPval := [(0, p 1 0), (1, p 0 2), (2, p (-1) 0)] }

/-- The latched state of 95_test_vectors.md V-S1: MOD raised ConfigurationError(M). -/
def latched : State := { State.reset with errcode := 2, errinfo := 1, errcmd := 3 }

/-! ## Well-formedness: an ill-formed term for each check -/

theorem test_illformed_zero_bits : legalWord 0x00000040 = false := by decide
theorem test_illformed_opcode : legalWord 0x00000007 = false := by decide
theorem test_illformed_nop_selector : legalWord 0x00000010 = false := by decide
theorem test_illformed_est_selector : legalWord 0x00000026 = false := by decide
theorem test_wellformed_word : legalWord 0x00000035 = true := by decide

theorem test_illformed_register :
    (HostAction.readReg 15).wellFormed Caps.suggested .reference = false ∧
      (HostAction.writeReg 15 (.u32 0)).wellFormed Caps.suggested .reference = false := by decide
theorem test_illformed_path :
    (HostAction.writePath 16 (.delay 0)).wellFormed Caps.suggested .reference = false ∧
      (HostAction.readPath 16 .gain).wellFormed Caps.suggested .reference = false := by decide
theorem test_illformed_pilot :
    (HostAction.writePilot 64 (.didx 0)).wellFormed Caps.suggested .reference = false ∧
      (HostAction.readPilot 64 .pval).wellFormed Caps.suggested .reference = false := by decide
theorem test_illformed_buffer_index :
    (HostAction.writeBuf .t0 8192 (p 0 0)).wellFormed Caps.suggested .reference = false ∧
      (HostAction.readBuf .g1 4096).wellFormed Caps.suggested .reference = false := by decide
theorem test_illformed_type :
    (HostAction.writeReg 5 (.real (r 1))).wellFormed Caps.suggested .reference = false ∧
      (HostAction.writeReg 14 (.u32 1)).wellFormed Caps.suggested .reference = false := by decide
theorem test_illformed_special :
    (HostAction.writeReg 14 (.real (.special .nan))).wellFormed Caps.suggested .reference = false ∧
      (HostAction.writeBuf .t0 0 (.special nan)).wellFormed Caps.suggested .reference = false ∧
      (HostAction.writeBuf .t0 0 (.special nan)).wellFormed Caps.suggested float = true := by decide
theorem test_wellformed_action : (HostAction.writeBuf .t0 8191 (p 0 0)).wellFormed Caps.suggested .reference = true := by
  decide

/-! ## Decoding: words written out from 30_encoding.md R46, R47: ZERO(26) DST SRC OPC(4) -/

theorem test_decode_nop : decode 0b000000_00000000_00000000_0000_0_0_0000 = .ok .nop := by decide
theorem test_decode_giIns : decode 0b000000_00000000_00000000_0000_1_0_0001 = .ok (.giIns .zero .one) := by decide
theorem test_decode_giRem : decode 0b000000_00000000_00000000_0000_0_1_0010 = .ok (.giRem .one .zero) := by decide
theorem test_decode_mod : decode 0b000000_00000000_00000000_0000_0_1_0011 = .ok (.mod .one .zero) := by decide
theorem test_decode_demod : decode 0b000000_00000000_00000000_0000_1_1_0100 = .ok (.demod .one .one) := by decide
theorem test_decode_chan : decode 0b000000_00000000_00000000_0000_1_0_0101 = .ok (.chan .zero .one) := by decide
theorem test_decode_est : decode 0b000000_00000000_00000000_0000_0_1_0110 = .ok (.est .one) := by decide
/-- V-D4, V-D5, V-D2, V-D7, V-D9: the refusals, each by name, the first that applies. -/
theorem test_decode_refusals :
    decode 0x40 = .error .zeroBits ∧ decode 0x47 = .error .zeroBits ∧ decode 0x07 = .error .opcode ∧
      decode 0x10 = .error .selector ∧ decode 0x36 = .error .selector := by decide
theorem test_decodeTableWord : decodeTableWord 32 0x25 = some (.chan .zero .one) ∧
    decodeTableWord 32 0xFFFFFFFF = none := by decide
theorem test_assembly : assembly (.giRem .one .zero) = "gi.rem t1, t0" := by decide

/-! ## One step of each command -/

/-- V-G2, V-G1. -/
theorem test_giIns_cyclicPrefix :
    elements (after (exec (.giIns .zero .one) (seq4 2))) .t1 6 = [c 3 0, c 4 0, c 1 0, c 2 0, c 3 0, c 4 0] ∧
      (after (exec (.giIns .zero .one) (seq4 2))).tlen1 = 6 := by decide +kernel
/-- V-G10 with GLEN 5: the error and what it records. -/
theorem test_giIns_guard_too_long :
    let t := after (exec (.giIns .zero .one) { seq4 2 with glen := 5 })
    (t.errcode, t.errinfo, t.errcmd, t.status, t.tlen1) = (2, 4, 0x21, 4, 0) := by decide
/-- The case `gi.rem` drops the front (40_guard_codec.md R57). -/
theorem test_giRem_cyclicPrefix :
    elements (after (exec (.giRem .zero .one) (seq4 2))) .t1 2 = [c 3 0, c 4 0] ∧
      (after (exec (.giRem .zero .one) (seq4 2))).tlen1 = 2 := by decide +kernel
/-- V-G5: ZeroPad drops the tail unseen, here with source and destination the same buffer. -/
theorem test_giRem_zeroPad_aliased :
    (after (exec (.giRem .zero .zero) (seq4 1))).seq .zero = [c 1 0, c 2 0] := by decide +kernel
/-- V-M1. -/
theorem test_mod_cyclicPrefix :
    (after (exec (.mod .zero .zero) (grid22 2))).seq .zero =
      [c 0 0, c (5 / 2) 0, c (-1) 0, c (-1 / 2) 0, c 0 0] := by decide +kernel
/-- V-M4: the sign of the kernel shows in the second sample. -/
theorem test_mod_sign :
    let s := { State.reset with m := 1, n := 4, g0 := filled [c 1 0, c 2 0, c 3 0, c 4 0] }
    (after (exec (.mod .zero .zero) s)).seq .zero =
      [c (5 / 2) 0, c (-1 / 2) (-1 / 2), c (-1 / 2) 0, c (-1 / 2) (1 / 2)] := by decide +kernel
/-- 41_transform_pair.md R66, the example. -/
theorem test_demod_cyclicPrefix :
    elements (after (exec (.demod .zero .one) time5)) .g1 4 = [c 1 0, c 3 0, c 2 0, c 4 0] := by decide +kernel
/-- V-M5: the missing tail is zeros, [1, 1, 1] gives [[3, 1], [1, -1]]. -/
theorem test_demod_pads :
    let s := { State.reset with m := 2, n := 2, tlen0 := 3, t0 := filled [c 1 0, c 1 0, c 1 0] }
    elements (after (exec (.demod .zero .zero) s)) .g0 4 = [c 3 0, c 1 0, c 1 0, c (-1) 0] := by decide +kernel
/-- V-C2. -/
theorem test_chan_two_paths :
    (after (exec (.chan .zero .one) paths2)).seq .one = [c 1 0, c 0 3, c (-1) (-2), c 0 1] := by decide +kernel
/-- Errors of CHAN: gains [1, -0.5] give ERRINFO `0x109`. -/
theorem test_chan_negative_gain :
    (after (exec (.chan .zero .one) { paths2 with pathGain := [(0, r 1), (1, r (-1 / 2))] })).errinfo = 0x109 := by
  decide +kernel
/-- V-E1. -/
theorem test_est_three_pilots :
    let t := after (exec (.est .zero) pilots3)
    elements t .hp 3 = [c 1 1, c 2 0, c 0 (-3)] ∧ t.hplen = 3 ∧
      elements t .hg 9 = [c 1 1, c (3 / 2) (1 / 2), c 2 0, c (1 / 2) (-1), c 1 (-3 / 2), c 0 0, c 0 (-3), c 0 0, c 0 0] := by
  decide +kernel
/-- Errors of EST: entry 2 repeats entry 0, ERRINFO `0x20D`. -/
theorem test_est_duplicate :
    (after (exec (.est .zero) { pilots3 with pilotLidx := [(0, 0), (1, 0), (2, 0)] })).errinfo = 0x20D := by
  decide +kernel
/-- V-E2: at a tie both splittings of the square are admissible, and one triangle alone is not. -/
theorem test_tie_choices :
    let pts : List Point := [⟨0, 0⟩, ⟨2, 0⟩, ⟨0, 2⟩, ⟨2, 2⟩]
    hasTie pts = true ∧ admissible pts [⟨0, 1, 3⟩, ⟨0, 2, 3⟩] = true ∧
      admissible pts [⟨0, 1, 2⟩, ⟨1, 2, 3⟩] = true ∧ admissible pts [⟨0, 1, 2⟩] = false := by decide
/-- V-E3: the triangulation with an inner pilot. -/
theorem test_inner_pilot :
    triangulation [⟨0, 0⟩, ⟨4, 0⟩, ⟨0, 4⟩, ⟨1, 1⟩] = [⟨0, 1, 3⟩, ⟨0, 2, 3⟩, ⟨1, 2, 3⟩] := by decide
/-- V-S1: NOP sets DONE; while an error is latched it is dropped. -/
theorem test_nop : (after (exec .nop State.reset)).status = 2 ∧ after (exec .nop latched) = latched := by decide
/-- V-D2 and V-S1: an illegal word raises; `clrerr` clears. -/
theorem test_illegal_then_clear :
    (after (writeCmd 0x7 State.reset)).errinfo = 16 ∧
      (after (hostStep .clrerr latched)).status = 0 := by decide
/-- V-C4: `ph(1/8)` is `(1+i)/sqrt(2)`: its square is `i`, and `ph(1/3) + ph(2/3) = -1`. -/
theorem test_phase :
    NumK.mul (ph (.ofRat (1 / 8))) (ph (.ofRat (1 / 8))) = c 0 1 ∧
      NumK.add (ph (.ofRat (1 / 3))) (ph (.ofRat (2 / 3))) = c (-1) 0 := by
  decide +kernel
/-- 00_scope.md R11: a quotient by a number that is not rational. -/
theorem test_div : NumK.div (c 0 1) (c 3 4) = c (4 / 25) (3 / 25) ∧
    NumK.mul (NumK.div NumK.one (NumK.add (ph (.ofRat (1 / 8))) NumK.one)) (NumK.add (ph (.ofRat (1 / 8))) NumK.one) =
      NumK.one := by
  decide +kernel
/-- 00_scope.md R10: a sample with a real part that the machine knows by its name, scaled by a gain of that name, on a path
without delay and Doppler (R14 (c)). -/
theorem test_named_real :
    let s := { paths2 with
      npath := 1, t0 := [(0, .parts (NumR.named 7) (.ofRat 0))], tlen0 := 1
      pathGain := [(0, .real (NumR.named 7))] }
    (after (exec (.chan .zero .one) s)).seq .one =
      [.scaled (NumR.named 7) (.parts (NumR.named 7) (.ofRat 0))] := by
  decide +kernel
/-- 00_scope.md R14: under a finite-precision `NUM`, with both delays of V-C2 at 1, the first sample is an exact zero and the
second one is `1 + 2*ph(1/4)`, rounded. -/
theorem test_finite_precision :
    let t := after (exec (.chan .zero .one) { paths2 with num := float, pathDelay := [(0, 1), (1, 1)] })
    t.element .t1 0 = NumK.zero ∧ roundedPart (t.element .t1 1) = some (1 / 100, c 1 2) := by decide +kernel
/-- 42_channel.md R72 check 1: a not-a-number as the sampling rate fails, positive infinity does not. -/
theorem test_chan_special_fs :
    (after (exec (.chan .zero .one) { paths2 with num := float, fs := .special .nan })).errinfo = 7 ∧
      (after (exec (.chan .zero .one) { paths2 with num := float, fs := .special .posInf })).errcode = 0 := by
  decide +kernel
/-- 93_implementation_defined.md U7: GI.INS moves a non-finite sample as it is. -/
theorem test_giIns_special :
    elements (after (exec (.giIns .zero .one) { seq4 2 with num := float, t0 := filled [c 1 0, c 2 0, .special nan, c 4 0] }))
      .t1 2 = [.special nan, c 4 0] := by decide +kernel
/-- 43_estimator.md R84: a non-finite pilot cell of V-E1 makes HP non-finite and zeroes the cells it weighs in. -/
theorem test_est_special :
    let t := after (exec (.est .zero) { pilots3 with num := float, g0 := [(0, .special nan), (2, c 0 4), (6, c 0 3)] })
    t.errcode = 0 ∧ (t.element .hp 0).isNumber = false ∧ t.element .hg 0 = NumK.zero ∧ t.element .hg 1 = NumK.zero := by
  decide +kernel
/-- 43_estimator.md R82: on the edge of the other two pilots that pilot does not count. -/
theorem test_est_special_edge :
    let t := after (exec (.est .zero) { pilots3 with num := float, g0 := [(0, .special nan), (2, c 0 4), (6, c 0 3)] })
    t.element .hg 4 ≠ NumK.zero ∧ t.element .hg 2 ≠ NumK.zero := by decide +kernel
/-- The first step after reset with a command placed runs it. -/
theorem test_fetch : step (State.reset.withFetchWord 32 0x25) = exec (.chan .zero .one) State.reset := by rfl

/-! ## Witnesses for the statements with hypotheses -/

theorem witness_DecodeRefusesInTheListedOrder :
    64 ≤ (0x40 : Word).toNat ∧ 64 ≤ (0xFFFFFFFF : Word).toNat ∧
      ((0x3F : Word).toNat < 64 ∧ 7 ≤ (0x3F : Word).toNat % 16) ∧
      ((0x07 : Word).toNat < 64 ∧ 7 ≤ (0x07 : Word).toNat % 16) ∧
      ((0x30 : Word).toNat % 16 = 0 ∧ 16 ≤ (0x30 : Word).toNat) ∧ ((0x10 : Word).toNat % 16 = 0 ∧ 16 ≤ (0x10 : Word).toNat) ∧
      ((0x26 : Word).toNat % 16 = 6 ∧ 32 ≤ (0x26 : Word).toNat) ∧
      ((0x16 : Word).toNat % 16 < 7 ∧ ((0x16 : Word).toNat % 16 = 6 → (0x16 : Word).toNat < 32)) ∧
      ((0x35 : Word).toNat % 16 < 7 ∧ ((0x35 : Word).toNat % 16 = 0 → (0x35 : Word).toNat < 16)) := by decide

theorem witness_StepRunsTheDecodedCommand :
    (State.reset.withFetchWord 32 0x25).host = .writeReg 0 (.u32 0x25) :: [] ∧
      (State.reset.withFetchWord 32 0x25).busy = false ∧ decode 0x25 = .ok (.chan .zero .one) := by decide

theorem witness_IllegalWordRaisesIllegalCommand :
    State.reset.errcode = 0 ∧ legalWord 0x40 = false ∧ legalWord 0x3F = false ∧ legalWord 0x36 = false := by decide

theorem witness_LatchedErrorDropsCommands :
    latched.errcode ≠ 0 ∧ latched.busy = false ∧ (HostAction.writeReg 5 (.u32 2)).wellFormed latched.caps latched.num = true ∧
      hostStep (.writeReg 5 (.u32 2)) latched = .next { latched with m := 2 } := by
  refine ⟨by decide, rfl, by decide, rfl⟩

theorem witness_StatusTellsTheOutcome :
    writeCmd 0x00 State.reset = .next { State.reset with done := true } ∧
      writeCmd 0x03 State.reset = .next latched ∧ writeCmd 0x00 latched = .next latched := by
  refine ⟨rfl, rfl, rfl⟩

theorem witness_RaisedErrorIsPrecise :
    State.reset.errcode = 0 ∧ writeCmd 0x03 State.reset = .next latched ∧ latched.errcode ≠ 0 ∧
      (tableError .pathGain (2 ^ 24 - 1)).index < 2 ^ 24 := by
  refine ⟨rfl, rfl, by decide, by decide⟩

theorem witness_EachCommandRaisesOnlyItsErrors :
    State.reset.errcode = 0 ∧ legalWord 0x47 = false ∧
      (after (writeCmd 0x47 State.reset)).errcode = 4 ∧ (after (exec (.mod .zero .zero) State.reset)).errcode ≠ 0 ∧
      (after (exec (.chan .one .zero) State.reset)).errcode ≠ 0 := by decide +kernel

theorem witness_CommandsWriteOnlyTheirOutputs :
    exec (.giIns .zero .one) (seq4 2) = .next (after (exec (.giIns .zero .one) (seq4 2))) ∧
      (seq4 2).writtenLength (.giIns .zero .one) .t1 ≤ 6 ∧ writesTlen (.giIns .zero .one) .zero = false ∧
      (after (exec (.giIns .zero .one) (seq4 2))).errcode = (seq4 2).errcode := by
  refine ⟨rfl, by decide, by decide, by decide⟩

theorem witness_ResultDependsOnlyOnInputs :
    (seq4 2).sameInputs { seq4 2 with m := 7, host := [.reset] } (.giIns .zero .one) ∧ (seq4 2).errcode = 0 ∧
      (after (exec (.giIns .zero .one) (seq4 2))).errcode = 0 ∧
      0 < (seq4 2).writtenLength (.giIns .zero .one) .t1 := by
  refine ⟨⟨⟨rfl, rfl, rfl, rfl, rfl, fun _ _ => rfl⟩, rfl⟩, by decide, by decide, by decide⟩

theorem witness_AliasedCommandsReadBeforeTheyWrite :
    (after (exec (.giIns .zero .zero) (seq4 2))).errcode = 0 ∧
      (after (exec (.giRem .zero .zero) (seq4 2))).errcode = 0 ∧
      (after (exec (.chan .zero .zero) paths2)).errcode = 0 ∧ (seq4 2).errcode = 0 ∧ paths2.errcode = 0 := by
  decide +kernel

theorem witness_NopSetsDoneOnly : State.reset.errcode = 0 ∧ State.reset.busy = false ∧ latched.errcode ≠ 0 := by
  decide

theorem witness_ErrorClearClearsTheLatchOnly :
    latched.busy = false ∧ State.reset.busy = false ∧ latched.errcode ≠ 0 ∧
      (after (hostStep .clrerr latched)).errcode = 0 ∧ (after (hostStep .reset latched)).errcode = 0 := by decide

theorem witness_GuardInsertElements :
    (4 : Nat) ≤ [c 1 0, c 2 0, c 3 0, c 4 0].length ∧ (0 : Nat) ≤ ([] : List NumK).length := by decide

theorem witness_GuardRemoveElements : (4 : Nat) ≤ [c 1 0, c 2 0, c 3 0, c 4 0].length ∧
    GuardMode.zeroPad ≠ GuardMode.none := by decide

theorem witness_GuardRemovalInvertsInsertion :
    (GuardMode.cyclicPrefix = .cyclicPrefix → 4 ≤ [c 1 0, c 2 0, c 3 0, c 4 0].length) ∧
      (GuardMode.zeroPad = .cyclicPrefix → 9 ≤ ([] : List NumK).length) := by decide

theorem witness_GiInsWritesTheGuardedSequence :
    ∀ gmode ∈ [(0 : Word), 1, 2, 7], (seq4 gmode).errcode = 0 ∧ ((seq4 gmode).tlen .zero).toNat ≤ (seq4 gmode).caps.tcap ∧
      ((seq4 gmode).mode = .cyclicPrefix → (seq4 gmode).glen.toNat ≤ ((seq4 gmode).tlen .zero).toNat) ∧
      guardedLength ((seq4 gmode).tlen .zero).toNat (seq4 gmode).glen.toNat (seq4 gmode).mode ≤ (seq4 gmode).caps.tcap := by
  simp only [List.forall_mem_cons, List.not_mem_nil, false_implies, implies_true, and_true]
  refine ⟨?_, ?_, ?_, ?_⟩ <;> decide +kernel

/-- V-G18, V-G10, V-G19. -/
theorem witness_GiInsErrorsInOrder :
    let a := { seq4 2 with tlen0 := 8193 }
    let b := { seq4 2 with glen := 5 }
    let d := { seq4 1 with tlen0 := 8192, glen := 1 }
    (a.errcode = 0 ∧ a.caps.tcap < (a.tlen .zero).toNat) ∧
      ((b.tlen .zero).toNat ≤ b.caps.tcap ∧ b.mode = .cyclicPrefix ∧ (b.tlen .zero).toNat < b.glen.toNat) ∧
      ((d.tlen .zero).toNat ≤ d.caps.tcap ∧ (d.mode = .cyclicPrefix → d.glen.toNat ≤ (d.tlen .zero).toNat) ∧
        d.caps.tcap < guardedLength (d.tlen .zero).toNat d.glen.toNat d.mode) := by decide +kernel

theorem witness_GiRemWritesTheCoreSequence :
    ∀ gmode ∈ [(0 : Word), 1, 2], ∀ glen ∈ [(0 : Word), 4],
      let s := { seq4 gmode with glen := glen }
      s.errcode = 0 ∧ (s.tlen .zero).toNat ≤ s.caps.tcap ∧ (s.mode ≠ .none → s.glen.toNat ≤ (s.tlen .zero).toNat) := by
  simp only [List.forall_mem_cons, List.not_mem_nil, false_implies, implies_true, and_true]
  refine ⟨⟨?_, ?_⟩, ⟨?_, ?_⟩, ?_, ?_⟩ <;> decide +kernel

/-- V-G21, V-G13. -/
theorem witness_GiRemErrorsInOrder :
    let a := { seq4 2 with tlen0 := 8193 }
    let b := { seq4 2 with glen := 5 }
    (a.errcode = 0 ∧ a.caps.tcap < (a.tlen .zero).toNat) ∧
      ((b.tlen .zero).toNat ≤ b.caps.tcap ∧ b.mode ≠ .none ∧ (b.tlen .zero).toNat < b.glen.toNat) := by decide +kernel

theorem witness_ModWritesTheInverseTransform :
    State.reset.num = .reference ∧ (grid22 2).gridFinite twos .zero ∧ ∀ gmode ∈ [(0 : Word), 1, 2], ∀ glen ∈ [(0 : Word), 4],
      let s := { grid22 gmode with glen := glen }
      s.errcode = 0 ∧ s.gridValid ∧ (s.mode = .cyclicPrefix → s.glen.toNat ≤ s.cells) ∧
        guardedLength s.cells s.glen.toNat s.mode ≤ s.caps.tcap := by
  simp only [List.forall_mem_cons, List.not_mem_nil, false_implies, implies_true, and_true]
  refine ⟨rfl, finite_elements (by decide +kernel) _, ⟨?_, ?_⟩, ⟨?_, ?_⟩, ?_, ?_⟩ <;> decide +kernel

/-- V-M6. -/
theorem witness_ModErrorsInOrder :
    let b := { State.reset with m := 2 }
    let d := { State.reset with m := 65536, n := 65536 }
    let e := { grid22 2 with glen := 5 }
    let f := { grid22 1 with glen := 8189 }
    (State.reset.errcode = 0 ∧ State.reset.m = 0) ∧ (b.m ≠ 0 ∧ b.n = 0) ∧
      (d.m ≠ 0 ∧ d.n ≠ 0 ∧ d.caps.gcap < d.cells) ∧
      (e.gridValid ∧ e.mode = .cyclicPrefix ∧ e.cells < e.glen.toNat) ∧
      (f.gridValid ∧ (f.mode = .cyclicPrefix → f.glen.toNat ≤ f.cells) ∧
        f.caps.tcap < guardedLength f.cells f.glen.toNat f.mode) := by decide +kernel

theorem witness_DemodWritesTheForwardTransform :
    time5.coreFinite twos .zero ∧ ∀ len ∈ [(1 : Word), 5, 8192],
      let s := { time5 with tlen0 := len }
      s.errcode = 0 ∧ s.gridValid ∧ (s.mode = .cyclicPrefix → s.glen.toNat ≤ s.cells) ∧
        (s.tlen .zero).toNat ≤ s.caps.tcap ∧ (s.mode ≠ .none → s.glen.toNat ≤ (s.tlen .zero).toNat) := by
  simp only [List.forall_mem_cons, List.not_mem_nil, false_implies, implies_true, and_true]
  have h : ∀ k < 4, k < time5.coreLength .zero → (time5.coreElement .zero k).isNumber = true := by decide +kernel
  refine ⟨fun k hk hc => NumK.finite_of_isNumber (h k hk hc), ?_, ?_, ?_⟩ <;> decide +kernel

/-- V-M5, V-M6. -/
theorem witness_DemodErrorsInOrder :
    let b := { State.reset with m := 2 }
    let d := { State.reset with m := 65536, n := 65536 }
    let e := { time5 with glen := 5 }
    let f := { time5 with tlen0 := 8193 }
    let g := { time5 with tlen0 := 2, glen := 3 }
    (State.reset.errcode = 0 ∧ State.reset.m = 0) ∧ (b.m ≠ 0 ∧ b.n = 0) ∧
      (d.m ≠ 0 ∧ d.n ≠ 0 ∧ d.caps.gcap < d.cells) ∧
      (e.gridValid ∧ e.mode = .cyclicPrefix ∧ e.cells < e.glen.toNat) ∧
      (f.gridValid ∧ (f.mode = .cyclicPrefix → f.glen.toNat ≤ f.cells) ∧ f.caps.tcap < (f.tlen .zero).toNat) ∧
      (g.gridValid ∧ (g.mode = .cyclicPrefix → g.glen.toNat ≤ g.cells) ∧ (g.tlen .zero).toNat ≤ g.caps.tcap ∧
        g.mode ≠ .none ∧ (g.tlen .zero).toNat < g.glen.toNat) := by decide +kernel

theorem witness_FlattenAndReshapeAreInverse :
    let b : Grid := [[NumK.one, NumK.zero], [NumK.zero, NumK.one]]
    b.length = 2 ∧ (∀ col ∈ b, col.length = 2) ∧ b.flatten.length = 2 * 2 := by decide

theorem witness_DemodulationInvertsModulation :
    let s := grid22 2
    let t := after (exec (.mod .zero .zero) s)
    s.errcode = 0 ∧ s.caps.tcap < 2 ^ 32 ∧ exec (.mod .zero .zero) s = .next t ∧ t.errcode = 0 ∧ t.m = s.m ∧
      t.n = s.n ∧ t.glen = s.glen ∧ t.gmode = s.gmode ∧ t.caps = s.caps ∧ t.num = s.num ∧
      s.num = .reference ∧ t.sameSeq t .zero .zero ∧ s.gridFinite twos .zero :=
  ⟨by decide, by decide, rfl, by decide, rfl, rfl, rfl, rfl, rfl, rfl, rfl, ⟨rfl, fun _ _ => rfl⟩,
    finite_elements (by decide +kernel) _⟩

theorem witness_ChanWritesTheSumOfPaths :
    paths2.errcode = 0 ∧ paths2.fs.positive twos ∧ paths2.npath.toNat ≤ paths2.caps.pcap ∧
      (∀ j < paths2.npath.toNat, (paths2.gainAt j).nonneg twos) ∧
      (paths2.tlen .zero).toNat ≤ paths2.caps.tcap ∧ paths2.num = .reference ∧ paths2.channelFinite twos .zero 3 := by
  refine ⟨rfl, (RVal.isPositive_iff _ _).1 (by decide), by decide,
    fun j hj => (RVal.isNonneg_iff _ _).1 ?_, by decide, rfl, channelFinite_of _ (by decide +kernel)⟩
  have h : ∀ j < paths2.npath.toNat, (paths2.gainAt j).isNonneg = true := by decide +kernel
  exact h j hj

/-- 95_test_vectors.md B.4, errors of CHAN. -/
theorem witness_ChanErrorsInOrder :
    let b := { paths2 with npath := 17 }
    let d := { paths2 with pathGain := [(0, r 1), (1, r (-1 / 2))] }
    let e := { paths2 with tlen0 := 8193 }
    (State.reset.errcode = 0 ∧ ¬ State.reset.fs.positive twos) ∧ (b.fs.positive twos ∧ b.caps.pcap < b.npath.toNat) ∧
      (d.fs.positive twos ∧ d.npath.toNat ≤ d.caps.pcap ∧ 1 < d.npath.toNat ∧ ¬ (d.gainAt 1).nonneg twos ∧
        ∀ i < 1, (d.gainAt i).nonneg twos) ∧
      (e.fs.positive twos ∧ e.npath.toNat ≤ e.caps.pcap ∧ (∀ j < e.npath.toNat, (e.gainAt j).nonneg twos) ∧
        e.caps.tcap < (e.tlen .zero).toNat) := by
  intro b d e
  have hfs : paths2.fs.positive twos := (RVal.isPositive_iff _ _).1 (by decide)
  refine ⟨⟨rfl, fun h => ?_⟩, ⟨hfs, by decide⟩,
    ⟨hfs, by decide, by decide, fun h => ?_, fun i hi => (RVal.isNonneg_iff _ _).1 ?_⟩,
    ⟨hfs, by decide, witness_ChanWritesTheSumOfPaths.2.2.2.1, by decide⟩⟩
  · exact absurd ((RVal.isPositive_iff _ _).2 h) (by decide)
  · exact absurd ((RVal.isNonneg_iff _ _).2 h) (by decide +kernel)
  · obtain rfl : i = 0 := by omega
    decide +kernel

theorem witness_DelayShiftsRightLinearly :
    let tx := [c 1 0, c 2 0, c 3 0]
    (0 < min 1 tx.length) ∧ (1 ≤ 2 ∧ 2 < tx.length) ∧ tx.length ≤ 3 ∧ tx.length ≤ 4294967295 := by decide

theorem witness_ChannelIsLinear :
    [NumK.one].length = [NumK.zero].length ∧
      ∀ k < [NumK.one].length, ([NumK.zero].getD k NumK.zero).value twos =
        0 * ([NumK.one].getD k NumK.zero).value twos + 0 * ([NumK.one].getD k NumK.zero).value twos := by
  refine ⟨rfl, fun k hk => ?_⟩
  obtain rfl : k = 0 := by simpa using hk
  simp

theorem witness_PathOrderDoesNotMatter :
    [(⟨0, .ofRat 1, .ofRat 0⟩ : Path), ⟨1, .ofRat 2, .ofRat 1⟩].Perm [⟨1, .ofRat 2, .ofRat 1⟩, ⟨0, .ofRat 1, .ofRat 0⟩] ∧
      0 < [NumK.one].length ∧ (NumR.ofRat 0).value twos = 0 :=
  ⟨List.Perm.swap _ _ _, by decide, (NumR.isZero_iff _ _).1 (by decide)⟩

/-- Pilots with the values 1, for which validity is said on complex numbers. -/
def pilotsOne : State := { pilots3 with pilotPval := [(0, p 1 0), (1, p 1 0), (2, p 1 0)] }

theorem value_p (v : Valuation) (a b : ℚ) : (p a b).value v = (a : ℂ) + Complex.I * (b : ℂ) := Cyc.value_ofParts a b

theorem p_not_zero (v : Valuation) : ¬ (p 1 0).zero v := by simp [InputVal.zero, value_p]

theorem witness_pilotsValid : pilotsOne.pilotsValid twos where
  count := by decide
  inGrid := by decide
  nonzero := by
    have h : ∀ j < pilotsOne.npilot.toNat, (pilotsOne.pilotAt j).value = p 1 0 := by decide +kernel
    intro j hj
    rw [h j hj]
    exact p_not_zero _
  distinct := by decide
  notCollinear := by decide

theorem witness_outsideHull : ¬ inHull (pilotPoints pilotsOne.pilots) ⟨2, 2⟩ := by
  have h : ∀ a < 3, ∀ b < 3, ∀ d < 3, ¬ ((Tri.mk a b d).det (pilotPoints pilotsOne.pilots) ≠ 0 ∧
      (Tri.mk a b d).contains (pilotPoints pilotsOne.pilots) ⟨2, 2⟩ = true) := by decide
  rintro ⟨t, ha, hb, hc, hd, hq⟩
  exact h t.a ha t.b hb t.c hc ⟨hd, hq⟩

/-- The hypotheses of EstCompletesOnValidPilots, EstWritesThePilotRatios, EstInterpolatesInATriangle and
ThreePilotsDetermineTheEstimate. -/
theorem witness_Est :
    pilotsOne.errcode = 0 ∧ pilotsOne.gridValid ∧ pilotsOne.pilotsValid twos ∧ pilotsOne.npilot = 3 ∧
      pilotsOne.num = .reference ∧ pilotsOne.pilotsFinite twos .zero ∧
      exec (.est .zero) pilotsOne = .next (after (exec (.est .zero) pilotsOne)) ∧
      ¬ inHull (pilotPoints pilotsOne.pilots) ⟨2, 2⟩ :=
  ⟨by decide, by decide, witness_pilotsValid, by decide, rfl, pilotsFinite_of _ (by decide +kernel), rfl,
    witness_outsideHull⟩

/-- 95_test_vectors.md B.5, errors of EST: the states of the clauses before the pilots are read. -/
theorem witness_EstErrorsInOrder :
    (State.reset.errcode = 0 ∧ State.reset.m = 0) ∧
      (({ State.reset with m := 2 } : State).m ≠ 0 ∧ ({ State.reset with m := 2 } : State).n = 0) ∧
      (let d := { State.reset with m := 65536, n := 65536 };
        d.m ≠ 0 ∧ d.n ≠ 0 ∧ d.caps.gcap < d.cells) ∧
      (let e := { pilotsOne with npilot := 65 };
        e.gridValid ∧ e.caps.qcap < e.npilot.toNat) := by
  refine ⟨by decide, by decide, by decide +kernel, by decide +kernel⟩

/-- Entry 1 is the first outside the grid. -/
theorem witness_EstErrorsInOrder_index :
    let f := { pilotsOne with pilotDidx := [(0, 0), (1, 3), (2, 0)] }
    f.gridValid ∧ f.npilot.toNat ≤ f.caps.qcap ∧ 1 < f.npilot.toNat ∧ f.m.toNat ≤ (f.pilotAt 1).d ∧
      ∀ i < 1, (f.pilotAt i).d < f.m.toNat ∧ (f.pilotAt i).l < f.n.toNat := by decide +kernel

/-- Entry 2 is the first that repeats another. -/
theorem witness_EstErrorsInOrder_dup :
    let g := { pilotsOne with pilotLidx := [(0, 0), (1, 0), (2, 0)] }
    g.gridValid ∧ g.npilot.toNat ≤ g.caps.qcap ∧
      (∀ j < g.npilot.toNat, (g.pilotAt j).d < g.m.toNat ∧ (g.pilotAt j).l < g.n.toNat) ∧
      2 < g.npilot.toNat ∧ g.pilotPoint 0 = g.pilotPoint 2 ∧
      ∀ k < 2, ∀ i < k, g.pilotPoint i ≠ g.pilotPoint k := by decide +kernel

/-- The three pilots are distinct and on one line. -/
theorem witness_EstErrorsInOrder_line :
    let h := { pilotsOne with pilotDidx := [(0, 0), (1, 1), (2, 2)], pilotLidx := [(0, 0), (1, 1), (2, 2)] }
    h.gridValid ∧ h.npilot.toNat ≤ h.caps.qcap ∧
      (∀ j < h.npilot.toNat, (h.pilotAt j).d < h.m.toNat ∧ (h.pilotAt j).l < h.n.toNat) ∧
      (∀ i < h.npilot.toNat, ∀ j < h.npilot.toNat, h.pilotPoint i = h.pilotPoint j → i = j) ∧
      ∀ a < h.npilot.toNat, ∀ b < h.npilot.toNat, ∀ c < h.npilot.toNat,
        orient (h.pilotPoint a) (h.pilotPoint b) (h.pilotPoint c) = 0 := by decide +kernel

/-- The values of the pilots of `witness_EstErrorsInOrder`: all 1, or the second one 0 after a 1. -/
theorem witness_EstErrorsInOrder_values :
    (∀ j < pilotsOne.npilot.toNat, ¬ (pilotsOne.pilotAt j).value.zero twos) ∧
      (({ pilotsOne with pilotPval := [(0, p 1 0), (1, p 0 0)] } : State).pilotAt 1).value.zero twos ∧
      ∀ i < 1, ¬ (({ pilotsOne with pilotPval := [(0, p 1 0), (1, p 0 0)] } : State).pilotAt i).value.zero twos := by
  refine ⟨witness_pilotsValid.nonzero, ?_, fun i hi => ?_⟩
  · show (p 0 0).zero twos
    exact ⟨rfl, by simp [value_p]⟩
  · obtain rfl : i = 0 := by omega
    exact p_not_zero _

/-- A non-finite cell at a pilot with a finite value, under a floating-point `NUM`: the clauses of EstWritesThePilotRatios and
EstInterpolatesInATriangle on non-finite estimates. -/
theorem witness_Est_special :
    let s := { pilotsOne with num := float, g0 := [(0, .special nan), (2, c 0 4), (6, c 0 3)] }
    (s.pilotAt 0).value.isFinite = true ∧ ¬ (s.pilotCell .zero (s.pilotAt 0)).finite twos ∧
      (Tri.mk 0 1 2).contains (pilotPoints s.pilots) ⟨1, 0⟩ = true ∧
      ∃ w ∈ (Tri.mk 0 1 2).weightedVertices (pilotPoints s.pilots) ⟨1, 0⟩, w.2 ≠ 0 ∧
        ¬ ((after (exec (.est .zero) s)).element .hp w.1).finite twos := by
  refine ⟨by decide +kernel, not_finite_of (by decide +kernel) _, by decide +kernel, (0, 2), by decide +kernel, by decide,
    not_finite_of ?_ _⟩
  decide +kernel

/-- Cells that hold 0 and the pilot values: the clauses of EstWritesThePilotRatios on them (43_estimator.md R86, R87 (a)); a
finite `NUM` without non-finite encodings, whose estimates are finite, for the last clause of EstInterpolatesInATriangle. -/
theorem witness_Est_values :
    let s := { pilotsOne with num := float, g0 := [(0, NumK.zero), (2, c 1 0), (6, c 1 0)] }
    let u := { s with g0 := [(0, c 1 0), (2, c 1 0), (6, c 1 0)] }
    let w := { s with num := .finite 1 (1 / 100) false }
    (s.pilotCell .zero (s.pilotAt 0)).meaning twos = .number 0 ∧
      (∀ j < u.npilot.toNat, (u.pilotAt j).value.isFinite = true ∧
        (u.pilotCell .zero (u.pilotAt j)).sameValue twos (u.pilotAt j).value.val) ∧
      (Tri.mk 0 1 2).contains (pilotPoints w.pilots) ⟨1, 1⟩ = true ∧
      (∀ j < w.npilot.toNat, (w.pilotAt j).value.isFinite = true) ∧
      ∀ x ∈ (Tri.mk 0 1 2).weightedVertices (pilotPoints w.pilots) ⟨1, 1⟩, x.2 ≠ 0 →
        ((after (exec (.est .zero) w)).element .hp x.1).finite twos := by
  intro s u w
  have hu : ∀ j < u.npilot.toNat, (u.pilotAt j).value.isFinite = true ∧
      u.pilotCell .zero (u.pilotAt j) = (u.pilotAt j).value.val := by decide +kernel
  have hw : ∀ x ∈ (Tri.mk 0 1 2).weightedVertices (pilotPoints w.pilots) ⟨1, 1⟩, x.2 ≠ 0 →
      ((after (exec (.est .zero) w)).element .hp x.1).isNumber = true := by decide +kernel
  refine ⟨?_, fun j hj => ⟨(hu j hj).1, congrArg _ (hu j hj).2⟩, by decide +kernel, by decide +kernel,
    fun x hx h0 => NumK.finite_of_isNumber (hw x hx h0)⟩
  have h : s.pilotCell .zero (s.pilotAt 0) = NumK.zero := by decide +kernel
  rw [h, NumK.meaning_zero]

/-- A gain of 0 written down in two ways: equal values, different data. -/
theorem witness_ResultDependsOnlyOnInputs_values :
    let s := { paths2 with num := float, pathGain := [(0, r 1), (1, r 0)] }
    let s' := { s with pathGain := [(0, r 1), (1, .real ⟨0, [(0, 1)]⟩)] }
    s.sameInputValues s' twos (.chan .zero .one) ∧ s.errcode = 0 ∧
      (after (exec (.chan .zero .one) s)).errcode = 0 ∧ s.gainAt 1 ≠ s'.gainAt 1 := by
  intro s s'
  refine ⟨⟨rfl, rfl, rfl, rfl, rfl, ⟨rfl, fun _ _ => rfl⟩, fun j hj => ⟨rfl, ?_, rfl⟩⟩, rfl, by decide +kernel,
    by decide +kernel⟩
  have h2 : j < 2 := hj
  interval_cases j
  · rfl
  · show RVal.meaning twos (r 0) = RVal.meaning twos (.real ⟨0, [(0, 1)]⟩)
    simp [RVal.meaning, RVal.meaningWith, NumR.valueWith, NumR.ofRat]

/-- Two EST commands with the same pilots and cells there, one of them on a larger grid. -/
theorem witness_ResultDependsOnlyOnInputs_est :
    let s := pilotsOne
    let s' := { pilotsOne with m := 4, n := 5, g0 := [(0, c 1 1), (2, c 0 4), (3, c 9 9), (8, c 0 3)] }
    s.samePilots s' .zero ∧ s.num = s'.num ∧ s.errcode = 0 ∧ s'.errcode = 0 ∧
      (after (exec (.est .zero) s)).errcode = 0 ∧ (after (exec (.est .zero) s')).errcode = 0 := by decide +kernel

theorem witness_TriangulationSatisfiesDelaunay :
    let pts : List Point := [⟨0, 0⟩, ⟨4, 0⟩, ⟨0, 4⟩, ⟨1, 1⟩]
    pts.Nodup ∧ (⟨0, 1, 3⟩ : Tri) ∈ triangulation pts ∧ (3 : Nat) < pts.length ∧
      (Tri.mk 0 1 3).contains pts (pointAt pts 3) = true ∧ 2 ∉ (Tri.mk 0 1 3).indices := by decide +kernel

theorem witness_InterpolationReproducesThePilots :
    let pts : List Point := [⟨0, 0⟩, ⟨4, 0⟩, ⟨0, 4⟩, ⟨1, 1⟩]
    pts.Nodup ∧ (∃ a < pts.length, ∃ b < pts.length, ∃ d < pts.length,
        orient (pointAt pts a) (pointAt pts b) (pointAt pts d) ≠ 0) ∧
      [NumK.zero, NumK.one, NumK.one, NumK.zero].length = pts.length ∧ 3 < pts.length := by decide +kernel

/-- Points with a tie, a point of their hull in two of the triangles of any triangulation, and one outside. -/
theorem witness_TrianglesCoverTheConvexHull :
    let pts : List Point := [⟨0, 0⟩, ⟨2, 0⟩, ⟨0, 2⟩, ⟨2, 2⟩]
    pts.Nodup ∧ orient (pointAt pts 0) (pointAt pts 1) (pointAt pts 2) ≠ 0 ∧ inHull pts ⟨1, 1⟩ ∧
      coversHull pts [⟨0, 1, 2⟩, ⟨1, 2, 3⟩] = true ∧ coversHull pts [⟨0, 1, 2⟩] = false := by
  refine ⟨by decide, by decide, ⟨⟨0, 1, 2⟩, ?_⟩, by decide +kernel, by decide +kernel⟩
  decide

theorem witness_EqualEstimatesInterpolateToThemselves :
    (∀ x ∈ [NumK.one, NumK.one, NumK.one], x.value twos = 1) ∧
      [NumK.one, NumK.one, NumK.one].length = [(⟨0, 0⟩ : Point), ⟨2, 0⟩, ⟨0, 2⟩].length := by
  simp

/-- The linearity clause, on three equal states with `a = 1` and `b = 0`. -/
theorem witness_EstimateIsLinear :
    pilotsOne.errcode = 0 ∧ pilotsOne.num = .reference ∧ (after (exec (.est .zero) pilotsOne)).errcode = 0 ∧
      pilotsOne.pilotsFinite twos .zero ∧
      ∀ j < pilotsOne.npilot.toNat, (pilotsOne.pilotCell .zero (pilotsOne.pilotAt j)).value twos =
        1 * (pilotsOne.pilotCell .zero (pilotsOne.pilotAt j)).value twos +
          0 * (pilotsOne.pilotCell .zero (pilotsOne.pilotAt j)).value twos :=
  ⟨rfl, rfl, by decide +kernel, pilotsFinite_of _ (by decide +kernel), fun j _ => by rw [one_mul, zero_mul, add_zero]⟩

theorem witness_CollinearityIsDecidedFromTheFirstTwo :
    ([⟨0, 0⟩, ⟨1, 1⟩, ⟨2, 2⟩] : List Point).Nodup := by decide

theorem witness_OrientAndIncircleDecideLineAndCircle :
    orient ⟨0, 0⟩ ⟨2, 0⟩ ⟨0, 2⟩ ≠ 0 ∧ ((0 : ℚ) - 1) ^ 2 + (0 - 1) ^ 2 = 2 ∧ ((2 : ℚ) - 1) ^ 2 + (0 - 1) ^ 2 = 2 ∧
      ((0 : ℚ) - 1) ^ 2 + (2 - 1) ^ 2 = 2 := by decide +kernel

theorem witness_OperationsAreTheReferenceOperations :
    NumK.one.value twos ≠ 0 ∧ (NumR.named 3).value twos ≠ 0 := by
  simp [NumR.value_named, twos, Valuation.ofReals]

theorem witness_PhasePrimitiveLaws :
    ((1 : ℕ) ≤ 3 ∧ (3 : ℤ) ∣ 6 ∧ ¬ (3 : ℤ) ∣ 7) ∧ (NumR.ofRat 0).value twos = 0 ∧
      (NumR.ofRat 5).value twos = (NumR.ofRat 2).value twos + (NumR.ofRat 3).value twos ∧ (NumR.named 9).value twos = (2 : ℤ) ∧
      (NumR.ofRat (1 / 4)).value twos = 1 / 4 ∧ (NumR.ofRat (1 / 2)).value twos = 1 / 2 ∧ (NumR.ofRat (3 / 4)).value twos = 3 / 4 ∧
      (NumR.ofRat (-2)).value twos = -(NumR.named 9).value twos := by
  refine ⟨by decide, ?_⟩
  simp only [NumR.value_ofRat, NumR.value_named, twos, Valuation.ofReals]
  norm_num

theorem witness_CanonicalFormsDecideEquality :
    (Cyc.ofParts 0 1).canonical = true ∧ (Cyc.mk [⟨3 / 4, 1⟩]).canonical = false ∧
      (NumK.plus (c 0 1) (.parts (NumR.named 0) (.ofRat 1))).canonical = true := by decide +kernel

theorem witness_HostAccesses :
    State.reset.busy = false ∧ (5 : Nat) ≤ 12 ∧ 8191 < capacityOf State.reset.caps .t0 ∧ 15 < State.reset.caps.pcap ∧
      63 < State.reset.caps.qcap := by decide

theorem witness_OnlyAdmittedAccessesHaveAStep :
    ({ State.reset with busy := true } : State).busy = true ∧ HostAction.readReg 2 ≠ .readReg 1 ∧
      (HostAction.readReg 15).inRange State.reset.caps = false ∧
      (HostAction.readReg 14).wellFormed State.reset.caps .reference = true ∧
      ((HostAction.writeReg 5 (.real (r 1))).inRange State.reset.caps = true ∧
        (HostAction.writeReg 5 (.real (r 1))).typed .reference = false) ∧
      ((HostAction.writeReg 14 (.u32 1)).inRange State.reset.caps = true ∧ (HostAction.writeReg 14 (.u32 1)).typed .reference = false) ∧
      hostStep (.readReg 1) { State.reset with busy := true } = .next { State.reset with busy := true } ∧
      hostStep (.readBuf .t0 0) State.reset = .next State.reset := by
  refine ⟨rfl, by decide, by decide, by decide, by decide, by decide, rfl, rfl⟩

/-- The state of V-C2 under a floating-point `NUM`. -/
def pathsFloat : State := { paths2 with num := float }

theorem witness_FinitePrecisionAgreesWithTheReference :
    let s := pathsFloat
    let d := { s with npath := 1 }
    s.errcode = 0 ∧ s.sameReads paths2 (.chan .zero .one) ∧ paths2.num = .reference ∧
      s.inputsFinite twos (.chan .zero .one) ∧
      exec (.chan .zero .one) s = .next (after (exec (.chan .zero .one) s)) ∧
      (after (exec (.chan .zero .one) s)).errcode = 0 ∧
      (∀ j < 1, 0 < ({ d with pathDelay := [(0, 1)] }.delayAt j).toNat) ∧ (0 < (d.tlen .zero).toNat) ∧
      (d.npath = 1 ∧ (d.dopplerAt 0).value twos = 0 ∧ (d.delayAt 0).toNat ≤ 0 ∧ d.channelFinite twos .zero 0) ∧
      s.sameReads paths2 (.giIns .zero .one) :=
  ⟨rfl, ⟨rfl, rfl, rfl, rfl, ⟨rfl, by decide +kernel⟩, by decide +kernel⟩, rfl, by
    have h : ∀ k < 4, ∀ j < pathsFloat.npath.toNat, (pathsFloat.delayAt j).toNat ≤ k →
        pathsFloat.fs.isFinite = true ∧ (pathsFloat.gainAt j).isFinite = true ∧ (pathsFloat.dopplerAt j).isFinite = true ∧
          (pathsFloat.element .t0 (k - (pathsFloat.delayAt j).toNat)).isNumber = true := by decide +kernel
    exact fun k hk => channelFinite_of _ (h k hk), rfl, by decide +kernel, by decide, by decide,
    ⟨rfl, (NumR.isZero_iff _ _).1 (by decide +kernel), by decide, channelFinite_of _ (by decide +kernel)⟩,
    ⟨rfl, rfl, rfl, rfl, rfl, by decide +kernel⟩⟩

/-- The hypotheses of EveryStepKeepsTheInvariant, EveryStepKeepsNumbersCanonical and EveryAdmittedStepHasASuccessor, on a
state whose step runs a command that completes. -/
theorem witness_Invariant :
    (grid22 2).Inv ∧ (grid22 2).numbersCanonical ∧ ((grid22 2).withFetchWord 32 0x03).Inv ∧
      step ((grid22 2).withFetchWord 32 0x03) = exec (.mod .zero .zero) (grid22 2) ∧
      (HostAction.command 0x03).wellFormed (grid22 2).caps (grid22 2).num = true := by
  refine ⟨⟨rfl, by decide, by decide, by decide, by decide, fun _ => by decide⟩, by decide +kernel,
    ⟨rfl, by decide, by decide, by decide, by decide, fun _ => by decide⟩, rfl, by decide⟩

end Sys2Proof.Tests
end

/-! PROOFS. Every operation on numbers answers a canonical number for canonical operands (log entry 2), and so does every
command; hence every step keeps the stored numbers canonical. -/

namespace Sys2Proof

/-! ## The exact operations -/

@[simp] theorem Cyc.canonical_zero : Cyc.zero.canonical = true := rfl

@[simp] theorem Cyc.canonical_add (x y : Cyc) : (Cyc.add x y).canonical = true := canonicalTerms_normaliseTerms _

@[simp] theorem Cyc.canonical_scale (r : ℚ) (x : Cyc) : (Cyc.scale r x).canonical = true :=
  canonicalTerms_normaliseTerms _

@[simp] theorem Cyc.canonical_mul (x y : Cyc) : (Cyc.mul x y).canonical = true := canonicalTerms_normaliseTerms _

@[simp] theorem Cyc.canonical_div (x y : Cyc) : (Cyc.div x y).canonical = true := Cyc.canonical_mul _ _

@[simp] theorem Cyc.canonical_ph (x : ℚ) : (Cyc.ph x).canonical = true := canonicalTerms_normaliseTerms _

/-- The canonical form uses `ph(0) = 1` and `ph(1/4) = i`. -/
theorem inBasis_zero_and_quarter : inBasis 0 = true ∧ inBasis (1 / 4) = true := by decide +kernel

@[simp] theorem Cyc.canonical_one : Cyc.one.canonical = true := by
  simp [Cyc.one, Cyc.canonical, canonicalTerms, inBasis_zero_and_quarter.1]

@[simp] theorem Cyc.canonical_ofParts (re im : ℚ) : (Cyc.ofParts re im).canonical = true := by
  obtain ⟨h0, h4⟩ := inBasis_zero_and_quarter
  rw [one_div] at h4
  by_cases hre : re = 0
  · by_cases him : im = 0 <;> simp [Cyc.ofParts, Cyc.canonical, canonicalTerms, hre, him, h4]
  · by_cases him : im = 0 <;> simp [Cyc.ofParts, Cyc.canonical, canonicalTerms, hre, him, h0, h4]

/-! ## The operations on values of `K` -/

@[simp] theorem NumK.canonical_zero : NumK.zero.canonical = true := rfl

@[simp] theorem NumK.canonical_one : NumK.one.canonical = true := Cyc.canonical_one

@[simp] theorem NumK.canonical_ofParts (re im : NumR) : (NumK.ofParts re im).canonical = true := by
  unfold NumK.ofParts
  split
  · exact Cyc.canonical_ofParts _ _
  · rfl

@[simp] theorem NumK.canonical_ph (x : NumR) : (ph x).canonical = true := by
  unfold ph
  split
  · exact NumK.canonical_one
  · split
    · exact Cyc.canonical_ph _
    · rfl

theorem NumK.canonical_lift {op : Cyc → Cyc → Cyc} {other x y : NumK} (hop : ∀ a b, (op a b).canonical = true)
    (hother : other.canonical = true) : (NumK.lift op other x y).canonical = true := by
  unfold NumK.lift
  split
  · exact hop _ _
  · exact hother

section
variable {x y z : NumK} (hx : x.canonical = true) (hy : y.canonical = true) (hz : z.canonical = true)
include hx

theorem NumK.canonical_scale (r : NumR) : (NumK.scale r x).canonical = true := by
  unfold NumK.scale
  split
  · rfl
  · split
    · exact Cyc.canonical_scale _ _
    · exact hx

include hy

theorem NumK.canonical_add : (NumK.add x y).canonical = true := by
  refine NumK.canonical_lift Cyc.canonical_add ?_
  split
  · exact hy
  · split
    · exact hx
    · simp [NumK.canonical, hx, hy]

theorem NumK.canonical_mul : (NumK.mul x y).canonical = true := by
  refine NumK.canonical_lift Cyc.canonical_mul ?_
  split
  · rfl
  · split
    · exact hx
    · simp [NumK.canonical, hx, hy]

theorem NumK.canonical_div : (NumK.div x y).canonical = true := by
  refine NumK.canonical_lift Cyc.canonical_div ?_
  split
  · rfl
  · simp [NumK.canonical, hx, hy]

theorem NumK.canonical_unlessZero : (NumK.unlessZero x y).canonical = true := by
  unfold NumK.unlessZero
  split
  · split
    · rfl
    · exact hy
  · simp [NumK.canonical, hx, hy]

theorem Num.canonical_round (num : Num) (name : ℕ) : (num.round name x y).canonical = true := by
  cases num with
  | reference => exact hy
  | finite _ _ _ => simp [Num.round, NumK.canonical, hx, hy]

theorem Num.canonical_roundNonzero (num : Num) (name : ℕ) : (num.roundNonzero name x y).canonical = true := by
  cases num with
  | reference => exact hy
  | finite _ _ _ => exact NumK.canonical_unlessZero hy (by simp [NumK.canonical, hx, hy])

theorem Num.canonical_divide (num : Num) (name : ℕ) : (num.divide name x y).canonical = true := by
  unfold Num.divide
  split
  · simp [NumK.canonical, hx, hy]
  · exact NumK.canonical_div hx hy

include hz in
theorem NumK.canonical_choose : (NumK.choose x y z).canonical = true := by
  unfold NumK.choose
  split
  · exact hy
  · split
    · exact hz
    · exact hz
    · simp [NumK.canonical, hx, hy, hz]

end

theorem NumK.canonical_fix {x : NumK} (hx : x.canonical = true) : x.fix.canonical = true :=
  NumK.canonical_choose hx hx NumK.canonical_zero

/-! ## Lists of canonical numbers -/

/-- Every number of the list is in its canonical form. -/
abbrev AllCanonical (xs : List NumK) : Prop := ∀ x ∈ xs, x.canonical = true

theorem AllCanonical.getD {xs : List NumK} (h : AllCanonical xs) (k : ℕ) : (xs.getD k NumK.zero).canonical = true := by
  rcases Nat.lt_or_ge k xs.length with hk | hk
  · rw [List.getD_eq_getElem _ _ hk]
    exact h _ (List.getElem_mem hk)
  · rw [List.getD_eq_default _ _ hk]
    rfl

theorem allCanonical_replicate_zero (n : ℕ) : AllCanonical (List.replicate n NumK.zero) := fun x hx => by
  rw [List.eq_of_mem_replicate hx]
  rfl

theorem NumK.canonical_whenFinite {inputs : List NumK} {x y : NumK} (hi : AllCanonical inputs)
    (hx : x.canonical = true) (hy : y.canonical = true) : (NumK.whenFinite inputs x y).canonical = true := by
  induction inputs with
  | nil => exact hx
  | cons a inputs ih =>
    exact NumK.canonical_choose (hi a (by simp)) (ih fun b hb => hi b (by simp [hb])) hy

theorem NumK.canonical_largest {xs : List NumK} (h : AllCanonical xs) : (NumK.largest xs).canonical = true := by
  induction xs with
  | nil => rfl
  | cons a xs ih =>
    have hxs := ih fun b hb => h b (by simp [hb])
    exact Bool.and_eq_true_iff.2 ⟨h a (by simp), hxs⟩

theorem NumK.canonical_sum {xs : List NumK} (h : AllCanonical xs) : (NumK.sum xs).canonical = true := by
  have key : ∀ (xs : List NumK) (a : NumK), a.canonical = true → AllCanonical xs →
      (xs.foldl NumK.add a).canonical = true := by
    intro xs
    induction xs with
    | nil => exact fun a ha _ => ha
    | cons b xs ih =>
      exact fun a ha hb => ih _ (NumK.canonical_add ha (hb b (by simp))) fun c hc => hb c (by simp [hc])
  exact key xs _ rfl h

/-- The results of a stage are canonical where the numbers they are made of are. -/
theorem Num.allCanonical_results {num : Num} {stage : Stage} {words : List ℕ} {reals : List RVal} {numbers : List NumK}
    {isExact : ℕ → Bool} {results : List (List NumK × NumK)}
    (h : ∀ r ∈ results, AllCanonical r.1 ∧ r.2.canonical = true) :
    AllCanonical (num.results stage words reals numbers isExact results) := by
  intro x hx
  obtain ⟨k, hk, rfl⟩ := List.mem_mapIdx.1 hx
  obtain ⟨hin, hres⟩ := h _ (List.getElem_mem hk)
  refine NumK.canonical_whenFinite hin ?_ rfl
  split
  · exact hres
  · refine Num.canonical_round (NumK.canonical_largest fun y hy => ?_) hres _ _
    obtain ⟨r, hr, rfl⟩ := List.mem_map.1 hy
    exact NumK.canonical_whenFinite (h r hr).1 (h r hr).2 rfl

/-! ## Values the host supplies -/

theorem InputVal.canonical_normalise (x : InputVal) : x.normalise.canonical = true := by
  cases x with
  | number x =>
    cases x with
    | exact x => exact Cyc.canonical_normalise x
    | parts re im => rfl
  | special z => rfl

theorem InputVal.canonical_val {x : InputVal} (h : x.canonical = true) : x.val.canonical = true := by
  cases x with
  | number x =>
    cases x with
    | exact x => exact h
    | parts re im => exact NumK.canonical_ofParts re im
  | special z => rfl

theorem RVal.canonical_complex (x : RVal) : x.complex.canonical = true := by
  cases x with
  | real x => exact NumK.canonical_ofParts x _
  | special s => rfl

namespace Machine

/-! ## The guard codec and the transform pair -/

theorem allCanonical_giInsert {xs : List NumK} (h : AllCanonical xs) (g : ℕ) (md : GuardMode) :
    AllCanonical (giInsert xs g md) := by
  cases md with
  | none => exact h
  | zeroPad => exact List.forall_mem_append.2 ⟨h, allCanonical_replicate_zero g⟩
  | cyclicPrefix => exact List.forall_mem_append.2 ⟨fun x hx => h x (List.mem_of_mem_drop hx), h⟩

theorem allCanonical_giRemove {xs : List NumK} (h : AllCanonical xs) (g : ℕ) (md : GuardMode) :
    AllCanonical (giRemove xs g md) := by
  cases md with
  | none => exact h
  | zeroPad => exact fun x hx => h x (List.mem_of_mem_take hx)
  | cyclicPrefix => exact fun x hx => h x (List.mem_of_mem_drop hx)

theorem allCanonical_reconcile {xs : List NumK} (h : AllCanonical xs) (k : ℕ) : AllCanonical (reconcile xs k) :=
  List.forall_mem_append.2 ⟨fun x hx => h x (List.mem_of_mem_take hx), allCanonical_replicate_zero _⟩

/-- A sum of multiples by phases, as both transforms along an axis form. -/
theorem canonical_sum_mul_ph {xs : List NumK} (h : AllCanonical xs) (f : ℕ → NumR) :
    (NumK.sum (xs.mapIdx fun d v => NumK.mul v (ph (f d)))).canonical = true := by
  refine NumK.canonical_sum fun y hy => ?_
  obtain ⟨d, hd, rfl⟩ := List.mem_mapIdx.1 hy
  exact NumK.canonical_mul (h _ (List.getElem_mem hd)) (NumK.canonical_ph _)

theorem allCanonical_idft {xs : List NumK} (h : AllCanonical xs) : AllCanonical (idft xs) := by
  intro y hy
  obtain ⟨k, -, rfl⟩ := List.mem_map.1 hy
  exact NumK.canonical_scale (canonical_sum_mul_ph h _) _

theorem allCanonical_dft {xs : List NumK} (h : AllCanonical xs) : AllCanonical (dft xs) := by
  intro y hy
  obtain ⟨d, -, rfl⟩ := List.mem_map.1 hy
  exact canonical_sum_mul_ph h _

/-- Every number of the matrix is in its canonical form. -/
abbrev Grid.AllCanonical (y : Grid) : Prop := ∀ col ∈ y, Sys2Proof.AllCanonical col

theorem Grid.AllCanonical.transpose {y : Grid} (h : y.AllCanonical) (rows : ℕ) : (transpose rows y).AllCanonical := by
  intro col hcol x hx
  obtain ⟨d, -, rfl⟩ := List.mem_map.1 hcol
  obtain ⟨c, hc, rfl⟩ := List.mem_map.1 hx
  exact (h c hc).getD d

theorem Grid.AllCanonical.map {y : Grid} (h : y.AllCanonical) {f : List NumK → List NumK}
    (hf : ∀ xs, Sys2Proof.AllCanonical xs → Sys2Proof.AllCanonical (f xs)) : Grid.AllCanonical (List.map f y) := by
  intro col hcol
  obtain ⟨c, hc, rfl⟩ := List.mem_map.1 hcol
  exact hf c (h c hc)

theorem allCanonical_reshape {xs : List NumK} (h : AllCanonical xs) (m n : ℕ) : (reshape xs m n).AllCanonical := by
  intro col hcol x hx
  obtain ⟨l, -, rfl⟩ := List.mem_map.1 hcol
  obtain ⟨d, -, rfl⟩ := List.mem_map.1 hx
  exact h.getD _

theorem Grid.AllCanonical.flatten {y : Grid} (h : y.AllCanonical) : Sys2Proof.AllCanonical (flattenGrid y) := by
  intro x hx
  obtain ⟨col, hcol, hx⟩ := List.mem_flatten.1 hx
  exact h col hcol x hx

theorem allCanonical_modulate {xs : List NumK} (h : AllCanonical xs) (m n : ℕ) : AllCanonical (modulate xs m n) :=
  ((((allCanonical_reshape h m n).map fun _ => allCanonical_idft).transpose m).map
    fun _ => allCanonical_idft).transpose n |>.flatten

theorem allCanonical_demodulate {xs : List NumK} (h : AllCanonical xs) (m n : ℕ) :
    AllCanonical (demodulate xs m n) :=
  (((((allCanonical_reshape h m n).transpose m).map fun _ => allCanonical_dft).transpose n).map
    fun _ => allCanonical_dft).flatten

/-- A transform whose results are canonical, as `NUM` has its results. -/
theorem allCanonical_transformResults {f : List NumK → List NumK} {xs : List NumK} (h : AllCanonical xs)
    (hf : AllCanonical (f xs)) : ∀ r ∈ transformResults f xs, AllCanonical r.1 ∧ r.2.canonical = true := by
  intro r hr
  obtain ⟨x, hx, rfl⟩ := List.mem_map.1 hr
  exact ⟨h, hf x hx⟩

theorem allCanonical_modSamples {cells : List NumK} (h : AllCanonical cells) (num : Num) (m n : ℕ) :
    AllCanonical (modSamples num m n cells) :=
  Num.allCanonical_results (allCanonical_transformResults h (allCanonical_modulate h m n))

theorem allCanonical_demodCells {core : List NumK} (h : AllCanonical core) (num : Num) (m n : ℕ) :
    AllCanonical (demodCells num m n core) :=
  Num.allCanonical_results (allCanonical_transformResults h (allCanonical_demodulate h m n))

/-! ## The channel -/

theorem allCanonical_delayed {tx : List NumK} (h : AllCanonical tx) (tau : ℕ) : AllCanonical (delayed tx tau) :=
  List.forall_mem_append.2 ⟨allCanonical_replicate_zero _, fun x hx => h x (List.mem_of_mem_take hx)⟩

theorem allCanonical_pathContribution {tx : List NumK} (h : AllCanonical tx) (fs : NumR) (p : Path) :
    AllCanonical (pathContribution tx fs p) := by
  intro x hx
  obtain ⟨k, hk, rfl⟩ := List.mem_mapIdx.1 hx
  exact NumK.canonical_mul (NumK.canonical_scale (allCanonical_delayed h _ _ (List.getElem_mem hk)) _)
    (NumK.canonical_ph _)

theorem allCanonical_zipWith_add {xs ys : List NumK} (hx : AllCanonical xs) (hy : AllCanonical ys) :
    AllCanonical (List.zipWith NumK.add xs ys) := by
  intro z hz
  obtain ⟨k, hk, rfl⟩ := List.mem_iff_getElem.1 hz
  rw [List.getElem_zipWith]
  exact NumK.canonical_add (hx _ (List.getElem_mem _)) (hy _ (List.getElem_mem _))

theorem allCanonical_applyChannel {tx : List NumK} (h : AllCanonical tx) (fs : NumR) (paths : List Path) :
    AllCanonical (applyChannel tx fs paths) := by
  have key : ∀ (ps : List Path) (rx : List NumK), AllCanonical rx →
      AllCanonical (ps.foldl (fun rx p => List.zipWith NumK.add rx (pathContribution tx fs p)) rx) := by
    intro ps
    induction ps with
    | nil => exact fun _ hrx => hrx
    | cons p ps ih => exact fun rx hrx => ih _ (allCanonical_zipWith_add hrx (allCanonical_pathContribution h fs p))
  exact key paths _ (allCanonical_replicate_zero _)

theorem allCanonical_channelInputs {tx : List NumK} (h : AllCanonical tx) (fs : RVal) (paths : List PathEntry)
    (k : ℕ) : AllCanonical (channelInputs tx fs paths k) := by
  intro x hx
  obtain ⟨p, -, hx⟩ := List.mem_flatMap.1 hx
  simp only [List.mem_cons, List.not_mem_nil, or_false] at hx
  rcases hx with rfl | rfl | rfl | rfl
  · exact RVal.canonical_complex _
  · exact RVal.canonical_complex _
  · exact RVal.canonical_complex _
  · exact h.getD _

theorem allCanonical_chanSamples {tx : List NumK} (h : AllCanonical tx) (num : Num) (fs : RVal)
    (paths : List PathEntry) : AllCanonical (chanSamples num tx fs paths) := by
  refine Num.allCanonical_results fun r hr => ?_
  obtain ⟨k, hk, rfl⟩ := List.mem_mapIdx.1 hr
  exact ⟨allCanonical_channelInputs h fs paths k, allCanonical_applyChannel h _ _ _ (List.getElem_mem hk)⟩

/-! ## The estimator -/

/-- The received cells and the pilot values are in their canonical form. -/
abbrev Received.AllCanonical (rs : Received) : Prop := ∀ r ∈ rs, r.1.value.canonical = true ∧ r.2.canonical = true

theorem allCanonical_pilotRatios {rs : Received} (h : rs.AllCanonical) (num : Num) :
    AllCanonical (pilotRatios num rs) := by
  intro x hx
  obtain ⟨j, hj, rfl⟩ := List.mem_mapIdx.1 hx
  obtain ⟨hp, hc⟩ := h _ (List.getElem_mem hj)
  have hv := InputVal.canonical_val hp
  exact NumK.canonical_choose hv (NumK.canonical_choose hc (Num.canonical_divide hc hv num _) rfl) rfl

theorem canonical_estimateSize {hs : List NumK} (h : AllCanonical hs) : (estimateSize hs).canonical = true := by
  refine NumK.canonical_largest fun x hx => ?_
  obtain ⟨y, hy, rfl⟩ := List.mem_map.1 hx
  exact NumK.canonical_fix (h y hy)

theorem allCanonical_perPilotEstimate {rs : Received} (h : rs.AllCanonical) (num : Num) :
    AllCanonical (perPilotEstimate num rs) := by
  have hs := allCanonical_pilotRatios h num
  intro x hx
  obtain ⟨j, hj, rfl⟩ := List.mem_mapIdx.1 hx
  have hx := hs _ (List.getElem_mem hj)
  exact NumK.canonical_choose hx (Num.canonical_roundNonzero (canonical_estimateSize hs) hx num _) hx

theorem canonical_triValue {hs : List NumK} (h : AllCanonical hs) (pts : List Point) (t : Tri) (q : Point) :
    (triValue pts hs t q).canonical = true :=
  NumK.canonical_add (NumK.canonical_add (NumK.canonical_scale (h.getD _) _) (NumK.canonical_scale (h.getD _) _))
    (NumK.canonical_scale (h.getD _) _)

theorem canonical_interp {hs : List NumK} (h : AllCanonical hs) (pts : List Point) (tri : List Tri) (q : Point) :
    (interp pts hs tri q).canonical = true := by
  unfold interp
  split
  · exact canonical_triValue h pts _ q
  · rfl

theorem allCanonical_usedEstimates {hs : List NumK} (h : AllCanonical hs) (pts : List Point) (t : Tri) (q : Point) :
    AllCanonical (t.usedEstimates pts hs q) := by
  intro x hx
  obtain ⟨w, -, rfl⟩ := List.mem_map.1 hx
  exact h.getD _

theorem canonical_interpVal {rs : Received} (h : rs.AllCanonical) (num : Num) (pts : List Point) (tri : List Tri)
    (q : Point) : (interpVal num rs pts tri q).canonical = true := by
  have hs := allCanonical_pilotRatios h num
  unfold interpVal
  split
  · exact NumK.canonical_whenFinite (allCanonical_usedEstimates hs pts _ q)
      (Num.canonical_round (canonical_estimateSize hs) (canonical_interp hs pts tri q) num _) rfl
  · rfl

theorem allCanonical_fullGridEstimate {rs : Received} (h : rs.AllCanonical) (num : Num) (m n : ℕ) :
    AllCanonical (fullGridEstimate num rs m n) := by
  intro x hx
  obtain ⟨k, -, rfl⟩ := List.mem_map.1 hx
  refine NumK.canonical_fix ?_
  split
  · exact (allCanonical_perPilotEstimate h num).getD _
  · exact canonical_interpVal h num _ _ _

/-! ## Memories and states -/

theorem Mem.numbersCanonical_writeFrom {mem : Mem NumK} (h : mem.numbersCanonical) {vs : List NumK}
    (hv : AllCanonical vs) (i : ℕ) : (mem.writeFrom i vs).numbersCanonical := fun _ hx =>
  (Mem.mem_writeFrom hx).elim (hv _) (h _)

theorem Mem.mem_of_read {α : Type} {mem : Mem α} {i : ℕ} {v : α} (h : mem.read i = some v) : (i, v) ∈ mem := by
  induction mem with
  | nil => cases h
  | cons x mem ih =>
    rw [Mem.read_cons] at h
    split at h
    · rename_i hi
      cases h
      exact List.mem_cons.2 (.inl (by rw [← hi]))
    · exact List.mem_cons_of_mem _ (ih h)

/-- The numbers of a state are canonical: those of the PILOT table and those of each buffer. -/
theorem State.numbersCanonical_iff (s : State) :
    s.numbersCanonical ↔ (∀ x ∈ s.pilotPval, x.2.canonical = true) ∧ ∀ b, (s.buf b).numbersCanonical := by
  constructor
  · rintro ⟨hp, h0, h1, h2, h3, h4, h5⟩
    exact ⟨hp, fun b => by cases b <;> assumption⟩
  · rintro ⟨hp, hb⟩
    exact ⟨hp, hb .g0, hb .g1, hb .t0, hb .t1, hb .hp, hb .hg⟩

/-- What leaves the PILOT table and the buffers as they are keeps the numbers canonical. -/
theorem State.numbersCanonical_congr {s t : State} (h : s.numbersCanonical) (hp : t.pilotPval = s.pilotPval)
    (hb : ∀ b, t.buf b = s.buf b) : t.numbersCanonical := by
  rw [State.numbersCanonical_iff] at h ⊢
  simpa only [hp, hb] using h

/-- Another memory of canonical numbers in a buffer. -/
theorem State.numbersCanonical_setBuf {s : State} (h : s.numbersCanonical) (b : Buf) {mem : Mem NumK}
    (hm : mem.numbersCanonical) : (s.setBuf b mem).numbersCanonical := by
  rw [State.numbersCanonical_iff] at h ⊢
  refine ⟨by simpa using h.1, fun c => ?_⟩
  rw [State.buf_setBuf]
  split
  · exact hm
  · exact h.2 c

theorem State.numbersCanonical_storeElements {s : State} (h : s.numbersCanonical) (b : Buf) {vs : List NumK}
    (hv : AllCanonical vs) : (s.storeElements b vs).numbersCanonical :=
  State.numbersCanonical_setBuf h b
    (Mem.numbersCanonical_writeFrom (((State.numbersCanonical_iff s).1 h).2 b) hv 0)

theorem State.numbersCanonical_storeSeq {s : State} (h : s.numbersCanonical) (sel : Sel) {vs : List NumK}
    (hv : AllCanonical vs) : (s.storeSeq sel vs).numbersCanonical :=
  State.numbersCanonical_congr (State.numbersCanonical_storeElements h (tBuf sel) hv)
    (by simp [State.storeSeq]) (by simp [State.storeSeq])

/-- Every element reads as a canonical number, written or not. -/
theorem State.canonical_element {s : State} (h : s.numbersCanonical) (b : Buf) (i : ℕ) :
    (s.element b i).canonical = true := by
  unfold State.element
  split
  · rename_i v hv
    exact ((State.numbersCanonical_iff s).1 h).2 b _ (Mem.mem_of_read hv)
  · exact InputVal.canonical_val (InputVal.canonical_normalise _)

theorem State.canonical_pvalAt {s : State} (h : s.numbersCanonical) (j : ℕ) : (s.pvalAt j).canonical = true := by
  unfold State.pvalAt
  split
  · rename_i v hv
    exact h.1 _ (Mem.mem_of_read hv)
  · exact InputVal.canonical_normalise _

theorem State.allCanonical_seq {s : State} (h : s.numbersCanonical) (sel : Sel) : AllCanonical (s.seq sel) := by
  intro x hx
  obtain ⟨k, -, rfl⟩ := List.mem_map.1 hx
  exact State.canonical_element h _ _

theorem State.allCanonical_grid {s : State} (h : s.numbersCanonical) (sel : Sel) (m n : ℕ) :
    AllCanonical (s.grid sel m n) := by
  intro x hx
  obtain ⟨k, -, rfl⟩ := List.mem_map.1 hx
  exact State.canonical_element h _ _

theorem State.allCanonical_received {s : State} (h : s.numbersCanonical) (src : Sel) : (s.received src).AllCanonical := by
  intro r hr
  obtain ⟨p, hp, rfl⟩ := List.mem_map.1 hr
  obtain ⟨j, -, rfl⟩ := List.mem_map.1 hp
  exact ⟨State.canonical_pvalAt h j, State.canonical_element h _ _⟩

/-! ## Commands and steps -/

/-- The effect of every command keeps the stored numbers canonical. -/
theorem commandEffect_numbersCanonical (i : Instr) {s : State} (h : s.numbersCanonical) :
    ((commandParts i).2.2 s).numbersCanonical := by
  cases i with
  | nop => exact h
  | giIns src dst =>
    exact State.numbersCanonical_storeSeq h dst (allCanonical_giInsert (State.allCanonical_seq h src) _ _)
  | giRem src dst =>
    exact State.numbersCanonical_storeSeq h dst (allCanonical_giRemove (State.allCanonical_seq h src) _ _)
  | mod src dst =>
    exact State.numbersCanonical_storeSeq h dst
      (allCanonical_giInsert (allCanonical_modSamples (State.allCanonical_grid h src _ _) _ _ _) _ _)
  | demod src dst =>
    exact State.numbersCanonical_storeElements h (gBuf dst) (allCanonical_demodCells
      (allCanonical_reconcile (allCanonical_giRemove (State.allCanonical_seq h src) _ _) _) _ _ _)
  | chan src dst =>
    exact State.numbersCanonical_storeSeq h dst (allCanonical_chanSamples (State.allCanonical_seq h src) _ _ _)
  | est src =>
    have hr := State.allCanonical_received h src
    have hhp := State.numbersCanonical_storeElements h .hp (allCanonical_perPilotEstimate hr s.num)
    exact State.numbersCanonical_storeElements
      (State.numbersCanonical_congr (t := State.setHplen _ s.npilot) hhp (by simp) (by simp)) .hg
      (allCanonical_fullGridEstimate hr s.num _ _)

/-- A command keeps the stored numbers canonical if its effect does: the rest of the frame stores no number. -/
theorem commandState_numbersCanonical {w : Word} {check : State → Option CmdError} {effect : State → State}
    (he : ∀ t : State, t.numbersCanonical → (effect t).numbersCanonical) {s : State} (h : s.numbersCanonical) :
    (commandState w check effect s).numbersCanonical := by
  have ha : s.accept.numbersCanonical := h
  rcases commandState_cases w check effect s with ⟨-, e⟩ | ⟨err, -, -, e⟩ | ⟨-, -, e⟩
  · rwa [e]
  · rw [e]; exact h
  · rw [e]; exact he _ ha

theorem writeCmd_numbersCanonical {w : Word} {s s' : State} (h : s.numbersCanonical) (hw : writeCmd w s = .next s') :
    s'.numbersCanonical := by
  rcases writeCmd_cases w s with ⟨i, -, e⟩ | ⟨err, -, e⟩
  · rw [e, exec_eq] at hw
    cases hw
    exact commandState_numbersCanonical (fun t => commandEffect_numbersCanonical i) h
  · rw [e] at hw
    cases hw
    exact commandState_numbersCanonical (fun _ ht => ht) h

theorem State.writeReg_numbersCanonical {s : State} (h : s.numbersCanonical) (no : ℕ) (w : Word) :
    (s.writeReg no w).numbersCanonical := by
  unfold State.writeReg
  split <;> exact h

theorem State.writePilot_numbersCanonical {s : State} (h : s.numbersCanonical) (j : ℕ) (x : PilotValue) :
    (s.writePilot j x).numbersCanonical := by
  cases x with
  | didx _ => exact h
  | lidx _ => exact h
  | pval x =>
    refine ⟨fun y hy => ?_, h.2⟩
    rcases Mem.mem_write hy with rfl | hy
    · exact InputVal.canonical_normalise x
    · exact h.1 y hy

theorem State.writeBuf_numbersCanonical {s : State} (h : s.numbersCanonical) (b : Buf) (i : ℕ) (x : InputVal) :
    (s.writeBuf b i x).numbersCanonical := by
  refine State.numbersCanonical_setBuf h b fun y hy => ?_
  rcases Mem.mem_write hy with rfl | hy
  · exact InputVal.canonical_val (InputVal.canonical_normalise x)
  · exact ((State.numbersCanonical_iff s).1 h).2 b y hy

/-- Every access of the host keeps the stored numbers canonical. -/
theorem performAccess_numbersCanonical {a : HostAction} {s s' : State} (h : s.numbersCanonical)
    (ha : performAccess a s = .next s') : s'.numbersCanonical := by
  cases a with
  | writeReg no x =>
    cases x with
    | u32 w =>
      simp only [performAccess] at ha
      split at ha
      · exact writeCmd_numbersCanonical h ha
      · cases ha
        exact State.writeReg_numbersCanonical h no w
    | real r => cases ha; exact h
  | readReg _ => cases ha; exact h
  | writePath j x => cases ha; cases x <;> exact h
  | readPath _ _ => cases ha; exact h
  | writePilot j x => cases ha; exact State.writePilot_numbersCanonical h j x
  | readPilot _ _ => cases ha; exact h
  | writeBuf b i x => cases ha; exact State.writeBuf_numbersCanonical h b i x
  | readBuf _ _ => cases ha; exact h
  | reset => cases ha; simp [State.doReset, State.reset, State.numbersCanonical, Mem.numbersCanonical]

/-- Settles O57: every operation answers a canonical number, and the host's values are stored in canonical form. -/
theorem everyStepKeepsNumbersCanonical : Obligations.EveryStepKeepsNumbersCanonical := by
  intro s s' h hs
  rcases step_next hs with ⟨-, rfl⟩ | ⟨a, rest, -, ha⟩
  · exact h
  · obtain ⟨-, -, -, hp⟩ := hostStep_next ha
    exact performAccess_numbersCanonical (s := { s with host := rest }) h hp

end Machine

end Sys2Proof

/-! PROOFS. The operations on the model's numbers are those of the reference (00_scope.md R11): what they answer as real and
complex numbers, that finite operands give finite results (R13), and that every real and every complex number has a name
(R10, log entry 1). -/

namespace Sys2Proof

/-! ## Values -/

theorem NumK.value_sub (v : Valuation) (x y : NumK) : (NumK.sub x y).value v = x.value v - y.value v := by
  rw [NumK.sub, NumK.value_add, NumK.neg, NumK.value_scale, NumR.value_ofRat]
  push_cast
  ring

theorem NumK.value_div {v : Valuation} {x y : NumK} (h : y.value v ≠ 0) :
    (NumK.div x y).value v = x.value v / y.value v := by
  refine NumK.value_lift v (· / ·) (fun a b _ hb => Cyc.value_div ?_) ?_
  · rwa [hb] at h
  · split
    · rename_i hx
      simp [hx]
    · rfl

theorem NumK.value_ofReal (v : Valuation) (r : NumR) : (NumK.ofReal r).value v = (r.value v : ℂ) := by
  simp [NumK.ofReal, NumK.value_ofParts, partsValue, NumR.value_ofRat]

/-- A pair of reals is 0 exactly when both parts are. -/
theorem partsValue_eq_zero_iff (v : Valuation) (re im : NumR) :
    partsValue v re im = 0 ↔ re.value v = 0 ∧ im.value v = 0 := by
  simp [partsValue, Complex.ext_iff]

theorem InputK.isZero_iff (v : Valuation) (x : InputK) : x.isZero = true ↔ x.value v = 0 := by
  cases x with
  | exact x => exact Cyc.isZero_iff x
  | parts re im =>
    have e : (InputK.parts re im).isZero = (re.isZero && im.isZero) := rfl
    rw [e, Bool.and_eq_true, NumR.isZero_iff v, NumR.isZero_iff v]
    exact (partsValue_eq_zero_iff v re im).symm

theorem InputVal.isZero_iff (v : Valuation) (x : InputVal) : x.isZero = true ↔ x.zero v := by
  cases x with
  | number x => exact (InputK.isZero_iff v x).trans (and_iff_right rfl).symm
  | special z => simp [InputVal.isZero, InputVal.zero, InputVal.isFinite]

/-! ## Finite results -/

theorem InputVal.finite_val_iff (v : Valuation) (x : InputVal) : x.val.finite v ↔ x.isFinite = true := by
  cases x with
  | number x => exact iff_of_true (NumK.finite_of_isNumber (by rw [InputVal.isNumber_val]; rfl)) rfl
  | special z => exact iff_of_false (NumK.not_finite_special v z) (by simp [InputVal.isFinite])

theorem RVal.exists_real_of_isFinite {x : RVal} (h : x.isFinite = true) : ∃ r, x = .real r := by
  cases x with
  | real r => exact ⟨r, rfl⟩
  | special s => cases h

theorem RVal.finite_complex (v : Valuation) {x : RVal} (h : x.isFinite = true) : x.complex.finite v := by
  cases x with
  | real x => exact NumK.finite_of_isNumber (InputVal.isNumber_val (.number (.parts x (NumR.ofRat 0))))
  | special s => cases h

theorem NumK.finite_lift {v : Valuation} {op : Cyc → Cyc → Cyc} {other x y : NumK} (h : other.finite v) :
    (NumK.lift op other x y).finite v := by
  unfold NumK.lift
  split
  · trivial
  · exact h

theorem NumK.finite_scale {v : Valuation} (r : NumR) (x : NumK) : (NumK.scale r x).finite v := by
  unfold NumK.scale
  split
  · trivial
  · split <;> trivial

theorem NumK.finite_add {v : Valuation} {x y : NumK} (hx : x.finite v) (hy : y.finite v) :
    (NumK.add x y).finite v := by
  refine NumK.finite_lift ?_
  split
  · exact hy
  · split
    · exact hx
    · trivial

theorem NumK.finite_mul {v : Valuation} {x y : NumK} (hx : x.finite v) : (NumK.mul x y).finite v := by
  refine NumK.finite_lift ?_
  split
  · trivial
  · split
    · exact hx
    · trivial

theorem NumK.finite_div {v : Valuation} (x y : NumK) : (NumK.div x y).finite v := by
  refine NumK.finite_lift ?_
  split <;> trivial

/-! ## Every number is one of the model's -/

/-- The names that stand for the magnitudes of a family of reals. -/
noncomputable def Valuation.ofMagnitudes (r : ℕ → ℝ) : Valuation :=
  Valuation.ofReals (fun k => if r k = 0 then 1 else |r k|) fun k => by
    split
    · exact one_pos
    · rename_i h
      exact abs_pos.2 h

/-- Number `k` of the family: its sign times the name of its magnitude. -/
noncomputable def NumR.ofFamily (r : ℕ → ℝ) (k : ℕ) : NumR := ⟨(SignType.sign (r k) : ℤ), [(k, 1)]⟩

theorem NumR.value_ofFamily (r : ℕ → ℝ) (k : ℕ) : (NumR.ofFamily r k).value (Valuation.ofMagnitudes r) = r k := by
  have e : (NumR.ofFamily r k).value (Valuation.ofMagnitudes r) =
      (((SignType.sign (r k) : ℤ) : ℚ) : ℝ) * (if r k = 0 then 1 else |r k|) := by
    simp [NumR.value_eq, NumR.ofFamily, Valuation.ofMagnitudes, Valuation.ofReals]
  rw [e]
  rcases lt_trichotomy (r k) 0 with h | h | h
  · simp [h, h.ne, abs_of_neg]
  · simp [h]
  · simp [h, h.ne', abs_of_pos]

theorem exists_reals (r : ℕ → ℝ) : ∃ (v : Valuation) (x : ℕ → NumR), ∀ k, (x k).value v = r k :=
  ⟨Valuation.ofMagnitudes r, NumR.ofFamily r, NumR.value_ofFamily r⟩

/-- The real parts take the even names, the imaginary parts the odd ones. -/
theorem exists_complexes (z : ℕ → ℂ) : ∃ (v : Valuation) (x : ℕ → InputK), ∀ k, (x k).value v = z k := by
  obtain ⟨v, x, hx⟩ := exists_reals fun k => if k % 2 = 0 then (z (k / 2)).re else (z (k / 2)).im
  refine ⟨v, fun k => .parts (x (2 * k)) (x (2 * k + 1)), fun k => ?_⟩
  have hre : (x (2 * k)).value v = (z k).re := by simp [hx]
  have him : (x (2 * k + 1)).value v = (z k).im := by simp [hx, Nat.add_mod, show (2 * k + 1) / 2 = k by omega]
  show partsValue v _ _ = z k
  rw [partsValue, hre, him, mul_comm]
  exact Complex.re_add_im (z k)

/-- Settles O46: each operation by the lemma that says its value. -/
theorem operationsAreTheReferenceOperations : Obligations.OperationsAreTheReferenceOperations := by
  classical
  refine ⟨fun v x y => ⟨NumK.value_add v x y, NumK.value_sub v x y, NumK.value_mul v x y, NumK.value_div⟩,
    fun v r x => ⟨NumK.value_scale v r x, NumK.value_ofReal v r⟩,
    fun v a b => ⟨NumR.value_mul v a b, fun _ => NumR.value_div v a b, NumK.value_ofParts v a b,
      NumR.isPositive_iff v a, NumR.isNonneg_iff v a⟩,
    NumR.value_ofRat, fun v => ⟨NumK.value_zero v, NumK.value_one v⟩,
    fun v x => ⟨InputVal.value_val v x, InputVal.finite_val_iff v x, InputVal.isZero_iff v x⟩,
    fun v r x y hx hy => ⟨NumK.finite_add hx hy, NumK.finite_add hx (NumK.finite_scale _ y), NumK.finite_mul hx,
      NumK.finite_div x y, NumK.finite_scale r x⟩,
    fun v x => ⟨fun h => ?_, fun h => ?_, NumK.finite_of_isNumber⟩, exists_reals, exists_complexes⟩
  · rw [NumK.meaning_fix, if_pos h]
  · rw [NumK.meaning_fix, if_neg h]

end Sys2Proof

/-! PROOFS. The laws of the phase primitive (00_scope.md R12), proved of the reference's `exp(i*2*pi*x)`, which the primitive
stands for at every real. -/

namespace Sys2Proof

theorem value_ph (v : Valuation) (x : NumR) : (ph x).value v = phase (x.value v) := by
  unfold ph
  split
  · rename_i h
    rw [NumK.value_one, (NumR.isZero_iff v x).1 h, phase_zero]
  · split
    · rename_i hp
      simp [NumK.value_exact, Cyc.ph, Cyc.value, termsValue_normaliseTerms, Term.value, NumR.value_eq, hp]
    · rfl

/-- The argument as a real multiple of `i`. -/
theorem phase_eq_exp_mul_I (x : ℝ) : phase x = Complex.exp ((2 * Real.pi * x : ℝ) * Complex.I) := by
  rw [phase]
  push_cast
  ring_nf

theorem norm_phase (x : ℝ) : ‖phase x‖ = 1 := by
  rw [phase_eq_exp_mul_I, Complex.norm_exp_ofReal_mul_I]

theorem phase_half : phase (1 / 2) = -1 := by
  have e : ((2 * Real.pi * (1 / 2) : ℝ) : ℂ) * Complex.I = Real.pi * Complex.I := by
    push_cast
    ring
  rw [phase_eq_exp_mul_I, e, Complex.exp_pi_mul_I]

theorem phase_quarter : phase (1 / 4) = Complex.I := by
  have e : ((2 * Real.pi * (1 / 4) : ℝ) : ℂ) * Complex.I = Real.pi / 2 * Complex.I := by
    push_cast
    ring
  rw [phase_eq_exp_mul_I, e, Complex.exp_pi_div_two_mul_I]

theorem phase_three_quarters : phase (3 / 4) = -Complex.I := by
  rw [show (3 / 4 : ℝ) = 1 / 2 + 1 / 4 by norm_num, phase_add, phase_half, phase_quarter, neg_one_mul]

theorem phase_neg (x : ℝ) : phase (-x) = (starRingEnd ℂ) (phase x) := by
  rw [phase_eq_exp_mul_I, phase_eq_exp_mul_I, ← Complex.exp_conj, map_mul, Complex.conj_I, Complex.conj_ofReal]
  push_cast
  ring_nf

/-- The phase is 1 at the integers alone. -/
theorem phase_eq_one_iff (x : ℝ) : phase x = 1 ↔ ∃ n : ℤ, x = n := by
  constructor
  · intro h
    obtain ⟨n, hn⟩ := Complex.exp_eq_one_iff.1 h
    refine ⟨n, ?_⟩
    have hx : (x : ℂ) = n := mul_left_cancel₀ Complex.two_pi_I_ne_zero (by rw [hn, mul_comm])
    exact_mod_cast hx
  · rintro ⟨n, rfl⟩
    exact phase_intCast n

theorem ratPhase_div_eq_one_iff {n : ℕ} (hn : n ≠ 0) (a : ℤ) : ratPhase (a / n) = 1 ↔ (n : ℤ) ∣ a := by
  have hn' : (n : ℝ) ≠ 0 := by exact_mod_cast hn
  rw [ratPhase, phase_eq_one_iff]
  refine exists_congr fun m => ?_
  push_cast
  rw [div_eq_iff hn', mul_comm]
  exact_mod_cast Iff.rfl

/-- The sum of `ph(a*k/n)` over a period (00_scope.md R12): a geometric sum, whose base is 1 exactly when `n` divides `a`. -/
theorem sum_ratPhase_period {n : ℕ} (hn : n ≠ 0) (a : ℤ) :
    ∑ k ∈ Finset.range n, ratPhase ((a : ℚ) * k / n) = if (n : ℤ) ∣ a then (n : ℂ) else 0 := by
  have hpow : ∀ k : ℕ, ratPhase ((a : ℚ) * k / n) = ratPhase (a / n) ^ k := fun k => by
    rw [← ratPhase_natCast_mul]
    congr 1
    ring
  have hn' : (n : ℚ) ≠ 0 := by exact_mod_cast hn
  simp only [hpow]
  split
  · rename_i hd
    simp [(ratPhase_div_eq_one_iff hn a).2 hd]
  · rename_i hd
    have hne : ratPhase (a / n) - 1 ≠ 0 := sub_ne_zero.2 fun h => hd ((ratPhase_div_eq_one_iff hn a).1 h)
    have hone : ratPhase (a / n) ^ n = 1 := by
      rw [← ratPhase_natCast_mul, mul_div_cancel₀ _ hn', ratPhase_intCast]
    refine (mul_eq_zero.1 ?_).resolve_right hne
    rw [geom_sum_mul, hone, sub_self]

/-- Settles O47: `ph` stands for the reference's phase, which satisfies each law. -/
theorem phasePrimitiveLaws : Obligations.PhasePrimitiveLaws := by
  intro v
  simp only [value_ph]
  refine ⟨fun _ => rfl, fun x h => by rw [h, phase_zero], fun x y z h => by rw [h, phase_add],
    fun x n h => by rw [h, phase_intCast], fun x => norm_phase _, fun x h => by rw [h, phase_quarter],
    fun x h => by rw [h, phase_half], fun x h => by rw [h, phase_three_quarters],
    fun x y h => by rw [h, phase_neg], fun n a hn => ?_⟩
  simp only [NumR.value_ofRat]
  exact sum_ratPhase_period (by omega) a

end Sys2Proof

/-! PROOFS. The canonical form decides equality of numbers (log entry 2): it keeps the value, it is canonical, and canonical
numbers of one value are one datum. -/

namespace Sys2Proof

/-- A canonical number is its own canonical form. -/
theorem Cyc.normalise_of_canonical {x : Cyc} (h : x.canonical = true) : x.normalise = x :=
  Cyc.eq_of_value_eq (Cyc.canonical_normalise x) h (Cyc.value_normalise x)

theorem Cyc.normalise_eq_iff (x y : Cyc) : x.normalise = y.normalise ↔ x.value = y.value := by
  constructor
  · intro h
    rw [← Cyc.value_normalise x, h, Cyc.value_normalise]
  · intro h
    refine Cyc.eq_of_value_eq (Cyc.canonical_normalise x) (Cyc.canonical_normalise y) ?_
    rw [Cyc.value_normalise, Cyc.value_normalise, h]

theorem NumK.canonical_normalise (x : NumK) : x.normalise.canonical = true := by
  induction x with
  | exact x => exact Cyc.canonical_normalise x
  | _ => simp_all [NumK.normalise, NumK.canonical]

theorem NumK.normalise_of_canonical {x : NumK} (h : x.canonical = true) : x.normalise = x := by
  induction x with
  | exact x => exact congrArg NumK.exact (Cyc.normalise_of_canonical h)
  | _ => simp_all [NumK.normalise, NumK.canonical]

/-- Settles O48: both forms have one value, and canonical numbers of one value are equal. -/
theorem canonicalFormsDecideEquality : Obligations.CanonicalFormsDecideEquality :=
  ⟨fun x y => ⟨Cyc.normalise_eq_iff x y, Cyc.canonical_normalise x, Cyc.normalise_of_canonical⟩,
    fun x => ⟨NumK.canonical_normalise x, NumK.normalise_of_canonical, fun v => NumK.value_normalise v x⟩⟩

end Sys2Proof

/-! PROOFS. Agreement within the tolerance of `NUM` (00_scope.md R14; log entry 13), said of lists of results, and the results
of a stage: each is within the tolerance, relative to the largest of them, of the reference's. -/

namespace Sys2Proof

/-! ## Agreement of lists -/

theorem Num.tolerance_nonneg (num : Num) : (0 : ℝ) ≤ num.tolerance := by
  cases num with
  | reference => simp [Num.tolerance]
  | finite _ tol _ => exact_mod_cast le_max_left 0 tol

/-- `y` agrees with `x` within the tolerance, relative to one of the values `ref`. -/
def Num.AgreesIn (num : Num) (v : Valuation) (ref : List NumK) (y x : NumK) : Prop :=
  ∃ z ∈ ref, ‖y.value v - x.value v‖ ≤ (num.tolerance : ℝ) * ‖z.value v‖

/-- The values `ys` agree one by one with the reference values `xs`. -/
def Num.ListsAgree (num : Num) (v : Valuation) (ys xs : List NumK) : Prop :=
  List.Forall₂ (num.AgreesIn v xs) ys xs

section
variable {num : Num} {v : Valuation}

theorem Num.AgreesIn.mono {ref ref' : List NumK} (hsub : ref ⊆ ref') {y x : NumK} (h : num.AgreesIn v ref y x) :
    num.AgreesIn v ref' y x := by
  obtain ⟨z, hz, hle⟩ := h
  exact ⟨z, hsub hz, hle⟩

/-- Equal values agree. -/
theorem Num.agreesIn_of_value_eq {ref : List NumK} {y x : NumK} (hx : x ∈ ref) (h : y.value v = x.value v) :
    num.AgreesIn v ref y x := by
  refine ⟨x, hx, ?_⟩
  rw [h, sub_self, norm_zero]
  exact mul_nonneg num.tolerance_nonneg (norm_nonneg _)

/-- An error relative to a magnitude that is 0 or that of a reference value is within the tolerance. -/
theorem Num.agreesIn_of_size {ref : List NumK} {y x size : NumK} (hx : x ∈ ref)
    (hle : ‖y.value v - x.value v‖ ≤ (num.tolerance : ℝ) * ‖size.value v‖)
    (hsize : size.value v = 0 ∨ ∃ z ∈ ref, size.value v = z.value v) : num.AgreesIn v ref y x := by
  rcases hsize with h0 | ⟨z, hz, e⟩
  · rw [h0, norm_zero, mul_zero] at hle
    exact Num.agreesIn_of_value_eq hx (sub_eq_zero.1 (norm_le_zero_iff.1 hle))
  · exact ⟨z, hz, by rwa [e] at hle⟩

theorem Num.listsAgree_refl (xs : List NumK) : num.ListsAgree v xs xs :=
  List.forall₂_same.2 fun _ hx => Num.agreesIn_of_value_eq hx rfl

theorem Num.listsAgree_of_getElem {ys xs : List NumK} (hlen : ys.length = xs.length)
    (h : ∀ k (hy : k < ys.length) (hx : k < xs.length), num.AgreesIn v xs ys[k] xs[k]) : num.ListsAgree v ys xs :=
  List.forall₂_iff_get.2 ⟨hlen, fun k hy hx => h k hy hx⟩

theorem Num.agree_congr {n : ℕ} {y x y' x' : ℕ → ℂ} (hy : ∀ k < n, y' k = y k) (hx : ∀ k < n, x' k = x k)
    (h : num.agree n y x) : num.agree n y' x' := by
  intro k hk
  obtain ⟨j, hj, hle⟩ := h k hk
  exact ⟨j, hj, by rwa [hy k hk, hx k hk, hx j hj]⟩

theorem Num.agree_zero (num : Num) (y x : ℕ → ℂ) : num.agree 0 y x := fun _ hk => absurd hk (Nat.not_lt_zero _)

/-- Lists that agree are values that agree in the sense of the statements. -/
theorem Num.ListsAgree.agree {ys xs : List NumK} (h : num.ListsAgree v ys xs) :
    num.agree xs.length (fun k => (ys.getD k NumK.zero).value v) fun k => (xs.getD k NumK.zero).value v := by
  intro k hk
  obtain ⟨hlen, hget⟩ := List.forall₂_iff_get.1 h
  obtain ⟨z, hz, hle⟩ := hget k (hlen ▸ hk) hk
  obtain ⟨j, hj, rfl⟩ := List.mem_iff_getElem.1 hz
  refine ⟨j, hj, ?_⟩
  simpa [List.getD_eq_getElem?_getD, hk, hj, hlen] using hle

end

/-! ## The results of a stage -/

theorem NumK.value_whenFinite {v : Valuation} {inputs : List NumK} (h : ∀ input ∈ inputs, input.finite v)
    (x y : NumK) : (NumK.whenFinite inputs x y).value v = x.value v :=
  congrArg KValue.toComplex ((NumK.meaning_whenFinite v inputs x y).1 h)

section
variable {num : Num} {v : Valuation} {stage : Stage} {words : List ℕ} {reals : List RVal} {numbers : List NumK}
  {isExact : ℕ → Bool} {results : List (List NumK × NumK)}

/-- A result of finite inputs is the reference's number, or that number rounded relative to the largest. -/
theorem Num.value_getElem_results {k : ℕ} (hk : k < results.length) (hin : ∀ x ∈ results[k].1, x.finite v)
    (h : k < (num.results stage words reals numbers isExact results).length) :
    (num.results stage words reals numbers isExact results)[k].value v =
      (if isExact k then results[k].2
        else num.round (Config.resultName num.number stage words reals numbers k)
          (NumK.largest (results.map fun r => NumK.whenFinite r.1 r.2 NumK.zero)) results[k].2).value v := by
  have e := Num.getElem?_results (num := num) (stage := stage) (words := words) (reals := reals) (numbers := numbers)
    (isExact := isExact) (List.getElem?_eq_getElem hk)
  rw [List.getElem?_eq_getElem h, Option.some_inj] at e
  rw [e]
  exact NumK.value_whenFinite hin _ _

/-- The reference's results are the numbers themselves. -/
theorem Num.value_getElem_results_reference {k : ℕ} (hk : k < results.length) (hin : ∀ x ∈ results[k].1, x.finite v)
    (h : k < (Num.reference.results stage words reals numbers isExact results).length) :
    (Num.reference.results stage words reals numbers isExact results)[k].value v = results[k].2.value v := by
  rw [Num.value_getElem_results hk hin h, Num.round_reference, ite_self]

/-- On finite inputs the results of a stage agree with the reference's (00_scope.md R14). -/
theorem Num.results_agree (hfin : ∀ r ∈ results, ∀ x ∈ r.1, x.finite v) :
    num.ListsAgree v (num.results stage words reals numbers isExact results)
      (Num.reference.results stage words reals numbers isExact results) := by
  refine Num.listsAgree_of_getElem (by simp) fun k hy hx => ?_
  have hk : k < results.length := by simpa using hx
  have hmem := List.getElem_mem hx
  have href := Num.value_getElem_results_reference hk (hfin _ (List.getElem_mem hk)) hx
  have hval := Num.value_getElem_results hk (hfin _ (List.getElem_mem hk)) hy
  split at hval
  · exact Num.agreesIn_of_value_eq hmem (hval.trans href.symm)
  · refine Num.agreesIn_of_size (size := NumK.largest _) hmem (by rw [hval, href]; exact Num.norm_round_sub_le v ..) ?_
    refine (NumK.largest_spec v _).2.imp id ?_
    rintro ⟨z, hz, e⟩
    obtain ⟨r, hr, rfl⟩ := List.mem_map.1 hz
    obtain ⟨j, hj, rfl⟩ := List.mem_iff_getElem.1 hr
    refine ⟨_, List.getElem_mem (n := j) (by simpa using hj), ?_⟩
    rw [e, Num.value_getElem_results_reference hj (hfin _ hr), NumK.value_whenFinite (hfin _ hr)]

end

namespace Machine

/-! ## Guards, transforms and the channel -/

/-- Inserting a guard keeps agreement: it moves samples and adds exact zeros. -/
theorem listsAgree_giInsert {num : Num} {v : Valuation} {ys xs : List NumK} (h : num.ListsAgree v ys xs) (g : ℕ)
    (md : GuardMode) : num.ListsAgree v (giInsert ys g md) (giInsert xs g md) := by
  have hlen := List.Forall₂.length_eq h
  have hmono : ∀ {ref : List NumK}, xs ⊆ ref → List.Forall₂ (num.AgreesIn v ref) ys xs := fun hsub =>
    List.Forall₂.imp (fun _ _ => Num.AgreesIn.mono hsub) h
  cases md with
  | none => exact h
  | zeroPad =>
    refine List.rel_append (hmono (List.subset_append_left ..)) (List.forall₂_same.2 fun x hx => ?_)
    exact Num.agreesIn_of_value_eq (List.mem_append_right _ hx) rfl
  | cyclicPrefix =>
    have hall := hmono (ref := giInsert xs g .cyclicPrefix) (List.subset_append_right ..)
    refine List.rel_append ?_ hall
    rw [hlen]
    exact List.forall₂_drop _ hall

theorem modSamples_agree {num : Num} {v : Valuation} {cells : List NumK} (h : ∀ x ∈ cells, x.finite v) (m n : ℕ) :
    num.ListsAgree v (modSamples num m n cells) (modSamples .reference m n cells) := by
  refine Num.results_agree fun r hr => ?_
  obtain ⟨x, -, rfl⟩ := List.mem_map.1 hr
  exact h

theorem demodCells_agree {num : Num} {v : Valuation} {core : List NumK} (h : ∀ x ∈ core, x.finite v) (m n : ℕ) :
    num.ListsAgree v (demodCells num m n core) (demodCells .reference m n core) := by
  refine Num.results_agree fun r hr => ?_
  obtain ⟨x, -, rfl⟩ := List.mem_map.1 hr
  exact h

theorem chanSamples_agree {num : Num} {v : Valuation} {tx : List NumK} {fs : RVal} {paths : List PathEntry}
    (h : ∀ k < tx.length, ∀ x ∈ channelInputs tx fs paths k, x.finite v) :
    num.ListsAgree v (chanSamples num tx fs paths) (chanSamples .reference tx fs paths) := by
  refine Num.results_agree fun r hr => ?_
  obtain ⟨k, hk, rfl⟩ := List.mem_mapIdx.1 hr
  exact h k (by simpa using hk)

end Machine

end Sys2Proof

/-! PROOFS. The estimate of a finite-precision `NUM` agrees with the reference's where no division overflows (43_estimator.md
R84; 00_scope.md R14): the ratios before rounding are those of the reference, and what HP and HG hold is off by at most the
tolerance times the largest of them. -/

namespace Sys2Proof

section
variable {num : Num} {v : Valuation}

/-- A quotient that is finite is the reference's, whether or not the division of `NUM` can overflow. -/
theorem Num.value_divide {name : ℕ} {x y : NumK} (hy : y.value v ≠ 0) (h : (num.divide name x y).finite v) :
    (num.divide name x y).value v = x.value v / y.value v := by
  unfold Num.divide at h ⊢
  split
  · rename_i hs
    rw [if_pos hs] at h
    rw [NumK.value, NumK.meaning_quotient,
      (quotientValue_spec _ _ _).2 (by rwa [NumK.finite, NumK.meaning_quotient] at h)]
    rfl
  · exact NumK.value_div hy

theorem Num.finite_divide_reference (name : ℕ) (x y : NumK) : (Num.reference.divide name x y).finite v :=
  NumK.finite_div x y

/-- Rounding that keeps an exact 0 is off by at most the tolerance as well, and answers a number. -/
theorem Num.roundNonzero_spec {name : ℕ} {size x : NumK} (hx : x.finite v) :
    (num.roundNonzero name size x).finite v ∧
      ‖(num.roundNonzero name size x).value v - x.value v‖ ≤ (num.tolerance : ℝ) * ‖size.value v‖ := by
  classical
  cases num with
  | reference => exact ⟨hx, by simp [Num.roundNonzero, Num.tolerance]⟩
  | finite structureNo tol specials =>
    have e : ((Num.finite structureNo tol specials).roundNonzero name size x).meaning v =
        if x.finite v ∧ x.value v = 0 then .number 0 else (NumK.rounded name tol x size).meaning v :=
      NumK.meaning_unlessZero v x _
    by_cases h0 : x.value v = 0
    · rw [if_pos ⟨hx, h0⟩] at e
      refine ⟨by rw [NumK.finite, e]; trivial, ?_⟩
      rw [NumK.value, e, h0]
      simpa [KValue.toComplex] using mul_nonneg (Num.finite structureNo tol specials).tolerance_nonneg
        (norm_nonneg (size.value v))
    · rw [if_neg fun h => h0 h.2] at e
      refine ⟨by rw [NumK.finite, e]; trivial, ?_⟩
      rw [NumK.value, e]
      exact NumK.norm_rounded_sub_le v name tol x size

theorem NumK.value_fix {x : NumK} (h : x.finite v) : x.fix.value v = x.value v := by
  classical
  rw [NumK.value, NumK.meaning_fix, if_pos h, NumK.value]

theorem NumK.meaning_choose_of_finite {x : NumK} (h : x.finite v) (y z : NumK) :
    (NumK.choose x y z).meaning v = y.meaning v := by
  classical
  rw [NumK.meaning_choose, if_pos h]

theorem NumK.value_choose_of_finite {x : NumK} (h : x.finite v) (y z : NumK) :
    (NumK.choose x y z).value v = y.value v :=
  congrArg KValue.toComplex (NumK.meaning_choose_of_finite h y z)

theorem Num.finite_round {name : ℕ} {size x : NumK} (h : x.finite v) : (num.round name size x).finite v := by
  cases num with
  | reference => exact h
  | finite _ _ _ => trivial

/-- A list whose numbers are finite reads as finite numbers everywhere. -/
theorem finite_getD {xs : List NumK} (h : ∀ x ∈ xs, x.finite v) (k : ℕ) : (xs.getD k NumK.zero).finite v := by
  rcases Nat.lt_or_ge k xs.length with hk | hk
  · rw [List.getD_eq_getElem _ _ hk]
    exact h _ (List.getElem_mem hk)
  · rw [List.getD_eq_default _ _ hk]
    exact NumK.finite_zero v

end

namespace Machine

section
variable {num : Num} {v : Valuation} {rs : Received}

/-- The pilot values are numbers other than 0, and the received cells are finite. -/
abbrev Received.Regular (v : Valuation) (rs : Received) : Prop :=
  ∀ r ∈ rs, r.1.value.val.finite v ∧ r.1.value.val.value v ≠ 0 ∧ r.2.finite v

/-! ## The ratios before rounding -/

/-- On regular pilots a ratio is what the division makes of it. -/
theorem meaning_getElem_pilotRatios (hr : rs.Regular v) {j : ℕ} (hj : j < rs.length)
    (h : j < (pilotRatios num rs).length) :
    (pilotRatios num rs)[j].meaning v =
      (num.divide (estimateName num .pilotRatio rs [j]) rs[j].2 rs[j].1.value.val).meaning v := by
  obtain ⟨hp, -, hc⟩ := hr _ (List.getElem_mem hj)
  simp only [pilotRatios, List.getElem_mapIdx, pilotRatio]
  rw [NumK.meaning_choose_of_finite hp, NumK.meaning_choose_of_finite hc]

theorem finite_pilotRatios_reference (hr : rs.Regular v) : ∀ x ∈ pilotRatios .reference rs, x.finite v := by
  intro x hx
  obtain ⟨j, hj, rfl⟩ := List.mem_iff_getElem.1 hx
  rw [NumK.finite, meaning_getElem_pilotRatios hr (by simpa using hj)]
  exact Num.finite_divide_reference ..

/-- A ratio that does not overflow is that of the reference. -/
theorem value_getElem_pilotRatios (hr : rs.Regular v) {j : ℕ} (hj : j < rs.length)
    (h : j < (pilotRatios num rs).length) (hfin : (pilotRatios num rs)[j].finite v) :
    (pilotRatios num rs)[j].value v = rs[j].2.value v / rs[j].1.value.val.value v := by
  have e := meaning_getElem_pilotRatios hr hj h
  rw [NumK.finite, e] at hfin
  rw [NumK.value, e]
  exact Num.value_divide (hr _ (List.getElem_mem hj)).2.1 hfin

theorem value_getD_pilotRatios_eq (hr : rs.Regular v) (hfin : ∀ x ∈ pilotRatios num rs, x.finite v) (j : ℕ) :
    ((pilotRatios num rs).getD j NumK.zero).value v = ((pilotRatios .reference rs).getD j NumK.zero).value v := by
  rcases Nat.lt_or_ge j rs.length with hj | hj
  · rw [List.getD_eq_getElem _ _ (by simpa using hj), List.getD_eq_getElem _ _ (by simpa using hj),
      value_getElem_pilotRatios hr hj _ (hfin _ (List.getElem_mem _)),
      value_getElem_pilotRatios hr hj _ (finite_pilotRatios_reference hr _ (List.getElem_mem _))]
  · rw [List.getD_eq_default _ _ (by simpa using hj), List.getD_eq_default _ _ (by simpa using hj)]

/-- The magnitude that the estimate is rounded relative to is 0 or that of a ratio of the reference. -/
theorem value_estimateSize (hr : rs.Regular v) (hfin : ∀ x ∈ pilotRatios num rs, x.finite v) :
    (estimateSize (pilotRatios num rs)).value v = 0 ∨
      ∃ j < rs.length, (estimateSize (pilotRatios num rs)).value v =
        ((pilotRatios .reference rs).getD j NumK.zero).value v := by
  refine (NumK.largest_spec v _).2.imp id ?_
  rintro ⟨x, hx, e⟩
  obtain ⟨h, hh, rfl⟩ := List.mem_map.1 hx
  obtain ⟨j, hj, rfl⟩ := List.mem_iff_getElem.1 hh
  refine ⟨j, by simpa using hj, ?_⟩
  rw [estimateSize, e, NumK.value_fix (hfin _ hh), ← value_getD_pilotRatios_eq hr hfin j,
    List.getD_eq_getElem _ _ hj]

/-! ## The per-pilot estimate -/

/-- An element of HP is finite exactly where its ratio is, and it is then off by at most the tolerance. -/
theorem getElem_perPilotEstimate {j : ℕ} (hj : j < (perPilotEstimate num rs).length)
    (h : j < (pilotRatios num rs).length) :
    ((perPilotEstimate num rs)[j].finite v ↔ (pilotRatios num rs)[j].finite v) ∧
      ((pilotRatios num rs)[j].finite v →
        ‖(perPilotEstimate num rs)[j].value v - (pilotRatios num rs)[j].value v‖ ≤
          (num.tolerance : ℝ) * ‖(estimateSize (pilotRatios num rs)).value v‖) := by
  classical
  simp only [perPilotEstimate, List.getElem_mapIdx]
  by_cases hf : (pilotRatios num rs)[j].finite v
  · obtain ⟨hfin, hle⟩ := Num.roundNonzero_spec (num := num) (name := estimateName num .pilotRatio rs [j])
      (size := estimateSize (pilotRatios num rs)) hf
    rw [NumK.finite, NumK.meaning_choose_of_finite hf, NumK.value_choose_of_finite hf]
    exact ⟨iff_of_true hfin hf, fun _ => hle⟩
  · refine ⟨iff_of_false ?_ hf, fun h => absurd h hf⟩
    rw [NumK.finite, NumK.meaning_choose, if_neg hf]
    exact hf

theorem finite_pilotRatios_of_perPilotEstimate (h : ∀ x ∈ perPilotEstimate num rs, x.finite v) :
    ∀ x ∈ pilotRatios num rs, x.finite v := by
  intro x hx
  obtain ⟨j, hj, rfl⟩ := List.mem_iff_getElem.1 hx
  have hj' : j < (perPilotEstimate num rs).length := by simpa using hj
  exact (getElem_perPilotEstimate hj' hj).1.1 (h _ (List.getElem_mem hj'))

/-- Under the reference HP holds the ratios. -/
theorem getD_perPilotEstimate_reference (hr : rs.Regular v) {j : ℕ} (hj : j < rs.length) :
    ((perPilotEstimate .reference rs).getD j NumK.zero).finite v ∧
      ((perPilotEstimate .reference rs).getD j NumK.zero).value v =
        ((pilotRatios .reference rs).getD j NumK.zero).value v := by
  have h1 : j < (perPilotEstimate .reference rs).length := by simpa using hj
  have h2 : j < (pilotRatios .reference rs).length := by simpa using hj
  rw [List.getD_eq_getElem _ _ h1, List.getD_eq_getElem _ _ h2]
  obtain ⟨hfin, hle⟩ := getElem_perPilotEstimate (v := v) h1 h2
  have hf := finite_pilotRatios_reference hr _ (List.getElem_mem h2)
  have h0 := hle hf
  rw [Num.tolerance, Rat.cast_zero, zero_mul, norm_le_zero_iff, sub_eq_zero] at h0
  exact ⟨hfin.2 hf, h0⟩

/-- An element of HP is off from the reference's by at most the tolerance times the size. -/
theorem norm_getD_perPilotEstimate_sub_le (hr : rs.Regular v) (hfin : ∀ x ∈ pilotRatios num rs, x.finite v) {j : ℕ}
    (hj : j < rs.length) :
    ‖((perPilotEstimate num rs).getD j NumK.zero).value v -
        ((perPilotEstimate .reference rs).getD j NumK.zero).value v‖ ≤
      (num.tolerance : ℝ) * ‖(estimateSize (pilotRatios num rs)).value v‖ := by
  have h1 : j < (perPilotEstimate num rs).length := by simpa using hj
  have h2 : j < (pilotRatios num rs).length := by simpa using hj
  rw [(getD_perPilotEstimate_reference hr hj).2, ← value_getD_pilotRatios_eq hr hfin j, List.getD_eq_getElem _ _ h1,
    List.getD_eq_getElem _ _ h2]
  exact (getElem_perPilotEstimate h1 h2).2 (hfin _ (List.getElem_mem h2))

/-- HP agrees with the reference's (00_scope.md R14). -/
theorem perPilotEstimate_agree (hr : rs.Regular v) (hfin : ∀ x ∈ perPilotEstimate num rs, x.finite v) :
    num.ListsAgree v (perPilotEstimate num rs) (perPilotEstimate .reference rs) := by
  have hratios := finite_pilotRatios_of_perPilotEstimate hfin
  refine Num.listsAgree_of_getElem (by simp) fun k hy hx => ?_
  have hk : k < rs.length := by simpa using hx
  have hle := norm_getD_perPilotEstimate_sub_le hr hratios hk
  rw [List.getD_eq_getElem _ _ hy, List.getD_eq_getElem _ _ hx] at hle
  refine Num.agreesIn_of_size (List.getElem_mem hx) hle ((value_estimateSize hr hratios).imp id ?_)
  rintro ⟨j, hj, e⟩
  have hj' : j < (perPilotEstimate .reference rs).length := by simpa using hj
  refine ⟨_, List.getElem_mem hj', ?_⟩
  rw [e, ← (getD_perPilotEstimate_reference hr hj).2, List.getD_eq_getElem _ _ hj']

/-! ## The full-grid estimate -/

theorem value_triValue (v : Valuation) (pts : List Point) (hs : List NumK) (t : Tri) (q : Point) :
    (triValue pts hs t q).value v = barycentric pts (fun j => (hs.getD j NumK.zero).value v) t q := by
  simp [triValue, barycentric, NumK.value_add, NumK.value_scale, NumR.value_ofRat]

/-- The interpolation is one of the values of the estimates alone. -/
theorem value_interp_congr {pts : List Point} {hs hs' : List NumK}
    (h : ∀ j, (hs.getD j NumK.zero).value v = (hs'.getD j NumK.zero).value v) (tri : List Tri) (q : Point) :
    (interp pts hs tri q).value v = (interp pts hs' tri q).value v := by
  unfold interp
  split
  · rw [value_triValue, value_triValue]
    simp only [h]
  · rfl

theorem finite_interp {hs : List NumK} (pts : List Point) (tri : List Tri) (q : Point) :
    (interp pts hs tri q).finite v := by
  unfold interp
  split
  · exact NumK.finite_add (NumK.finite_add (NumK.finite_scale _ _) (NumK.finite_scale _ _)) (NumK.finite_scale _ _)
  · exact NumK.finite_zero v

/-- Of finite ratios the interpolation as `NUM` has it is off by at most the tolerance. -/
theorem norm_fix_interpVal_sub_le (hfin : ∀ x ∈ pilotRatios num rs, x.finite v) (pts : List Point) (tri : List Tri)
    (q : Point) :
    ‖(interpVal num rs pts tri q).fix.value v - (interp pts (pilotRatios num rs) tri q).value v‖ ≤
      (num.tolerance : ℝ) * ‖(estimateSize (pilotRatios num rs)).value v‖ := by
  cases ht : tri.find? fun t => t.contains pts q with
  | some t =>
    have hused : ∀ x ∈ t.usedEstimates pts (pilotRatios num rs) q, x.finite v := by
      intro x hx
      obtain ⟨w, -, rfl⟩ := List.mem_map.1 hx
      exact finite_getD hfin _
    simp only [interpVal, ht]
    rw [NumK.value_fix, NumK.value_whenFinite hused]
    · exact Num.norm_round_sub_le v ..
    · rw [NumK.finite, (NumK.meaning_whenFinite v _ _ _).1 hused]
      exact Num.finite_round (finite_interp pts tri q)
  | none =>
    have hnonneg := mul_nonneg num.tolerance_nonneg (norm_nonneg ((estimateSize (pilotRatios num rs)).value v))
    simpa [interpVal, interp, ht, NumK.value_fix] using hnonneg

/-- A cell of HG is off from the reference's by at most the tolerance times the size. -/
theorem norm_fullGridCell_sub_le (hr : rs.Regular v) (hfin : ∀ x ∈ perPilotEstimate num rs, x.finite v)
    {pts : List Point} (hlen : pts.length = rs.length) (tri : List Tri) (q : Point) :
    ‖(fullGridCell num rs pts tri q).value v - (fullGridCell .reference rs pts tri q).value v‖ ≤
      (num.tolerance : ℝ) * ‖(estimateSize (pilotRatios num rs)).value v‖ := by
  have hratios := finite_pilotRatios_of_perPilotEstimate hfin
  cases hq : firstIndex pts.length fun j => decide (pointAt pts j = q) with
  | some j =>
    have hj : j < rs.length := hlen ▸ (firstIndex_eq_some.1 hq).1
    simp only [fullGridCell, hq]
    rw [NumK.value_fix (finite_getD hfin j), NumK.value_fix (getD_perPilotEstimate_reference hr hj).1]
    exact norm_getD_perPilotEstimate_sub_le hr hratios hj
  | none =>
    have href := norm_fix_interpVal_sub_le (finite_pilotRatios_reference hr) pts tri q
    rw [Num.tolerance, Rat.cast_zero, zero_mul, norm_le_zero_iff, sub_eq_zero] at href
    simp only [fullGridCell, hq]
    rw [href, ← value_interp_congr (value_getD_pilotRatios_eq hr hratios)]
    exact norm_fix_interpVal_sub_le hratios pts tri q

/-- The pilots stand at distinct points of the grid. -/
structure Received.Placed (rs : Received) (m n : ℕ) : Prop where
  inGrid : ∀ r ∈ rs, r.1.d < m ∧ r.1.l < n
  distinct : (pilotPoints (rs.map fun r => r.1)).Nodup

/-- The cell of a pilot of the reference's HG holds the ratio of that pilot. -/
theorem exists_mem_fullGridEstimate_reference (hr : rs.Regular v) {m n : ℕ} (hp : rs.Placed m n) {j : ℕ}
    (hj : j < rs.length) :
    ∃ z ∈ fullGridEstimate .reference rs m n,
      ((pilotRatios .reference rs).getD j NumK.zero).value v = z.value v := by
  obtain ⟨hd, hl⟩ := hp.inGrid _ (List.getElem_mem hj)
  have hk : rs[j].1.d + m * rs[j].1.l < m * n := by nlinarith
  refine ⟨_, List.mem_map.2 ⟨rs[j].1.d + m * rs[j].1.l, List.mem_range.2 hk, rfl⟩, ?_⟩
  have hlen : (pilotPoints (rs.map fun r => r.1)).length = rs.length := by simp [pilotPoints]
  have hpoint : ∀ i (hi : i < rs.length), pointAt (pilotPoints (rs.map fun r => r.1)) i = rs[i].1.point := fun i hi => by
    simp [pointAt, pilotPoints, hi]
  have hat : (⟨((rs[j].1.d + m * rs[j].1.l) % m : ℕ), ((rs[j].1.d + m * rs[j].1.l) / m : ℕ)⟩ : Point) =
      rs[j].1.point := by
    rw [Nat.add_mul_mod_self_left, Nat.mod_eq_of_lt hd, Nat.add_mul_div_left _ _ (by omega), Nat.div_eq_of_lt hd,
      zero_add, Pilot.point]
  have hfirst : firstIndex (pilotPoints (rs.map fun r => r.1)).length
      (fun i => decide (pointAt (pilotPoints (rs.map fun r => r.1)) i = rs[j].1.point)) = some j := by
    refine firstIndex_eq_some.2 ⟨hlen ▸ hj, by simp [hpoint j hj], fun i hi => decide_eq_false fun e => ?_⟩
    rw [hpoint i (hi.trans hj)] at e
    have := (List.Nodup.getElem_inj_iff hp.distinct (i := i) (j := j) (hi := by omega) (hj := by omega)).1
      (by simpa [pilotPoints] using e)
    omega
  obtain ⟨hfin, hval⟩ := getD_perPilotEstimate_reference hr hj
  simp only [fullGridCell, hat, hfirst]
  rw [NumK.value_fix hfin, hval]

/-- HG agrees with the reference's (00_scope.md R14). -/
theorem fullGridEstimate_agree (hr : rs.Regular v) {m n : ℕ} (hp : rs.Placed m n)
    (hfin : ∀ x ∈ perPilotEstimate num rs, x.finite v) :
    num.ListsAgree v (fullGridEstimate num rs m n) (fullGridEstimate .reference rs m n) := by
  refine Num.listsAgree_of_getElem (by simp) fun k hy hx => ?_
  refine Num.agreesIn_of_size (List.getElem_mem hx) ?_
    ((value_estimateSize hr (finite_pilotRatios_of_perPilotEstimate hfin)).imp id ?_)
  · simp only [fullGridEstimate, List.getElem_map, List.getElem_range]
    exact norm_fullGridCell_sub_le hr hfin (by simp [pilotPoints]) _ _
  · rintro ⟨j, hj, e⟩
    obtain ⟨z, hz, ez⟩ := exists_mem_fullGridEstimate_reference hr hp hj
    exact ⟨z, hz, e.trans ez⟩

end

end Machine

end Sys2Proof

/-! PROOFS. FinitePrecisionAgreesWithTheReference: two states that agree on what a command reads make the same checks, and
its effect on them agrees within the tolerance; the exact results of 00_scope.md R14. -/

namespace Sys2Proof

namespace Machine

/-! ## What a command reads -/

section
variable {s s' : State} {src : Sel}

theorem State.seq_congr (h : s.sameSeq s' src src) : s.seq src = s'.seq src := by
  obtain ⟨hlen, hel⟩ := h
  rw [State.seq, State.seq, ← hlen]
  exact List.map_congr_left fun k hk => hel k (List.mem_range.1 hk)

theorem State.grid_congr {m n : ℕ} (h : ∀ k < m * n, s.element (gBuf src) k = s'.element (gBuf src) k) :
    s.grid src m n = s'.grid src m n :=
  List.map_congr_left fun k hk => h k (List.mem_range.1 hk)

theorem State.paths_congr (hn : s.npath = s'.npath)
    (h : ∀ j < s.npath.toNat, s.delayAt j = s'.delayAt j ∧ s.gainAt j = s'.gainAt j ∧ s.dopplerAt j = s'.dopplerAt j) :
    s.paths = s'.paths := by
  rw [State.paths, State.paths, ← hn]
  refine List.map_congr_left fun j hj => ?_
  obtain ⟨h1, h2, h3⟩ := h j (List.mem_range.1 hj)
  rw [h1, h2, h3]

theorem State.pilots_congr (h : s.samePilots s' src) : s.pilots = s'.pilots := by
  obtain ⟨hn, hp⟩ := h
  rw [State.pilots, State.pilots, ← hn]
  exact List.map_congr_left fun j hj => (hp j (List.mem_range.1 hj)).1

theorem State.received_congr (h : s.samePilots s' src) : s.received src = s'.received src := by
  rw [State.received, State.received, ← State.pilots_congr h]
  refine List.map_congr_left fun p hp => ?_
  obtain ⟨j, hj, rfl⟩ := List.mem_map.1 hp
  obtain ⟨hpilot, hcell⟩ := h.2 j (List.mem_range.1 hj)
  rw [hcell, hpilot]

theorem firstIndex_congr {n : ℕ} {p q : ℕ → Bool} (h : ∀ j < n, p j = q j) : firstIndex n p = firstIndex n q := by
  cases hq : firstIndex n q with
  | none =>
    rw [firstIndex_eq_none] at hq ⊢
    exact fun j hj => (h j hj).trans (hq j hj)
  | some j =>
    rw [firstIndex_eq_some] at hq ⊢
    obtain ⟨hj, hp, hi⟩ := hq
    exact ⟨hj, (h j hj).trans hp, fun i hij => (h i (hij.trans hj)).trans (hi i hij)⟩

/-! ## The checks -/

theorem State.mode_congr (h : s.gmode = s'.gmode) : s.mode = s'.mode := congrArg guardMode h

theorem gridCheck_congr (hm : s.m = s'.m) (hn : s.n = s'.n) (hcaps : s.caps = s'.caps) : gridCheck s = gridCheck s' := by
  simp only [gridCheck, hm, hn, hcaps]

theorem pilotCheck_congr (hm : s.m = s'.m) (hn : s.n = s'.n) (hcaps : s.caps = s'.caps) (h : s.samePilots s' src) :
    pilotCheck s = pilotCheck s' := by
  have hpilots := State.pilots_congr h
  obtain ⟨hq, hp⟩ := h
  have hpilot : ∀ j < s'.npilot.toNat, s.pilotAt j = s'.pilotAt j := fun j hj => (hp j (hq ▸ hj)).1
  have hindex : firstIndex s'.npilot.toNat
        (fun j => decide (s'.m.toNat ≤ (s.pilotAt j).d) || decide (s'.n.toNat ≤ (s.pilotAt j).l)) =
      firstIndex s'.npilot.toNat
        (fun j => decide (s'.m.toNat ≤ (s'.pilotAt j).d) || decide (s'.n.toNat ≤ (s'.pilotAt j).l)) :=
    firstIndex_congr fun j hj => by rw [hpilot j hj]
  have hvalue : firstIndex s'.npilot.toNat (fun j => (s.pilotAt j).value.isZero) =
      firstIndex s'.npilot.toNat (fun j => (s'.pilotAt j).value.isZero) :=
    firstIndex_congr fun j hj => by rw [hpilot j hj]
  have hdup : firstIndex s'.npilot.toNat
        (fun j => (List.range j).any fun i => decide ((s.pilotAt i).point = (s.pilotAt j).point)) =
      firstIndex s'.npilot.toNat
        (fun j => (List.range j).any fun i => decide ((s'.pilotAt i).point = (s'.pilotAt j).point)) :=
    firstIndex_congr fun j hj => by
      rw [Bool.eq_iff_iff, List.any_eq_true, List.any_eq_true]
      refine exists_congr fun i => and_congr_right fun hi => ?_
      rw [hpilot j hj, hpilot i ((List.mem_range.1 hi).trans hj)]
  simp only [pilotCheck, hm, hn, hcaps, hq, hindex, hvalue, hdup, hpilots]

/-- The checks of a command are a function of what it reads. -/
theorem commandCheck_congr {i : Instr} (h : s.sameReads s' i) : (commandParts i).2.1 s = (commandParts i).2.1 s' := by
  cases i with
  | nop => rfl
  | giIns src dst =>
    obtain ⟨-, hcaps, hglen, hgmode, hlen, -⟩ := h
    simp only [commandParts, giInsCheck, State.mode_congr hgmode, hcaps, hglen, hlen]
  | giRem src dst =>
    obtain ⟨-, hcaps, hglen, hgmode, hlen, -⟩ := h
    simp only [commandParts, giRemCheck, State.mode_congr hgmode, hcaps, hglen, hlen]
  | mod src dst =>
    obtain ⟨-, hcaps, hm, hn, hglen, hgmode, -⟩ := h
    simp only [commandParts, modCheck, gridCheck_congr hm hn hcaps, State.mode_congr hgmode, hcaps, hglen, hm, hn]
  | demod src dst =>
    obtain ⟨-, hcaps, hm, hn, hglen, hgmode, hlen, -⟩ := h
    simp only [commandParts, demodCheck, gridCheck_congr hm hn hcaps, State.mode_congr hgmode, hcaps, hglen, hm, hn, hlen]
  | chan src dst =>
    obtain ⟨-, hcaps, hfs, hnpath, ⟨hlen, -⟩, hpaths⟩ := h
    have hgain : firstIndex s'.npath.toNat (fun j => !(s.gainAt j).isNonneg) =
        firstIndex s'.npath.toNat (fun j => !(s'.gainAt j).isNonneg) :=
      firstIndex_congr fun j hj => by rw [(hpaths j (hnpath ▸ hj)).2.1]
    simp only [commandParts, chanCheck, hcaps, hfs, hnpath, hlen, hgain]
  | est src =>
    obtain ⟨-, hcaps, hm, hn, hpilots⟩ := h
    simp only [commandParts, estCheck, gridCheck_congr hm hn hcaps, pilotCheck_congr hm hn hcaps hpilots]

end

/-! ## What passed checks say -/

theorem giInsCheck_eq_none {s : State} {src : Sel} (h : giInsCheck src s = none) :
    s.mode = .cyclicPrefix → s.glen.toNat ≤ (s.tlen src).toNat := by
  intro hmode
  by_contra hlt
  unfold giInsCheck at h
  split at h
  · cases h
  · rw [if_pos ⟨hmode, not_le.1 hlt⟩] at h
    cases h

theorem modCheck_eq_none {s : State} (h : modCheck s = none) :
    s.mode = .cyclicPrefix → s.glen.toNat ≤ s.m.toNat * s.n.toNat := by
  intro hmode
  by_contra hlt
  unfold modCheck at h
  split at h
  · cases h
  · rw [if_pos ⟨hmode, not_le.1 hlt⟩] at h
    cases h

/-- The pilots of an EST whose checks pass are in the grid, not 0, and at distinct points. -/
theorem estCheck_eq_none {s : State} (h : estCheck s = none) :
    (∀ j < s.npilot.toNat, (s.pilotAt j).d < s.m.toNat ∧ (s.pilotAt j).l < s.n.toNat) ∧
      (∀ j < s.npilot.toNat, (s.pilotAt j).value.isZero = false) ∧
      ∀ j < s.npilot.toNat, ∀ i < j, (s.pilotAt i).point ≠ (s.pilotAt j).point := by
  simp only [estCheck, pilotCheck] at h
  split at h
  · cases h
  split at h
  · cases h
  split at h
  · cases h
  rename_i hindex
  split at h
  · cases h
  rename_i hvalue
  split at h
  · cases h
  rename_i hdup
  rw [firstIndex_eq_none] at hindex hvalue hdup
  exact ⟨fun j hj => by simpa using hindex j hj, hvalue, fun j hj => by simpa using hdup j hj⟩

/-! ## Finite inputs -/

theorem State.finite_grid {s : State} {v : Valuation} {src : Sel} (h : s.gridFinite v src) :
    ∀ x ∈ s.grid src s.m.toNat s.n.toNat, x.finite v := by
  intro x hx
  obtain ⟨k, hk, rfl⟩ := List.mem_map.1 hx
  exact h k (List.mem_range.1 hk)

theorem State.getElem?_seq (s : State) (sel : Sel) (k : ℕ) :
    (s.seq sel)[k]? = if k < (s.tlen sel).toNat then some (s.element (tBuf sel) k) else none := by
  by_cases h : k < (s.tlen sel).toNat
  · simp [State.seq, h]
  · simp [State.seq, h]

/-- The core sequence, element by element. -/
theorem State.getElem?_core (s : State) (src : Sel) (k : ℕ) :
    (giRemove (s.seq src) s.glen.toNat s.mode)[k]? =
      if k < s.coreLength src then some (s.coreElement src k) else none := by
  by_cases h : k < s.coreLength src
  · rw [if_pos h]
    unfold State.coreLength at h
    unfold State.coreElement
    cases hm : s.mode with
    | none =>
      rw [hm] at h
      simp only [reduceIte, tsub_zero] at h
      simp [giRemove, State.seq, h]
    | zeroPad =>
      rw [hm] at h
      simp only [reduceCtorEq, reduceIte] at h
      simp [giRemove, State.seq, h]
    | cyclicPrefix =>
      rw [hm] at h
      simp only [reduceCtorEq, reduceIte] at h
      simp [giRemove, State.seq, show s.glen.toNat + k < (s.tlen src).toNat by omega]
  · rw [if_neg h, List.getElem?_eq_none_iff, length_giRemove, State.length_seq]
    exact not_lt.1 h

theorem State.finite_core {s : State} {v : Valuation} {src : Sel} (h : s.coreFinite v src) :
    ∀ x ∈ reconcile (giRemove (s.seq src) s.glen.toNat s.mode) (s.m.toNat * s.n.toNat), x.finite v := by
  intro x hx
  rcases List.mem_append.1 hx with hx | hx
  · obtain ⟨k, hk⟩ := List.mem_iff_getElem?.1 hx
    rw [List.getElem?_take] at hk
    split at hk
    · rename_i hkm
      rw [State.getElem?_core] at hk
      split at hk
      · rename_i hkc
        cases hk
        exact h k hkm hkc
      · cases hk
    · cases hk
  · rw [List.eq_of_mem_replicate hx]
    exact NumK.finite_zero v

theorem State.finite_channelInputs {s : State} {v : Valuation} {src : Sel} {k : ℕ} (hk : k < (s.tlen src).toNat)
    (h : s.channelFinite v src k) : ∀ x ∈ channelInputs (s.seq src) s.fs s.paths k, x.finite v := by
  intro x hx
  obtain ⟨p, hp, hx⟩ := List.mem_flatMap.1 hx
  obtain ⟨hp, hd⟩ := List.mem_filter.1 hp
  obtain ⟨j, hj, rfl⟩ := List.mem_map.1 hp
  obtain ⟨hfs, hgain, hdoppler, hel⟩ := h j (List.mem_range.1 hj) (by simpa using hd)
  simp only [List.mem_cons, List.not_mem_nil, or_false] at hx
  rcases hx with rfl | rfl | rfl | rfl
  · exact RVal.finite_complex v hfs
  · exact RVal.finite_complex v hgain
  · exact RVal.finite_complex v hdoppler
  · rwa [List.getD_eq_getElem?_getD, State.getElem?_seq, if_pos (by omega)]

theorem State.received_regular {s : State} {v : Valuation} {src : Sel} (h : s.pilotsFinite v src)
    (hzero : ∀ j < s.npilot.toNat, (s.pilotAt j).value.isZero = false) : (s.received src).Regular v := by
  intro r hr
  obtain ⟨p, hp, rfl⟩ := List.mem_map.1 hr
  obtain ⟨j, hj, rfl⟩ := List.mem_map.1 hp
  have hj := List.mem_range.1 hj
  obtain ⟨hval, hcell⟩ := h j hj
  refine ⟨(InputVal.finite_val_iff v _).2 hval, fun h0 => ?_, hcell⟩
  rw [InputVal.value_val] at h0
  have := (InputVal.isZero_iff v _).2 ⟨hval, h0⟩
  rw [hzero j hj] at this
  cases this

theorem State.received_placed {s : State} {src : Sel}
    (hgrid : ∀ j < s.npilot.toNat, (s.pilotAt j).d < s.m.toNat ∧ (s.pilotAt j).l < s.n.toNat)
    (hdup : ∀ j < s.npilot.toNat, ∀ i < j, (s.pilotAt i).point ≠ (s.pilotAt j).point) :
    (s.received src).Placed s.m.toNat s.n.toNat where
  inGrid := by
    intro r hr
    obtain ⟨p, hp, rfl⟩ := List.mem_map.1 hr
    obtain ⟨j, hj, rfl⟩ := List.mem_map.1 hp
    exact hgrid j (List.mem_range.1 hj)
  distinct := by
    have e : pilotPoints ((s.received src).map fun r => r.1) =
        (List.range s.npilot.toNat).map fun j => (s.pilotAt j).point := by
      simp [pilotPoints, State.received, State.pilots, Function.comp_def]
    rw [e, List.Nodup, List.pairwise_map]
    exact List.pairwise_lt_range.imp_of_mem fun _ hj hij => hdup _ (List.mem_range.1 hj) _ hij

end Machine

end Sys2Proof

/-! PROOFS. The exact samples of CHAN (00_scope.md R14 (b), (c)), and FinitePrecisionAgreesWithTheReference from the agreement
of the commands' effects. -/

namespace Sys2Proof

/-! ## Exact zeros and the single path of CHAN -/

@[simp] theorem NumK.scale_zero (r : NumR) : NumK.scale r NumK.zero = NumK.zero := if_pos (.inr rfl)

@[simp] theorem NumK.zero_mul (y : NumK) : NumK.mul NumK.zero y = NumK.zero := by
  cases y with
  | exact b => rfl
  | _ => simp [NumK.mul, NumK.lift, NumK.zero]

@[simp] theorem NumK.zero_add_zero : NumK.add NumK.zero NumK.zero = NumK.zero := rfl

namespace Machine

/-- Before its delay a path adds an exact zero. -/
theorem getElem?_pathContribution_of_lt {tx : List NumK} {p : Path} {k : ℕ} (hk : k < tx.length) (hp : k < p.delay)
    (fs : NumR) : (pathContribution tx fs p)[k]? = some NumK.zero := by
  have hd : (delayed tx p.delay)[k]? = some NumK.zero := by
    rw [delayed, List.getElem?_append_left (by simp [NumK.zeros, hk, hp])]
    simp [NumK.zeros, hk, hp]
  simp [pathContribution, List.getElem?_mapIdx, hd]

/-- From its delay on a path adds the rotated multiple of the sample it delays. -/
theorem getElem?_pathContribution_of_le {tx : List NumK} {p : Path} {k : ℕ} (hk : k < tx.length) (hp : p.delay ≤ k)
    (fs : NumR) : (pathContribution tx fs p)[k]? =
      some (NumK.mul (NumK.scale p.gain (tx.getD (k - p.delay) NumK.zero)) (rot p.doppler fs k)) := by
  have hmin : min p.delay tx.length = p.delay := by omega
  have hd : (delayed tx p.delay)[k]? = some (tx.getD (k - p.delay) NumK.zero) := by
    rw [delayed, hmin, List.getElem?_append_right (by simpa [NumK.zeros] using hp)]
    simp [NumK.zeros, show k - p.delay < tx.length - p.delay by omega,
      show k - p.delay < tx.length by omega]
  simp [pathContribution, List.getElem?_mapIdx, hd]

/-- Where every path's delay is still to come the channel leaves an exact zero. -/
theorem getElem?_applyChannel_of_lt {tx : List NumK} {k : ℕ} (hk : k < tx.length) (fs : NumR) {paths : List Path}
    (h : ∀ p ∈ paths, k < p.delay) : (applyChannel tx fs paths)[k]? = some NumK.zero := by
  have key : ∀ (ps : List Path) (rx : List NumK), (∀ p ∈ ps, k < p.delay) → rx[k]? = some NumK.zero →
      (ps.foldl (fun rx p => List.zipWith NumK.add rx (pathContribution tx fs p)) rx)[k]? = some NumK.zero := by
    intro ps
    induction ps with
    | nil => exact fun _ _ hrx => hrx
    | cons p ps ih =>
      intro rx hps hrx
      refine ih _ (fun q hq => hps q (by simp [hq])) ?_
      rw [List.getElem?_zipWith, hrx, getElem?_pathContribution_of_lt hk (hps p (by simp))]
      simp
  exact key paths _ h (by simp [NumK.zeros, hk])

/-- A single path without Doppler gives the gain times the delayed sample. -/
theorem value_applyChannel_single {v : Valuation} {tx : List NumK} {p : Path} {k : ℕ} (hk : k < tx.length)
    (hp : p.delay ≤ k) (h0 : p.doppler.value v = 0) (fs : NumR) :
    ((applyChannel tx fs [p]).getD k NumK.zero).value v =
      (p.gain.value v : ℂ) * (tx.getD (k - p.delay) NumK.zero).value v := by
  have e : (applyChannel tx fs [p])[k]? = some (NumK.add NumK.zero
      (NumK.mul (NumK.scale p.gain (tx.getD (k - p.delay) NumK.zero)) (rot p.doppler fs k))) := by
    rw [applyChannel, List.foldl_cons, List.foldl_nil, List.getElem?_zipWith, getElem?_pathContribution_of_le hk hp]
    simp [NumK.zeros, hk]
  have hrot : (rot p.doppler fs k).value v = 1 := by
    rw [rot, value_ph, NumR.value_div, NumR.value_mul, h0, zero_mul, zero_div, phase_zero]
  rw [List.getD_eq_getElem?_getD, e, Option.getD_some, NumK.value_add, NumK.value_mul, NumK.value_scale, hrot]
  simp

/-- An exact sample is the sum of the paths as data where nothing non-finite could reach it. -/
theorem getElem?_chanSamples_of_exact (num : Num) {tx : List NumK} (fs : RVal) {paths : List PathEntry} {k : ℕ}
    (hin : channelInputs tx fs paths k = []) (hex : channelExact paths k = true) :
    (chanSamples num tx fs paths)[k]? = (applyChannel tx fs.toReal (paths.map PathEntry.path))[k]? := by
  rcases Nat.lt_or_ge k tx.length with hk | hk
  · rw [chanSamples, Num.getElem?_results (inputs := [])
      (x := (applyChannel tx fs.toReal (paths.map PathEntry.path))[k]'(by simpa using hk))
      (by simp [hin, hk]), if_pos hex, List.getElem?_eq_getElem]
    rfl
  · rw [List.getElem?_eq_none (by simpa using hk), List.getElem?_eq_none (by simpa using hk)]

/-- An exact sample is the sum of the paths where its inputs are finite. -/
theorem value_chanSamples_of_exact {num : Num} {v : Valuation} {tx : List NumK} {fs : RVal} {paths : List PathEntry}
    {k : ℕ} (hk : k < tx.length) (hin : ∀ x ∈ channelInputs tx fs paths k, x.finite v)
    (hex : channelExact paths k = true) :
    ((chanSamples num tx fs paths).getD k NumK.zero).value v =
      ((applyChannel tx fs.toReal (paths.map PathEntry.path)).getD k NumK.zero).value v := by
  rw [List.getD_eq_getElem _ _ (by simpa using hk), List.getD_eq_getElem _ _ (by simpa using hk)]
  simp only [chanSamples]
  rw [Num.value_getElem_results (by simpa using hk) (by simpa using hin), if_pos hex, List.getElem_mapIdx]

/-! ## What a command does that is not dropped -/

/-- With no error latched a command raises the error of its checks, or its checks pass and it completes. -/
theorem exec_cases {i : Instr} {s t : State} (h0 : s.errcode = 0) (h : exec i s = .next t) :
    (∃ e, (commandParts i).2.1 s.accept = some e ∧ t = s.accept.raise (commandParts i).1 e) ∨
      ((commandParts i).2.1 s.accept = none ∧ t = ((commandParts i).2.2 s.accept).complete) := by
  rw [exec_eq] at h
  cases h
  rcases commandState_cases (commandParts i).1 (commandParts i).2.1 (commandParts i).2.2 s with
    ⟨h, -⟩ | ⟨e, -, hc, ht⟩ | ⟨-, hc, ht⟩
  · exact absurd h0 h
  · exact .inl ⟨e, hc, ht⟩
  · exact .inr ⟨hc, ht⟩

/-- A command that leaves no error latched has passed its checks. -/
theorem exec_completes {i : Instr} {s t : State} (h0 : s.errcode = 0) (h : exec i s = .next t) (ht : t.errcode = 0) :
    (commandParts i).2.1 s.accept = none ∧ t = ((commandParts i).2.2 s.accept).complete := by
  rcases exec_cases h0 h with ⟨e, -, rfl⟩ | hc
  · rw [State.raise_errcode] at ht
    cases hcls : e.cls <;> rw [hcls] at ht <;> exact absurd ht (by decide)
  · exact hc

theorem commandEffect_errcode (i : Instr) (s : State) : ((commandParts i).2.2 s).errcode = s.errcode := by
  cases i <;> simp [commandParts, giInsEffect, giRemEffect, modEffect, demodEffect, chanEffect, estEffect]

theorem State.writtenLength_accept (s : State) (i : Instr) (b : Buf) : s.accept.writtenLength i b = s.writtenLength i b := by
  cases i <;> rfl

theorem State.sameReads_accept {s s' : State} {i : Instr} (h : s.sameReads s' i) : s.accept.sameReads s'.accept i := by
  cases i <;> exact h

theorem State.inputsFinite_accept {s : State} {v : Valuation} {i : Instr} (h : s.inputsFinite v i) :
    s.accept.inputsFinite v i := by
  cases i <;> exact h

/-! ## Effects that agree -/

/-- What a command leaves in `t` agrees with what it leaves in `r`: the lengths it writes are the same, and of each buffer the
first `len` elements agree. -/
structure ResultsAgree (v : Valuation) (num : Num) (i : Instr) (len : Buf → ℕ) (t r : State) : Prop where
  tlen : ∀ sel, writesTlen i sel = true → t.tlen sel = r.tlen sel
  hplen : ∀ src, i = .est src → t.hplen = r.hplen
  elements : ∀ b, num.agree (len b) (fun k => (t.element b k).value v) fun k => (r.element b k).value v

section
variable {v : Valuation} {num : Num} {u u' : State} {ys xs : List NumK}

/-- Lists that agree, stored in one buffer. -/
theorem agree_storeElements (h : num.ListsAgree v ys xs) (b : Buf) :
    num.agree xs.length (fun k => ((u.storeElements b ys).element b k).value v)
      fun k => ((u'.storeElements b xs).element b k).value v := by
  have hlen := List.Forall₂.length_eq h
  refine Num.agree_congr (fun k hk => ?_) (fun k hk => ?_) h.agree
  · rw [State.element_storeElements, if_pos ⟨rfl, hlen ▸ hk⟩]
  · rw [State.element_storeElements, if_pos ⟨rfl, hk⟩]

/-- A command that stores a sequence alone. -/
theorem resultsAgree_storeSeq (h : num.ListsAgree v ys xs) {i : Instr} {dst : Sel}
    (htlen : ∀ sel, writesTlen i sel = true → sel = dst) (hest : ∀ src, i ≠ .est src) {n : ℕ} (hn : xs.length = n) :
    ResultsAgree v num i (fun b => if b = tBuf dst then n else 0) (u.storeSeq dst ys) (u'.storeSeq dst xs) where
  tlen := fun sel hsel => by
    rw [htlen sel hsel, State.tlen_storeSeq, State.tlen_storeSeq, if_pos rfl, if_pos rfl, List.Forall₂.length_eq h]
  hplen := fun src hi => absurd hi (hest src)
  elements := fun b => by
    split
    · rename_i hb
      subst hb hn
      simpa only [State.storeSeq, State.element_setTlen] using agree_storeElements h (tBuf dst)
    · exact Num.agree_zero _ _ _

end

theorem element_estEffect_hp (src : Sel) {u : State} {j : ℕ} (hj : j < u.npilot.toNat) :
    (estEffect src u).element .hp j = (perPilotEstimate u.num (u.received src)).getD j NumK.zero := by
  simp [estEffect, State.element_storeElements, hj]

theorem element_estEffect_hg (src : Sel) {u : State} {k : ℕ} (hk : k < u.m.toNat * u.n.toNat) :
    (estEffect src u).element .hg k =
      (fullGridEstimate u.num (u.received src) u.m.toNat u.n.toNat).getD k NumK.zero := by
  simp [estEffect, State.element_storeElements, hk]

/-- EST on finite inputs without overflow agrees with the reference's. -/
theorem estEffect_agrees {v : Valuation} {src : Sel} {u u' : State} (hreads : u.sameReads u' (.est src))
    (href : u'.num = .reference) (hfin : u.pilotsFinite v src) (hcheck : estCheck u = none)
    (hhp : ∀ j < u.npilot.toNat, ((estEffect src u).element .hp j).finite v) :
    ResultsAgree v u.num (.est src) (u.writtenLength (.est src)) (estEffect src u) (estEffect src u') := by
  obtain ⟨-, hcaps, hm, hn, hpilots⟩ := hreads
  obtain ⟨hgrid, hzero, hdup⟩ := estCheck_eq_none hcheck
  have hregular := State.received_regular hfin hzero
  have hplaced := State.received_placed (src := src) hgrid hdup
  have hrec := State.received_congr hpilots
  have hestimate : ∀ x ∈ perPilotEstimate u.num (u.received src), x.finite v := by
    intro x hx
    obtain ⟨j, hj, rfl⟩ := List.mem_iff_getElem.1 hx
    have hj' : j < u.npilot.toNat := by simpa using hj
    have := hhp j hj'
    rwa [element_estEffect_hp src hj', List.getD_eq_getElem _ _ hj] at this
  refine ⟨fun _ h => by simp [writesTlen] at h, fun _ _ => by simp [estEffect, hpilots.1], fun b => ?_⟩
  by_cases hb : b = .hp
  · subst hb
    have h := (perPilotEstimate_agree hregular hestimate).agree
    rw [length_perPilotEstimate, State.length_received] at h
    refine Num.agree_congr (fun j hj => by rw [element_estEffect_hp src hj]) (fun j hj => ?_) h
    rw [element_estEffect_hp src (hpilots.1 ▸ hj), href, hrec]
  · by_cases hb' : b = .hg
    · subst hb'
      have h := (fullGridEstimate_agree hregular hplaced hestimate).agree
      rw [length_fullGridEstimate] at h
      refine Num.agree_congr (fun k hk => by rw [element_estEffect_hg src hk]) (fun k hk => ?_) h
      rw [element_estEffect_hg src (hm ▸ hn ▸ hk), href, hrec, hm, hn]
    · simpa [State.writtenLength, hb, hb'] using Num.agree_zero _ _ _

/-- The effect of every command whose checks pass, on finite inputs and without overflow, agrees with the reference's. -/
theorem commandEffect_agrees {v : Valuation} {i : Instr} {u u' : State} (hreads : u.sameReads u' i)
    (href : u'.num = .reference) (hfin : u.inputsFinite v i) (hcheck : (commandParts i).2.1 u = none)
    (hhp : ∀ src, i = .est src → ∀ j < u.npilot.toNat, (((commandParts i).2.2 u).element .hp j).finite v) :
    ResultsAgree v u.num i (u.writtenLength i) ((commandParts i).2.2 u) ((commandParts i).2.2 u') := by
  cases i with
  | nop =>
    exact ⟨fun _ h => by simp [writesTlen] at h, fun _ h => by simp at h, fun b => Num.agree_zero _ _ _⟩
  | giIns src dst =>
    obtain ⟨-, -, hglen, hgmode, hseq⟩ := hreads
    simp only [commandParts, giInsEffect, ← State.mode_congr hgmode, ← hglen, ← State.seq_congr hseq]
    refine resultsAgree_storeSeq (Num.listsAgree_refl _) (by simp [writesTlen]) (by simp) ?_
    rw [length_giInsert (by simpa using giInsCheck_eq_none hcheck), State.length_seq]
  | giRem src dst =>
    obtain ⟨-, -, hglen, hgmode, hseq⟩ := hreads
    simp only [commandParts, giRemEffect, ← State.mode_congr hgmode, ← hglen, ← State.seq_congr hseq]
    exact resultsAgree_storeSeq (Num.listsAgree_refl _) (by simp [writesTlen]) (by simp) (by simp)
  | mod src dst =>
    obtain ⟨-, -, hm, hn, hglen, hgmode, hgrid⟩ := hreads
    simp only [commandParts, modEffect, ← State.mode_congr hgmode, ← hglen, ← hm, ← hn, href,
      ← State.grid_congr hgrid]
    refine resultsAgree_storeSeq (listsAgree_giInsert (modSamples_agree (State.finite_grid hfin) _ _) _ _)
      (by simp [writesTlen]) (by simp) ?_
    rw [length_giInsert (by simpa using modCheck_eq_none hcheck), length_modSamples]
  | demod src dst =>
    obtain ⟨-, -, hm, hn, hglen, hgmode, hseq⟩ := hreads
    simp only [commandParts, demodEffect, ← State.mode_congr hgmode, ← hglen, ← hm, ← hn, href,
      ← State.seq_congr hseq]
    refine ⟨fun _ h => by simp [writesTlen] at h, fun _ h => by simp at h, fun b => ?_⟩
    by_cases hb : b = gBuf dst
    · subst hb
      simpa [State.writtenLength] using agree_storeElements (demodCells_agree (State.finite_core hfin) _ _) (gBuf dst)
    · simpa [State.writtenLength, hb] using Num.agree_zero _ _ _
  | chan src dst =>
    obtain ⟨-, -, hfs, hnpath, hseq, hpaths⟩ := hreads
    simp only [commandParts, chanEffect, ← hfs, href, ← State.seq_congr hseq, ← State.paths_congr hnpath hpaths]
    refine resultsAgree_storeSeq (chanSamples_agree fun k hk => ?_) (by simp [writesTlen]) (by simp) (by simp)
    rw [State.length_seq] at hk
    exact State.finite_channelInputs hk (hfin k hk)
  | est src => exact estEffect_agrees hreads href hfin hcheck (hhp src rfl)

/-! ## The statement -/

/-- Each command ends as under the reference, and its results agree. -/
theorem exec_agrees {v : Valuation} {i : Instr} {s s' t r : State} (h0 : s.errcode = 0) (hreads : s.sameReads s' i)
    (href : s'.num = .reference) (hfin : s.inputsFinite v i) (ht : exec i s = .next t) (hr : exec i s' = .next r)
    (hhp : ∀ src, i = .est src → t.errcode = 0 → ∀ j < s.npilot.toNat, (t.element .hp j).finite v) :
    t.done = r.done ∧ t.errcode = r.errcode ∧
      (t.errcode ≠ 0 → t.errinfo = r.errinfo ∧ t.errcmd = r.errcmd) ∧
      (t.errcode = 0 → ResultsAgree v s.num i (s.writtenLength i) t r) := by
  have h0' : s'.errcode = 0 := hreads.1 ▸ h0
  have hacc := State.sameReads_accept hreads
  have hcheck := commandCheck_congr hacc
  rcases exec_cases h0 ht with ⟨e, hc, rfl⟩ | ⟨hc, rfl⟩
  · rcases exec_cases h0' hr with ⟨e', hc', rfl⟩ | ⟨hc', -⟩
    · obtain rfl : e = e' := by rw [← Option.some_inj, ← hc, ← hc', hcheck]
      refine ⟨rfl, rfl, fun _ => ⟨rfl, rfl⟩, fun h => ?_⟩
      obtain ⟨hnone, -⟩ := exec_completes h0 ht h
      rw [hc] at hnone
      cases hnone
    · rw [hcheck, hc'] at hc
      cases hc
  · rcases exec_cases h0' hr with ⟨e', hc', -⟩ | ⟨-, rfl⟩
    · rw [hcheck, hc'] at hc
      cases hc
    · have hcode : ((commandParts i).2.2 s.accept).complete.errcode = 0 := by
        simpa [commandEffect_errcode] using h0
      have hcode' : ((commandParts i).2.2 s'.accept).complete.errcode = 0 := by
        simpa [commandEffect_errcode] using h0'
      refine ⟨rfl, hcode.trans hcode'.symm, fun h => absurd hcode h, fun _ => ?_⟩
      obtain ⟨htlen, hhplen, hel⟩ := commandEffect_agrees hacc href (State.inputsFinite_accept hfin) hc
        fun src hi j hj => by simpa using hhp src hi hcode j hj
      refine ⟨by simpa using htlen, by simpa using hhplen, fun b => ?_⟩
      simpa [State.writtenLength_accept] using hel b

/-- GI.INS and GI.REM leave the same data under every `NUM` (00_scope.md R14 (a)). -/
theorem element_exec_guard_eq {op : Sel → Sel → Instr} (hop : op = .giIns ∨ op = .giRem) {src dst : Sel}
    {s s' t r : State} (h0 : s.errcode = 0) (hreads : s.sameReads s' (op src dst))
    (ht : exec (op src dst) s = .next t) (hr : exec (op src dst) s' = .next r) (hcode : t.errcode = 0) {k : ℕ}
    (hk : k < s.writtenLength (op src dst) (tBuf dst)) : t.element (tBuf dst) k = r.element (tBuf dst) k := by
  have h0' : s'.errcode = 0 := hreads.1 ▸ h0
  have hcheck := commandCheck_congr (State.sameReads_accept hreads)
  obtain ⟨hc, rfl⟩ := exec_completes h0 ht hcode
  rcases exec_cases h0' hr with ⟨e', hc', -⟩ | ⟨-, rfl⟩
  · rw [hcheck, hc'] at hc
    cases hc
  rcases hop with rfl | rfl
  · obtain ⟨-, -, hglen, hgmode, hseq⟩ := hreads
    have hlen : (giInsert (s.seq src) s.glen.toNat s.mode).length = _ :=
      length_giInsert (by simpa using giInsCheck_eq_none hc)
    simp only [State.writtenLength, reduceIte] at hk
    simp [commandParts, giInsEffect, State.element_storeSeq, ← State.mode_congr hgmode, ← hglen,
      ← State.seq_congr hseq, hlen, hk]
  · obtain ⟨-, -, hglen, hgmode, hseq⟩ := hreads
    simp only [State.writtenLength, reduceIte] at hk
    simp [commandParts, giRemEffect, State.element_storeSeq, ← State.mode_congr hgmode, ← hglen,
      ← State.seq_congr hseq, hk]

/-- What a CHAN that completes leaves. -/
theorem element_exec_chan {src dst : Sel} {s t : State} (h0 : s.errcode = 0) (ht : exec (.chan src dst) s = .next t)
    (hcode : t.errcode = 0) {k : ℕ} (hk : k < (s.tlen src).toNat) :
    t.element (tBuf dst) k = (chanSamples s.num (s.seq src) s.fs s.paths).getD k NumK.zero := by
  obtain ⟨-, rfl⟩ := exec_completes h0 ht hcode
  simp [commandParts, chanEffect, State.element_storeSeq, hk]

/-- CHAN leaves exact zeros before every path's delay (00_scope.md R14 (b)). -/
theorem element_exec_chan_of_lt {src dst : Sel} {s t : State} (h0 : s.errcode = 0)
    (ht : exec (.chan src dst) s = .next t) (hcode : t.errcode = 0) {k : ℕ} (hk : k < (s.tlen src).toNat)
    (hd : ∀ j < s.npath.toNat, k < (s.delayAt j).toNat) : t.element (tBuf dst) k = NumK.zero := by
  have hpaths : ∀ p ∈ s.paths, k < p.delay := by
    intro p hp
    obtain ⟨j, hj, rfl⟩ := List.mem_map.1 hp
    exact hd j (List.mem_range.1 hj)
  have hin : channelInputs (s.seq src) s.fs s.paths k = [] := by
    rw [channelInputs, List.filter_eq_nil_iff.2 fun p hp => by simpa using hpaths p hp, List.flatMap_nil]
  have hex : channelExact s.paths k = true := by
    have hany : (s.paths.any fun p => p.reaches k) = false :=
      List.any_eq_false.2 fun p hp => by simp [PathEntry.reaches, hpaths p hp]
    simp only [channelExact, hany, Bool.not_false, Bool.true_or]
  have hsum : (applyChannel (s.seq src) s.fs.toReal (s.paths.map PathEntry.path))[k]? = some NumK.zero := by
    refine getElem?_applyChannel_of_lt (by simpa using hk) _ fun q hq => ?_
    obtain ⟨p, hp, rfl⟩ := List.mem_map.1 hq
    exact hpaths p hp
  rw [element_exec_chan h0 ht hcode hk, List.getD_eq_getElem?_getD, getElem?_chanSamples_of_exact _ _ hin hex, hsum,
    Option.getD_some]

/-- CHAN with a single path without Doppler gives exactly the gain times the delayed samples (00_scope.md R14 (c)). -/
theorem value_exec_chan_single {v : Valuation} {src dst : Sel} {s t : State} (h0 : s.errcode = 0)
    (ht : exec (.chan src dst) s = .next t) (hcode : t.errcode = 0) (hn : s.npath = 1)
    (hdoppler : (s.dopplerAt 0).value v = 0) {k : ℕ} (hk : k < (s.tlen src).toNat) (hd : (s.delayAt 0).toNat ≤ k)
    (hfin : s.channelFinite v src k) :
    (t.element (tBuf dst) k).value v =
      ((s.gainAt 0).value v : ℂ) * (s.element (tBuf src) (k - (s.delayAt 0).toNat)).value v := by
  have hone : s.npath.toNat = 1 := by rw [hn]; rfl
  have hpaths : s.paths = [⟨(s.delayAt 0).toNat, s.gainAt 0, s.dopplerAt 0⟩] := by simp [State.paths, hone]
  obtain ⟨-, hgain, hdopplerFin, -⟩ := hfin 0 (by omega) hd
  obtain ⟨g, hg⟩ := RVal.exists_real_of_isFinite hgain
  obtain ⟨nu, hnu⟩ := RVal.exists_real_of_isFinite hdopplerFin
  rw [hnu] at hdoppler
  have hex : channelExact s.paths k = true := by
    rw [hpaths, hnu]
    simp only [channelExact, RVal.isZero, (NumR.isZero_iff v nu).2 hdoppler, Bool.or_true]
  have hk' : k < (s.seq src).length := by simpa using hk
  rw [element_exec_chan h0 ht hcode hk,
    value_chanSamples_of_exact hk' (State.finite_channelInputs hk hfin) hex, hpaths, hg, hnu]
  refine (value_applyChannel_single (p := ⟨(s.delayAt 0).toNat, g, nu⟩) hk' hd hdoppler _).trans ?_
  rw [List.getD_eq_getElem?_getD, State.getElem?_seq, if_pos (by omega)]
  rfl

/-- Settles O60: agreement of every command, the moved samples of the guard commands, and the exact samples of CHAN. -/
theorem finitePrecisionAgreesWithTheReference : Obligations.FinitePrecisionAgreesWithTheReference := by
  refine ⟨fun v i s s' t r h0 hreads href hfin ht hr hhp => ?_,
    fun op hop src dst s s' t r h0 hreads _ ht hr hcode k hk => element_exec_guard_eq hop h0 hreads ht hr hcode hk,
    fun v src dst s t h0 ht hcode => ⟨fun k hk hd => element_exec_chan_of_lt h0 ht hcode hk hd,
      fun hn hdoppler k hk hd hfin => value_exec_chan_single h0 ht hcode hn hdoppler hk hd hfin⟩⟩
  obtain ⟨hdone, hcode, herr, hres⟩ := exec_agrees h0 hreads href hfin ht hr hhp
  exact ⟨hdone, hcode, herr, fun h => ⟨(hres h).tlen, (hres h).hplen, (hres h).elements⟩⟩

end Machine

end Sys2Proof

/-! PROOFS. The host's accesses (20_memory.md R38): what an admitted access does, that a register and a table field are
read back as written, and the flags of STATUS; the reset values and what each command does on them. -/

namespace Sys2Proof

namespace Machine

/-! ## Admitted accesses -/

/-- Between commands an access to something that exists, with a value of its type, is performed. -/
theorem hostStep_of_admitted {a : HostAction} {s : State} (hb : s.busy = false) (hr : a.inRange s.caps = true)
    (ht : a.typed s.num = true) : hostStep a s = performAccess a s := by
  simp [hostStep, hb, hr, ht]

/-- A word is written to a register other than CMD. -/
theorem hostStep_writeReg {s : State} (hb : s.busy = false) {no : Nat} (h0 : no ≠ 0) (h14 : no < 14) (v : Word) :
    hostStep (.writeReg no (.u32 v)) s = .next (s.writeReg no v) := by
  have hr : (HostAction.writeReg no (.u32 v)).inRange s.caps = true := decide_eq_true h14.le
  have ht : (HostAction.writeReg no (.u32 v)).typed s.num = true := decide_eq_true h14.ne
  rw [hostStep_of_admitted hb hr ht, performAccess, if_neg h0]

theorem hostStep_writePath {s : State} (hb : s.busy = false) {j : Nat} (hj : j < s.caps.pcap) {x : PathValue}
    (ht : (HostAction.writePath j x).typed s.num = true) : hostStep (.writePath j x) s = .next (s.writePath j x) :=
  hostStep_of_admitted hb (decide_eq_true hj) ht

theorem hostStep_writePilot {s : State} (hb : s.busy = false) {j : Nat} (hj : j < s.caps.qcap) {x : PilotValue}
    (ht : (HostAction.writePilot j x).typed s.num = true) : hostStep (.writePilot j x) s = .next (s.writePilot j x) :=
  hostStep_of_admitted hb (decide_eq_true hj) ht

/-- Settles O5: the write of a word to CMD is admitted, and a legal word runs its command. -/
theorem stepRunsTheDecodedCommand : Obligations.StepRunsTheDecodedCommand := by
  intro s w i rest hhost hbusy hdecode
  have hadmitted : hostStep (.writeReg 0 (.u32 w)) { s with host := rest } =
      performAccess (.writeReg 0 (.u32 w)) { s with host := rest } := hostStep_of_admitted hbusy rfl rfl
  rw [step, hhost]
  simp only [hadmitted, performAccess, writeCmd, hdecode, reduceIte]

/-! ## STATUS -/

@[simp] theorem getLsbD_flagBit (b : Bool) (k : Nat) : (flagBit b).getLsbD k = (decide (k = 0) && b) := by
  cases b with
  | false => simp [flagBit]
  | true => simp [flagBit]

/-- The bits of STATUS (10_state.md R23). -/
theorem getLsbD_status (s : State) (k : Nat) :
    s.status.getLsbD k = ((decide (k = 0) && s.busy) || (decide (k = 1) && s.done) || (decide (k = 2) && s.err)) := by
  simp only [State.status, BitVec.getLsbD_append, getLsbD_flagBit]
  match k with
  | 0 => simp
  | 1 => simp
  | 2 => simp
  | k + 3 => simp

/-- Settles O16, bit by bit. -/
theorem statusWordHoldsTheFlags : Obligations.StatusWordHoldsTheFlags := by
  intro s
  refine ⟨?_, ?_, ?_, fun k hk => ?_⟩ <;> rw [getLsbD_status]
  · simp
  · simp
  · simp [State.err]
  · simp [show k ≠ 0 by omega, show k ≠ 1 by omega, show k ≠ 2 by omega]

/-! ## Registers -/

/-- A register number of a configuration register of 32 bits (10_state.md R22). -/
theorem configRegister_cases {no : Nat} (h5 : 5 ≤ no) (h12 : no ≤ 12) :
    no = 5 ∨ no = 6 ∨ no = 7 ∨ no = 8 ∨ no = 9 ∨ no = 10 ∨ no = 11 ∨ no = 12 := by
  omega

/-- A configuration register reads back what was written. -/
theorem State.readReg_writeReg_same (s : State) {no : Nat} (h5 : 5 ≤ no) (h12 : no ≤ 12) (v : Word) :
    (s.writeReg no v).readReg no = .u32 v := by
  rcases configRegister_cases h5 h12 with rfl | rfl | rfl | rfl | rfl | rfl | rfl | rfl <;> rfl

/-- Every register reads as before a write to another configuration register. -/
theorem State.readReg_writeReg_other (s : State) {no other : Nat} (h5 : 5 ≤ no) (h12 : no ≤ 12) (hne : other ≠ no)
    (v : Word) : (s.writeReg no v).readReg other = s.readReg other := by
  unfold State.readReg
  rcases configRegister_cases h5 h12 with rfl | rfl | rfl | rfl | rfl | rfl | rfl | rfl <;>
    split <;> simp_all [State.writeReg, State.status, State.err]

/-- A write to a register of 32 bits changes no buffer. -/
theorem State.buf_writeReg (s : State) (no : Nat) (v : Word) (b : Buf) : (s.writeReg no v).buf b = s.buf b := by
  unfold State.writeReg
  split <;> cases b <;> rfl

/-- A write to a register of 32 bits changes no table. -/
theorem State.tables_writeReg (s : State) (no : Nat) (v : Word) :
    (s.writeReg no v).pathDelay = s.pathDelay ∧ (s.writeReg no v).pathGain = s.pathGain ∧
      (s.writeReg no v).pathDoppler = s.pathDoppler ∧ (s.writeReg no v).pilotDidx = s.pilotDidx ∧
      (s.writeReg no v).pilotLidx = s.pilotLidx ∧ (s.writeReg no v).pilotPval = s.pilotPval := by
  unfold State.writeReg
  split <;> exact ⟨rfl, rfl, rfl, rfl, rfl, rfl⟩

/-- A read-only register ignores a write (10_state.md R22). -/
theorem State.writeReg_readOnly (s : State) {no : Nat} (h : no = 1 ∨ no = 3 ∨ no = 4 ∨ no = 13) (v : Word) :
    s.writeReg no v = s := by
  rcases h with rfl | rfl | rfl | rfl <;> rfl

/-- A write to FS stores the value. -/
theorem hostStep_writeFs {s : State} (hb : s.busy = false) {r : RVal} (hr : s.num.admitsR r = true) :
    hostStep (.writeReg 14 (.real r)) s = .next { s with fs := r } :=
  hostStep_of_admitted hb rfl (by simpa [HostAction.typed] using hr)

/-- Settles O51: an admitted write to a register is `State.writeReg`, and the rules above say what is read after it. -/
theorem registerWritesAreReadBack : Obligations.RegisterWritesAreReadBack := by
  intro s hb
  have hwrite : ∀ (no : Nat) (v : Word), no ≠ 0 → no < 14 →
      hostStep (.writeReg no (.u32 v)) s = .next (s.writeReg no v) := fun no v h0 h14 => hostStep_writeReg hb h0 h14 v
  refine ⟨fun no v h5 h12 => ?_, fun v => ?_, fun r hr => ⟨hostStep_writeFs hb hr, rfl⟩, fun no v h => ?_, ?_⟩
  · exact ⟨s.writeReg no v, hwrite no v (by omega) (by omega), State.readReg_writeReg_same s h5 h12 v,
      fun other hne => State.readReg_writeReg_other s h5 h12 hne v, s.buf_writeReg no v, s.tables_writeReg no v⟩
  · refine ⟨?_, ?_, ?_, ?_, ?_, ?_, ?_, ?_⟩ <;> exact hwrite _ v (by decide) (by decide)
  · rw [hwrite no v (by omega) (by omega), State.writeReg_readOnly s h]
  · exact ⟨rfl, rfl, rfl, rfl, rfl, rfl, rfl, rfl, rfl, rfl, rfl, rfl, rfl, rfl, rfl⟩

/-! ## Tables -/

theorem State.delayAt_writePath (s : State) (j : Nat) (v : Word) (k : Nat) :
    (s.writePath j (.delay v)).delayAt k = if k = j then v else s.delayAt k := by
  by_cases h : k = j <;> simp [State.delayAt, State.writePath, Mem.read_write, h]

theorem State.gainAt_writePath (s : State) (j : Nat) (v : RVal) (k : Nat) :
    (s.writePath j (.gain v)).gainAt k = if k = j then v else s.gainAt k := by
  by_cases h : k = j <;> simp [State.gainAt, State.writePath, Mem.read_write, h]

theorem State.dopplerAt_writePath (s : State) (j : Nat) (v : RVal) (k : Nat) :
    (s.writePath j (.doppler v)).dopplerAt k = if k = j then v else s.dopplerAt k := by
  by_cases h : k = j <;> simp [State.dopplerAt, State.writePath, Mem.read_write, h]

theorem State.didxAt_writePilot (s : State) (j : Nat) (v : Word) (k : Nat) :
    (s.writePilot j (.didx v)).didxAt k = if k = j then v else s.didxAt k := by
  by_cases h : k = j <;> simp [State.didxAt, State.writePilot, Mem.read_write, h]

theorem State.lidxAt_writePilot (s : State) (j : Nat) (v : Word) (k : Nat) :
    (s.writePilot j (.lidx v)).lidxAt k = if k = j then v else s.lidxAt k := by
  by_cases h : k = j <;> simp [State.lidxAt, State.writePilot, Mem.read_write, h]

/-- A pilot value is stored in its canonical form (log entry 2). -/
theorem State.pvalAt_writePilot (s : State) (j : Nat) (v : InputVal) (k : Nat) :
    (s.writePilot j (.pval v)).pvalAt k = if k = j then v.normalise else s.pvalAt k := by
  by_cases h : k = j <;> simp [State.pvalAt, State.writePilot, Mem.read_write, h]

/-- Settles O53: one rule for each field of the two tables. -/
theorem tableWritesAreReadBack : Obligations.TableWritesAreReadBack := by
  intro s j hb
  refine ⟨fun hj delay gain doppler hg hd => ⟨?_, ?_, ?_⟩, fun hj d l p hp => ⟨?_, ?_, ?_⟩⟩
  · refine ⟨_, hostStep_writePath hb hj (x := .delay delay) rfl, ?_, fun k hk => ?_, rfl⟩
    · rw [State.delayAt_writePath, if_pos rfl]
    · rw [State.delayAt_writePath, if_neg hk]
  · refine ⟨_, hostStep_writePath hb hj (x := .gain gain) hg, ?_, fun k hk => ?_, rfl⟩
    · rw [State.gainAt_writePath, if_pos rfl]
    · rw [State.gainAt_writePath, if_neg hk]
  · refine ⟨_, hostStep_writePath hb hj (x := .doppler doppler) hd, ?_, fun k hk => ?_, rfl⟩
    · rw [State.dopplerAt_writePath, if_pos rfl]
    · rw [State.dopplerAt_writePath, if_neg hk]
  · refine ⟨_, hostStep_writePilot hb hj (x := .didx d) rfl, ?_, fun k hk => ?_, rfl⟩
    · rw [State.didxAt_writePilot, if_pos rfl]
    · rw [State.didxAt_writePilot, if_neg hk]
  · refine ⟨_, hostStep_writePilot hb hj (x := .lidx l) rfl, ?_, fun k hk => ?_, rfl⟩
    · rw [State.lidxAt_writePilot, if_pos rfl]
    · rw [State.lidxAt_writePilot, if_neg hk]
  · have hval : (s.writePilot j (.pval p)).pvalAt j = p.normalise := by
      rw [State.pvalAt_writePilot, if_pos rfl]
    refine ⟨_, hostStep_writePilot hb hj (x := .pval p) hp, fun v => ?_, ?_, fun z hz => ?_, fun k hk => ?_, rfl⟩
    · rw [hval, InputVal.value_normalise]
    · rw [hval]
      cases p <;> rfl
    · rw [hval, hz]
      rfl
    · rw [State.pvalAt_writePilot, if_neg hk]

/-! ## Reset -/

/-- Settles O55: after reset no memory lists an element, every flag and every register is 0, and FS is a number. -/
theorem invariantHoldsAtReset : Obligations.InvariantHoldsAtReset := by
  have hlatch : State.reset.latchConsistent := ⟨.inl rfl, fun _ => ⟨rfl, rfl⟩, fun h => absurd rfl h⟩
  refine ⟨⟨rfl, State.reset_memoriesWf, ?_, hlatch, ?_, fun _ => ?_⟩, ?_⟩
  · simp [State.memoriesInRange, State.reset, Mem.below]
  · exact Nat.zero_le _
  · simp [State.reset, RVal.isFinite, Mem.numbersFinite]
  · simp [State.numbersCanonical, State.reset, Mem.numbersCanonical]

/-- A command whose check fails raises that error. -/
theorem exec_of_raises {i : Instr} {s : State} {e : CmdError} (h0 : s.errcode = 0)
    (hc : (commandParts i).2.1 s.accept = some e) : exec i s = .next (s.accept.raise (commandParts i).1 e) := by
  rw [exec_eq, commandState_raises h0 hc]

/-- A command whose checks pass completes. -/
theorem exec_of_completes {i : Instr} {s : State} (h0 : s.errcode = 0) (hc : (commandParts i).2.1 s.accept = none) :
    exec i s = .next ((commandParts i).2.2 s.accept).complete := by
  rw [exec_eq, commandState_completes h0 hc]

/-- GI.INS and GI.REM succeed on the empty sequence of the reset state. -/
theorem exec_guard_reset {i : Instr} {b : Sel} {vs : List NumK} (hc : (commandParts i).2.1 State.reset.accept = none)
    (he : (commandParts i).2.2 State.reset.accept = State.reset.accept.storeSeq b vs) (hvs : vs.length = 0) :
    ∃ t, exec i State.reset = .next t ∧ t.succeeded ∧ t.tlen b = 0 := by
  refine ⟨_, exec_of_completes rfl hc, ⟨rfl, ?_⟩, ?_⟩
  · rw [he, State.complete_errcode, State.storeSeq_errcode]
    rfl
  · rw [he, State.complete_tlen, State.tlen_storeSeq, if_pos rfl, hvs]
    rfl

/-- A ConfigurationError of a register, raised on the reset state. -/
theorem exec_raises_reset {i : Instr} {p : Param}
    (hc : (commandParts i).2.1 State.reset.accept = some (configError p)) :
    ∃ t, exec i State.reset = .next t ∧ t.errcode = 2 ∧ t.errinfo = (0 : BitVec 24) ++ p.ident :=
  ⟨_, exec_of_raises rfl hc, rfl, rfl⟩

/-- Settles O49: the registers and memories by evaluation, the commands by what their checks find. -/
theorem resetValues : Obligations.ResetValues := by
  refine ⟨fun no hno => ?_, rfl, fun b => by cases b <;> rfl, rfl, rfl, rfl, rfl, rfl, rfl,
    ⟨_, exec_of_completes (i := .nop) rfl rfl, rfl, rfl⟩, fun a b => ⟨?_, ?_, ?_, ?_, ?_, ?_⟩⟩
  · interval_cases no <;> rfl
  · exact exec_guard_reset (by cases a <;> rfl) rfl (by cases a <;> rfl)
  · exact exec_guard_reset (by cases a <;> rfl) rfl (by cases a <;> rfl)
  · exact exec_raises_reset (p := .m) rfl
  · exact exec_raises_reset (p := .m) rfl
  · exact exec_raises_reset (p := .m) rfl
  · exact exec_raises_reset (p := .fs) rfl

end Machine

end Sys2Proof

/-! PROOFS. What a command writes (10_state.md R19, R28): the elements its effect stores in each buffer, as many as
`writtenLength` says where its checks pass, the length registers it sets, and nothing else. -/

namespace Sys2Proof

namespace Machine

/-! ## The elements a command stores -/

/-- The elements that the effect of a command stores in a buffer, the first at index 0. -/
def State.output (s : State) : Instr → Buf → List NumK
  | .nop, _ => []
  | .giIns src dst, b => if b = tBuf dst then giInsert (s.seq src) s.glen.toNat s.mode else []
  | .giRem src dst, b => if b = tBuf dst then giRemove (s.seq src) s.glen.toNat s.mode else []
  | .mod src dst, b =>
    if b = tBuf dst then
      giInsert (modSamples s.num s.m.toNat s.n.toNat (s.grid src s.m.toNat s.n.toNat)) s.glen.toNat s.mode
    else []
  | .demod src dst, b =>
    if b = gBuf dst then
      demodCells s.num s.m.toNat s.n.toNat
        (reconcile (giRemove (s.seq src) s.glen.toNat s.mode) (s.m.toNat * s.n.toNat))
    else []
  | .chan src dst, b => if b = tBuf dst then chanSamples s.num (s.seq src) s.fs s.paths else []
  | .est src, b =>
    if b = .hp then perPilotEstimate s.num (s.received src)
    else if b = .hg then fullGridEstimate s.num (s.received src) s.m.toNat s.n.toNat
    else []

/-- The elements a buffer reads as where the elements `vs` stand at its beginning. -/
theorem element_ite_eq {s : State} {b c : Buf} {k : Nat} {vs : List NumK} :
    (if b = c ∧ k < vs.length then vs.getD k NumK.zero else s.element b k) =
      if k < (if b = c then vs else []).length then (if b = c then vs else []).getD k NumK.zero
      else s.element b k := by
  by_cases hb : b = c <;> simp [hb]

/-- The effect of a command stores its output, and every other element reads as before. -/
theorem element_commandEffect (i : Instr) (s : State) (b : Buf) (k : Nat) :
    ((commandParts i).2.2 s).element b k =
      if k < (s.output i b).length then (s.output i b).getD k NumK.zero else s.element b k := by
  cases i with
  | nop => rfl
  | giIns src dst => exact (State.element_storeSeq ..).trans element_ite_eq
  | giRem src dst => exact (State.element_storeSeq ..).trans element_ite_eq
  | mod src dst => exact (State.element_storeSeq ..).trans element_ite_eq
  | demod src dst => exact (State.element_storeElements ..).trans element_ite_eq
  | chan src dst => exact (State.element_storeSeq ..).trans element_ite_eq
  | est src =>
    simp only [commandParts, estEffect, State.element_storeElements, State.element_setHplen]
    cases b <;> simp [State.output]

/-- Where its checks pass, a command stores as many elements as `writtenLength` says. -/
theorem length_output {i : Instr} {s : State} (hc : (commandParts i).2.1 s = none) (b : Buf) :
    (s.output i b).length = s.writtenLength i b := by
  cases i with
  | nop => rfl
  | giIns src dst =>
    have hlen := length_giInsert (xs := s.seq src) (by simpa using giInsCheck_eq_none hc)
    by_cases hb : b = tBuf dst <;> simp [State.output, State.writtenLength, hb, hlen]
  | giRem src dst => by_cases hb : b = tBuf dst <;> simp [State.output, State.writtenLength, hb]
  | mod src dst =>
    have hlen := length_giInsert (g := s.glen.toNat)
      (xs := modSamples s.num s.m.toNat s.n.toNat (s.grid src s.m.toNat s.n.toNat))
      (by simpa using modCheck_eq_none hc)
    by_cases hb : b = tBuf dst <;> simp [State.output, State.writtenLength, hb, hlen]
  | demod src dst => by_cases hb : b = gBuf dst <;> simp [State.output, State.writtenLength, hb]
  | chan src dst => by_cases hb : b = tBuf dst <;> simp [State.output, State.writtenLength, hb]
  | est src => cases b <;> simp [State.output, State.writtenLength]

/-! ## The registers a command sets -/

/-- The effect of a command sets the length register of the time buffer it writes and no other. -/
theorem tlen_commandEffect (i : Instr) (s : State) (sel : Sel) :
    ((commandParts i).2.2 s).tlen sel =
      if writesTlen i sel = true then lengthWord (s.output i (tBuf sel)).length else s.tlen sel := by
  have hstore : ∀ (dst : Sel) (vs : List NumK), (s.storeSeq dst vs).tlen sel =
      if decide (sel = dst) = true then lengthWord (if tBuf sel = tBuf dst then vs else []).length
      else s.tlen sel := by
    intro dst vs
    by_cases h : sel = dst
    · subst h
      simp [State.tlen_storeSeq]
    · simp [State.tlen_storeSeq, h, Ne.symm h]
  cases i with
  | nop => rfl
  | giIns src dst => exact hstore ..
  | giRem src dst => exact hstore ..
  | mod src dst => exact hstore ..
  | demod src dst => simp [commandParts, demodEffect, writesTlen, State.storeElements]
  | chan src dst => exact hstore ..
  | est src => simp [commandParts, estEffect, writesTlen, State.storeElements]

theorem hplen_estEffect (src : Sel) (s : State) : (estEffect src s).hplen = s.npilot := by
  simp [estEffect]

/-- No command but EST sets HPLEN. -/
theorem hplen_commandEffect {i : Instr} (h : ∀ src, i ≠ .est src) (s : State) :
    ((commandParts i).2.2 s).hplen = s.hplen := by
  cases i with
  | est src => exact absurd rfl (h src)
  | _ => simp [commandParts, giInsEffect, giRemEffect, modEffect, demodEffect, chanEffect]

/-- The effect of a command leaves the configuration, the tables and the error latch as they are. -/
theorem commandEffect_keeps (i : Instr) (s : State) :
    s.sameConfiguration ((commandParts i).2.2 s) ∧ ((commandParts i).2.2 s).errinfo = s.errinfo ∧
      ((commandParts i).2.2 s).errcmd = s.errcmd := by
  cases i <;>
    simp [State.sameConfiguration, commandParts, giInsEffect, giRemEffect, modEffect, demodEffect, chanEffect,
      estEffect]

/-! ## The frame of a command -/

/-- What a command that completes leaves as it was. -/
theorem frame_of_completes {i : Instr} {s t : State} (hc : (commandParts i).2.1 s.accept = none)
    (ht : t = ((commandParts i).2.2 s.accept).complete) :
    s.sameConfiguration t ∧ (∀ sel, writesTlen i sel = false → t.tlen sel = s.tlen sel) ∧
      ((∀ src, i ≠ .est src) → t.hplen = s.hplen) ∧
      (∀ (b : Buf) (k : Nat), s.writtenLength i b ≤ k → t.element b k = s.element b k) ∧
      t.errinfo = s.errinfo ∧ t.errcmd = s.errcmd := by
  subst ht
  obtain ⟨hconf, hinfo, hcmd⟩ := commandEffect_keeps i s.accept
  refine ⟨hconf, fun sel hsel => ?_, fun hest => hplen_commandEffect hest s.accept, fun b k hk => ?_, hinfo, hcmd⟩
  · rw [State.complete_tlen, tlen_commandEffect, hsel]
    exact State.accept_tlen s sel
  · rw [State.element_complete, element_commandEffect, length_output hc, State.writtenLength_accept,
      if_neg (by omega), State.element_accept]

/-- No error has the code 0. -/
theorem ErrCode.code_ne_zero (c : ErrCode) : c.code ≠ 0 := by
  cases c <;> decide

/-- Settles O11: a command is dropped, or raises an error and writes nothing else, or completes. -/
theorem commandsWriteOnlyTheirOutputs : Obligations.CommandsWriteOnlyTheirOutputs := by
  intro i s t ht
  have hsame : s.sameConfiguration s := by simp [State.sameConfiguration]
  by_cases h0 : s.errcode = 0
  · rcases exec_cases h0 ht with ⟨e, -, rfl⟩ | ⟨hc, rfl⟩
    · refine ⟨hsame, fun sel _ => by simp, fun _ => by simp, fun b k _ => by simp, fun h => ?_⟩
      rw [State.raise_errcode, h0] at h
      exact absurd h (ErrCode.code_ne_zero e.cls)
    · obtain ⟨hconf, htlen, hhplen, hel, hinfo⟩ := frame_of_completes hc rfl
      exact ⟨hconf, htlen, hhplen, hel, fun _ => hinfo⟩
  · rw [exec_eq, commandState_latched h0] at ht
    cases ht
    exact ⟨hsame, fun _ _ => rfl, fun _ => rfl, fun _ _ _ => rfl, fun _ => ⟨rfl, rfl⟩⟩

end Machine

end Sys2Proof

/-! PROOFS. A number is its value and not the way it is written down (10_state.md R31): where the operands hold the same
values, so do the results of every operation that a command makes, and so do the results of a stage in every `NUM`. -/

namespace Sys2Proof

/-! ## Lists -/

/-- What holds of the elements of two lists at each place, and of two zeros, holds of what is read at any index. -/
theorem forall₂_getD {R : NumK → NumK → Prop} (h0 : R NumK.zero NumK.zero) {xs ys : List NumK}
    (h : List.Forall₂ R xs ys) (k : ℕ) : R (xs.getD k NumK.zero) (ys.getD k NumK.zero) := by
  induction h generalizing k with
  | nil => exact h0
  | cons hxy _ ih =>
    cases k with
    | zero => exact hxy
    | succ k => exact ih k

/-- `List.rel_map`, for two functions. -/
theorem forall₂_map {α β γ δ : Type} {R : α → β → Prop} {S : γ → δ → Prop} {f : α → γ} {g : β → δ} {xs : List α}
    {ys : List β} (h : List.Forall₂ R xs ys) (hfg : ∀ x y, R x y → S (f x) (g y)) :
    List.Forall₂ S (xs.map f) (ys.map g) :=
  List.rel_map (fun x y => hfg x y) h

theorem forall₂_mapIdx {α β γ δ : Type} {R : α → β → Prop} {S : γ → δ → Prop} {f : ℕ → α → γ} {g : ℕ → β → δ}
    (hfg : ∀ k x y, R x y → S (f k x) (g k y)) {xs : List α} {ys : List β} (h : List.Forall₂ R xs ys) :
    List.Forall₂ S (xs.mapIdx f) (ys.mapIdx g) := by
  obtain ⟨hlen, hget⟩ := List.forall₂_iff_get.1 h
  refine List.forall₂_iff_get.2 ⟨by simpa using hlen, fun k hx hy => ?_⟩
  simpa using hfg k _ _ (hget k (by simpa using hx) (by simpa using hy))

/-- Two lists made index by index. -/
theorem forall₂_map_range {α β : Type} {S : α → β → Prop} {f : ℕ → α} {g : ℕ → β} {n : ℕ}
    (h : ∀ k < n, S (f k) (g k)) : List.Forall₂ S ((List.range n).map f) ((List.range n).map g) := by
  rw [List.forall₂_map_left_iff, List.forall₂_map_right_iff, List.forall₂_same]
  exact fun k hk => h k (List.mem_range.1 hk)

/-- Lists that hold the same values, of the function `f`, are mapped to the same list. -/
theorem map_eq_of_forall₂ {α β : Type} {f : α → β} {xs ys : List α}
    (h : List.Forall₂ (fun x y => f x = f y) xs ys) : xs.map f = ys.map f := by
  induction h with
  | nil => rfl
  | cons hxy _ ih => rw [List.map_cons, List.map_cons, hxy, ih]

/-- The two lists hold the same values, place by place. -/
abbrev SameValues (v : Valuation) (xs ys : List NumK) : Prop := List.Forall₂ (fun x y => x.sameValue v y) xs ys

section
variable {v : Valuation}

/-! ## Values of `R` -/

/-- Values of `R` that are the same are the same real number, or the same non-finite encoding. -/
theorem RVal.cases_of_meaning_eq {r r' : RVal} (h : r.meaning v = r'.meaning v) :
    (∃ x x', r = .real x ∧ r' = .real x' ∧ x.value v = x'.value v) ∨ ∃ s, r = .special s ∧ r' = .special s := by
  cases r with
  | real x =>
    cases r' with
    | real x' => exact .inl ⟨x, x', rfl, rfl, RValue.real.inj h⟩
    | special s => cases h
  | special s =>
    cases r' with
    | real x' => cases h
    | special s' => exact .inr ⟨s, rfl, by rw [RValue.special.inj h]⟩

theorem RVal.isPositive_congr {r r' : RVal} (h : r.meaning v = r'.meaning v) : r.isPositive = r'.isPositive := by
  rcases RVal.cases_of_meaning_eq h with ⟨x, x', rfl, rfl, hx⟩ | ⟨s, rfl, rfl⟩
  · rw [Bool.eq_iff_iff, RVal.isPositive_iff v, RVal.isPositive_iff v, RVal.positive, RVal.positive, hx]
  · rfl

theorem RVal.isNonneg_congr {r r' : RVal} (h : r.meaning v = r'.meaning v) : r.isNonneg = r'.isNonneg := by
  rcases RVal.cases_of_meaning_eq h with ⟨x, x', rfl, rfl, hx⟩ | ⟨s, rfl, rfl⟩
  · rw [Bool.eq_iff_iff, RVal.isNonneg_iff v, RVal.isNonneg_iff v, RVal.nonneg, RVal.nonneg, hx]
  · rfl

theorem RVal.isZero_congr {r r' : RVal} (h : r.meaning v = r'.meaning v) : r.isZero = r'.isZero := by
  rcases RVal.cases_of_meaning_eq h with ⟨x, x', rfl, rfl, hx⟩ | ⟨s, rfl, rfl⟩
  · rw [Bool.eq_iff_iff, RVal.isZero, RVal.isZero, NumR.isZero_iff v, NumR.isZero_iff v, hx]
  · rfl

theorem RVal.value_toReal_congr {r r' : RVal} (h : r.meaning v = r'.meaning v) :
    r.toReal.value v = r'.toReal.value v := by
  rcases RVal.cases_of_meaning_eq h with ⟨x, x', rfl, rfl, hx⟩ | ⟨s, rfl, rfl⟩
  · exact hx
  · rfl

/-! ## Values of `K` -/

theorem NumK.finite_congr {x y : NumK} (h : x.sameValue v y) : x.finite v ↔ y.finite v := by
  rw [NumK.finite, NumK.finite, h]

theorem NumK.value_congr {x y : NumK} (h : x.sameValue v y) : x.value v = y.value v := congrArg KValue.toComplex h

/-- Finite values are the same where they are the same complex number. -/
theorem NumK.sameValue_of_value_eq {x y : NumK} (hx : x.finite v) (hy : y.finite v) (h : x.value v = y.value v) :
    x.sameValue v y := by
  rw [NumK.sameValue, NumK.meaning_eq_number hx, NumK.meaning_eq_number hy, h]

theorem RVal.complex_congr {r r' : RVal} (h : r.meaning v = r'.meaning v) : r.complex.sameValue v r'.complex := by
  rcases RVal.cases_of_meaning_eq h with ⟨x, x', rfl, rfl, hx⟩ | ⟨s, rfl, rfl⟩
  · refine NumK.sameValue_of_value_eq (RVal.finite_complex v rfl) (RVal.finite_complex v rfl) ?_
    rw [RVal.complex, RVal.complex, NumK.value_ofReal, NumK.value_ofReal, hx]
  · rfl

/-- Whether a value of the host is 0 is a question about its value. -/
theorem InputVal.isZero_congr {x y : InputVal} (h : x.val.sameValue v y.val) : x.isZero = y.isZero := by
  rw [Bool.eq_iff_iff, InputVal.isZero_iff v, InputVal.isZero_iff v, InputVal.zero, InputVal.zero,
    ← InputVal.finite_val_iff v, ← InputVal.finite_val_iff v, ← InputVal.value_val, ← InputVal.value_val,
    NumK.finite_congr h, NumK.value_congr h]

theorem NumK.choose_congr {x x' y y' z z' : NumK} (hx : x.sameValue v x') (hy : x.finite v → y.sameValue v y')
    (hz : z.sameValue v z') : (NumK.choose x y z).sameValue v (NumK.choose x' y' z') := by
  classical
  rw [NumK.sameValue, NumK.meaning_choose, NumK.meaning_choose]
  by_cases h : x.finite v
  · rw [if_pos h, if_pos ((NumK.finite_congr hx).1 h)]
    exact hy h
  · rw [if_neg h, if_neg ((NumK.finite_congr hx).not.1 h)]
    exact hz

theorem NumK.fix_congr {x x' : NumK} (h : x.sameValue v x') : x.fix.sameValue v x'.fix :=
  NumK.choose_congr h (fun _ => h) rfl

theorem NumK.whenFinite_congr {inputs inputs' : List NumK} {x x' y y' : NumK} (hin : SameValues v inputs inputs')
    (hx : (∀ input ∈ inputs, input.finite v) → x.sameValue v x') (hy : y.sameValue v y') :
    (NumK.whenFinite inputs x y).sameValue v (NumK.whenFinite inputs' x' y') := by
  induction hin with
  | nil => exact hx (by simp)
  | cons h _ ih =>
    exact NumK.choose_congr h (fun hfin => ih fun hins => hx (List.forall_mem_cons.2 ⟨hfin, hins⟩)) hy

theorem NumK.value_largest_cons (x : NumK) (xs : List NumK) :
    (NumK.largest (x :: xs)).value v =
      if ‖(NumK.largest xs).value v‖ ≤ ‖x.value v‖ then x.value v else (NumK.largest xs).value v := rfl

theorem NumK.value_largest_congr {xs ys : List NumK} (h : SameValues v xs ys) :
    (NumK.largest xs).value v = (NumK.largest ys).value v := by
  induction h with
  | nil => rfl
  | cons hxy _ ih => rw [NumK.value_largest_cons, NumK.value_largest_cons, ih, NumK.value_congr hxy]

/-! ## The results of a finite-precision `NUM` -/

theorem NumK.nonFinite_congr {name name' : ℕ} (h : v.choice name = v.choice name') :
    (NumK.nonFinite name).sameValue v (.nonFinite name') := congrArg (fun c : Choice => KValue.special c.nonFinite) h

theorem NumK.unspecified_congr {name name' : ℕ} (h : v.choice name = v.choice name') :
    (NumK.unspecified name).sameValue v (.unspecified name') := congrArg Choice.unspecified h

theorem Num.round_congr {num : Num} {name name' : ℕ} {size size' x x' : NumK} (hname : v.choice name = v.choice name')
    (hsize : size.value v = size'.value v) (hx : x.sameValue v x') :
    (num.round name size x).sameValue v (num.round name' size' x') := by
  cases num with
  | reference => exact hx
  | finite structureNo tol specials =>
    refine NumK.sameValue_of_value_eq trivial trivial ?_
    rw [Num.round, Num.round, NumK.value_rounded, NumK.value_rounded, NumK.value_congr hx, hsize, hname]

theorem Num.roundNonzero_congr {num : Num} {name name' : ℕ} {size size' x x' : NumK}
    (hname : v.choice name = v.choice name') (hsize : size.value v = size'.value v) (hx : x.sameValue v x') :
    (num.roundNonzero name size x).sameValue v (num.roundNonzero name' size' x') := by
  classical
  cases num with
  | reference => exact hx
  | finite structureNo tol specials =>
    have hround := Num.round_congr (num := .finite structureNo tol specials) hname hsize hx
    rw [Num.roundNonzero, Num.roundNonzero, NumK.sameValue, NumK.meaning_unlessZero, NumK.meaning_unlessZero,
      NumK.finite_congr hx, NumK.value_congr hx]
    split
    · rfl
    · exact hround

/-- A division by a number other than 0. -/
theorem Num.divide_congr {num : Num} {name name' : ℕ} {x x' y y' : NumK} (hname : v.choice name = v.choice name')
    (hx : x.sameValue v x') (hy : y.sameValue v y') (h0 : y.value v ≠ 0) :
    (num.divide name x y).sameValue v (num.divide name' x' y') := by
  have hyv := NumK.value_congr hy
  unfold Num.divide
  split
  · rw [NumK.sameValue, NumK.meaning_quotient, NumK.meaning_quotient, hname, NumK.value_congr hx, hyv]
  · refine NumK.sameValue_of_value_eq (NumK.finite_div x y) (NumK.finite_div x' y') ?_
    rw [NumK.value_div h0, NumK.value_div (hyv ▸ h0), NumK.value_congr hx, hyv]

/-- What `NUM` makes of a result is the same for the same inputs (10_state.md R31). -/
theorem choice_resultName_congr {structureNo : ℕ} {stage : Stage} {words : List ℕ} {reals reals' : List RVal}
    {numbers numbers' : List NumK} {index : ℕ}
    (hreals : List.Forall₂ (fun r r' => r.meaning v = r'.meaning v) reals reals')
    (hnumbers : SameValues v numbers numbers') :
    v.choice (Config.resultName structureNo stage words reals numbers index) =
      v.choice (Config.resultName structureNo stage words reals' numbers' index) :=
  v.dependOnValues _ _ _ _ _ _ _ _ (map_eq_of_forall₂ hreals) (map_eq_of_forall₂ hnumbers)

/-- Two results with what they depend on: the same inputs, and the same value where these are finite. -/
structure SameResult (v : Valuation) (r r' : List NumK × NumK) : Prop where
  inputs : SameValues v r.1 r'.1
  result : (∀ x ∈ r.1, x.finite v) → r.2.sameValue v r'.2

/-- The results of a stage, as `NUM` has them, depend on values alone. -/
theorem Num.results_congr {num : Num} {stage : Stage} {words : List ℕ} {reals reals' : List RVal}
    {numbers numbers' : List NumK} {isExact isExact' : ℕ → Bool} {results results' : List (List NumK × NumK)}
    (hreals : List.Forall₂ (fun r r' => r.meaning v = r'.meaning v) reals reals')
    (hnumbers : SameValues v numbers numbers') (hexact : ∀ k, isExact k = isExact' k)
    (hresults : List.Forall₂ (SameResult v) results results') :
    SameValues v (num.results stage words reals numbers isExact results)
      (num.results stage words reals' numbers' isExact' results') := by
  have hsize : (NumK.largest (results.map fun r => NumK.whenFinite r.1 r.2 NumK.zero)).value v =
      (NumK.largest (results'.map fun r => NumK.whenFinite r.1 r.2 NumK.zero)).value v := by
    exact NumK.value_largest_congr
      (forall₂_map hresults fun _ _ h => NumK.whenFinite_congr h.inputs h.result rfl)
  refine forall₂_mapIdx (fun k r r' h => ?_) hresults
  have hname := choice_resultName_congr (structureNo := num.number) (stage := stage) (words := words) (index := k)
    hreals hnumbers
  refine NumK.whenFinite_congr h.inputs (fun hfin => ?_) (NumK.unspecified_congr hname)
  rw [hexact k]
  split
  · exact h.result hfin
  · exact Num.round_congr hname hsize (h.result hfin)

/-! ## The operations on finite values -/

/-- The two numbers are finite and the same. -/
structure NumK.SameNumber (v : Valuation) (x y : NumK) : Prop where
  finite_left : x.finite v
  finite_right : y.finite v
  value_eq : x.value v = y.value v

/-- The two lists hold the same finite numbers, place by place. -/
abbrev SameNumbers (v : Valuation) (xs ys : List NumK) : Prop := List.Forall₂ (NumK.SameNumber v) xs ys

theorem NumK.sameNumber_refl {x : NumK} (h : x.finite v) : x.SameNumber v x := ⟨h, h, rfl⟩

theorem NumK.SameNumber.sameValue {x y : NumK} (h : x.SameNumber v y) : x.sameValue v y :=
  NumK.sameValue_of_value_eq h.finite_left h.finite_right h.value_eq

theorem NumK.SameNumber.add {x x' y y' : NumK} (hx : x.SameNumber v x') (hy : y.SameNumber v y') :
    (NumK.add x y).SameNumber v (NumK.add x' y') :=
  ⟨NumK.finite_add hx.finite_left hy.finite_left, NumK.finite_add hx.finite_right hy.finite_right,
    by rw [NumK.value_add, NumK.value_add, hx.value_eq, hy.value_eq]⟩

theorem NumK.SameNumber.mul {x x' y y' : NumK} (hx : x.SameNumber v x') (hy : y.value v = y'.value v) :
    (NumK.mul x y).SameNumber v (NumK.mul x' y') :=
  ⟨NumK.finite_mul hx.finite_left, NumK.finite_mul hx.finite_right,
    by rw [NumK.value_mul, NumK.value_mul, hx.value_eq, hy]⟩

/-- A multiple is a finite number whatever is multiplied. -/
theorem NumK.sameNumber_scale {r r' : NumR} {x x' : NumK} (hr : r.value v = r'.value v)
    (hx : x.value v = x'.value v) : (NumK.scale r x).SameNumber v (NumK.scale r' x') :=
  ⟨NumK.finite_scale r x, NumK.finite_scale r' x', by rw [NumK.value_scale, NumK.value_scale, hr, hx]⟩

theorem NumK.sameNumber_sum {xs ys : List NumK} (h : SameNumbers v xs ys) :
    (NumK.sum xs).SameNumber v (NumK.sum ys) := by
  have key : ∀ a b : NumK, a.SameNumber v b → (xs.foldl NumK.add a).SameNumber v (ys.foldl NumK.add b) := by
    induction h with
    | nil => exact fun _ _ hab => hab
    | cons hxy _ ih => exact fun a b hab => ih _ _ (hab.add hxy)
  exact key _ _ (NumK.sameNumber_refl (NumK.finite_zero v))

theorem sameValue_getD {xs ys : List NumK} (h : SameValues v xs ys) (k : ℕ) :
    (xs.getD k NumK.zero).sameValue v (ys.getD k NumK.zero) :=
  forall₂_getD (R := fun x y => x.sameValue v y) rfl h k

theorem sameNumber_getD {xs ys : List NumK} (h : SameNumbers v xs ys) (k : ℕ) :
    (xs.getD k NumK.zero).SameNumber v (ys.getD k NumK.zero) :=
  forall₂_getD (NumK.sameNumber_refl (NumK.finite_zero v)) h k

/-- Lists of the same values are lists of the same numbers where they are finite. -/
theorem sameNumbers_of_finite {xs ys : List NumK} (h : SameValues v xs ys) (hfin : ∀ x ∈ xs, x.finite v) :
    SameNumbers v xs ys := by
  induction h with
  | nil => exact .nil
  | cons hxy _ ih =>
    obtain ⟨hx, hxs⟩ := List.forall_mem_cons.1 hfin
    exact .cons ⟨hx, (NumK.finite_congr hxy).1 hx, NumK.value_congr hxy⟩ (ih hxs)

end

end Sys2Proof

/-! PROOFS. The results of GI.INS, GI.REM, MOD, DEMOD and CHAN depend on the values of what they are computed from and not
on how these are written down (10_state.md R31). -/

namespace Sys2Proof

namespace Machine

section
variable {v : Valuation}

/-! ## The guard codec -/

theorem sameValues_giInsert {xs ys : List NumK} (h : SameValues v xs ys) (g : ℕ) (md : GuardMode) :
    SameValues v (giInsert xs g md) (giInsert ys g md) := by
  cases md with
  | none => exact h
  | zeroPad => exact List.rel_append h (List.forall₂_same.2 fun _ _ => rfl)
  | cyclicPrefix =>
    refine List.rel_append ?_ h
    rw [List.Forall₂.length_eq h]
    exact List.forall₂_drop _ h

theorem sameValues_giRemove {xs ys : List NumK} (h : SameValues v xs ys) (g : ℕ) (md : GuardMode) :
    SameValues v (giRemove xs g md) (giRemove ys g md) := by
  cases md with
  | none => exact h
  | zeroPad =>
    simp only [giRemove, List.Forall₂.length_eq h]
    exact List.forall₂_take _ h
  | cyclicPrefix => exact List.forall₂_drop _ h

theorem sameValues_reconcile {xs ys : List NumK} (h : SameValues v xs ys) (k : ℕ) :
    SameValues v (reconcile xs k) (reconcile ys k) := by
  refine List.rel_append (List.forall₂_take _ h) ?_
  rw [List.Forall₂.length_eq h]
  exact List.forall₂_same.2 fun _ _ => rfl

/-! ## The transform pair -/

/-- A sum of multiples by phases, as both transforms along an axis form. -/
theorem sameNumber_sum_mul_ph {xs ys : List NumK} (h : SameNumbers v xs ys) (f : ℕ → NumR) :
    (NumK.sum (xs.mapIdx fun d x => NumK.mul x (ph (f d)))).SameNumber v
      (NumK.sum (ys.mapIdx fun d y => NumK.mul y (ph (f d)))) :=
  NumK.sameNumber_sum (forall₂_mapIdx (fun _ _ _ hxy => hxy.mul rfl) h)

theorem sameNumbers_idft {xs ys : List NumK} (h : SameNumbers v xs ys) : SameNumbers v (idft xs) (idft ys) := by
  simp only [idft, List.Forall₂.length_eq h]
  exact forall₂_map_range fun k _ => NumK.sameNumber_scale rfl (sameNumber_sum_mul_ph h _).value_eq

theorem sameNumbers_dft {xs ys : List NumK} (h : SameNumbers v xs ys) : SameNumbers v (dft xs) (dft ys) := by
  simp only [dft, List.Forall₂.length_eq h]
  exact forall₂_map_range fun d _ => sameNumber_sum_mul_ph h _

/-- The two matrices hold the same finite numbers, cell by cell. -/
abbrev Grid.SameNumbers (v : Valuation) (x y : Grid) : Prop := List.Forall₂ (Sys2Proof.SameNumbers v) x y

theorem Grid.SameNumbers.map {x y : Grid} (h : x.SameNumbers v y) {f : List NumK → List NumK}
    (hf : ∀ {xs ys}, Sys2Proof.SameNumbers v xs ys → Sys2Proof.SameNumbers v (f xs) (f ys)) :
    Grid.SameNumbers v (List.map f x) (List.map f y) :=
  forall₂_map h fun _ _ => hf

theorem Grid.SameNumbers.transpose {x y : Grid} (h : x.SameNumbers v y) (rows : ℕ) :
    (transpose rows x).SameNumbers v (transpose rows y) :=
  forall₂_map_range fun d _ => forall₂_map h fun _ _ hcol => sameNumber_getD hcol d

theorem sameNumbers_reshape {xs ys : List NumK} (h : SameNumbers v xs ys) (m n : ℕ) :
    (reshape xs m n).SameNumbers v (reshape ys m n) :=
  forall₂_map_range fun _ _ => forall₂_map_range fun _ _ => sameNumber_getD h _

theorem Grid.SameNumbers.flatten {x y : Grid} (h : x.SameNumbers v y) :
    Sys2Proof.SameNumbers v (flattenGrid x) (flattenGrid y) := List.rel_flatten h

theorem sameNumbers_modulate {xs ys : List NumK} (h : SameNumbers v xs ys) (m n : ℕ) :
    SameNumbers v (modulate xs m n) (modulate ys m n) :=
  ((((sameNumbers_reshape h m n).map sameNumbers_idft).transpose m).map sameNumbers_idft).transpose n |>.flatten

theorem sameNumbers_demodulate {xs ys : List NumK} (h : SameNumbers v xs ys) (m n : ℕ) :
    SameNumbers v (demodulate xs m n) (demodulate ys m n) :=
  (((((sameNumbers_reshape h m n).transpose m).map sameNumbers_dft).transpose n).map sameNumbers_dft).flatten

/-- A transform of the same values, with what its results depend on. -/
theorem sameResult_transformResults {f : List NumK → List NumK} {xs ys : List NumK} (h : SameValues v xs ys)
    (hlen : (f xs).length = (f ys).length) (hf : SameNumbers v xs ys → SameNumbers v (f xs) (f ys)) :
    List.Forall₂ (SameResult v) (transformResults f xs) (transformResults f ys) := by
  rw [transformResults, transformResults, List.forall₂_map_left_iff, List.forall₂_map_right_iff]
  refine List.forall₂_iff_get.2 ⟨hlen, fun k hx hy => ⟨h, fun hfin => ?_⟩⟩
  exact ((List.forall₂_iff_get.1 (hf (sameNumbers_of_finite h hfin))).2 k hx hy).sameValue

theorem sameValues_modSamples {xs ys : List NumK} (h : SameValues v xs ys) (num : Num) (m n : ℕ) :
    SameValues v (modSamples num m n xs) (modSamples num m n ys) :=
  Num.results_congr .nil h (fun _ => rfl)
    (sameResult_transformResults h (by simp) fun hnum => sameNumbers_modulate hnum m n)

theorem sameValues_demodCells {xs ys : List NumK} (h : SameValues v xs ys) (num : Num) (m n : ℕ) :
    SameValues v (demodCells num m n xs) (demodCells num m n ys) :=
  Num.results_congr .nil h (fun _ => rfl)
    (sameResult_transformResults h (by simp) fun hnum => sameNumbers_demodulate hnum m n)

/-! ## The channel -/

/-- What a path adds to sample `k` of the channel's output (42_channel.md R68 to R70). -/
def channelTerm (tx : List NumK) (fs : NumR) (k : ℕ) (p : Path) : NumK :=
  if p.delay ≤ k then NumK.mul (NumK.scale p.gain (tx.getD (k - p.delay) NumK.zero)) (rot p.doppler fs k)
  else NumK.zero

theorem getElem?_pathContribution {tx : List NumK} {k : ℕ} (hk : k < tx.length) (fs : NumR) (p : Path) :
    (pathContribution tx fs p)[k]? = some (channelTerm tx fs k p) := by
  unfold channelTerm
  split
  · rename_i hp
    exact getElem?_pathContribution_of_le hk hp fs
  · rename_i hp
    exact getElem?_pathContribution_of_lt hk (not_le.1 hp) fs

/-- Sample `k` of the channel's output is the sum of what the paths add to it (42_channel.md R71). -/
theorem getElem?_applyChannel {tx : List NumK} {k : ℕ} (hk : k < tx.length) (fs : NumR) (paths : List Path) :
    (applyChannel tx fs paths)[k]? = some (NumK.sum (paths.map (channelTerm tx fs k))) := by
  have key : ∀ (ps : List Path) (rx : List NumK) (x : NumK), rx[k]? = some x →
      (ps.foldl (fun rx p => List.zipWith NumK.add rx (pathContribution tx fs p)) rx)[k]? =
        some ((ps.map (channelTerm tx fs k)).foldl NumK.add x) := by
    intro ps
    induction ps with
    | nil => exact fun _ _ hrx => hrx
    | cons p ps ih =>
      refine fun rx x hrx => ih _ _ ?_
      rw [List.getElem?_zipWith, hrx, getElem?_pathContribution hk]
  exact key paths _ _ (by simp [NumK.zeros, hk])

/-- The descriptors hold the same delay and the same values. -/
structure PathEntry.SameValues (v : Valuation) (p q : PathEntry) : Prop where
  delay : p.delay = q.delay
  gain : p.gain.meaning v = q.gain.meaning v
  doppler : p.doppler.meaning v = q.doppler.meaning v

theorem value_rot (v : Valuation) (nu fs : NumR) (k : ℕ) :
    (rot nu fs k).value v = phase (nu.value v * k / fs.value v) := by
  rw [rot, value_ph, NumR.value_div, NumR.value_mul, NumR.value_ofRat, Rat.cast_natCast]

theorem sameNumber_channelTerm {xs ys : List NumK} {fs fs' : NumR} {p q : Path} (h : SameValues v xs ys)
    (hfs : fs.value v = fs'.value v) (hdelay : p.delay = q.delay) (hgain : p.gain.value v = q.gain.value v)
    (hdoppler : p.doppler.value v = q.doppler.value v) (k : ℕ) :
    (channelTerm xs fs k p).SameNumber v (channelTerm ys fs' k q) := by
  unfold channelTerm
  rw [hdelay]
  split
  · refine (NumK.sameNumber_scale hgain (NumK.value_congr (sameValue_getD h _))).mul ?_
    rw [value_rot, value_rot, hdoppler, hfs]
  · exact NumK.sameNumber_refl (NumK.finite_zero v)

variable {xs ys : List NumK} {r r' : RVal} {ps qs : List PathEntry}

theorem sameValues_channelInputs (h : SameValues v xs ys) (hfs : r.meaning v = r'.meaning v)
    (hp : List.Forall₂ (PathEntry.SameValues v) ps qs) (k : ℕ) :
    SameValues v (channelInputs xs r ps k) (channelInputs ys r' qs k) := by
  induction hp with
  | nil => exact .nil
  | @cons p q ps qs hpq _ ih =>
    have hpath : SameValues v [r.complex, p.gain.complex, p.doppler.complex, xs.getD (k - q.delay) NumK.zero]
        [r'.complex, q.gain.complex, q.doppler.complex, ys.getD (k - q.delay) NumK.zero] :=
      .cons (RVal.complex_congr hfs) (.cons (RVal.complex_congr hpq.gain)
        (.cons (RVal.complex_congr hpq.doppler) (.cons (sameValue_getD h _) .nil)))
    unfold channelInputs at ih ⊢
    rw [List.filter_cons, List.filter_cons, hpq.delay]
    split
    · rw [List.flatMap_cons, List.flatMap_cons, hpq.delay]
      exact List.rel_append hpath ih
    · exact ih

theorem channelExact_congr (hp : List.Forall₂ (PathEntry.SameValues v) ps qs) (k : ℕ) :
    channelExact ps k = channelExact qs k := by
  have hany : (ps.any fun p => p.reaches k) = qs.any fun p => p.reaches k := by
    induction hp with
    | nil => rfl
    | cons hpq _ ih =>
      rw [List.any_cons, List.any_cons, ih]
      simp only [PathEntry.reaches, hpq.delay, RVal.isZero_congr hpq.gain]
  unfold channelExact
  rw [hany]
  cases hp with
  | nil => rfl
  | cons hpq hrest =>
    cases hrest with
    | nil => simp only [RVal.isZero_congr hpq.doppler]
    | cons _ _ => rfl

theorem sameValues_chanSamples (h : SameValues v xs ys) (hfs : r.meaning v = r'.meaning v)
    (hp : List.Forall₂ (PathEntry.SameValues v) ps qs) (num : Num) :
    SameValues v (chanSamples num xs r ps) (chanSamples num ys r' qs) := by
  have hdelays : ps.map PathEntry.delay = qs.map PathEntry.delay := map_eq_of_forall₂ (hp.imp fun _ _ h => h.delay)
  have hreals : List.Forall₂ (fun r r' => r.meaning v = r'.meaning v) (r :: ps.flatMap fun p => [p.gain, p.doppler])
      (r' :: qs.flatMap fun p => [p.gain, p.doppler]) :=
    .cons hfs (List.rel_flatMap hp fun _ _ h => .cons h.gain (.cons h.doppler .nil))
  have hterms : ∀ k, SameNumbers v ((ps.map PathEntry.path).map (channelTerm xs r.toReal k))
      ((qs.map PathEntry.path).map (channelTerm ys r'.toReal k)) := by
    intro k
    rw [List.map_map, List.map_map]
    exact forall₂_map hp fun _ _ hpq => sameNumber_channelTerm h (RVal.value_toReal_congr hfs) hpq.delay
      (RVal.value_toReal_congr hpq.gain) (RVal.value_toReal_congr hpq.doppler) k
  unfold chanSamples
  rw [hdelays]
  refine Num.results_congr hreals h (channelExact_congr hp) ?_
  refine List.forall₂_iff_get.2 ⟨by simpa using List.Forall₂.length_eq h, fun k hx hy => ?_⟩
  have hkx : k < xs.length := by simpa using hx
  have hky : k < ys.length := by simpa using hy
  have hgx := getElem?_applyChannel hkx r.toReal (ps.map PathEntry.path)
  have hgy := getElem?_applyChannel hky r'.toReal (qs.map PathEntry.path)
  rw [List.getElem?_eq_getElem (by simpa using hkx), Option.some_inj] at hgx
  rw [List.getElem?_eq_getElem (by simpa using hky), Option.some_inj] at hgy
  simp only [List.get_eq_getElem, List.getElem_mapIdx, hgx, hgy]
  exact ⟨sameValues_channelInputs h hfs hp k, fun _ => (NumK.sameNumber_sum (hterms k)).sameValue⟩

end

end Machine

end Sys2Proof

/-! PROOFS. The estimate depends on the coordinates of the pilots and on the values of the pilots and of the cells they
received, and on nothing else (43_estimator.md R86, R87 (f)). -/

namespace Sys2Proof

namespace Machine

/-- The pilots stand at the same place with the same value, and received the same value. -/
structure SameReception (v : Valuation) (r r' : Pilot × NumK) : Prop where
  d : r.1.d = r'.1.d
  l : r.1.l = r'.1.l
  value : r.1.value.val.sameValue v r'.1.value.val
  cell : r.2.sameValue v r'.2

/-- The same pilots received the same values, in pilot order. -/
abbrev Received.SameValues (v : Valuation) (rs rs' : Received) : Prop := List.Forall₂ (SameReception v) rs rs'

/-- No pilot value is the number 0 (43_estimator.md R74, V3). -/
abbrev Received.Nonzero (rs : Received) : Prop := ∀ r ∈ rs, r.1.value.isZero = false

section
variable {v : Valuation} {num : Num} {rs rs' : Received}

theorem pilotPoints_congr (h : rs.SameValues v rs') :
    pilotPoints (rs.map fun r => r.1) = pilotPoints (rs'.map fun r => r.1) := by
  rw [pilotPoints, pilotPoints, List.map_map, List.map_map]
  exact map_eq_of_forall₂ (h.imp fun r r' hr => by simp only [Function.comp_apply, Pilot.point, hr.d, hr.l])

theorem receivedWords_congr (h : rs.SameValues v rs') : receivedWords rs = receivedWords rs' := by
  rw [receivedWords, receivedWords, List.flatMap_def, List.flatMap_def,
    map_eq_of_forall₂ (h.imp fun r r' hr => by rw [hr.d, hr.l])]

theorem sameValues_receivedNumbers (h : rs.SameValues v rs') :
    Sys2Proof.SameValues v (receivedNumbers rs) (receivedNumbers rs') :=
  List.rel_flatMap h fun _ _ hr => .cons hr.cell (.cons hr.value .nil)

/-- What `NUM` makes of a value of the estimate is the same for the same received values (10_state.md R31). -/
theorem choice_estimateName_congr (h : rs.SameValues v rs') (stage : Stage) (place : List ℕ) :
    v.choice (estimateName num stage rs place) = v.choice (estimateName num stage rs' place) := by
  rw [estimateName, estimateName, receivedWords_congr h]
  exact choice_resultName_congr .nil (sameValues_receivedNumbers h)

/-! ## The ratios and the per-pilot estimate -/

theorem pilotRatio_congr (h : rs.SameValues v rs') {r r' : Pilot × NumK} (hr : SameReception v r r')
    (h0 : r.1.value.isZero = false) (j : ℕ) :
    (pilotRatio num rs j r).sameValue v (pilotRatio num rs' j r') := by
  have hname := choice_estimateName_congr (num := num) h .pilotRatio [j]
  have hnonzero : r.1.value.val.finite v → r.1.value.val.value v ≠ 0 := by
    intro hfin hzero
    rw [InputVal.finite_val_iff] at hfin
    rw [InputVal.value_val] at hzero
    exact Bool.false_ne_true (h0 ▸ (InputVal.isZero_iff v _).2 ⟨hfin, hzero⟩)
  refine NumK.choose_congr hr.value (fun hfin => ?_) (NumK.unspecified_congr hname)
  exact NumK.choose_congr hr.cell (fun _ => Num.divide_congr hname hr.cell hr.value (hnonzero hfin))
    (NumK.nonFinite_congr hname)

theorem sameValues_pilotRatios (h : rs.SameValues v rs') (h0 : rs.Nonzero) :
    Sys2Proof.SameValues v (pilotRatios num rs) (pilotRatios num rs') := by
  refine List.forall₂_iff_get.2 ⟨by simpa using List.Forall₂.length_eq h, fun j hx hy => ?_⟩
  have hj : j < rs.length := by simpa using hx
  simp only [pilotRatios, List.get_eq_getElem, List.getElem_mapIdx]
  exact pilotRatio_congr h ((List.forall₂_iff_get.1 h).2 j hj _) (h0 _ (List.getElem_mem hj)) j

theorem value_estimateSize_congr {hs hs' : List NumK} (h : Sys2Proof.SameValues v hs hs') :
    (estimateSize hs).value v = (estimateSize hs').value v :=
  NumK.value_largest_congr (forall₂_map h fun _ _ => NumK.fix_congr)

theorem sameValues_perPilotEstimate (h : rs.SameValues v rs') (h0 : rs.Nonzero) :
    Sys2Proof.SameValues v (perPilotEstimate num rs) (perPilotEstimate num rs') := by
  have hratios := sameValues_pilotRatios (num := num) h h0
  refine forall₂_mapIdx (R := fun x y => x.sameValue v y) (fun j x y hx => ?_) hratios
  exact NumK.choose_congr hx
    (fun _ => Num.roundNonzero_congr (choice_estimateName_congr h _ _) (value_estimateSize_congr hratios) hx) hx

/-! ## The full-grid estimate -/

theorem sameValues_usedEstimates {hs hs' : List NumK} (h : Sys2Proof.SameValues v hs hs') (pts : List Point) (t : Tri)
    (q : Point) : Sys2Proof.SameValues v (t.usedEstimates pts hs q) (t.usedEstimates pts hs' q) := by
  rw [Tri.usedEstimates, Tri.usedEstimates, Sys2Proof.SameValues, List.forall₂_map_left_iff,
    List.forall₂_map_right_iff, List.forall₂_same]
  exact fun w _ => sameValue_getD h w.1

theorem interpVal_congr (h : rs.SameValues v rs') (h0 : rs.Nonzero) (pts : List Point) (tri : List Tri) (q : Point) :
    (interpVal num rs pts tri q).sameValue v (interpVal num rs' pts tri q) := by
  have hratios := sameValues_pilotRatios (num := num) h h0
  have hname := choice_estimateName_congr (num := num) h .gridEstimate [q.d.toNat, q.l.toNat]
  have hinterp : (interp pts (pilotRatios num rs) tri q).sameValue v (interp pts (pilotRatios num rs') tri q) :=
    NumK.sameValue_of_value_eq (finite_interp pts tri q) (finite_interp pts tri q)
      (value_interp_congr (fun j => NumK.value_congr (sameValue_getD hratios j)) tri q)
  unfold interpVal
  split
  · exact NumK.whenFinite_congr (sameValues_usedEstimates hratios pts _ q)
      (fun _ => Num.round_congr hname (value_estimateSize_congr hratios) hinterp)
      (NumK.nonFinite_congr hname)
  · rfl

theorem fullGridCell_congr (h : rs.SameValues v rs') (h0 : rs.Nonzero) (pts : List Point) (tri : List Tri) (q : Point) :
    (fullGridCell num rs pts tri q).sameValue v (fullGridCell num rs' pts tri q) := by
  refine NumK.fix_congr ?_
  split
  · exact sameValue_getD (sameValues_perPilotEstimate h h0) _
  · exact interpVal_congr h h0 pts tri q

theorem sameValues_fullGridEstimate (h : rs.SameValues v rs') (h0 : rs.Nonzero) (m n : ℕ) :
    Sys2Proof.SameValues v (fullGridEstimate num rs m n) (fullGridEstimate num rs' m n) := by
  simp only [fullGridEstimate, pilotPoints_congr h]
  exact forall₂_map_range fun k _ => fullGridCell_congr h h0 _ _ _

/-- The estimate at a grid point, whatever the size of the grid it is asked for (43_estimator.md R87 (f)). -/
theorem getD_fullGridEstimate (num : Num) (rs : Received) {m n d l : ℕ} (hd : d < m) (hl : l < n) :
    (fullGridEstimate num rs m n).getD (d + m * l) NumK.zero =
      fullGridCell num rs (pilotPoints (rs.map fun r => r.1)) (triangulation (pilotPoints (rs.map fun r => r.1)))
        ⟨(d : ℕ), (l : ℕ)⟩ := by
  have hk : d + m * l < m * n := by nlinarith
  have hmod : (d + m * l) % m = d := by rw [Nat.add_mul_mod_self_left, Nat.mod_eq_of_lt hd]
  have hdiv : (d + m * l) / m = l := by
    rw [Nat.add_mul_div_left _ _ (by omega), Nat.div_eq_of_lt hd, zero_add]
  simp only [fullGridEstimate]
  rw [List.getD_eq_getElem _ _ (by simpa using hk), List.getElem_map, List.getElem_range, hmod, hdiv]

end

end Machine

end Sys2Proof

/-! PROOFS. ResultDependsOnlyOnInputs: two states that agree on what a command reads make the same checks and store the
same output; two that hold the same values there store the same values (10_state.md R19, R31). -/

namespace Sys2Proof

namespace Machine

section
variable {v : Valuation} {s s' : State} {src : Sel}

/-! ## The values a command reads -/

theorem State.sameValues_seq (h : s.sameSeqValues s' v src src) : SameValues v (s.seq src) (s'.seq src) := by
  obtain ⟨hlen, hel⟩ := h
  rw [State.seq, State.seq, ← hlen]
  exact forall₂_map_range hel

theorem State.sameValues_grid {m n : ℕ}
    (h : ∀ k < m * n, (s.element (gBuf src) k).sameValue v (s'.element (gBuf src) k)) :
    SameValues v (s.grid src m n) (s'.grid src m n) :=
  forall₂_map_range h

theorem State.sameValues_paths (hn : s.npath = s'.npath)
    (h : ∀ j < s.npath.toNat, s.delayAt j = s'.delayAt j ∧ (s.gainAt j).meaning v = (s'.gainAt j).meaning v ∧
      (s.dopplerAt j).meaning v = (s'.dopplerAt j).meaning v) :
    List.Forall₂ (PathEntry.SameValues v) s.paths s'.paths := by
  rw [State.paths, State.paths, ← hn]
  refine forall₂_map_range fun j hj => ?_
  obtain ⟨hdelay, hgain, hdoppler⟩ := h j hj
  exact ⟨congrArg BitVec.toNat hdelay, hgain, hdoppler⟩

theorem State.sameValues_received (h : s.samePilotValues s' v src) :
    (s.received src).SameValues v (s'.received src) := by
  obtain ⟨hn, hp⟩ := h
  rw [State.received, State.received, State.pilots, State.pilots, List.map_map, List.map_map, ← hn]
  refine forall₂_map_range fun j hj => ?_
  obtain ⟨hd, hl, hval, hcell⟩ := hp j hj
  exact ⟨congrArg BitVec.toNat hd, congrArg BitVec.toNat hl, hval, hcell⟩

/-- The pilots of an EST whose checks pass are not 0. -/
theorem State.received_nonzero (h : estCheck s = none) : (s.received src).Nonzero := by
  obtain ⟨-, hzero, -⟩ := estCheck_eq_none h
  intro r hr
  obtain ⟨p, hp, rfl⟩ := List.mem_map.1 hr
  obtain ⟨j, hj, rfl⟩ := List.mem_map.1 hp
  exact hzero j (List.mem_range.1 hj)

/-! ## The checks -/

theorem pilotCheck_congr_of_values (hm : s.m = s'.m) (hn : s.n = s'.n) (hcaps : s.caps = s'.caps)
    (h : s.samePilotValues s' v src) : pilotCheck s = pilotCheck s' := by
  obtain ⟨hq, hp⟩ := h
  have hd : ∀ j < s'.npilot.toNat, (s.pilotAt j).d = (s'.pilotAt j).d := fun j hj =>
    congrArg BitVec.toNat (hp j (hq ▸ hj)).1
  have hl : ∀ j < s'.npilot.toNat, (s.pilotAt j).l = (s'.pilotAt j).l := fun j hj =>
    congrArg BitVec.toNat (hp j (hq ▸ hj)).2.1
  have hpoint : ∀ j < s'.npilot.toNat, (s.pilotAt j).point = (s'.pilotAt j).point := fun j hj => by
    rw [Pilot.point, Pilot.point, hd j hj, hl j hj]
  have hpoints : pilotPoints s.pilots = pilotPoints s'.pilots := by
    rw [pilotPoints, pilotPoints, State.pilots, State.pilots, List.map_map, List.map_map, hq]
    exact List.map_congr_left fun j hj => hpoint j (List.mem_range.1 hj)
  have hindex : firstIndex s'.npilot.toNat
        (fun j => decide (s'.m.toNat ≤ (s.pilotAt j).d) || decide (s'.n.toNat ≤ (s.pilotAt j).l)) =
      firstIndex s'.npilot.toNat
        (fun j => decide (s'.m.toNat ≤ (s'.pilotAt j).d) || decide (s'.n.toNat ≤ (s'.pilotAt j).l)) :=
    firstIndex_congr fun j hj => by rw [hd j hj, hl j hj]
  have hvalue : firstIndex s'.npilot.toNat (fun j => (s.pilotAt j).value.isZero) =
      firstIndex s'.npilot.toNat (fun j => (s'.pilotAt j).value.isZero) :=
    firstIndex_congr fun j hj => InputVal.isZero_congr (hp j (hq ▸ hj)).2.2.1
  have hdup : firstIndex s'.npilot.toNat
        (fun j => (List.range j).any fun i => decide ((s.pilotAt i).point = (s.pilotAt j).point)) =
      firstIndex s'.npilot.toNat
        (fun j => (List.range j).any fun i => decide ((s'.pilotAt i).point = (s'.pilotAt j).point)) :=
    firstIndex_congr fun j hj => by
      rw [Bool.eq_iff_iff, List.any_eq_true, List.any_eq_true]
      refine exists_congr fun i => and_congr_right fun hi => ?_
      rw [hpoint j hj, hpoint i ((List.mem_range.1 hi).trans hj)]
  simp only [pilotCheck, hm, hn, hcaps, hq, hindex, hvalue, hdup, hpoints]

/-- The checks of a command are a function of the values of what it reads. -/
theorem commandCheck_congr_of_values {i : Instr} (h : s.sameInputValues s' v i) :
    (commandParts i).2.1 s = (commandParts i).2.1 s' := by
  obtain ⟨-, hcaps, -, h⟩ := h
  cases i with
  | nop => rfl
  | giIns src dst =>
    obtain ⟨hglen, hgmode, hlen, -⟩ := h
    simp only [commandParts, giInsCheck, State.mode_congr hgmode, hcaps, hglen, hlen]
  | giRem src dst =>
    obtain ⟨hglen, hgmode, hlen, -⟩ := h
    simp only [commandParts, giRemCheck, State.mode_congr hgmode, hcaps, hglen, hlen]
  | mod src dst =>
    obtain ⟨hm, hn, hglen, hgmode, -⟩ := h
    simp only [commandParts, modCheck, gridCheck_congr hm hn hcaps, State.mode_congr hgmode, hcaps, hglen, hm, hn]
  | demod src dst =>
    obtain ⟨hm, hn, hglen, hgmode, hlen, -⟩ := h
    simp only [commandParts, demodCheck, gridCheck_congr hm hn hcaps, State.mode_congr hgmode, hcaps, hglen, hm, hn,
      hlen]
  | chan src dst =>
    obtain ⟨hfs, hnpath, ⟨hlen, -⟩, hpaths⟩ := h
    have hgain : firstIndex s'.npath.toNat (fun j => !(s.gainAt j).isNonneg) =
        firstIndex s'.npath.toNat (fun j => !(s'.gainAt j).isNonneg) :=
      firstIndex_congr fun j hj => by rw [RVal.isNonneg_congr (hpaths j (hnpath ▸ hj)).2.1]
    simp only [commandParts, chanCheck, hcaps, RVal.isPositive_congr hfs, hnpath, hlen, hgain]
  | est src =>
    obtain ⟨hm, hn, hpilots⟩ := h
    simp only [commandParts, estCheck, gridCheck_congr hm hn hcaps, pilotCheck_congr_of_values hm hn hcaps hpilots]

/-! ## The output -/

/-- What a command stores is a function of what it reads. -/
theorem output_congr {i : Instr} (h : s.sameInputs s' i) (b : Buf) : s.output i b = s'.output i b := by
  obtain ⟨⟨-, -, h⟩, hnum⟩ := h
  cases i with
  | nop => rfl
  | giIns src dst =>
    obtain ⟨hglen, hgmode, hseq⟩ := h
    simp only [State.output, hglen, State.mode_congr hgmode, State.seq_congr hseq]
  | giRem src dst =>
    obtain ⟨hglen, hgmode, hseq⟩ := h
    simp only [State.output, hglen, State.mode_congr hgmode, State.seq_congr hseq]
  | mod src dst =>
    obtain ⟨hm, hn, hglen, hgmode, hgrid⟩ := h
    simp only [State.output, State.grid_congr hgrid, ← hm, ← hn, ← hglen, ← State.mode_congr hgmode, ← hnum]
  | demod src dst =>
    obtain ⟨hm, hn, hglen, hgmode, hseq⟩ := h
    simp only [State.output, hm, hn, hglen, State.mode_congr hgmode, State.seq_congr hseq, hnum]
  | chan src dst =>
    obtain ⟨hfs, hnpath, hseq, hpaths⟩ := h
    simp only [State.output, hfs, State.seq_congr hseq, State.paths_congr hnpath hpaths, hnum]
  | est src =>
    obtain ⟨hm, hn, hpilots⟩ := h
    simp only [State.output, hm, hn, State.received_congr hpilots, hnum]

/-- Values stored in one buffer and in no other. -/
theorem sameValues_ite {b c : Buf} {xs ys : List NumK} (h : SameValues v xs ys) :
    SameValues v (if b = c then xs else []) (if b = c then ys else []) := by
  split
  · exact h
  · exact .nil

/-- The values that a command whose checks pass stores are a function of the values it reads. -/
theorem sameValues_output {i : Instr} (h : s.sameInputValues s' v i) (hc : (commandParts i).2.1 s = none) (b : Buf) :
    SameValues v (s.output i b) (s'.output i b) := by
  obtain ⟨-, -, hnum, h⟩ := h
  cases i with
  | nop => exact .nil
  | giIns src dst =>
    obtain ⟨hglen, hgmode, hseq⟩ := h
    simp only [State.output, ← hglen, ← State.mode_congr hgmode]
    exact sameValues_ite (sameValues_giInsert (State.sameValues_seq hseq) _ _)
  | giRem src dst =>
    obtain ⟨hglen, hgmode, hseq⟩ := h
    simp only [State.output, ← hglen, ← State.mode_congr hgmode]
    exact sameValues_ite (sameValues_giRemove (State.sameValues_seq hseq) _ _)
  | mod src dst =>
    obtain ⟨hm, hn, hglen, hgmode, hgrid⟩ := h
    simp only [State.output, ← hm, ← hn, ← hglen, ← State.mode_congr hgmode, ← hnum]
    exact sameValues_ite (sameValues_giInsert (sameValues_modSamples (State.sameValues_grid hgrid) _ _ _) _ _)
  | demod src dst =>
    obtain ⟨hm, hn, hglen, hgmode, hseq⟩ := h
    simp only [State.output, ← hm, ← hn, ← hglen, ← State.mode_congr hgmode, ← hnum]
    exact sameValues_ite (sameValues_demodCells
      (sameValues_reconcile (sameValues_giRemove (State.sameValues_seq hseq) _ _) _) _ _ _)
  | chan src dst =>
    obtain ⟨hfs, hnpath, hseq, hpaths⟩ := h
    simp only [State.output, ← hnum]
    exact sameValues_ite
      (sameValues_chanSamples (State.sameValues_seq hseq) hfs (State.sameValues_paths hnpath hpaths) _)
  | est src =>
    obtain ⟨hm, hn, hpilots⟩ := h
    have hrec := State.sameValues_received hpilots
    have hzero : (s.received src).Nonzero := State.received_nonzero hc
    simp only [State.output, ← hm, ← hn, ← hnum]
    split
    · exact sameValues_perPilotEstimate hrec hzero
    · exact sameValues_ite (sameValues_fullGridEstimate hrec hzero _ _)

theorem State.sameInputs_accept {i : Instr} (h : s.sameInputs s' i) : s.accept.sameInputs s'.accept i :=
  ⟨State.sameReads_accept h.1, h.2⟩

theorem State.sameInputValues_accept {i : Instr} (h : s.sameInputValues s' v i) :
    s.accept.sameInputValues s'.accept v i := by
  cases i <;> exact h

end

/-! ## The outcome of a command -/

/-- The command ended in the same way in `t` and `t'`: with the same error, or with the same lengths and with elements that
are related by `R`, of each buffer the first `len`. -/
def SameOutcome (R : NumK → NumK → Prop) (i : Instr) (len : Buf → ℕ) (t t' : State) : Prop :=
  t.done = t'.done ∧ t.errcode = t'.errcode ∧
    (t.errcode ≠ 0 → t.errinfo = t'.errinfo ∧ t.errcmd = t'.errcmd) ∧
    (t.errcode = 0 →
      (∀ (b : Buf) (k : ℕ), k < len b → R (t.element b k) (t'.element b k)) ∧
      (∀ sel, writesTlen i sel = true → t.tlen sel = t'.tlen sel) ∧
      (∀ src, i = .est src → t.hplen = t'.hplen))

/-- A command on two states that make the same checks and store related outputs ends in the same way. -/
theorem exec_sameOutcome {R : NumK → NumK → Prop} {i : Instr} {s s' t t' : State} (h0 : s.errcode = 0)
    (h0' : s'.errcode = 0) (hcheck : (commandParts i).2.1 s.accept = (commandParts i).2.1 s'.accept)
    (hout : (commandParts i).2.1 s.accept = none → ∀ b, List.Forall₂ R (s.accept.output i b) (s'.accept.output i b))
    (hnpilot : ∀ src, i = .est src → s.npilot = s'.npilot) (ht : exec i s = .next t) (ht' : exec i s' = .next t') :
    SameOutcome R i (s.writtenLength i) t t' := by
  rcases exec_cases h0 ht with ⟨e, hc, rfl⟩ | ⟨hc, rfl⟩
  · have hraise := exec_of_raises h0' (hcheck ▸ hc)
    rw [ht'] at hraise
    cases hraise
    exact ⟨rfl, rfl, fun _ => ⟨rfl, rfl⟩, fun h => absurd h (ErrCode.code_ne_zero e.cls)⟩
  · have hcomplete := exec_of_completes h0' (hcheck ▸ hc)
    rw [ht'] at hcomplete
    cases hcomplete
    have hcode : ((commandParts i).2.2 s.accept).errcode = 0 := (commandEffect_errcode i _).trans h0
    have hcode' : ((commandParts i).2.2 s'.accept).errcode = 0 := (commandEffect_errcode i _).trans h0'
    refine ⟨rfl, hcode.trans hcode'.symm, fun h => absurd hcode h, fun _ => ⟨fun b k hk => ?_, fun sel hsel => ?_, ?_⟩⟩
    · obtain ⟨hlen, hget⟩ := List.forall₂_iff_get.1 (hout hc b)
      rw [← State.writtenLength_accept, ← length_output hc b] at hk
      have hk' := hlen ▸ hk
      rw [State.element_complete, State.element_complete, element_commandEffect, element_commandEffect, if_pos hk,
        if_pos hk', List.getD_eq_getElem _ _ hk, List.getD_eq_getElem _ _ hk']
      exact hget k hk hk'
    · rw [State.complete_tlen, State.complete_tlen, tlen_commandEffect, tlen_commandEffect, if_pos hsel, if_pos hsel,
        List.Forall₂.length_eq (hout hc (tBuf sel))]
    · rintro src rfl
      exact (hplen_estEffect src _).trans ((hnpilot src rfl).trans (hplen_estEffect src _).symm)

theorem exec_sameOutcome_of_sameInputs {i : Instr} {s s' t t' : State} (h : s.sameInputs s' i) (h0 : s.errcode = 0)
    (ht : exec i s = .next t) (ht' : exec i s' = .next t') :
    SameOutcome (fun x y => x = y) i (s.writtenLength i) t t' := by
  have hacc := State.sameInputs_accept h
  refine exec_sameOutcome h0 (h.1.1 ▸ h0) (commandCheck_congr hacc.1) (fun _ b => ?_) ?_ ht ht'
  · rw [output_congr hacc b]
    exact List.forall₂_same.2 fun _ _ => rfl
  · rintro src rfl
    obtain ⟨⟨-, -, -, -, hpilots⟩, -⟩ := h
    exact hpilots.1

theorem exec_sameOutcome_of_sameInputValues {v : Valuation} {i : Instr} {s s' t t' : State}
    (h : s.sameInputValues s' v i) (h0 : s.errcode = 0) (ht : exec i s = .next t) (ht' : exec i s' = .next t') :
    SameOutcome (fun x y => x.sameValue v y) i (s.writtenLength i) t t' := by
  have hacc := State.sameInputValues_accept h
  refine exec_sameOutcome h0 (h.1 ▸ h0) (commandCheck_congr_of_values hacc) (sameValues_output hacc) ?_ ht ht'
  rintro src rfl
  obtain ⟨-, -, -, -, -, hpilots⟩ := h
  exact hpilots.1

/-- The estimates of an EST that completes, by grid point. -/
theorem element_exec_est {src : Sel} {s t : State} (h0 : s.errcode = 0) (ht : exec (.est src) s = .next t)
    (hcode : t.errcode = 0) :
    (∀ j < s.npilot.toNat, t.element .hp j = (perPilotEstimate s.num (s.received src)).getD j NumK.zero) ∧
      ∀ d l, d < s.m.toNat → l < s.n.toNat → t.element .hg (d + s.m.toNat * l) =
        fullGridCell s.num (s.received src) (pilotPoints ((s.received src).map fun r => r.1))
          (triangulation (pilotPoints ((s.received src).map fun r => r.1))) ⟨(d : ℕ), (l : ℕ)⟩ := by
  obtain ⟨-, rfl⟩ := exec_completes h0 ht hcode
  refine ⟨fun j hj => ?_, fun d l hd hl => ?_⟩
  · exact (State.element_complete ..).trans (element_estEffect_hp src hj)
  · have hk : d + s.m.toNat * l < s.m.toNat * s.n.toNat := by nlinarith
    exact (State.element_complete ..).trans
      ((element_estEffect_hg src hk).trans (getD_fullGridEstimate _ _ hd hl))

/-- Settles O12: data and values by the frame of the commands, the estimates by grid point. -/
theorem resultDependsOnlyOnInputs : Obligations.ResultDependsOnlyOnInputs := by
  refine ⟨fun i s s' t t' h h0 ht ht' => exec_sameOutcome_of_sameInputs h h0 ht ht',
    fun v i s s' t t' h h0 ht ht' => exec_sameOutcome_of_sameInputValues h h0 ht ht',
    fun src s s' t t' hpilots hnum h0 h0' ht ht' hcode hcode' => ?_⟩
  have hrec := State.received_congr hpilots
  obtain ⟨hhp, hhg⟩ := element_exec_est h0 ht hcode
  obtain ⟨hhp', hhg'⟩ := element_exec_est h0' ht' hcode'
  refine ⟨fun j hj => ?_, fun d l hd hd' hl hl' => ?_⟩
  · rw [hhp j hj, hhp' j (hpilots.1 ▸ hj), hnum, hrec]
  · rw [hhg d l hd hl, hhg' d l hd' hl', hnum, hrec]

end Machine

end Sys2Proof

/-! PROOFS. Without non-finite encodings in `NUM` every operation answers a number for numbers (00_scope.md R13), and so does
every command. -/

namespace Sys2Proof

/-! ## The operations on numbers -/

@[simp] theorem NumK.isNumber_zero : NumK.zero.isNumber = true := rfl

@[simp] theorem NumK.isNumber_scale (r : NumR) (x : NumK) : (NumK.scale r x).isNumber = true := by
  unfold NumK.scale
  split
  · rfl
  · split <;> rfl

theorem NumK.isNumber_lift {op : Cyc → Cyc → Cyc} {other x y : NumK} (h : other.isNumber = true) :
    (NumK.lift op other x y).isNumber = true := by
  unfold NumK.lift
  split
  · rfl
  · exact h

theorem NumK.isNumber_add {x y : NumK} (hx : x.isNumber = true) (hy : y.isNumber = true) :
    (NumK.add x y).isNumber = true := by
  refine NumK.isNumber_lift ?_
  split
  · exact hy
  · split
    · exact hx
    · rfl

theorem NumK.isNumber_mul {x : NumK} (hx : x.isNumber = true) (y : NumK) : (NumK.mul x y).isNumber = true := by
  refine NumK.isNumber_lift ?_
  split
  · rfl
  · split
    · exact hx
    · rfl

theorem NumK.isNumber_div (x y : NumK) : (NumK.div x y).isNumber = true := by
  refine NumK.isNumber_lift ?_
  split <;> rfl

theorem NumK.choose_of_isNumber {x : NumK} (hx : x.isNumber = true) (y z : NumK) : NumK.choose x y z = y := if_pos hx

theorem NumK.isNumber_unlessZero {x y : NumK} (hy : y.isNumber = true) : (NumK.unlessZero x y).isNumber = true := by
  unfold NumK.unlessZero
  split
  · split
    · rfl
    · exact hy
  · exact hy

theorem Num.isNumber_round {x : NumK} (hx : x.isNumber = true) (num : Num) (name : ℕ) (size : NumK) :
    (num.round name size x).isNumber = true := by
  cases num with
  | reference => exact hx
  | finite _ _ _ => rfl

theorem Num.isNumber_roundNonzero {x : NumK} (hx : x.isNumber = true) (num : Num) (name : ℕ) (size : NumK) :
    (num.roundNonzero name size x).isNumber = true := by
  cases num with
  | reference => exact hx
  | finite _ _ _ => exact NumK.isNumber_unlessZero rfl

theorem Num.isNumber_divide {num : Num} (h : num.hasSpecials = false) (name : ℕ) (x y : NumK) :
    (num.divide name x y).isNumber = true := by
  rw [Num.divide, if_neg (by simp [h])]
  exact NumK.isNumber_div x y

/-! ## Lists of numbers -/

/-- Every value of the list is a number. -/
abbrev AllNumbers (xs : List NumK) : Prop := ∀ x ∈ xs, x.isNumber = true

theorem AllNumbers.getD {xs : List NumK} (h : AllNumbers xs) (k : ℕ) : (xs.getD k NumK.zero).isNumber = true := by
  rcases Nat.lt_or_ge k xs.length with hk | hk
  · rw [List.getD_eq_getElem _ _ hk]
    exact h _ (List.getElem_mem hk)
  · rw [List.getD_eq_default _ _ hk]
    rfl

theorem allNumbers_zeros (n : ℕ) : AllNumbers (zeros n) := fun x hx => by
  rw [List.eq_of_mem_replicate hx]
  rfl

theorem allNumbers_ite {p : Prop} [Decidable p] {xs ys : List NumK} (hx : AllNumbers xs) (hy : AllNumbers ys) :
    AllNumbers (if p then xs else ys) := by
  split
  · exact hx
  · exact hy

theorem NumK.whenFinite_of_allNumbers {inputs : List NumK} (h : AllNumbers inputs) (x y : NumK) :
    NumK.whenFinite inputs x y = x := by
  induction inputs with
  | nil => rfl
  | cons a inputs ih =>
    obtain ⟨ha, hs⟩ := List.forall_mem_cons.1 h
    exact (NumK.choose_of_isNumber ha _ _).trans (ih hs)

theorem NumK.isNumber_sum {xs : List NumK} (h : AllNumbers xs) : (NumK.sum xs).isNumber = true :=
  List.foldlRecOn (motive := fun x : NumK => x.isNumber = true) xs _ rfl fun _ ha x hx => NumK.isNumber_add ha (h x hx)

/-- The results of a stage are numbers where they are made of numbers and depend on numbers alone. -/
theorem Num.allNumbers_results {num : Num} {stage : Stage} {words : List ℕ} {reals : List RVal} {numbers : List NumK}
    {isExact : ℕ → Bool} {results : List (List NumK × NumK)}
    (h : ∀ r ∈ results, AllNumbers r.1 ∧ r.2.isNumber = true) :
    AllNumbers (num.results stage words reals numbers isExact results) := by
  intro x hx
  obtain ⟨k, hk, rfl⟩ := List.mem_mapIdx.1 hx
  obtain ⟨hin, hres⟩ := h _ (List.getElem_mem hk)
  simp only [NumK.whenFinite_of_allNumbers hin]
  split
  · exact hres
  · exact Num.isNumber_round hres _ _ _

theorem RVal.isNumber_complex {r : RVal} (h : r.isFinite = true) : r.complex.isNumber = true := by
  obtain ⟨x, rfl⟩ := RVal.exists_real_of_isFinite h
  exact InputVal.isNumber_val (.number (.parts x (NumR.ofRat 0)))

namespace Machine

/-! ## The guard codec and the transform pair -/

theorem allNumbers_giInsert {xs : List NumK} (h : AllNumbers xs) (g : ℕ) (md : GuardMode) :
    AllNumbers (giInsert xs g md) := by
  cases md with
  | none => exact h
  | zeroPad => exact List.forall_mem_append.2 ⟨h, allNumbers_zeros g⟩
  | cyclicPrefix => exact List.forall_mem_append.2 ⟨fun x hx => h x (List.mem_of_mem_drop hx), h⟩

/-- Removing a guard adds no sample. -/
theorem giRemove_subset (xs : List NumK) (g : ℕ) (md : GuardMode) : giRemove xs g md ⊆ xs := by
  cases md with
  | none => exact List.Subset.refl xs
  | zeroPad => exact List.take_subset ..
  | cyclicPrefix => exact List.drop_subset ..

theorem allNumbers_reconcile {xs : List NumK} (h : AllNumbers xs) (k : ℕ) : AllNumbers (reconcile xs k) :=
  List.forall_mem_append.2 ⟨fun x hx => h x (List.mem_of_mem_take hx), allNumbers_zeros _⟩

/-- Each result of the inverse transform is scaled last, so it is a number. -/
theorem allNumbers_idft (xs : List NumK) : AllNumbers (idft xs) := by
  intro y hy
  obtain ⟨k, -, rfl⟩ := List.mem_map.1 hy
  exact NumK.isNumber_scale _ _

theorem allNumbers_dft {xs : List NumK} (h : AllNumbers xs) : AllNumbers (dft xs) := by
  intro y hy
  obtain ⟨d, -, rfl⟩ := List.mem_map.1 hy
  refine NumK.isNumber_sum fun x hx => ?_
  obtain ⟨k, hk, rfl⟩ := List.mem_mapIdx.1 hx
  exact NumK.isNumber_mul (h _ (List.getElem_mem hk)) _

/-- Every value of the matrix is a number. -/
abbrev Grid.AllNumbers (y : Grid) : Prop := ∀ col ∈ y, Sys2Proof.AllNumbers col

theorem Grid.AllNumbers.transpose {y : Grid} (h : y.AllNumbers) (rows : ℕ) : (transpose rows y).AllNumbers := by
  intro col hcol x hx
  obtain ⟨d, -, rfl⟩ := List.mem_map.1 hcol
  obtain ⟨c, hc, rfl⟩ := List.mem_map.1 hx
  exact (h c hc).getD d

theorem Grid.AllNumbers.map_dft {y : Grid} (h : y.AllNumbers) : Grid.AllNumbers (y.map dft) :=
  List.forall_mem_map.2 fun c hc => allNumbers_dft (h c hc)

theorem Grid.allNumbers_map_idft (y : Grid) : Grid.AllNumbers (y.map idft) :=
  List.forall_mem_map.2 fun c _ => allNumbers_idft c

theorem allNumbers_reshape {xs : List NumK} (h : AllNumbers xs) (m n : ℕ) : (reshape xs m n).AllNumbers := by
  intro col hcol x hx
  obtain ⟨l, -, rfl⟩ := List.mem_map.1 hcol
  obtain ⟨d, -, rfl⟩ := List.mem_map.1 hx
  exact h.getD _

theorem Grid.AllNumbers.flatten {y : Grid} (h : y.AllNumbers) : Sys2Proof.AllNumbers (flattenGrid y) := by
  intro x hx
  obtain ⟨col, hcol, hx⟩ := List.mem_flatten.1 hx
  exact h col hcol x hx

theorem allNumbers_modulate (xs : List NumK) (m n : ℕ) : AllNumbers (modulate xs m n) :=
  ((Grid.allNumbers_map_idft _).transpose n).flatten

theorem allNumbers_demodulate {xs : List NumK} (h : AllNumbers xs) (m n : ℕ) : AllNumbers (demodulate xs m n) :=
  ((((allNumbers_reshape h m n).transpose m).map_dft.transpose n).map_dft).flatten

/-- A transform of numbers whose results are numbers, as `NUM` has its results. -/
theorem allNumbers_results_transform {f : List NumK → List NumK} {xs : List NumK} (h : AllNumbers xs)
    (hf : AllNumbers (f xs)) (num : Num) (stage : Stage) (words : List ℕ) (isExact : ℕ → Bool) :
    AllNumbers (num.results stage words [] xs isExact (transformResults f xs)) :=
  Num.allNumbers_results (List.forall_mem_map.2 fun x hx => ⟨h, hf x hx⟩)

theorem allNumbers_modSamples {cells : List NumK} (h : AllNumbers cells) (num : Num) (m n : ℕ) :
    AllNumbers (modSamples num m n cells) :=
  allNumbers_results_transform h (allNumbers_modulate cells m n) _ _ _ _

theorem allNumbers_demodCells {core : List NumK} (h : AllNumbers core) (num : Num) (m n : ℕ) :
    AllNumbers (demodCells num m n core) :=
  allNumbers_results_transform h (allNumbers_demodulate h m n) _ _ _ _

/-! ## The channel -/

theorem allNumbers_pathContribution (tx : List NumK) (fs : NumR) (p : Path) :
    AllNumbers (pathContribution tx fs p) := by
  intro x hx
  obtain ⟨k, hk, rfl⟩ := List.mem_mapIdx.1 hx
  exact NumK.isNumber_mul (NumK.isNumber_scale _ _) _

theorem allNumbers_zipWith_add {xs ys : List NumK} (hx : AllNumbers xs) (hy : AllNumbers ys) :
    AllNumbers (List.zipWith NumK.add xs ys) := by
  intro z hz
  obtain ⟨k, hk, rfl⟩ := List.mem_iff_getElem.1 hz
  rw [List.getElem_zipWith]
  exact NumK.isNumber_add (hx _ (List.getElem_mem _)) (hy _ (List.getElem_mem _))

/-- Each contribution is scaled and the sum begins with zeros, so the samples are numbers. -/
theorem allNumbers_applyChannel (tx : List NumK) (fs : NumR) (paths : List Path) :
    AllNumbers (applyChannel tx fs paths) :=
  List.foldlRecOn paths _ (allNumbers_zeros _) fun _ hrx p _ =>
    allNumbers_zipWith_add hrx (allNumbers_pathContribution tx fs p)

theorem allNumbers_channelInputs {tx : List NumK} (h : AllNumbers tx) {fs : RVal} (hfs : fs.isFinite = true)
    {paths : List PathEntry} (hp : ∀ p ∈ paths, p.isFinite = true) (k : ℕ) :
    AllNumbers (channelInputs tx fs paths k) := by
  intro x hx
  obtain ⟨p, hmem, hx⟩ := List.mem_flatMap.1 hx
  obtain ⟨hgain, hdoppler⟩ := Bool.and_eq_true_iff.1 (hp p (List.mem_of_mem_filter hmem))
  simp only [List.mem_cons, List.not_mem_nil, or_false] at hx
  rcases hx with rfl | rfl | rfl | rfl
  · exact RVal.isNumber_complex hfs
  · exact RVal.isNumber_complex hgain
  · exact RVal.isNumber_complex hdoppler
  · exact h.getD _

theorem allNumbers_chanSamples {tx : List NumK} (h : AllNumbers tx) (num : Num) {fs : RVal} (hfs : fs.isFinite = true)
    {paths : List PathEntry} (hp : ∀ p ∈ paths, p.isFinite = true) : AllNumbers (chanSamples num tx fs paths) := by
  refine Num.allNumbers_results fun r hr => ?_
  obtain ⟨k, hk, rfl⟩ := List.mem_mapIdx.1 hr
  exact ⟨allNumbers_channelInputs h hfs hp k, allNumbers_applyChannel _ _ _ _ (List.getElem_mem hk)⟩

/-! ## The estimator -/

/-- The received cells and the pilot values are numbers. -/
abbrev Received.AllNumbers (rs : Received) : Prop := ∀ r ∈ rs, r.1.value.isFinite = true ∧ r.2.isNumber = true

/-- An interpolated value is a sum of scaled estimates or 0. -/
theorem isNumber_interp (pts : List Point) (hs : List NumK) (tri : List Tri) (q : Point) :
    (interp pts hs tri q).isNumber = true := by
  unfold interp
  split
  · exact NumK.isNumber_add (NumK.isNumber_add (NumK.isNumber_scale _ _) (NumK.isNumber_scale _ _))
      (NumK.isNumber_scale _ _)
  · rfl

section
variable {num : Num} {rs : Received} (hnum : num.hasSpecials = false) (h : rs.AllNumbers)
include hnum h

theorem allNumbers_pilotRatios : AllNumbers (pilotRatios num rs) := by
  intro x hx
  obtain ⟨j, hj, rfl⟩ := List.mem_mapIdx.1 hx
  obtain ⟨hp, hc⟩ := h _ (List.getElem_mem hj)
  rw [pilotRatio, NumK.choose_of_isNumber ((InputVal.isNumber_val _).trans hp), NumK.choose_of_isNumber hc]
  exact Num.isNumber_divide hnum _ _ _

theorem allNumbers_perPilotEstimate : AllNumbers (perPilotEstimate num rs) := by
  intro x hx
  obtain ⟨j, hj, rfl⟩ := List.mem_mapIdx.1 hx
  have hratio := allNumbers_pilotRatios hnum h _ (List.getElem_mem hj)
  rw [NumK.choose_of_isNumber hratio]
  exact Num.isNumber_roundNonzero hratio _ _ _

theorem isNumber_interpVal (pts : List Point) (tri : List Tri) (q : Point) :
    (interpVal num rs pts tri q).isNumber = true := by
  unfold interpVal
  split
  · rename_i t _
    have hused : AllNumbers (t.usedEstimates pts (pilotRatios num rs) q) :=
      List.forall_mem_map.2 fun w _ => (allNumbers_pilotRatios hnum h).getD w.1
    rw [NumK.whenFinite_of_allNumbers hused]
    exact Num.isNumber_round (isNumber_interp ..) _ _ _
  · rfl

theorem allNumbers_fullGridEstimate (m n : ℕ) : AllNumbers (fullGridEstimate num rs m n) := by
  have hfix : ∀ z : NumK, z.isNumber = true → z.fix.isNumber = true := fun z hz => by
    rwa [NumK.fix, NumK.choose_of_isNumber hz]
  refine List.forall_mem_map.2 fun k _ => hfix _ ?_
  split
  · exact (allNumbers_perPilotEstimate hnum h).getD _
  · exact isNumber_interpVal hnum h _ _ _

end

end Machine

end Sys2Proof

/-! PROOFS. The invariant of the state is kept by every step (20_memory.md R34; 10_state.md R17, R21, R28; 60_exceptions.md
R92, R97, R99; 00_scope.md R13). It has two parts: what the memories hold, said of each table and each buffer in the same
words, and the flags, the latch and HPLEN. -/

namespace Sys2Proof

/-- The value is one of the type `K` of `NUM`: without non-finite encodings it is a number. -/
abbrev Num.admitsValue (num : Num) (x : NumK) : Prop := num.hasSpecials = false → x.isNumber = true

theorem Num.admitsR_iff {num : Num} {r : RVal} :
    num.admitsR r = true ↔ (num.hasSpecials = false → r.isFinite = true) := by
  cases h : num.hasSpecials <;> simp [Num.admitsR, h]

theorem Num.admitsK_iff {num : Num} {x : InputVal} :
    num.admitsK x = true ↔ (num.hasSpecials = false → x.isFinite = true) := by
  cases h : num.hasSpecials <;> simp [Num.admitsK, h]

namespace Machine

/-! ## One memory -/

section
variable {α : Type} {cap : ℕ} {P : α → Prop} {mem : Mem α}

/-- The memory is canonical, lists indices below `cap` alone, and every value in it has the property. -/
structure Mem.Sound (cap : ℕ) (P : α → Prop) (mem : Mem α) : Prop where
  wf : mem.wf
  below : mem.below cap
  values : ∀ x ∈ mem, P x.2

theorem Mem.sound_nil : Mem.Sound cap P [] := ⟨.nil, by simp, by simp⟩

theorem Mem.Sound.write (h : mem.Sound cap P) {i : ℕ} (hi : i < cap) {x : α} (hx : P x) :
    (mem.write i x).Sound cap P where
  wf := Mem.wf_write h.wf i x
  below := Mem.below_write h.below hi x
  values := fun y hy => by
    rcases Mem.mem_write hy with rfl | hy
    · exact hx
    · exact h.values y hy

theorem Mem.Sound.writeFrom_zero (h : mem.Sound cap P) {vs : List α} (hlen : vs.length ≤ cap) (hvs : ∀ x ∈ vs, P x) :
    (mem.writeFrom 0 vs).Sound cap P where
  wf := Mem.wf_writeFrom h.wf 0
  below := Mem.below_writeFrom h.below (by omega)
  values := fun y hy => (Mem.mem_writeFrom hy).elim (hvs y.2) (h.values y)

/-- What is read in a sound memory has the property. -/
theorem Mem.Sound.of_read (h : mem.Sound cap P) {i : ℕ} {x : α} (hx : mem.read i = some x) : P x :=
  h.values _ (Mem.mem_of_read hx)

end

/-! ## The memories of the state -/

/-- FS, the tables and the buffers hold values of `NUM`, each memory canonical and inside its address space. -/
structure State.Sound (s : State) : Prop where
  fs : s.num.admitsR s.fs = true
  pathDelay : s.pathDelay.Sound s.caps.pcap fun _ => True
  pathGain : s.pathGain.Sound s.caps.pcap fun r => s.num.admitsR r = true
  pathDoppler : s.pathDoppler.Sound s.caps.pcap fun r => s.num.admitsR r = true
  pilotDidx : s.pilotDidx.Sound s.caps.qcap fun _ => True
  pilotLidx : s.pilotLidx.Sound s.caps.qcap fun _ => True
  pilotPval : s.pilotPval.Sound s.caps.qcap fun x => s.num.admitsK x = true
  buf : ∀ b, (s.buf b).Sound (capacityOf s.caps b) s.num.admitsValue

theorem State.Sound.of_memories {s : State} (hwf : s.memoriesWf) (hrange : s.memoriesInRange) (hvals : s.valuesAdmitted) :
    s.Sound := by
  obtain ⟨w1, w2, w3, w4, w5, w6, w7, w8, w9, w10, w11, w12⟩ := hwf
  obtain ⟨r1, r2, r3, r4, r5, r6, r7, r8, r9, r10, r11, r12⟩ := hrange
  refine ⟨Num.admitsR_iff.2 fun hn => ?_, ⟨w1, r1, fun _ _ => trivial⟩,
    ⟨w2, r2, fun x hx => Num.admitsR_iff.2 fun hn => ?_⟩, ⟨w3, r3, fun x hx => Num.admitsR_iff.2 fun hn => ?_⟩,
    ⟨w4, r4, fun _ _ => trivial⟩, ⟨w5, r5, fun _ _ => trivial⟩,
    ⟨w6, r6, fun x hx => Num.admitsK_iff.2 fun hn => ?_⟩,
    fun b => ⟨by cases b <;> assumption, by cases b <;> assumption, fun x hx hn => ?_⟩⟩
  all_goals obtain ⟨hfs, hgain, hdoppler, hpval, hg0, hg1, ht0, ht1, hhp, hhg⟩ := hvals hn
  · exact hfs
  · exact hgain x hx
  · exact hdoppler x hx
  · exact hpval x hx
  · have hbuf : (s.buf b).numbersFinite := by cases b <;> assumption
    exact hbuf x hx

theorem State.Sound.memoriesWf {s : State} (h : s.Sound) : s.memoriesWf :=
  ⟨h.pathDelay.wf, h.pathGain.wf, h.pathDoppler.wf, h.pilotDidx.wf, h.pilotLidx.wf, h.pilotPval.wf, (h.buf .g0).wf,
    (h.buf .g1).wf, (h.buf .t0).wf, (h.buf .t1).wf, (h.buf .hp).wf, (h.buf .hg).wf⟩

theorem State.Sound.memoriesInRange {s : State} (h : s.Sound) : s.memoriesInRange :=
  ⟨h.pathDelay.below, h.pathGain.below, h.pathDoppler.below, h.pilotDidx.below, h.pilotLidx.below, h.pilotPval.below,
    (h.buf .g0).below, (h.buf .g1).below, (h.buf .t0).below, (h.buf .t1).below, (h.buf .hp).below, (h.buf .hg).below⟩

theorem State.Sound.valuesAdmitted {s : State} (h : s.Sound) : s.valuesAdmitted := fun hn => by
  have hbuf : ∀ b, (s.buf b).numbersFinite := fun b x hx => (h.buf b).values x hx hn
  exact ⟨Num.admitsR_iff.1 h.fs hn, fun x hx => Num.admitsR_iff.1 (h.pathGain.values x hx) hn,
    fun x hx => Num.admitsR_iff.1 (h.pathDoppler.values x hx) hn,
    fun x hx => Num.admitsK_iff.1 (h.pilotPval.values x hx) hn, hbuf .g0, hbuf .g1, hbuf .t0, hbuf .t1, hbuf .hp, hbuf .hg⟩

/-- The memories are sound exactly where the three parts of the invariant about them hold. -/
theorem State.sound_iff (s : State) : s.Sound ↔ s.memoriesWf ∧ s.memoriesInRange ∧ s.valuesAdmitted :=
  ⟨fun h => ⟨h.memoriesWf, h.memoriesInRange, h.valuesAdmitted⟩, fun ⟨hw, hr, hv⟩ => .of_memories hw hr hv⟩

theorem State.inv_iff (s : State) :
    s.Inv ↔ s.busy = false ∧ s.latchConsistent ∧ s.hplenInRange ∧ s.Sound := by
  rw [State.sound_iff]
  exact ⟨fun ⟨hb, hw, hr, hl, hh, hv⟩ => ⟨hb, hl, hh, hw, hr, hv⟩, fun ⟨hb, hl, hh, hw, hr, hv⟩ => ⟨hb, hw, hr, hl, hh, hv⟩⟩

/-- Sound memories in the buffers, with FS, the tables, the sizes and `NUM` as they were. -/
theorem State.Sound.of_bufs {s t : State} (h : s.Sound) (hc : s.sameConfiguration t)
    (hb : ∀ b, (t.buf b).Sound (capacityOf s.caps b) s.num.admitsValue) : t.Sound := by
  obtain ⟨-, -, -, -, -, -, hfs, hdelay, hgain, hdoppler, hdidx, hlidx, hpval, hcaps, hnum, -, -⟩ := hc
  constructor
  case buf => rwa [hcaps, hnum]
  all_goals simp only [hfs, hdelay, hgain, hdoppler, hdidx, hlidx, hpval, hcaps, hnum]
  exacts [h.fs, h.pathDelay, h.pathGain, h.pathDoppler, h.pilotDidx, h.pilotLidx, h.pilotPval]

theorem State.Sound.of_sameMemories {s t : State} (h : s.Sound) (hc : s.sameConfiguration t)
    (hb : ∀ b, t.buf b = s.buf b) : t.Sound :=
  h.of_bufs hc fun b => hb b ▸ h.buf b

/-! ## What is read of sound memories -/

section
variable {s : State} (h : s.Sound) (hn : s.num.hasSpecials = false)
include h hn

/-- Every element is a number, written or not: an unwritten one is a value of `NUM` (log entry 4). -/
theorem State.Sound.isNumber_element (b : Buf) (i : ℕ) : (s.element b i).isNumber = true := by
  unfold State.element
  split
  · rename_i v hv
    exact (h.buf b).of_read hv hn
  · rw [InputVal.isNumber_val, Num.pick, if_neg (by simp [hn])]
    rfl

theorem State.Sound.isFinite_gainAt (j : ℕ) : (s.gainAt j).isFinite = true := by
  unfold State.gainAt
  split
  · rename_i v hv
    exact Num.admitsR_iff.1 (h.pathGain.of_read hv) hn
  · rw [Num.pick, if_neg (by simp [hn])]
    rfl

theorem State.Sound.isFinite_dopplerAt (j : ℕ) : (s.dopplerAt j).isFinite = true := by
  unfold State.dopplerAt
  split
  · rename_i v hv
    exact Num.admitsR_iff.1 (h.pathDoppler.of_read hv) hn
  · rw [Num.pick, if_neg (by simp [hn])]
    rfl

theorem State.Sound.isFinite_pvalAt (j : ℕ) : (s.pvalAt j).isFinite = true := by
  unfold State.pvalAt
  split
  · rename_i v hv
    exact Num.admitsK_iff.1 (h.pilotPval.of_read hv) hn
  · rw [Num.pick, if_neg (by simp [hn])]
    rfl

theorem State.Sound.allNumbers_seq (sel : Sel) : AllNumbers (s.seq sel) :=
  List.forall_mem_map.2 fun _ _ => h.isNumber_element hn _ _

theorem State.Sound.allNumbers_grid (sel : Sel) (m n : ℕ) : AllNumbers (s.grid sel m n) :=
  List.forall_mem_map.2 fun _ _ => h.isNumber_element hn _ _

theorem State.Sound.isFinite_paths : ∀ p ∈ s.paths, p.isFinite = true :=
  List.forall_mem_map.2 fun j _ =>
    Bool.and_eq_true_iff.2 ⟨h.isFinite_gainAt hn j, h.isFinite_dopplerAt hn j⟩

theorem State.Sound.allNumbers_received (src : Sel) : (s.received src).AllNumbers :=
  List.forall_mem_map.2 <| List.forall_mem_map.2 fun j _ => ⟨h.isFinite_pvalAt hn j, h.isNumber_element hn _ _⟩

/-- Without non-finite encodings in `NUM` a command stores numbers alone. -/
theorem State.Sound.allNumbers_output (i : Instr) (b : Buf) : AllNumbers (s.output i b) := by
  have hnil : AllNumbers [] := List.forall_mem_nil _
  cases i with
  | nop => exact hnil
  | giIns src dst => exact allNumbers_ite (allNumbers_giInsert (h.allNumbers_seq hn src) _ _) hnil
  | giRem src dst => exact allNumbers_ite (fun x hx => h.allNumbers_seq hn src x (giRemove_subset _ _ _ hx)) hnil
  | mod src dst =>
    exact allNumbers_ite (allNumbers_giInsert (allNumbers_modSamples (h.allNumbers_grid hn src _ _) _ _ _) _ _) hnil
  | demod src dst =>
    have hcore := fun x hx => h.allNumbers_seq hn src x (giRemove_subset _ s.glen.toNat s.mode hx)
    exact allNumbers_ite (allNumbers_demodCells (allNumbers_reconcile hcore _) _ _ _) hnil
  | chan src dst =>
    have hfs := Num.admitsR_iff.1 h.fs hn
    exact allNumbers_ite (allNumbers_chanSamples (h.allNumbers_seq hn src) _ hfs (h.isFinite_paths hn)) hnil
  | est src =>
    have hreceived := h.allNumbers_received hn src
    exact allNumbers_ite (allNumbers_perPilotEstimate hn hreceived)
      (allNumbers_ite (allNumbers_fullGridEstimate hn hreceived _ _) hnil)

end

/-! ## The range of what a command writes -/

@[simp] theorem capacityOf_tBuf (c : Caps) (sel : Sel) : capacityOf c (tBuf sel) = c.tcap := by cases sel <;> rfl

@[simp] theorem capacityOf_gBuf (c : Caps) (sel : Sel) : capacityOf c (gBuf sel) = c.gcap := by cases sel <;> rfl

theorem gridCheck_range {s : State} (h : gridCheck s = none) : s.m.toNat * s.n.toNat ≤ s.caps.gcap := by
  simp only [gridCheck] at h
  split_ifs at h
  omega

theorem estCheck_range {s : State} (h : estCheck s = none) :
    s.m.toNat * s.n.toNat ≤ s.caps.gcap ∧ s.npilot.toNat ≤ s.caps.qcap := by
  simp only [estCheck, pilotCheck] at h
  split at h
  · cases h
  · rename_i hgrid
    split at h
    · cases h
    · rename_i hq
      exact ⟨gridCheck_range hgrid, not_lt.1 hq⟩

theorem chanCheck_range {s : State} {src : Sel} (h : chanCheck src s = none) : (s.tlen src).toNat ≤ s.caps.tcap := by
  by_contra hlt
  simp only [chanCheck, if_pos (not_le.1 hlt)] at h
  repeat' split at h
  all_goals cases h

/-- A command whose checks pass stays inside the buffers that it writes (20_memory.md R34). -/
theorem writtenLength_le_capacity {i : Instr} {s : State} (hc : (commandParts i).2.1 s = none) (b : Buf) :
    s.writtenLength i b ≤ capacityOf s.caps b := by
  have hbuf : ∀ {c : Buf} {cap len : ℕ}, capacityOf s.caps c = cap → len ≤ cap →
      (if b = c then len else 0) ≤ capacityOf s.caps b := fun {c cap len} hcap hlen => by
    split
    · rename_i hb
      rwa [hb, hcap]
    · exact Nat.zero_le _
  cases i with
  | nop => exact Nat.zero_le _
  | giIns src dst =>
    simp only [commandParts, giInsCheck] at hc
    split_ifs at hc
    exact hbuf (capacityOf_tBuf ..) (by omega)
  | giRem src dst =>
    simp only [commandParts, giRemCheck] at hc
    split_ifs at hc
    exact hbuf (capacityOf_tBuf ..) (by omega)
  | mod src dst =>
    simp only [commandParts, modCheck] at hc
    split at hc
    · cases hc
    · split_ifs at hc
      exact hbuf (capacityOf_tBuf ..) (by omega)
  | demod src dst =>
    simp only [commandParts, demodCheck] at hc
    split at hc
    · cases hc
    · rename_i hgrid
      exact hbuf (capacityOf_gBuf ..) (gridCheck_range hgrid)
  | chan src dst => exact hbuf (capacityOf_tBuf ..) (chanCheck_range hc)
  | est src =>
    obtain ⟨hgrid, hpilot⟩ := estCheck_range hc
    cases b <;> simp [State.writtenLength, capacityOf, hgrid, hpilot]

/-! ## The errors that are raised -/

/-- A command raises a ShapeError or a ConfigurationError and no other error; no check raises NumericAnomaly (60_exceptions.md
R99). -/
abbrev CmdError.OfCommand (e : CmdError) : Prop := e.cls = .shapeError ∨ e.cls = .configurationError

theorem ofCommand_gridCheck {s : State} {e : CmdError} (h : gridCheck s = some e) : e.OfCommand := by
  unfold gridCheck at h
  split_ifs at h <;> cases h <;> exact .inr rfl

theorem ofCommand_pilotCheck {s : State} {e : CmdError} (h : pilotCheck s = some e) : e.OfCommand := by
  simp only [pilotCheck] at h
  repeat' split at h
  all_goals cases h
  all_goals exact .inr rfl

theorem ofCommand_check {i : Instr} {s : State} {e : CmdError} (h : (commandParts i).2.1 s = some e) : e.OfCommand := by
  cases i with
  | nop => cases h
  | giIns src dst =>
    simp only [commandParts, giInsCheck] at h
    split_ifs at h <;> cases h
    exacts [.inl rfl, .inr rfl, .inl rfl]
  | giRem src dst =>
    simp only [commandParts, giRemCheck] at h
    split_ifs at h <;> cases h
    exacts [.inl rfl, .inl rfl]
  | mod src dst =>
    simp only [commandParts, modCheck] at h
    split at h
    · rename_i hgrid
      exact ofCommand_gridCheck (hgrid.trans h)
    · split_ifs at h <;> cases h
      exacts [.inr rfl, .inl rfl]
  | demod src dst =>
    simp only [commandParts, demodCheck] at h
    split at h
    · rename_i hgrid
      exact ofCommand_gridCheck (hgrid.trans h)
    · split_ifs at h <;> cases h
      exacts [.inr rfl, .inl rfl, .inl rfl]
  | chan src dst =>
    simp only [commandParts, chanCheck] at h
    repeat' split at h
    all_goals cases h
    exacts [.inr rfl, .inr rfl, .inr rfl, .inl rfl]
  | est src =>
    simp only [commandParts, estCheck] at h
    split at h
    · rename_i hgrid
      exact ofCommand_gridCheck (hgrid.trans h)
    · exact ofCommand_pilotCheck h

/-! ## Commands -/

/-- The effect of a command writes its output to the beginning of each buffer. -/
theorem buf_commandEffect (i : Instr) (s : State) (b : Buf) :
    ((commandParts i).2.2 s).buf b = (s.buf b).writeFrom 0 (s.output i b) := by
  have hstore : ∀ (s : State) (c : Buf) (vs : List NumK),
      (s.storeElements c vs).buf b = (s.buf b).writeFrom 0 (if b = c then vs else []) := fun s c vs => by
    rw [State.storeElements, State.buf_setBuf]
    by_cases h : c = b
    · subst h
      simp
    · simp [h, Ne.symm h]
  have hseq : ∀ (dst : Sel) (vs : List NumK),
      (s.storeSeq dst vs).buf b = (s.buf b).writeFrom 0 (if b = tBuf dst then vs else []) := fun dst vs => by
    rw [State.storeSeq, State.setTlen_buf, hstore]
  cases i with
  | nop => rfl
  | giIns src dst => exact hseq ..
  | giRem src dst => exact hseq ..
  | mod src dst => exact hseq ..
  | demod src dst => exact hstore ..
  | chan src dst => exact hseq ..
  | est src =>
    simp only [commandParts, estEffect, hstore, State.setHplen_buf]
    cases b <;> simp [State.output]

/-- The effect of a command whose checks pass keeps the memories sound. -/
theorem State.Sound.commandEffect {s : State} (h : s.Sound) {i : Instr} (hc : (commandParts i).2.1 s = none) :
    ((commandParts i).2.2 s).Sound := by
  refine h.of_bufs (commandEffect_keeps i s).1 fun b => ?_
  rw [buf_commandEffect]
  refine (h.buf b).writeFrom_zero ?_ fun x hx hn => h.allNumbers_output hn i b x hx
  rw [length_output hc]
  exact writtenLength_le_capacity hc b

/-- A command whose checks pass leaves HPLEN in range: EST has compared NPILOT with QCAP. -/
theorem hplenInRange_commandEffect {s : State} (h : s.hplenInRange) {i : Instr} (hc : (commandParts i).2.1 s = none) :
    ((commandParts i).2.2 s).hplenInRange := by
  have hcaps : ((commandParts i).2.2 s).caps = s.caps := by
    obtain ⟨⟨-, -, -, -, -, -, -, -, -, -, -, -, -, hcaps, -⟩, -⟩ := commandEffect_keeps i s
    exact hcaps
  rw [State.hplenInRange, hcaps]
  by_cases hest : ∃ src, i = .est src
  · obtain ⟨src, rfl⟩ := hest
    exact (congrArg BitVec.toNat (hplen_estEffect src s)).trans_le (estCheck_range hc).2
  · rw [hplen_commandEffect (fun src hi => hest ⟨src, hi⟩)]
    exact h

/-- Raising an error keeps the invariant: the code is one that is latched, and acceptance has cleared DONE. -/
theorem State.Inv.raise {s : State} (h : s.Inv) (w : Word) {e : CmdError} (he : e.cls ≠ .numericAnomaly) :
    (s.accept.raise w e).Inv := by
  obtain ⟨-, hwf, hrange, -, hhplen, hvals⟩ := h
  have hcode : e.cls.code = 1 ∨ e.cls.code = 2 ∨ e.cls.code = 4 := by
    cases hcls : e.cls with
    | shapeError => exact .inl rfl
    | configurationError => exact .inr (.inl rfl)
    | numericAnomaly => exact absurd hcls he
    | illegalCommand => exact .inr (.inr rfl)
  exact ⟨rfl, hwf, hrange, ⟨.inr hcode, fun h0 => absurd h0 (ErrCode.code_ne_zero e.cls), fun _ => rfl⟩, hhplen, hvals⟩

/-- A command that completes keeps the invariant. -/
theorem State.Inv.complete {s : State} (h : s.Inv) (h0 : s.errcode = 0) {i : Instr}
    (hc : (commandParts i).2.1 s.accept = none) : ((commandParts i).2.2 s.accept).complete.Inv := by
  obtain ⟨-, ⟨-, hlatch, -⟩, hhplen, hsound⟩ := (State.inv_iff s).1 h
  obtain ⟨-, hinfo, hcmd⟩ := commandEffect_keeps i s.accept
  have hcode : ((commandParts i).2.2 s.accept).errcode = 0 := (commandEffect_errcode i _).trans h0
  have haccept : s.accept.Sound := hsound.of_sameMemories (by simp [State.sameConfiguration]) (by simp)
  refine (State.inv_iff _).2 ⟨rfl, ⟨.inl hcode, fun _ => ?_, fun h => absurd hcode h⟩, ?_, ?_⟩
  · rw [State.complete_errinfo, State.complete_errcmd, hinfo, hcmd]
    exact hlatch h0
  · exact hplenInRange_commandEffect (s := s.accept) hhplen hc
  · exact (haccept.commandEffect hc).of_sameMemories (by simp [State.sameConfiguration]) (by simp)

/-- A write to CMD keeps the invariant. -/
theorem State.Inv.writeCmd {s t : State} (h : s.Inv) {w : Word} (ht : writeCmd w s = .next t) : t.Inv := by
  by_cases h0 : s.errcode = 0
  · rcases writeCmd_cases w s with ⟨i, -, e⟩ | ⟨err, -, e⟩
    · rcases exec_cases h0 (e ▸ ht) with ⟨err, hc, rfl⟩ | ⟨hc, rfl⟩
      · refine h.raise _ fun hcls => ?_
        rcases ofCommand_check hc with h | h <;> rw [hcls] at h <;> cases h
      · exact h.complete h0 hc
    · rw [e, commandState_raises h0 rfl] at ht
      cases ht
      exact h.raise w (by cases err <;> simp [illegalCommand])
  · rcases writeCmd_cases w s with ⟨i, -, e⟩ | ⟨err, -, e⟩
    · rw [e, exec_eq, commandState_latched h0] at ht
      cases ht
      exact h
    · rw [e, commandState_latched h0] at ht
      cases ht
      exact h

/-! ## Accesses and steps -/

theorem State.Inv.writeReg {s : State} (h : s.Inv) (no : ℕ) (w : Word) : (s.writeReg no w).Inv := by
  obtain ⟨hb, hwf, hrange, hlatch, hhplen, hvals⟩ := h
  unfold State.writeReg
  split
  case h_1 => exact ⟨hb, hwf, hrange, ⟨.inl rfl, fun _ => ⟨rfl, rfl⟩, fun h => absurd rfl h⟩, hhplen, hvals⟩
  all_goals exact ⟨hb, hwf, hrange, hlatch, hhplen, hvals⟩

/-- Sound memories in the place of those that were there, with all else as it was. -/
theorem State.Inv.of_sound {s t : State} (h : s.Inv) (ht : t.Sound) (hb : t.busy = s.busy) (hd : t.done = s.done)
    (hcode : t.errcode = s.errcode) (hinfo : t.errinfo = s.errinfo) (hcmd : t.errcmd = s.errcmd)
    (hhplen : t.hplen = s.hplen) (hcaps : t.caps = s.caps) : t.Inv := by
  obtain ⟨hbusy, hlatch, hrange, -⟩ := (State.inv_iff s).1 h
  refine (State.inv_iff t).2 ⟨hb.trans hbusy, ?_, ?_, ht⟩
  · rwa [State.latchConsistent, hcode, hinfo, hcmd, hd]
  · rwa [State.hplenInRange, hhplen, hcaps]

theorem State.Sound.writePath {s : State} (h : s.Sound) {j : ℕ} (hj : j < s.caps.pcap) {x : PathValue}
    (hx : (HostAction.writePath j x).typed s.num = true) : (s.writePath j x).Sound := by
  cases x with
  | delay _ => exact { h with pathDelay := h.pathDelay.write hj trivial }
  | gain _ => exact { h with pathGain := h.pathGain.write hj hx }
  | doppler _ => exact { h with pathDoppler := h.pathDoppler.write hj hx }

theorem State.Sound.writePilot {s : State} (h : s.Sound) {j : ℕ} (hj : j < s.caps.qcap) {x : PilotValue}
    (hx : (HostAction.writePilot j x).typed s.num = true) : (s.writePilot j x).Sound := by
  cases x with
  | didx _ => exact { h with pilotDidx := h.pilotDidx.write hj trivial }
  | lidx _ => exact { h with pilotLidx := h.pilotLidx.write hj trivial }
  | pval p =>
    have hp : s.num.admitsK p.normalise = true := by cases p <;> exact hx
    exact { h with pilotPval := h.pilotPval.write hj hp }

theorem State.Sound.writeBuf {s : State} (h : s.Sound) {b : Buf} {i : ℕ} (hi : i < capacityOf s.caps b) {x : InputVal}
    (hx : s.num.admitsK x = true) : (s.writeBuf b i x).Sound := by
  refine h.of_bufs (by simp [State.sameConfiguration, State.writeBuf]) fun c => ?_
  rw [State.writeBuf, State.buf_setBuf]
  split
  · rename_i hbc
    subst hbc
    refine (h.buf b).write hi fun hn => ?_
    have hfin := Num.admitsK_iff.1 hx hn
    rw [InputVal.isNumber_val]
    cases x <;> exact hfin
  · exact h.buf c

/-- A reset leaves no element and the reset values of the registers. -/
theorem State.Inv.doReset (s : State) : s.doReset.Inv :=
  (State.inv_iff _).2 ⟨rfl, ⟨.inl rfl, fun _ => ⟨rfl, rfl⟩, fun h => absurd rfl h⟩, Nat.zero_le _,
    Num.admitsR_iff.2 fun _ => rfl, Mem.sound_nil, Mem.sound_nil, Mem.sound_nil, Mem.sound_nil, Mem.sound_nil,
    Mem.sound_nil, fun b => by cases b <;> exact Mem.sound_nil⟩

/-- Every access that the host may make keeps the invariant. -/
theorem State.Inv.performAccess {s t : State} (h : s.Inv) {a : HostAction} (hr : a.inRange s.caps = true)
    (ht : a.typed s.num = true) (hp : performAccess a s = .next t) : t.Inv := by
  obtain ⟨-, -, -, hsound⟩ := (State.inv_iff s).1 h
  cases a with
  | writeReg no x =>
    cases x with
    | u32 w =>
      simp only [Machine.performAccess] at hp
      split at hp
      · exact h.writeCmd hp
      · cases hp
        exact h.writeReg no w
    | real r =>
      cases hp
      exact h.of_sound { hsound with fs := (Bool.and_eq_true_iff.1 ht).2 } rfl rfl rfl rfl rfl rfl rfl
  | readReg _ => cases hp; exact h
  | writePath j x =>
    cases hp
    refine h.of_sound (hsound.writePath (of_decide_eq_true hr) ht) ?_ ?_ ?_ ?_ ?_ ?_ ?_ <;> cases x <;> rfl
  | readPath _ _ => cases hp; exact h
  | writePilot j x =>
    cases hp
    refine h.of_sound (hsound.writePilot (of_decide_eq_true hr) ht) ?_ ?_ ?_ ?_ ?_ ?_ ?_ <;> cases x <;> rfl
  | readPilot _ _ => cases hp; exact h
  | writeBuf b i x =>
    cases hp
    refine h.of_sound (hsound.writeBuf (of_decide_eq_true hr) ht) ?_ ?_ ?_ ?_ ?_ ?_ ?_ <;> cases b <;> rfl
  | readBuf _ _ => cases hp; exact h
  | reset =>
    cases hp
    exact State.Inv.doReset s

/-- Settles O56: an idle step changes nothing, and an access of the host that is admitted keeps the invariant. -/
theorem everyStepKeepsTheInvariant : Obligations.EveryStepKeepsTheInvariant := by
  intro s s' h hs
  rcases step_next hs with ⟨-, rfl⟩ | ⟨a, rest, -, ha⟩
  · exact h
  · obtain ⟨-, hr, ht, hp⟩ := hostStep_next ha
    exact State.Inv.performAccess (s := { s with host := rest }) h hr ht hp

end Machine

end Sys2Proof

/-! PROOFS. The host's accesses to buffers and their admission (20_memory.md R33, R37, R38): an element is read back as
written, which accesses have a step, and the commands whose source and destination are one time buffer. -/

namespace Sys2Proof

theorem Num.admitsR_eq_false {num : Num} {r : RVal} :
    num.admitsR r = false ↔ num.hasSpecials = false ∧ ∃ x, r = .special x := by
  cases r <;> simp [Num.admitsR, RVal.isFinite]

theorem Num.admitsK_eq_false {num : Num} {x : InputVal} :
    num.admitsK x = false ↔ num.hasSpecials = false ∧ ∃ z, x = .special z := by
  cases x <;> simp [Num.admitsK, InputVal.isFinite]

namespace Machine

/-! ## Buffers -/

/-- A number written to a buffer is stored in its canonical form (log entry 2). -/
theorem State.element_writeBuf (s : State) (b : Buf) (i : ℕ) (x : InputVal) (c : Buf) (k : ℕ) :
    (s.writeBuf b i x).element c k = if c = b ∧ k = i then x.normalise.val else s.element c k := by
  unfold State.element State.writeBuf
  rw [State.buf_setBuf, State.setBuf_resets, State.setBuf_num]
  by_cases hb : b = c
  · subst hb
    by_cases hk : k = i <;> simp [Mem.read_write, hk]
  · simp [hb, Ne.symm hb]

/-- No register reads a buffer. -/
theorem State.readReg_setBuf (s : State) (b : Buf) (mem : Mem NumK) (no : ℕ) :
    (s.setBuf b mem).readReg no = s.readReg no := by
  cases b <;> rfl

theorem hostStep_writeBuf {s : State} (hb : s.busy = false) {b : Buf} {i : ℕ} (hi : i < capacityOf s.caps b)
    {x : InputVal} (hx : s.num.admitsK x = true) : hostStep (.writeBuf b i x) s = .next (s.writeBuf b i x) :=
  hostStep_of_admitted hb (decide_eq_true hi) hx

/-- Settles O52: the written element holds the number, and a write to a buffer is a change of that buffer alone. -/
theorem bufferWritesAreReadBack : Obligations.BufferWritesAreReadBack := by
  intro s b i x hb hi hx
  have hval : (s.writeBuf b i x).readBuf b i = x.normalise.val := by
    rw [State.readBuf, State.element_writeBuf, if_pos ⟨rfl, rfl⟩]
  refine ⟨_, hostStep_writeBuf hb hi hx, fun v => ?_, ?_, fun z hz => ?_, fun c k hck => ?_, ?_,
    State.readReg_setBuf s b _⟩
  · rw [hval, InputVal.value_val, InputVal.value_normalise]
  · rw [hval, InputVal.isNumber_val]
    cases x <;> rfl
  · rw [hval, hz]
    rfl
  · rw [State.readBuf, State.element_writeBuf, if_neg (by tauto), State.readBuf]
  · simp [State.sameConfiguration, State.writeBuf]

/-! ## Admission -/

/-- Every access that is admitted answers a next state. -/
theorem performAccess_total (a : HostAction) (s : State) : ∃ t, performAccess a s = .next t := by
  cases a with
  | writeReg no x =>
    cases x with
    | u32 w =>
      by_cases h0 : no = 0
      · rw [performAccess, if_pos h0]
        rcases writeCmd_cases w s with ⟨i, -, e⟩ | ⟨err, -, e⟩
        · exact ⟨_, e.trans (exec_eq i s)⟩
        · exact ⟨_, e⟩
      · exact ⟨_, if_neg h0⟩
    | real r => exact ⟨_, rfl⟩
  | _ => exact ⟨_, rfl⟩

/-- The accesses whose value is not of the type of its place (10_state.md R22, R25 to R27; 00_scope.md R13). -/
theorem HostAction.typed_eq_false (a : HostAction) (num : Num) :
    a.typed num = false ↔
      (∃ r, ∃ no ≠ 14, a = .writeReg no (.real r)) ∨ (∃ w, a = .writeReg 14 (.u32 w)) ∨
      (num.hasSpecials = false ∧
        ((∃ x, a = .writeReg 14 (.real (.special x))) ∨ (∃ j x, a = .writePath j (.gain (.special x))) ∨
          (∃ j x, a = .writePath j (.doppler (.special x))) ∨ (∃ j x, a = .writePilot j (.pval (.special x))) ∨
          (∃ b i x, a = .writeBuf b i (.special x)))) := by
  cases a with
  | writeReg no x =>
    cases x with
    | u32 w => simp [HostAction.typed]
    | real r =>
      by_cases h : no = 14 <;> simp [HostAction.typed, h, Num.admitsR_eq_false]
  | writePath j x => cases x <;> simp [HostAction.typed, Num.admitsR_eq_false]
  | writePilot j x => cases x <;> simp [HostAction.typed, Num.admitsK_eq_false]
  | writeBuf b i x => simp [HostAction.typed, Num.admitsK_eq_false]
  | _ => simp [HostAction.typed]

/-- A read changes no state. -/
theorem performAccess_read {a : HostAction} {s : State}
    (h : (∃ no, a = .readReg no) ∨ (∃ j f, a = .readPath j f) ∨ (∃ j f, a = .readPilot j f) ∨
      (∃ b i, a = .readBuf b i)) : performAccess a s = .next s := by
  rcases h with ⟨no, rfl⟩ | ⟨j, f, rfl⟩ | ⟨j, f, rfl⟩ | ⟨b, i, rfl⟩ <;> rfl

/-- Settles O54: the branches of `hostStep` in their order, then what `performAccess` does. -/
theorem onlyAdmittedAccessesHaveAStep : Obligations.OnlyAdmittedAccessesHaveAStep := by
  intro s a
  refine ⟨fun hb ha => if_pos ⟨hb, ha⟩, ?_, fun hb hr => ?_, fun hb hr ht => ?_, a.typed_eq_false s.num,
    fun hb hw => ?_, fun hread t ht => ?_⟩
  · simp [hostStep, HostAction.inRange, HostAction.typed, performAccess]
  · simp [hostStep, hb, hr]
  · simp [hostStep, hb, hr, ht]
  · obtain ⟨hr, ht⟩ := Bool.and_eq_true_iff.1 hw
    rw [hostStep_of_admitted hb hr ht]
    exact performAccess_total a s
  · obtain ⟨-, -, -, hp⟩ := hostStep_next ht
    rw [performAccess_read hread] at hp
    cases hp
    rfl

/-! ## Source and destination the same buffer -/

/-- A length register holds at most the length, one with no 32-bit form included (log entry 12). -/
theorem toNat_lengthWord_le (len : ℕ) : (lengthWord len).toNat ≤ len := by
  by_cases h : len < 2 ^ 32
  · exact (toNat_lengthWord h).le
  · have := (lengthWord len).isLt
    omega

/-- A sequence stored in one time buffer or in another is the same sequence. -/
theorem State.sameSeq_storeSeq (s : State) (a b : Sel) (vs : List NumK) :
    (s.storeSeq a vs).sameSeq (s.storeSeq b vs) a b := by
  have hlen : ∀ sel, (s.storeSeq sel vs).tlen sel = lengthWord vs.length := fun sel => by
    rw [State.tlen_storeSeq, if_pos rfl]
  refine ⟨(hlen a).trans (hlen b).symm, fun k hk => ?_⟩
  rw [hlen] at hk
  have hk := hk.trans_le (toNat_lengthWord_le _)
  rw [State.element_storeSeq, State.element_storeSeq, if_pos ⟨rfl, hk⟩, if_pos ⟨rfl, hk⟩]

/-- The checks and the stored sequence of GI.INS, GI.REM and CHAN do not depend on the destination. -/
theorem commandParts_of_sequence_op {op : Sel → Sel → Instr} (hop : op = .giIns ∨ op = .giRem ∨ op = .chan)
    (src : Sel) (s : State) :
    ∃ check : Option CmdError, ∃ vs : List NumK, ∀ dst, (commandParts (op src dst)).2.1 s = check ∧
      (commandParts (op src dst)).2.2 s = s.storeSeq dst vs := by
  rcases hop with rfl | rfl | rfl <;> exact ⟨_, _, fun _ => ⟨rfl, rfl⟩⟩

/-- Settles O13: both runs make the same checks and store the same sequence, which is read before anything is written. -/
theorem aliasedCommandsReadBeforeTheyWrite : Obligations.AliasedCommandsReadBeforeTheyWrite := by
  intro op hop s t u src other h0 ht hu
  obtain ⟨check, vs, hparts⟩ := commandParts_of_sequence_op hop src s.accept
  obtain ⟨hcheck, heffect⟩ := hparts src
  obtain ⟨hcheck', heffect'⟩ := hparts other
  cases check with
  | some e =>
    rw [exec_of_raises h0 hcheck] at ht
    rw [exec_of_raises h0 hcheck'] at hu
    cases ht
    cases hu
    exact ⟨rfl, fun h => absurd h (ErrCode.code_ne_zero e.cls)⟩
  | none =>
    rw [exec_of_completes h0 hcheck, heffect] at ht
    rw [exec_of_completes h0 hcheck', heffect'] at hu
    cases ht
    cases hu
    exact ⟨by simp, fun _ => by simpa [State.sameSeq] using State.sameSeq_storeSeq s.accept src other vs⟩

end Machine

end Sys2Proof

/-! PROOFS. The command word (30_encoding.md R46 to R49, R53): its fields as numbers, the decoder and the encoder by
fields and by number, the 23 legal words, and the write of an illegal word to CMD. -/

namespace Sys2Proof

/-! ## The fields of a word -/

@[simp] theorem toNat_opcField (w : Word) : (opcField w).toNat = w.toNat % 16 := by
  simp [opcField]

@[simp] theorem toNat_srcField (w : Word) : (srcField w).toNat = w.toNat / 16 % 2 := by
  simp [srcField, Nat.shiftRight_eq_div_pow]

@[simp] theorem toNat_dstField (w : Word) : (dstField w).toNat = w.toNat / 32 % 2 := by
  simp [dstField, Nat.shiftRight_eq_div_pow]

@[simp] theorem toNat_selectorField (w : Word) : (selectorField w).toNat = w.toNat / 16 % 4 := by
  simp [selectorField, Nat.shiftRight_eq_div_pow]

@[simp] theorem toNat_zeroField (w : Word) : (zeroField w).toNat = w.toNat / 64 := by
  have hw := w.isLt
  simp only [zeroField, BitVec.extractLsb'_toNat, Nat.shiftRight_eq_div_pow]
  omega

theorem zeroField_ne_zero_iff (w : Word) : zeroField w ≠ 0 ↔ 64 ≤ w.toNat := by
  rw [Ne, ← BitVec.toNat_inj, toNat_zeroField, show (0 : BitVec 26).toNat = 0 from rfl]
  omega

theorem opcField_eq_zero_iff (w : Word) : opcField w = 0 ↔ w.toNat % 16 = 0 := by
  rw [← BitVec.toNat_inj, toNat_opcField]
  rfl

theorem opcField_eq_six_iff (w : Word) : opcField w = 6 ↔ w.toNat % 16 = 6 := by
  rw [← BitVec.toNat_inj, toNat_opcField]
  rfl

theorem selectorField_ne_zero_iff (w : Word) : selectorField w ≠ 0 ↔ w.toNat / 16 % 4 ≠ 0 := by
  rw [Ne, ← BitVec.toNat_inj, toNat_selectorField]
  rfl

theorem dstField_eq_one_iff (w : Word) : dstField w = 1 ↔ w.toNat / 32 % 2 = 1 := by
  rw [← BitVec.toNat_inj, toNat_dstField]
  rfl

/-- The conditions (a) to (d) of 30_encoding.md R49 on the number of the word. -/
theorem legalWord_iff_toNat (w : Word) :
    legalWord w = true ↔ w.toNat < 64 ∧ w.toNat % 16 < 7 ∧ (w.toNat % 16 = 0 → w.toNat < 16) ∧
      (w.toNat % 16 = 6 → w.toNat < 32) := by
  simp only [legalWord, zeroField_ne_zero_iff, toNat_opcField, opcField_eq_zero_iff, selectorField_ne_zero_iff,
    opcField_eq_six_iff, dstField_eq_one_iff, Bool.not_eq_true', Bool.or_eq_false_iff, Bool.and_eq_false_iff,
    decide_eq_false_iff_not]
  omega

/-! ## The word of an operation code and two selectors -/

@[simp] theorem selOfBit_bit (sel : Sel) : selOfBit sel.bit = sel := by cases sel <;> rfl

@[simp] theorem bit_selOfBit (b : BitVec 1) : (selOfBit b).bit = b := by
  rcases BitVec.eq_zero_or_eq_one b with rfl | rfl <;> rfl

theorem selOfBit_eq_zero_iff (b : BitVec 1) : selOfBit b = .zero ↔ b.toNat = 0 := by
  rcases BitVec.eq_zero_or_eq_one b with rfl | rfl <;> decide

theorem toNat_commandWord (opc : BitVec 4) (src dst : Sel) :
    (commandWord opc src dst).toNat = 32 * dst.bit.toNat + 16 * src.bit.toNat + opc.toNat := by
  have hsrc := src.bit.isLt
  have hopc := opc.isLt
  simp only [commandWord, BitVec.toNat_append]
  rw [← Nat.shiftLeft_add_eq_or_of_lt (by omega), ← Nat.shiftLeft_add_eq_or_of_lt (by omega),
    ← Nat.shiftLeft_add_eq_or_of_lt (by omega)]
  simp only [Nat.shiftLeft_eq, BitVec.ofNat_eq_ofNat, BitVec.toNat_zero]
  omega

@[simp] theorem opcField_commandWord (opc : BitVec 4) (src dst : Sel) : opcField (commandWord opc src dst) = opc := by
  have hopc := opc.isLt
  apply BitVec.eq_of_toNat_eq
  rw [toNat_opcField, toNat_commandWord]
  omega

@[simp] theorem srcField_commandWord (opc : BitVec 4) (src dst : Sel) :
    srcField (commandWord opc src dst) = src.bit := by
  have hopc := opc.isLt
  have hsrc := src.bit.isLt
  apply BitVec.eq_of_toNat_eq
  rw [toNat_srcField, toNat_commandWord]
  omega

@[simp] theorem dstField_commandWord (opc : BitVec 4) (src dst : Sel) :
    dstField (commandWord opc src dst) = dst.bit := by
  have hopc := opc.isLt
  have hsrc := src.bit.isLt
  have hdst := dst.bit.isLt
  apply BitVec.eq_of_toNat_eq
  rw [toNat_dstField, toNat_commandWord]
  omega

/-- A word whose ZERO field is 0 is put together again from its other fields. -/
theorem commandWord_fields {w : Word} (h : w.toNat < 64) :
    commandWord (opcField w) (selOfBit (srcField w)) (selOfBit (dstField w)) = w := by
  apply BitVec.eq_of_toNat_eq
  simp only [toNat_commandWord, bit_selOfBit, toNat_opcField, toNat_srcField, toNat_dstField]
  omega

/-- The encoder answers the word of the operation code and the selectors, where those that the command does not have
(30_encoding.md R49 (c), (d)) are 0. -/
theorem encode_commandOf {opc : BitVec 4} {src dst : Sel} (hopc : opc.toNat < 7)
    (hnop : opc.toNat = 0 → src = .zero ∧ dst = .zero) (hest : opc.toNat = 6 → dst = .zero) :
    encode (commandOf opc src dst) = commandWord opc src dst := by
  have hcodes : ∀ c : BitVec 4, c.toNat < 7 → c = 0 ∨ c = 1 ∨ c = 2 ∨ c = 3 ∨ c = 4 ∨ c = 5 ∨ c = 6 := by decide
  rcases hcodes opc hopc with rfl | rfl | rfl | rfl | rfl | rfl | rfl
  · obtain ⟨rfl, rfl⟩ := hnop rfl
    rfl
  on_goal 6 => obtain rfl := hest rfl
  all_goals rfl

/-! ## The decoder by the number of the word -/

/-- The conditions of the decoder (30_encoding.md R53 steps 3 to 6) on the number of the word. -/
theorem decode_eq (w : Word) : decode w =
    if 64 ≤ w.toNat then .error .zeroBits
    else if 7 ≤ w.toNat % 16 then .error .opcode
    else if w.toNat % 16 = 0 ∧ w.toNat / 16 % 4 ≠ 0 then .error .selector
    else if w.toNat % 16 = 6 ∧ w.toNat / 32 % 2 = 1 then .error .selector
    else .ok (commandOf (opcField w) (selOfBit (srcField w)) (selOfBit (dstField w))) := by
  simp only [decode, zeroField_ne_zero_iff, toNat_opcField, opcField_eq_zero_iff, selectorField_ne_zero_iff,
    opcField_eq_six_iff, dstField_eq_one_iff]

/-- A legal word decodes to the command of its fields. -/
theorem decode_of_legalWord {w : Word} (h : legalWord w = true) :
    decode w = .ok (commandOf (opcField w) (selOfBit (srcField w)) (selOfBit (dstField w))) := by
  obtain ⟨hzero, hopc, hnop, hest⟩ := (legalWord_iff_toNat w).1 h
  rw [decode_eq, if_neg (by omega), if_neg (by omega), if_neg (by omega), if_neg (by omega)]

/-- 30_encoding.md R53 step 3. -/
theorem decode_eq_zeroBits {w : Word} (h : 64 ≤ w.toNat) : decode w = .error .zeroBits := by
  rw [decode_eq, if_pos h]

/-- 30_encoding.md R53 step 4. -/
theorem decode_eq_opcode {w : Word} (hzero : w.toNat < 64) (h : 7 ≤ w.toNat % 16) : decode w = .error .opcode := by
  rw [decode_eq, if_neg (by omega), if_pos h]

/-- 30_encoding.md R53 steps 5 and 6: a selector of NOP, or DST of EST, is not 0. -/
theorem decode_eq_selector {w : Word} (hzero : w.toNat < 64)
    (h : w.toNat % 16 = 0 ∧ 16 ≤ w.toNat ∨ w.toNat % 16 = 6 ∧ 32 ≤ w.toNat) : decode w = .error .selector := by
  rw [decode_eq, if_neg (by omega), if_neg (by omega)]
  rcases h with ⟨hopc, hsel⟩ | ⟨hopc, hdst⟩
  · rw [if_pos (by omega)]
  · rw [if_neg (by omega), if_pos (by omega)]

/-- The first step of 30_encoding.md R53 that an illegal word fails. -/
def firstRefusal (w : Word) : IllegalWord :=
  if 64 ≤ w.toNat then .zeroBits else if 7 ≤ w.toNat % 16 then .opcode else .selector

theorem decode_of_illegal {w : Word} (h : legalWord w = false) : decode w = .error (firstRefusal w) := by
  have hillegal := mt (legalWord_iff_toNat w).2 (Bool.eq_false_iff.1 h)
  unfold firstRefusal
  split_ifs with hzero hopc
  · exact decode_eq_zeroBits hzero
  · exact decode_eq_opcode (by omega) hopc
  · exact decode_eq_selector (by omega) (by omega)

theorem exists_decode_iff_legalWord (w : Word) : (∃ i, decode w = .ok i) ↔ legalWord w = true := by
  refine ⟨fun ⟨i, hi⟩ => ?_, fun h => ⟨_, decode_of_legalWord h⟩⟩
  by_contra hillegal
  rw [decode_of_illegal (Bool.eq_false_iff.2 hillegal)] at hi
  cases hi

/-! ## Decoding and encoding are inverse -/

theorem legalWord_encode (i : Instr) : legalWord (encode i) = true := by
  cases i with
  | nop => decide
  | est src => cases src <;> decide
  | giIns src dst | giRem src dst | mod src dst | demod src dst | chan src dst => cases src <;> cases dst <;> decide

theorem decode_encode (i : Instr) : decode (encode i) = .ok i := by
  rw [decode_of_legalWord (legalWord_encode i)]
  cases i <;> simp [encode, commandOf]

/-- The command of the fields of a legal word has that word. -/
theorem encode_commandOf_fields {w : Word} (h : legalWord w = true) :
    encode (commandOf (opcField w) (selOfBit (srcField w)) (selOfBit (dstField w))) = w := by
  obtain ⟨hzero, hopc, hnop, hest⟩ := (legalWord_iff_toNat w).1 h
  have hcommand := encode_commandOf (opc := opcField w) (src := selOfBit (srcField w)) (dst := selOfBit (dstField w))
  simp only [toNat_opcField, selOfBit_eq_zero_iff, toNat_srcField, toNat_dstField] at hcommand
  rw [hcommand hopc (by omega) (by omega), commandWord_fields hzero]

/-- The word a command was decoded from is that command's word. -/
theorem encode_of_decode {w : Word} {i : Instr} (h : decode w = .ok i) : encode i = w := by
  have hlegal := (exists_decode_iff_legalWord w).1 ⟨i, h⟩
  rw [decode_of_legalWord hlegal] at h
  cases h
  exact encode_commandOf_fields hlegal

/-- Settles O1: the encoder puts the fields of a legal word together again, and they decode to the command they came
from. -/
theorem decodeInvertsEncode : Obligations.DecodeInvertsEncode := by
  intro w i
  refine ⟨fun h => (encode_of_decode h).symm, ?_⟩
  rintro rfl
  exact decode_encode i

/-! ## The 23 legal words -/

/-- The commands in the order of the opcode table (30_encoding.md R47), the selectors of each counted with SRC first. -/
def allInstrs : List Instr :=
  .nop :: ([Instr.giIns, .giRem, .mod, .demod, .chan].flatMap fun op =>
      [op .zero .zero, op .one .zero, op .zero .one, op .one .one]) ++
    [.est .zero, .est .one]

theorem mem_allInstrs (i : Instr) : i ∈ allInstrs := by
  cases i with
  | nop => decide
  | est src => cases src <;> decide
  | giIns src dst | giRem src dst | mod src dst | demod src dst | chan src dst => cases src <;> cases dst <;> decide

/-- The words of the commands, as 30_encoding.md section 3 lists them. -/
theorem map_encode_allInstrs : allInstrs.map encode =
    [0x00, 0x01, 0x11, 0x21, 0x31, 0x02, 0x12, 0x22, 0x32, 0x03, 0x13, 0x23, 0x33, 0x04, 0x14, 0x24, 0x34, 0x05, 0x15,
      0x25, 0x35, 0x06, 0x16] := by
  rfl

theorem exists_decode_iff_mem_map_encode (w : Word) : (∃ i, decode w = .ok i) ↔ w ∈ allInstrs.map encode := by
  simp only [List.mem_map, mem_allInstrs, true_and]
  exact exists_congr fun i => (decodeInvertsEncode w i).trans eq_comm

/-- Settles O2: the listed words are those of the 23 commands. -/
theorem legalWordsAreTheTwentyThree : Obligations.LegalWordsAreTheTwentyThree := by
  intro w
  rw [← map_encode_allInstrs]
  exact ⟨exists_decode_iff_mem_map_encode w, exists_decode_iff_legalWord w⟩

/-! ## Refusals -/

/-- Settles O4: one clause for each refusal of the decoder, and the last for the legal words, by number. -/
theorem decodeRefusesInTheListedOrder : Obligations.DecodeRefusesInTheListedOrder := fun w =>
  ⟨decode_eq_zeroBits, decode_eq_opcode,
    fun hzero hopc hsel => decode_eq_selector hzero (.inl ⟨hopc, hsel⟩),
    fun hzero hopc hdst => decode_eq_selector hzero (.inr ⟨hopc, hdst⟩),
    fun hzero hopc hnop hest =>
      (exists_decode_iff_legalWord w).2 ((legalWord_iff_toNat w).2 ⟨hzero, hopc, hnop, hest⟩)⟩

/-- Settles O3: each word is the word of its command. -/
theorem tableWordsDecode : Obligations.TableWordsDecode :=
  ⟨decode_encode .nop, decode_encode (.giIns .zero .one), decode_encode (.giRem .one .zero),
    decode_encode (.mod .zero .zero), decode_encode (.demod .one .one), decode_encode (.chan .zero .one),
    decode_encode (.est .one)⟩

namespace Machine

/-! ## The write of an illegal word -/

theorem info_illegalCommand_firstRefusal (w : Word) : (illegalCommand (firstRefusal w)).info =
    if 64 ≤ w.toNat then 15 else if 7 ≤ w.toNat % 16 then 16 else 17 := by
  unfold firstRefusal
  split_ifs <;> rfl

theorem code_illegalCommand (e : IllegalWord) : (illegalCommand e).cls.code = 4 := by cases e <;> rfl

theorem writeCmd_of_refused {w : Word} {s : State} {e : IllegalWord} (h0 : s.errcode = 0) (h : decode w = .error e) :
    writeCmd w s = .next (s.accept.raise w (illegalCommand e)) := by
  rcases writeCmd_cases w s with ⟨i, hi, -⟩ | ⟨e', he, hw⟩
  · rw [h] at hi
    cases hi
  · rw [h] at he
    cases he
    rw [hw, commandState_raises h0 rfl]

/-- Settles O6: the word is refused by the first step it fails, and the latch is all that `State.raise` and acceptance
write. -/
theorem illegalWordRaisesIllegalCommand : Obligations.IllegalWordRaisesIllegalCommand := by
  intro s w h0 hillegal
  rw [writeCmd_of_refused h0 (decode_of_illegal hillegal), State.raise, code_illegalCommand,
    info_illegalCommand_firstRefusal]
  rfl

end Machine

end Sys2Proof

/-! PROOFS. The Guard-Interval Codec (40_guard_codec.md): the two functions element by element and their inverse, and the
commands GI.INS and GI.REM: what their checks answer, the errors they raise and what they leave. -/

namespace Sys2Proof

namespace Machine

/-! ## The codec element by element -/

theorem guardMode_eq (v : Word) :
    guardMode v = if v.toNat = 1 then .zeroPad else if v.toNat = 2 then .cyclicPrefix else .none := by
  have h1 : v = 1 ↔ v.toNat = 1 := BitVec.toNat_inj.symm
  have h2 : v = 2 ↔ v.toNat = 2 := BitVec.toNat_inj.symm
  simp only [guardMode, h1, h2]

@[simp] theorem giInsert_none (xs : List NumK) (g : ℕ) : giInsert xs g .none = xs := rfl

@[simp] theorem giRemove_none (xs : List NumK) (g : ℕ) : giRemove xs g .none = xs := rfl

/-- No guard is inserted where it has the length 0. -/
@[simp] theorem giInsert_zero (xs : List NumK) (md : GuardMode) : giInsert xs 0 md = xs := by
  cases md with
  | none => rfl
  | zeroPad => exact List.append_nil xs
  | cyclicPrefix => simp [giInsert]

/-- No guard is removed where it has the length 0. -/
@[simp] theorem giRemove_zero (xs : List NumK) (md : GuardMode) : giRemove xs 0 md = xs := by
  cases md with
  | none => rfl
  | zeroPad => exact List.take_length
  | cyclicPrefix => rfl

section
variable {xs : List NumK} {g k : ℕ}

/-- ZeroPad keeps the samples where they are. -/
theorem getElem?_giInsert_zeroPad_of_lt (hk : k < xs.length) :
    (giInsert xs g .zeroPad)[k]? = xs[k]? :=
  List.getElem?_append_left hk

/-- ZeroPad has zeros behind the samples. -/
theorem getElem?_giInsert_zeroPad_of_le (hk : xs.length ≤ k) (hg : k < xs.length + g) :
    (giInsert xs g .zeroPad)[k]? = some NumK.zero :=
  (List.getElem?_append_right hk).trans (List.getElem?_replicate_of_lt (by omega))

/-- CyclicPrefix has the last `g` samples before the others. -/
theorem getElem?_giInsert_cyclicPrefix_of_lt (hg : g ≤ xs.length) (hk : k < g) :
    (giInsert xs g .cyclicPrefix)[k]? = xs[xs.length - g + k]? := by
  have hlen : k < (xs.drop (xs.length - g)).length := by
    rw [List.length_drop]
    omega
  exact (List.getElem?_append_left hlen).trans List.getElem?_drop

/-- CyclicPrefix has the samples behind the guard. -/
theorem getElem?_giInsert_cyclicPrefix_of_le (hg : g ≤ xs.length) (hk : g ≤ k) :
    (giInsert xs g .cyclicPrefix)[k]? = xs[k - g]? := by
  have hlen : (xs.drop (xs.length - g)).length = g := by
    rw [List.length_drop]
    omega
  rw [giInsert, List.getElem?_append_right (hlen.trans_le hk), hlen]

theorem getElem?_giRemove_zeroPad_of_lt (hk : k < xs.length - g) : (giRemove xs g .zeroPad)[k]? = xs[k]? :=
  List.getElem?_take_of_lt hk

theorem getElem?_giRemove_cyclicPrefix (xs : List NumK) (g k : ℕ) : (giRemove xs g .cyclicPrefix)[k]? = xs[g + k]? :=
  List.getElem?_drop

end

/-- A guard as long as the sequence leaves nothing of it. -/
theorem giRemove_length (xs : List NumK) {md : GuardMode} (h : md ≠ .none) : giRemove xs xs.length md = [] := by
  apply List.eq_nil_of_length_eq_zero
  rw [length_giRemove, if_neg h, Nat.sub_self]

/-- Removing an inserted guard: ZeroPad cuts at the length of the sequence, CyclicPrefix drops what stands before it. -/
theorem giRemove_giInsert {xs : List NumK} {g : ℕ} {md : GuardMode} (h : md = .cyclicPrefix → g ≤ xs.length) :
    giRemove (giInsert xs g md) g md = xs := by
  have hlen := length_giInsert h
  cases md with
  | none => rfl
  | zeroPad =>
    rw [giRemove, hlen, guardedLength, Nat.add_sub_cancel]
    exact List.take_left
  | cyclicPrefix =>
    have hguard : (xs.drop (xs.length - g)).length = g := by
      rw [List.length_drop, Nat.sub_sub_self (h rfl)]
    exact List.drop_left' hguard

/-- Settles O19. -/
theorem guardRemovalInvertsInsertion : Obligations.GuardRemovalInvertsInsertion :=
  fun _ _ _ h => giRemove_giInsert h

/-- Settles O17. -/
theorem guardInsertElements : Obligations.GuardInsertElements := by
  refine ⟨guardMode_eq, fun xs g => ⟨rfl, ⟨?_, ?_, ?_⟩, fun hg => ⟨?_, ?_, ?_⟩, giInsert_zero xs⟩⟩
  · exact length_giInsert (md := .zeroPad) nofun
  · exact fun k hk => getElem?_giInsert_zeroPad_of_lt hk
  · exact fun k hk hlt => getElem?_giInsert_zeroPad_of_le hk hlt
  · exact length_giInsert fun _ => hg
  · exact fun k hk => getElem?_giInsert_cyclicPrefix_of_lt hg hk
  · exact fun k hk _ => getElem?_giInsert_cyclicPrefix_of_le hg hk

/-- Settles O18. -/
theorem guardRemoveElements : Obligations.GuardRemoveElements := by
  refine fun xs g => ⟨rfl, fun _ => ⟨⟨?_, ?_⟩, ?_, ?_⟩, giRemove_zero xs, fun md => giRemove_length xs⟩
  · exact length_giRemove xs g .zeroPad
  · exact fun k hk => getElem?_giRemove_zeroPad_of_lt hk
  · exact length_giRemove xs g .cyclicPrefix
  · exact fun k _ => getElem?_giRemove_cyclicPrefix xs g k

/-! ## The checks of GI.INS and GI.REM -/

section
variable {src : Sel} {s : State}

theorem giInsCheck_accept (src : Sel) (s : State) : giInsCheck src s.accept = giInsCheck src s := by
  simp [giInsCheck]

theorem giRemCheck_accept (src : Sel) (s : State) : giRemCheck src s.accept = giRemCheck src s := by
  simp [giRemCheck]

theorem giInsCheck_eq_srcLen (h : s.caps.tcap < (s.tlen src).toNat) : giInsCheck src s = some (shapeError .srcLen) :=
  if_pos h

theorem giInsCheck_eq_glen (hsrc : (s.tlen src).toNat ≤ s.caps.tcap) (hmode : s.mode = .cyclicPrefix)
    (h : (s.tlen src).toNat < s.glen.toNat) : giInsCheck src s = some (configError .glen) := by
  rw [giInsCheck, if_neg hsrc.not_gt, if_pos ⟨hmode, h⟩]

/-- Past the checks of the source and the guard, GI.INS checks that the guarded sequence fits. -/
theorem giInsCheck_of_guard_le (hsrc : (s.tlen src).toNat ≤ s.caps.tcap)
    (hguard : s.mode = .cyclicPrefix → s.glen.toNat ≤ (s.tlen src).toNat) :
    giInsCheck src s =
      if s.caps.tcap < guardedLength (s.tlen src).toNat s.glen.toNat s.mode then some (shapeError .dstLen) else none := by
  rw [giInsCheck, if_neg hsrc.not_gt, if_neg fun ⟨hmode, hlt⟩ => (hguard hmode).not_gt hlt]

theorem giRemCheck_eq_srcLen (h : s.caps.tcap < (s.tlen src).toNat) : giRemCheck src s = some (shapeError .srcLen) :=
  if_pos h

theorem giRemCheck_eq_glen (hsrc : (s.tlen src).toNat ≤ s.caps.tcap) (hmode : s.mode ≠ .none)
    (h : (s.tlen src).toNat < s.glen.toNat) : giRemCheck src s = some (shapeError .glen) := by
  rw [giRemCheck, if_neg hsrc.not_gt, if_pos ⟨hmode, h⟩]

theorem giRemCheck_eq_none (hsrc : (s.tlen src).toNat ≤ s.caps.tcap)
    (hguard : s.mode ≠ .none → s.glen.toNat ≤ (s.tlen src).toNat) : giRemCheck src s = none := by
  rw [giRemCheck, if_neg hsrc.not_gt, if_neg fun ⟨hmode, hlt⟩ => (hguard hmode).not_gt hlt]

theorem exec_giIns_of_raises {e : CmdError} (dst : Sel) (h0 : s.errcode = 0) (hc : giInsCheck src s = some e) :
    exec (.giIns src dst) s = .next (s.accept.raise (encode (.giIns src dst)) e) :=
  exec_of_raises h0 ((giInsCheck_accept src s).trans hc)

theorem exec_giRem_of_raises {e : CmdError} (dst : Sel) (h0 : s.errcode = 0) (hc : giRemCheck src s = some e) :
    exec (.giRem src dst) s = .next (s.accept.raise (encode (.giRem src dst)) e) :=
  exec_of_raises h0 ((giRemCheck_accept src s).trans hc)

end

/-- Settles O21. -/
theorem giInsErrorsInOrder : Obligations.GiInsErrorsInOrder := by
  refine fun src dst s h0 => ⟨fun hlong => ?_, fun hsrc hmode hshort => ?_, fun hsrc hguard hfull => ?_⟩
  · exact exec_giIns_of_raises dst h0 (giInsCheck_eq_srcLen hlong)
  · exact exec_giIns_of_raises dst h0 (giInsCheck_eq_glen hsrc hmode hshort)
  · exact exec_giIns_of_raises dst h0 ((giInsCheck_of_guard_le hsrc hguard).trans (if_pos hfull))

/-- Settles O23. -/
theorem giRemErrorsInOrder : Obligations.GiRemErrorsInOrder := by
  refine fun src dst s h0 => ⟨fun hlong => ?_, fun hsrc hmode hshort => ?_⟩
  · exact exec_giRem_of_raises dst h0 (giRemCheck_eq_srcLen hlong)
  · exact exec_giRem_of_raises dst h0 (giRemCheck_eq_glen hsrc hmode hshort)

/-! ## What GI.INS and GI.REM leave -/

/-- A command whose checks pass and whose effect is to store a sequence succeeds, and leaves its length and its samples. -/
theorem exec_of_stores {i : Instr} {s : State} {dst : Sel} {vs : List NumK} (h0 : s.errcode = 0)
    (hc : (commandParts i).2.1 s.accept = none) (he : (commandParts i).2.2 s.accept = s.accept.storeSeq dst vs) :
    ∃ t, exec i s = .next t ∧ t.succeeded ∧ t.tlen dst = lengthWord vs.length ∧
      ∀ {k : ℕ} {x : NumK}, vs[k]? = some x → t.element (tBuf dst) k = x := by
  refine ⟨_, exec_of_completes h0 hc, ⟨rfl, ?_⟩, ?_, fun {k x} hx => ?_⟩
  · rw [State.complete_errcode, commandEffect_errcode, State.accept_errcode, h0]
  · rw [State.complete_tlen, he, State.tlen_storeSeq, if_pos rfl]
  · obtain ⟨hk, -⟩ := List.getElem?_eq_some_iff.1 hx
    rw [State.element_complete, he, State.element_storeSeq, if_pos ⟨rfl, hk⟩, List.getD_eq_getElem?_getD, hx,
      Option.getD_some]

theorem State.getElem?_seq_of_lt {s : State} {sel : Sel} {k : ℕ} (hk : k < (s.tlen sel).toNat) :
    (s.seq sel)[k]? = some (s.element (tBuf sel) k) := by
  rw [State.getElem?_seq, if_pos hk]

/-- Settles O20: the samples are those of the guarded sequence, mode by mode. -/
theorem giInsWritesTheGuardedSequence : Obligations.GiInsWritesTheGuardedSequence := by
  intro src dst s h0 hsrc hguard hfits
  have hcheck : giInsCheck src s = none := (giInsCheck_of_guard_le hsrc hguard).trans (if_neg hfits.not_gt)
  have hseq : (s.seq src).length = (s.tlen src).toNat := State.length_seq s src
  obtain ⟨t, ht, hsucc, htlen, hel⟩ := exec_of_stores (i := .giIns src dst) (dst := dst)
    (vs := giInsert (s.seq src) s.glen.toNat s.mode) h0 ((giInsCheck_accept src s).trans hcheck)
    (by simp [commandParts, giInsEffect])
  refine ⟨t, ht, hsucc, fun h32 => ?_, fun hm k hk => hel ?_, fun hm => ⟨fun k hk => hel ?_, fun k hk => hel ?_⟩,
    fun hm => ⟨fun k hk => hel ?_, fun k hk => hel ?_⟩⟩
  · rw [htlen, length_giInsert (by simpa using hguard), hseq, toNat_lengthWord h32]
  · rw [hm, giInsert_none, State.getElem?_seq_of_lt hk]
  · rw [hm, getElem?_giInsert_zeroPad_of_lt (by omega), State.getElem?_seq_of_lt hk]
  · rw [hm, getElem?_giInsert_zeroPad_of_le (by omega) (by omega)]
  · have hg := hguard hm
    rw [hm, getElem?_giInsert_cyclicPrefix_of_lt (by omega) hk, hseq, State.getElem?_seq_of_lt (by omega)]
  · have hg := hguard hm
    rw [hm, getElem?_giInsert_cyclicPrefix_of_le (by omega) (by omega), Nat.add_sub_cancel_left,
      State.getElem?_seq_of_lt hk]

/-- Settles O22: the samples are those of the core sequence. -/
theorem giRemWritesTheCoreSequence : Obligations.GiRemWritesTheCoreSequence := by
  intro src dst s h0 hsrc hguard
  have hcheck : giRemCheck src s = none := giRemCheck_eq_none hsrc hguard
  obtain ⟨t, ht, hsucc, htlen, hel⟩ := exec_of_stores (i := .giRem src dst) (dst := dst)
    (vs := giRemove (s.seq src) s.glen.toNat s.mode) h0 ((giRemCheck_accept src s).trans hcheck)
    (by simp [commandParts, giRemEffect])
  have hcore : ∀ k < s.coreLength src, t.element (tBuf dst) k = s.coreElement src k := fun k hk =>
    hel (by rw [State.getElem?_core, if_pos hk])
  have hlen : (giRemove (s.seq src) s.glen.toNat s.mode).length = s.coreLength src := by
    rw [length_giRemove, State.length_seq, State.coreLength]
  have h32 : s.coreLength src < 2 ^ 32 := (Nat.sub_le ..).trans_lt (s.tlen src).isLt
  refine ⟨t, ht, hsucc, by rw [htlen, hlen, toNat_lengthWord h32], fun hm k hk => ?_, fun hm k hk => ?_⟩
  · rw [hcore k hk, State.coreElement, if_neg hm]
  · rw [hcore k hk, State.coreElement, if_pos hm]

end Machine

end Sys2Proof

/-! PROOFS. The OTFS Transform Pair on matrices of cells (41_transform_pair.md R60, R61): `flatten` and `reshape` are
column-major and inverse to each other, and `reconcile` pads or cuts. -/

namespace Sys2Proof

namespace Machine

/-! ## Cells in their order -/

section
variable {m n d l : ℕ}

/-- Cell `[d, l]` of an `M x N` matrix stands among its `M*N` cells. -/
theorem cellIndex_lt (hd : d < m) (hl : l < n) : d + m * l < m * n := by nlinarith

theorem cellIndex_mod (hd : d < m) (l : ℕ) : (d + m * l) % m = d := by
  rw [Nat.add_mul_mod_self_left, Nat.mod_eq_of_lt hd]

theorem cellIndex_div (hd : d < m) (l : ℕ) : (d + m * l) / m = l := by
  rw [Nat.add_mul_div_left _ _ (by omega), Nat.div_eq_of_lt hd, zero_add]

/-- An index below `M*N` is that of one cell of the matrix. -/
theorem exists_cellIndex {k : ℕ} (hk : k < m * n) : ∃ d < m, ∃ l < n, k = d + m * l :=
  ⟨k % m, Nat.mod_lt k (Nat.pos_of_lt_mul_right hk), k / m, Nat.div_lt_of_lt_mul hk, (Nat.mod_add_div k m).symm⟩

/-! ## Matrices of `N` columns of `M` cells -/

/-- The matrix has `n` columns of `m` cells. -/
structure Grid.Shaped (y : Grid) (m n : ℕ) : Prop where
  columns : y.length = n
  rows : ∀ col ∈ y, col.length = m

variable {y : Grid}

theorem Grid.Shaped.length_getD (h : y.Shaped m n) (hl : l < n) : (y.getD l []).length = m := by
  have hly : l < y.length := h.columns ▸ hl
  rw [List.getD_eq_getElem _ _ hly]
  exact h.rows _ (List.getElem_mem hly)

theorem Grid.Shaped.transpose (h : y.Shaped m n) (rows : ℕ) : (transpose rows y).Shaped n rows :=
  ⟨length_transpose rows y, fun _ hcol => (length_of_mem_transpose hcol).trans h.columns⟩

theorem Grid.Shaped.map (h : y.Shaped m n) {f : List NumK → List NumK} (hf : ∀ col, (f col).length = col.length) :
    Grid.Shaped (List.map f y) m n :=
  ⟨(List.length_map f).trans h.columns, List.forall_mem_map.2 fun col hcol => (hf col).trans (h.rows col hcol)⟩

theorem shaped_reshape (xs : List NumK) (m n : ℕ) : (reshape xs m n).Shaped m n :=
  ⟨by simp [reshape], List.forall_mem_map.2 fun l _ => by simp⟩

theorem shaped_idft2 (h : y.Shaped m n) : (idft2 y m n).Shaped m n :=
  (((h.map length_idft).transpose m).map length_idft).transpose n

theorem shaped_dft2 (h : y.Shaped m n) : (dft2 y m n).Shaped m n :=
  (((h.transpose m).map length_dft).transpose n).map length_dft

/-- The rows of a transposed matrix are the columns of the matrix. -/
theorem gridCell_transpose (y : Grid) (d : ℕ) {rows : ℕ} (hl : l < rows) :
    gridCell (transpose rows y) d l = gridCell y l d := by
  by_cases hd : d < y.length <;> simp [gridCell, transpose, List.getD_eq_getElem?_getD, hl, hd]

theorem gridCell_map (f : List NumK → List NumK) (d : ℕ) (hl : l < y.length) :
    gridCell (y.map f) d l = (f (y.getD l [])).getD d NumK.zero := by
  simp [gridCell, List.getD_eq_getElem?_getD, hl]

/-- Cell `[d, l]` of a reshaped sequence is sample `d + M*l`. -/
theorem gridCell_reshape (xs : List NumK) (hd : d < m) (hl : l < n) :
    gridCell (reshape xs m n) d l = xs.getD (d + m * l) NumK.zero := by
  simp [gridCell, reshape, List.getD_eq_getElem?_getD, hd, hl]

/-- Sample `d + M*l` of a flattened matrix is cell `[d, l]`: the columns before column `l` hold `M*l` samples. -/
theorem getElem?_flattenGrid (h : y.Shaped m n) (hd : d < m) (hl : l < n) :
    (flattenGrid y)[d + m * l]? = some (gridCell y d l) := by
  obtain ⟨hcols, hrows⟩ := h
  unfold flattenGrid
  induction y generalizing n l with
  | nil => exact absurd (hcols ▸ hl : l < ([] : Grid).length) (Nat.not_lt_zero l)
  | cons col y ih =>
    have hcol : col.length = m := hrows col (List.mem_cons_self ..)
    rw [List.flatten_cons]
    cases l with
    | zero => simp [gridCell, List.getD_eq_getElem?_getD, List.getElem?_append, hcol, hd]
    | succ l =>
      have hk : d + m * (l + 1) - m = d + m * l := by
        rw [Nat.mul_succ]
        omega
      rw [List.getElem?_append_right (by rw [hcol, Nat.mul_succ]; omega), hcol, hk]
      exact ih (by simpa [← hcols] using hl) rfl fun c hc => hrows c (List.mem_cons_of_mem _ hc)

/-- A matrix is known by its cells. -/
theorem Grid.Shaped.ext {x : Grid} (hx : x.Shaped m n) (hy : y.Shaped m n)
    (h : ∀ d < m, ∀ l < n, gridCell x d l = gridCell y d l) : x = y := by
  refine List.ext_getElem (hx.columns.trans hy.columns.symm) fun l hlx hly => ?_
  have hcx : x[l].length = m := hx.rows _ (List.getElem_mem hlx)
  have hcy : y[l].length = m := hy.rows _ (List.getElem_mem hly)
  refine List.ext_getElem (hcx.trans hcy.symm) fun d hdx hdy => ?_
  simpa [gridCell, List.getD_eq_getElem?_getD, hlx, hly, hdx, hdy] using h d (hcx ▸ hdx) l (hx.columns ▸ hlx)

/-- Reshaping takes a flattened matrix back. -/
theorem reshape_flattenGrid (h : y.Shaped m n) : reshape (flattenGrid y) m n = y :=
  (shaped_reshape _ m n).ext h fun d hd l hl => by
    rw [gridCell_reshape _ hd hl, List.getD_eq_getElem?_getD, getElem?_flattenGrid h hd hl, Option.getD_some]

end

/-- Settles O28. -/
theorem flattenAndReshapeAreInverse : Obligations.FlattenAndReshapeAreInverse := by
  refine fun m n => ⟨fun b hcols hrows => ?_, fun xs hlen r hr c hc => ?_⟩
  · have h : b.Shaped m n := ⟨hcols, hrows⟩
    exact ⟨length_flatten_grid hcols hrows, fun r hr c hc => getElem?_flattenGrid h hr hc, reshape_flattenGrid h⟩
  · have hk : r + m * c < xs.length := hlen ▸ cellIndex_lt hr hc
    rw [gridCell_reshape xs hr hc, List.getD_eq_getElem _ _ hk, List.getElem?_eq_getElem hk]

/-! ## Length reconciliation -/

theorem reconcile_of_length_lt {r : List NumK} {k : ℕ} (h : r.length < k) :
    reconcile r k = r ++ zeros (k - r.length) := by
  rw [reconcile, List.take_of_length_le h.le]

theorem reconcile_of_le_length {r : List NumK} {k : ℕ} (h : k ≤ r.length) : reconcile r k = r.take k := by
  rw [reconcile, Nat.sub_eq_zero_of_le h, zeros, List.replicate_zero, List.append_nil]

/-- Settles O29. -/
theorem reconcilePadsOrTruncates : Obligations.ReconcilePadsOrTruncates :=
  fun r k => ⟨length_reconcile r k, reconcile_of_length_lt, reconcile_of_le_length⟩

/-- A sequence of the right length is kept. -/
theorem reconcile_length (r : List NumK) : reconcile r r.length = r :=
  (reconcile_of_le_length le_rfl).trans List.take_length

/-- Past its end a sequence is reconciled with zeros. -/
theorem getD_reconcile (r : List NumK) {k len : ℕ} (hk : k < len) :
    (reconcile r len).getD k NumK.zero = r.getD k NumK.zero := by
  rcases Nat.lt_or_ge k r.length with h | h
  · simp [reconcile, List.getD_eq_getElem?_getD, List.getElem?_append, h, hk]
  · rw [reconcile_of_length_lt (h.trans_lt hk), List.getD_append_right _ _ _ _ h, List.getD_eq_default r _ h]
    exact List.getD_replicate _ (by omega)

/-! ## The checks of MOD and DEMOD -/

section
variable {s : State} {src : Sel}

theorem gridCheck_eq_m (h : s.m = 0) : gridCheck s = some (configError .m) := if_pos h

theorem gridCheck_eq_n (hm : s.m ≠ 0) (h : s.n = 0) : gridCheck s = some (configError .n) := by
  rw [gridCheck, if_neg hm, if_pos h]

theorem gridCheck_eq_gridCap (hm : s.m ≠ 0) (hn : s.n ≠ 0) (h : s.caps.gcap < s.cells) :
    gridCheck s = some (configError .gridCap) := by
  rw [gridCheck, if_neg hm, if_neg hn]
  exact if_pos h

/-- The checks on the grid pass exactly where its size is valid. -/
theorem gridCheck_eq_none_iff : gridCheck s = none ↔ s.gridValid := by
  unfold gridCheck State.gridValid
  split_ifs with hm hn hcap
  · exact iff_of_false nofun fun ⟨h, _, _⟩ => h hm
  · exact iff_of_false nofun fun ⟨_, h, _⟩ => h hn
  · exact iff_of_false nofun fun ⟨_, _, h⟩ => hcap.not_ge h
  · exact iff_of_true rfl ⟨hm, hn, not_lt.1 hcap⟩

theorem modCheck_accept (s : State) : modCheck s.accept = modCheck s := rfl

theorem demodCheck_accept (src : Sel) (s : State) : demodCheck src s.accept = demodCheck src s := by
  cases src <;> rfl

theorem modCheck_of_gridCheck {e : CmdError} (h : gridCheck s = some e) : modCheck s = some e := by
  rw [modCheck, h]

theorem demodCheck_of_gridCheck {e : CmdError} (h : gridCheck s = some e) : demodCheck src s = some e := by
  rw [demodCheck, h]

theorem modCheck_eq_glen (hgrid : s.gridValid) (hmode : s.mode = .cyclicPrefix) (h : s.cells < s.glen.toNat) :
    modCheck s = some (configError .glen) := by
  rw [modCheck, gridCheck_eq_none_iff.2 hgrid]
  exact if_pos ⟨hmode, h⟩

/-- Past the checks of the grid and the guard, MOD checks that the guarded sequence fits. -/
theorem modCheck_of_guard_le (hgrid : s.gridValid) (hguard : s.mode = .cyclicPrefix → s.glen.toNat ≤ s.cells) :
    modCheck s =
      if s.caps.tcap < guardedLength s.cells s.glen.toNat s.mode then some (shapeError .dstLen) else none := by
  rw [modCheck, gridCheck_eq_none_iff.2 hgrid]
  exact if_neg fun ⟨hmode, hlt⟩ => (hguard hmode).not_gt hlt

theorem demodCheck_eq_glen (hgrid : s.gridValid) (hmode : s.mode = .cyclicPrefix) (h : s.cells < s.glen.toNat) :
    demodCheck src s = some (configError .glen) := by
  rw [demodCheck, gridCheck_eq_none_iff.2 hgrid]
  exact if_pos ⟨hmode, h⟩

/-- Past the checks of the grid and the guard, DEMOD checks its source as GI.REM does. -/
theorem demodCheck_of_guard_le (hgrid : s.gridValid) (hguard : s.mode = .cyclicPrefix → s.glen.toNat ≤ s.cells) :
    demodCheck src s = giRemCheck src s := by
  rw [demodCheck, gridCheck_eq_none_iff.2 hgrid]
  exact if_neg fun ⟨hmode, hlt⟩ => (hguard hmode).not_gt hlt

/-- What passed checks of MOD say. -/
theorem modCheck_eq_none_iff :
    modCheck s = none ↔ s.gridValid ∧ (s.mode = .cyclicPrefix → s.glen.toNat ≤ s.cells) ∧
      guardedLength s.cells s.glen.toNat s.mode ≤ s.caps.tcap := by
  refine ⟨fun h => ?_, fun ⟨hgrid, hguard, hfits⟩ => (modCheck_of_guard_le hgrid hguard).trans (if_neg hfits.not_gt)⟩
  have hgrid : s.gridValid := by
    cases hg : gridCheck s with
    | none => exact gridCheck_eq_none_iff.1 hg
    | some e => simp [modCheck_of_gridCheck hg] at h
  have hguard := modCheck_eq_none h
  rw [modCheck_of_guard_le hgrid hguard] at h
  exact ⟨hgrid, hguard, by simpa using h⟩

theorem exec_mod_of_raises {e : CmdError} (src dst : Sel) (h0 : s.errcode = 0) (hc : modCheck s = some e) :
    exec (.mod src dst) s = .next (s.accept.raise (encode (.mod src dst)) e) :=
  exec_of_raises h0 ((modCheck_accept s).trans hc)

theorem exec_demod_of_raises {e : CmdError} (dst : Sel) (h0 : s.errcode = 0) (hc : demodCheck src s = some e) :
    exec (.demod src dst) s = .next (s.accept.raise (encode (.demod src dst)) e) :=
  exec_of_raises h0 ((demodCheck_accept src s).trans hc)

end

/-- Settles O25. -/
theorem modErrorsInOrder : Obligations.ModErrorsInOrder := by
  refine fun src dst s h0 => ⟨fun hm => ?_, fun hm hn => ?_, fun hm hn hcap => ?_, fun hgrid hmode hshort => ?_,
    fun hgrid hguard hfull => ?_⟩
  · exact exec_mod_of_raises src dst h0 (modCheck_of_gridCheck (gridCheck_eq_m hm))
  · exact exec_mod_of_raises src dst h0 (modCheck_of_gridCheck (gridCheck_eq_n hm hn))
  · exact exec_mod_of_raises src dst h0 (modCheck_of_gridCheck (gridCheck_eq_gridCap hm hn hcap))
  · exact exec_mod_of_raises src dst h0 (modCheck_eq_glen hgrid hmode hshort)
  · exact exec_mod_of_raises src dst h0 ((modCheck_of_guard_le hgrid hguard).trans (if_pos hfull))

/-- Settles O27: past the checks that it shares with MOD, DEMOD checks its source as GI.REM does. -/
theorem demodErrorsInOrder : Obligations.DemodErrorsInOrder := by
  refine fun src dst s h0 => ⟨fun hm => ?_, fun hm hn => ?_, fun hm hn hcap => ?_, fun hgrid hmode hshort => ?_,
    fun hgrid hguard hlong => ?_, fun hgrid hguard hsrc hmode hshort => ?_⟩
  · exact exec_demod_of_raises dst h0 (demodCheck_of_gridCheck (gridCheck_eq_m hm))
  · exact exec_demod_of_raises dst h0 (demodCheck_of_gridCheck (gridCheck_eq_n hm hn))
  · exact exec_demod_of_raises dst h0 (demodCheck_of_gridCheck (gridCheck_eq_gridCap hm hn hcap))
  · exact exec_demod_of_raises dst h0 (demodCheck_eq_glen hgrid hmode hshort)
  · exact exec_demod_of_raises dst h0 ((demodCheck_of_guard_le hgrid hguard).trans (giRemCheck_eq_srcLen hlong))
  · exact exec_demod_of_raises dst h0
      ((demodCheck_of_guard_le hgrid hguard).trans (giRemCheck_eq_glen hsrc hmode hshort))

end Machine

end Sys2Proof

/-! PROOFS. The transforms on complex numbers (41_transform_pair.md R58, R59, R63): the cells of `idft2` and `dft2`, and
so the samples of `modulate` and the cells of `demodulate`, are the sums of the reference, and `demodulate` inverts
`modulate`. -/

namespace Sys2Proof

section
variable (v : Valuation)

theorem NumK.value_sum (xs : List NumK) : (NumK.sum xs).value v = (xs.map (NumK.value v)).sum := by
  have h : ∀ (xs : List NumK) (acc : NumK),
      (xs.foldl NumK.add acc).value v = acc.value v + (xs.map (NumK.value v)).sum := by
    intro xs
    induction xs with
    | nil => simp
    | cons x xs ih =>
      intro acc
      rw [List.foldl_cons, ih, NumK.value_add, List.map_cons, List.sum_cons, add_assoc]
  rw [NumK.sum, h, NumK.value_zero, zero_add]

/-- The sum of multiples by phases that both transforms along an axis form. -/
theorem value_sum_mul_ph (xs : List NumK) (f : ℕ → ℚ) :
    (NumK.sum (xs.mapIdx fun d x => NumK.mul x (ph (NumR.ofRat (f d))))).value v =
      ∑ d ∈ Finset.range xs.length, (xs.getD d NumK.zero).value v * phase (f d) := by
  rw [NumK.value_sum, ← sum_map_range_eq]
  congr 1
  refine List.ext_getElem (by simp) fun d hd _ => ?_
  have hd' : d < xs.length := by simpa using hd
  simp [List.getD_eq_getElem?_getD, hd', NumK.value_mul, value_ph, NumR.value_ofRat]

end

/-- A sum over the `M*N` cells of a matrix, in their order, is a sum over its columns. -/
theorem sum_range_mul_eq (m n : ℕ) (f : ℕ → ℂ) :
    ∑ k ∈ Finset.range (m * n), f k = ∑ l ∈ Finset.range n, ∑ d ∈ Finset.range m, f (d + m * l) := by
  induction n with
  | zero => simp
  | succ n ih =>
    rw [Nat.mul_succ, Finset.sum_range_add, ih, Finset.sum_range_succ]
    simp only [add_comm]

namespace Machine

/-! ## One axis -/

section
variable (v : Valuation)

theorem value_getD_idft (x : List NumK) {k : ℕ} (hk : k < x.length) :
    ((idft x).getD k NumK.zero).value v =
      1 / (x.length : ℂ) *
        ∑ d ∈ Finset.range x.length, (x.getD d NumK.zero).value v * phase ((k * d : ℕ) / (x.length : ℝ)) := by
  rw [idft, List.getD_eq_getElem _ _ (by simpa using hk), List.getElem_map, List.getElem_range, NumK.value_scale,
    value_sum_mul_ph, NumR.value_ofRat]
  push_cast
  rfl

theorem value_getD_dft (x : List NumK) {d : ℕ} (hd : d < x.length) :
    ((dft x).getD d NumK.zero).value v =
      ∑ k ∈ Finset.range x.length, (x.getD k NumK.zero).value v * phase (-((k * d : ℕ) / (x.length : ℝ))) := by
  rw [dft, List.getD_eq_getElem _ _ (by simpa using hd), List.getElem_map, List.getElem_range, value_sum_mul_ph]
  push_cast
  rfl

variable {m n : ℕ} {y : Grid}

/-- The inverse transform of the columns of a matrix. -/
theorem value_gridCell_map_idft (h : y.Shaped m n) {r l : ℕ} (hr : r < m) (hl : l < n) :
    (gridCell (y.map idft) r l).value v =
      1 / (m : ℂ) * ∑ d ∈ Finset.range m, (gridCell y d l).value v * phase ((r * d : ℕ) / (m : ℝ)) := by
  have hlen := h.length_getD hl
  rw [gridCell_map idft r (h.columns ▸ hl), value_getD_idft v _ (hlen ▸ hr), hlen]
  rfl

/-- The forward transform of the columns of a matrix. -/
theorem value_gridCell_map_dft (h : y.Shaped m n) {d l : ℕ} (hd : d < m) (hl : l < n) :
    (gridCell (y.map dft) d l).value v =
      ∑ r ∈ Finset.range m, (gridCell y r l).value v * phase (-((r * d : ℕ) / (m : ℝ))) := by
  have hlen := h.length_getD hl
  rw [gridCell_map dft d (h.columns ▸ hl), value_getD_dft v _ (hlen ▸ hd), hlen]
  rfl

/-! ## Both axes -/

/-- Cell `[r, c]` of the inverse transform (41_transform_pair.md R58). -/
theorem value_gridCell_idft2 (h : y.Shaped m n) {r c : ℕ} (hr : r < m) (hc : c < n) :
    (gridCell (idft2 y m n) r c).value v =
      1 / ((m : ℂ) * (n : ℂ)) * ∑ l ∈ Finset.range n, ∑ d ∈ Finset.range m,
        (gridCell y d l).value v * phase ((r * d : ℕ) / (m : ℝ) + (c * l : ℕ) / (n : ℝ)) := by
  rw [idft2, gridCell_transpose _ _ hc, value_gridCell_map_idft v ((h.map length_idft).transpose m) hc hr,
    Finset.mul_sum, Finset.mul_sum]
  refine Finset.sum_congr rfl fun l hl => ?_
  rw [gridCell_transpose _ _ hr, value_gridCell_map_idft v h hr (Finset.mem_range.1 hl), Finset.mul_sum,
    Finset.sum_mul, Finset.mul_sum, Finset.mul_sum]
  refine Finset.sum_congr rfl fun d _ => ?_
  rw [phase_add]
  ring

/-- Cell `[d, l]` of the forward transform (41_transform_pair.md R59). -/
theorem value_gridCell_dft2 (h : y.Shaped m n) {d l : ℕ} (hd : d < m) (hl : l < n) :
    (gridCell (dft2 y m n) d l).value v =
      ∑ c ∈ Finset.range n, ∑ r ∈ Finset.range m,
        (gridCell y r c).value v * phase (-((r * d : ℕ) / (m : ℝ) + (c * l : ℕ) / (n : ℝ))) := by
  have hrows := (h.transpose m).map length_dft
  rw [dft2, value_gridCell_map_dft v (hrows.transpose n) hd hl, Finset.sum_comm]
  refine Finset.sum_congr rfl fun r hr => ?_
  have hr := Finset.mem_range.1 hr
  rw [gridCell_transpose _ _ hl, value_gridCell_map_dft v (h.transpose m) hl hr, Finset.sum_mul]
  refine Finset.sum_congr rfl fun c _ => ?_
  rw [gridCell_transpose _ _ hr, neg_add, phase_add]
  ring

/-! ## The samples of a grid and the cells of a sequence -/

variable (xs : List NumK)

/-- Sample `r + M*c` of a modulated grid. -/
theorem value_getD_modulate {r c : ℕ} (hr : r < m) (hc : c < n) :
    ((modulate xs m n).getD (r + m * c) NumK.zero).value v =
      1 / ((m : ℂ) * (n : ℂ)) * ∑ l ∈ Finset.range n, ∑ d ∈ Finset.range m,
        (xs.getD (d + m * l) NumK.zero).value v * phase ((r * d : ℕ) / (m : ℝ) + (c * l : ℕ) / (n : ℝ)) := by
  have hgrid := shaped_reshape xs m n
  rw [modulate, List.getD_eq_getElem?_getD, getElem?_flattenGrid (shaped_idft2 hgrid) hr hc, Option.getD_some,
    value_gridCell_idft2 v hgrid hr hc]
  congr 1
  refine Finset.sum_congr rfl fun l hl => Finset.sum_congr rfl fun d hd => ?_
  rw [gridCell_reshape xs (Finset.mem_range.1 hd) (Finset.mem_range.1 hl)]

/-- Cell `[d, l]` of a demodulated sequence. -/
theorem value_getD_demodulate {d l : ℕ} (hd : d < m) (hl : l < n) :
    ((demodulate xs m n).getD (d + m * l) NumK.zero).value v =
      ∑ c ∈ Finset.range n, ∑ r ∈ Finset.range m,
        (xs.getD (r + m * c) NumK.zero).value v * phase (-((r * d : ℕ) / (m : ℝ) + (c * l : ℕ) / (n : ℝ))) := by
  have hgrid := shaped_reshape xs m n
  rw [demodulate, List.getD_eq_getElem?_getD, getElem?_flattenGrid (shaped_dft2 hgrid) hd hl, Option.getD_some,
    value_gridCell_dft2 v hgrid hd hl]
  refine Finset.sum_congr rfl fun c hc => Finset.sum_congr rfl fun r hr => ?_
  rw [gridCell_reshape xs (Finset.mem_range.1 hr) (Finset.mem_range.1 hc)]

/-! ## The inverse -/

/-- The turn of the phase between sample `k` of the one domain and cell `j` of the other. -/
noncomputable def transformTurn (m n k j : ℕ) : ℝ :=
  (k % m * (j % m) : ℕ) / (m : ℝ) + (k / m * (j / m) : ℕ) / (n : ℝ)

/-- Sample `k` of a modulated grid, by the index of the cells. -/
theorem value_getD_modulate_eq_sum {k : ℕ} (hk : k < m * n) :
    ((modulate xs m n).getD k NumK.zero).value v =
      1 / ((m : ℂ) * (n : ℂ)) *
        ∑ j ∈ Finset.range (m * n), (xs.getD j NumK.zero).value v * phase (transformTurn m n k j) := by
  obtain ⟨r, hr, c, hc, rfl⟩ := exists_cellIndex hk
  rw [value_getD_modulate v xs hr hc, sum_range_mul_eq]
  congr 1
  refine Finset.sum_congr rfl fun l _ => Finset.sum_congr rfl fun d hd => ?_
  have hd := Finset.mem_range.1 hd
  rw [transformTurn, cellIndex_mod hr, cellIndex_div hr, cellIndex_mod hd, cellIndex_div hd]

/-- Cell `j` of a demodulated sequence, by the index of the samples. -/
theorem value_getD_demodulate_eq_sum {j : ℕ} (hj : j < m * n) :
    ((demodulate xs m n).getD j NumK.zero).value v =
      ∑ k ∈ Finset.range (m * n), (xs.getD k NumK.zero).value v * phase (-transformTurn m n k j) := by
  obtain ⟨d, hd, l, hl, rfl⟩ := exists_cellIndex hj
  rw [value_getD_demodulate v xs hd hl, sum_range_mul_eq]
  refine Finset.sum_congr rfl fun c _ => Finset.sum_congr rfl fun r hr => ?_
  have hr := Finset.mem_range.1 hr
  rw [transformTurn, cellIndex_mod hr, cellIndex_div hr, cellIndex_mod hd, cellIndex_div hd]

end

/-- Along one axis the phases of two indices are orthogonal: their difference is a multiple of `n` only where they are
equal. -/
theorem sum_phase_mul_sub {n i j : ℕ} (hi : i < n) (hj : j < n) :
    ∑ k ∈ Finset.range n, phase (((i : ℝ) - j) * k / n) = if i = j then (n : ℂ) else 0 := by
  have hdvd : (n : ℤ) ∣ (i : ℤ) - j ↔ i = j := by
    refine ⟨fun h => ?_, fun h => by simp [h]⟩
    have := Int.eq_zero_of_abs_lt_dvd h (by rw [abs_lt]; omega)
    omega
  simpa [ratPhase, hdvd] using sum_ratPhase_period (n := n) (by omega) ((i : ℤ) - j)

/-- Over both axes the phases of two cells are orthogonal. -/
theorem sum_phase_transformTurn_sub {m n i j : ℕ} (hi : i < m * n) (hj : j < m * n) :
    ∑ k ∈ Finset.range (m * n), phase (transformTurn m n k i - transformTurn m n k j) =
      if i = j then (m : ℂ) * (n : ℂ) else 0 := by
  obtain ⟨d, hd, l, hl, rfl⟩ := exists_cellIndex hi
  obtain ⟨d', hd', l', hl', rfl⟩ := exists_cellIndex hj
  have hterm : ∀ c, ∀ r ∈ Finset.range m,
      phase (transformTurn m n (r + m * c) (d + m * l) - transformTurn m n (r + m * c) (d' + m * l')) =
        phase (((d : ℝ) - d') * r / m) * phase (((l : ℝ) - l') * c / n) := fun c r hr => by
    have hr := Finset.mem_range.1 hr
    simp only [transformTurn, cellIndex_mod hr, cellIndex_div hr, cellIndex_mod hd, cellIndex_div hd, cellIndex_mod hd',
      cellIndex_div hd']
    rw [← phase_add]
    congr 1
    push_cast
    ring
  have hcell : d + m * l = d' + m * l' ↔ d = d' ∧ l = l' := by
    refine ⟨fun h => ⟨?_, ?_⟩, fun ⟨h1, h2⟩ => by rw [h1, h2]⟩
    · rw [← cellIndex_mod hd l, h, cellIndex_mod hd']
    · rw [← cellIndex_div hd l, h, cellIndex_div hd']
  rw [sum_range_mul_eq, Finset.sum_congr rfl fun c _ => Finset.sum_congr rfl (hterm c)]
  simp only [← Finset.sum_mul, ← Finset.mul_sum]
  rw [sum_phase_mul_sub hd hd', sum_phase_mul_sub hl hl', ite_mul, zero_mul, mul_ite, mul_zero]
  simp only [hcell, ite_and]

/-- The forward transform inverts the inverse transform (41_transform_pair.md R67). -/
theorem sum_modulate_mul_phase (v : Valuation) (xs : List NumK) {m n j : ℕ} (hj : j < m * n) :
    ∑ k ∈ Finset.range (m * n), ((modulate xs m n).getD k NumK.zero).value v * phase (-transformTurn m n k j) =
      (xs.getD j NumK.zero).value v := by
  have hmn : (m : ℂ) * (n : ℂ) ≠ 0 := by
    have : m * n ≠ 0 := by omega
    exact_mod_cast this
  calc
    _ = ∑ k ∈ Finset.range (m * n), ∑ i ∈ Finset.range (m * n), 1 / ((m : ℂ) * (n : ℂ)) *
          ((xs.getD i NumK.zero).value v * phase (transformTurn m n k i - transformTurn m n k j)) := by
      refine Finset.sum_congr rfl fun k hk => ?_
      rw [value_getD_modulate_eq_sum v xs (Finset.mem_range.1 hk), mul_assoc, Finset.sum_mul, Finset.mul_sum]
      refine Finset.sum_congr rfl fun i _ => ?_
      rw [sub_eq_add_neg, phase_add, mul_assoc]
    _ = ∑ i ∈ Finset.range (m * n), 1 / ((m : ℂ) * (n : ℂ)) *
          ((xs.getD i NumK.zero).value v * if i = j then (m : ℂ) * (n : ℂ) else 0) := by
      rw [Finset.sum_comm]
      refine Finset.sum_congr rfl fun i hi => ?_
      rw [← Finset.mul_sum, ← Finset.mul_sum, sum_phase_transformTurn_sub (Finset.mem_range.1 hi) hj]
    _ = (xs.getD j NumK.zero).value v := by
      simp only [mul_ite, mul_zero, Finset.sum_ite_eq', Finset.mem_range, hj, if_true]
      rw [one_div, mul_left_comm, inv_mul_cancel₀ hmn, mul_one]

end Machine

end Sys2Proof

/-! PROOFS. The commands MOD and DEMOD in every `NUM` (41_transform_pair.md R62, R66, R67; 00_scope.md R14): what a
transform has for a result, what the commands leave, and the round trip. -/

namespace Sys2Proof

/-! ## The results of a transform -/

section
variable {num : Num} {v : Valuation}

/-- A number as `NUM` has it, with the error of its name; the tolerance of the reference is 0. -/
theorem Num.value_round (num : Num) (v : Valuation) (name : ℕ) (size x : NumK) :
    (num.round name size x).value v =
      x.value v + (num.tolerance : ℂ) * (‖size.value v‖ : ℂ) * (v.choice name).error := by
  cases num with
  | reference => simp [Num.tolerance]
  | finite _ tol _ => exact NumK.value_rounded v name tol x size

/-- Within the tolerance of the reference values are equal. -/
theorem Num.eq_of_agree_reference {n : ℕ} {y x : ℕ → ℂ} (h : Num.reference.agree n y x) {k : ℕ} (hk : k < n) :
    y k = x k := by
  obtain ⟨j, -, hle⟩ := h k hk
  rw [Num.tolerance, Rat.cast_zero, zero_mul, norm_le_zero_iff] at hle
  exact sub_eq_zero.1 hle

/-- Of finite inputs the results of a stage are finite. -/
theorem Num.finite_results {stage : Stage} {words : List ℕ} {reals : List RVal} {numbers : List NumK}
    {isExact : ℕ → Bool} {results : List (List NumK × NumK)}
    (hin : ∀ r ∈ results, ∀ x ∈ r.1, x.finite v) (hfin : ∀ r ∈ results, r.2.finite v) :
    ∀ y ∈ num.results stage words reals numbers isExact results, y.finite v := by
  intro y hy
  obtain ⟨k, hk, rfl⟩ := List.mem_mapIdx.1 hy
  have hmem := List.getElem_mem hk
  rw [NumK.finite, (NumK.meaning_whenFinite v _ _ _).1 (hin _ hmem)]
  split
  · exact hfin _ hmem
  · exact Num.finite_round (hfin _ hmem)

namespace Machine

variable {xs : List NumK} {f : List NumK → List NumK}

/-- Of finite inputs the largest of the results of a transform is the largest of the transform. -/
theorem value_largest_transformResults (hfin : ∀ x ∈ xs, x.finite v) :
    (NumK.largest ((transformResults f xs).map fun r => NumK.whenFinite r.1 r.2 NumK.zero)).value v =
      (NumK.largest (f xs)).value v := by
  apply NumK.value_largest_congr
  rw [transformResults, List.map_map]
  exact List.forall₂_map_left_iff.2 (List.forall₂_same.2 fun x _ => (NumK.meaning_whenFinite v xs x _).1 hfin)

/-- Of finite inputs result `k` of a transform is the reference's, off by the error of its name. -/
theorem value_getD_results_transform {stage : Stage} {words : List ℕ} (hfin : ∀ x ∈ xs, x.finite v) {k : ℕ}
    (hk : k < (f xs).length) :
    ((num.results stage words [] xs (fun _ => false) (transformResults f xs)).getD k NumK.zero).value v =
      ((f xs).getD k NumK.zero).value v + (num.tolerance : ℂ) *
        ((v.choice (Config.resultName num.number stage words [] xs k)).error *
          (‖(NumK.largest (f xs)).value v‖ : ℂ)) := by
  have hk' : k < (transformResults f xs).length := by simpa using hk
  have hget : (transformResults f xs)[k] = (xs, (f xs)[k]) := by simp [transformResults]
  have hk'' : k < (num.results stage words [] xs (fun _ => false) (transformResults f xs)).length := by simpa using hk
  rw [List.getD_eq_getElem _ _ hk'', Num.value_getElem_results hk' (by rwa [hget]), List.getD_eq_getElem _ _ hk, hget]
  simp only [Bool.false_eq_true, if_false]
  rw [Num.value_round, value_largest_transformResults hfin, mul_assoc, mul_comm (‖_‖ : ℂ)]

/-- Of finite cells the samples of MOD are finite. -/
theorem finite_modSamples (hfin : ∀ x ∈ xs, x.finite v) (num : Num) (m n : ℕ) :
    ∀ y ∈ modSamples num m n xs, y.finite v := by
  refine Num.finite_results (fun r hr => ?_) fun r hr => ?_ <;> obtain ⟨x, hx, rfl⟩ := List.mem_map.1 hr
  · exact hfin
  · exact NumK.finite_of_isNumber (allNumbers_modulate xs m n x hx)

/-- Of finite cells the samples of MOD are those of `modulate`, each off by its error. -/
theorem value_getD_modSamples (hfin : ∀ x ∈ xs, x.finite v) (num : Num) {m n k : ℕ} (hk : k < m * n) :
    ((modSamples num m n xs).getD k NumK.zero).value v =
      ((modulate xs m n).getD k NumK.zero).value v + (num.tolerance : ℂ) *
        ((v.choice (Config.resultName num.number .modulated [m, n] [] xs k)).error *
          (‖(NumK.largest (modulate xs m n)).value v‖ : ℂ)) :=
  value_getD_results_transform (f := fun xs => modulate xs m n) hfin (by simpa using hk)

/-- Of finite samples the cells of DEMOD are those of `demodulate`, each off by its error. -/
theorem value_getD_demodCells (hfin : ∀ x ∈ xs, x.finite v) (num : Num) {m n k : ℕ} (hk : k < m * n) :
    ((demodCells num m n xs).getD k NumK.zero).value v =
      ((demodulate xs m n).getD k NumK.zero).value v + (num.tolerance : ℂ) *
        ((v.choice (Config.resultName num.number .demodulated [m, n] [] xs k)).error *
          (‖(NumK.largest (demodulate xs m n)).value v‖ : ℂ)) :=
  value_getD_results_transform (f := fun xs => demodulate xs m n) hfin (by simpa using hk)

/-! ## The round trip on lists -/

/-- What `NUM` adds to cell `j` of a round trip, in units of its tolerance: what DEMOD makes of the errors of MOD, and
its own error. Under a finite-precision `NUM` it is `roundTripError`. -/
noncomputable def transformPairError (num : Num) (v : Valuation) (m n : ℕ) (cells : List NumK) (j : ℕ) : ℂ :=
  ∑ k ∈ Finset.range (m * n),
      (v.choice (Config.resultName num.number .modulated [m, n] [] cells k)).error *
        (‖(NumK.largest (modulate cells m n)).value v‖ : ℂ) * phase (-transformTurn m n k j) +
    (v.choice (Config.resultName num.number .demodulated [m, n] [] (modSamples num m n cells) j)).error *
      (‖(NumK.largest (demodulate (modSamples num m n cells) m n)).value v‖ : ℂ)

theorem transformPairError_finite (structureNo : ℕ) (tol : ℚ) (specials : Bool) (v : Valuation) (m n : ℕ)
    (cells : List NumK) (j : ℕ) :
    transformPairError (.finite structureNo tol specials) v m n cells j =
      roundTripError v.real v.choice structureNo tol specials m n cells j := rfl

/-- The cells of DEMOD of the samples of MOD are the cells of the grid, off by the error of the round trip. -/
theorem value_getD_demodCells_modSamples (hfin : ∀ x ∈ xs, x.finite v) (num : Num) {m n j : ℕ} (hj : j < m * n) :
    ((demodCells num m n (modSamples num m n xs)).getD j NumK.zero).value v =
      (xs.getD j NumK.zero).value v + (num.tolerance : ℂ) * transformPairError num v m n xs j := by
  rw [value_getD_demodCells (finite_modSamples hfin num m n) num hj, value_getD_demodulate_eq_sum v _ hj,
    Finset.sum_congr rfl fun k hk => by
      rw [value_getD_modSamples hfin num (Finset.mem_range.1 hk), add_mul, mul_assoc],
    Finset.sum_add_distrib, sum_modulate_mul_phase v xs hj, ← Finset.mul_sum, add_assoc, ← mul_add,
    transformPairError]

/-- The round trip agrees with the grid: exactly where the tolerance is 0, and else as every valuation has it. -/
theorem agree_round_trip (hfin : ∀ x ∈ xs, x.finite v) (num : Num) {m n : ℕ} (hlen : xs.length = m * n) :
    num.agree (m * n) (fun k => ((demodCells num m n (modSamples num m n xs)).getD k NumK.zero).value v)
      fun k => (xs.getD k NumK.zero).value v := by
  intro k hk
  simp only [value_getD_demodCells_modSamples hfin num hk, add_sub_cancel_left, norm_mul]
  have hnorm : ‖(num.tolerance : ℂ)‖ = (num.tolerance : ℝ) := by
    rw [← Complex.ofReal_ratCast, Complex.norm_real, Real.norm_of_nonneg num.tolerance_nonneg]
  rw [hnorm]
  suffices h : ∃ j < m * n, num.tolerance = 0 ∨
      ‖transformPairError num v m n xs k‖ ≤ ‖(xs.getD j NumK.zero).value v‖ by
    obtain ⟨j, hj, h0 | hle⟩ := h
    · exact ⟨j, hj, by simp [h0]⟩
    · exact ⟨j, hj, mul_le_mul_of_nonneg_left hle num.tolerance_nonneg⟩
  cases num with
  | reference => exact ⟨k, hk, .inl rfl⟩
  | finite structureNo tol specials =>
    rcases le_or_gt tol 0 with htol | htol
    · exact ⟨k, hk, .inl (max_eq_left htol)⟩
    · have hm : 0 < m := Nat.pos_of_lt_mul_right hk
      have hn : 0 < n := Nat.pos_of_lt_mul_left hk
      obtain ⟨j, hj, hle⟩ := v.roundTrip structureNo tol specials m n xs hm hn hlen hfin htol k hk
      exact ⟨j, hj, .inr (by rwa [transformPairError_finite])⟩

/-! ## What MOD leaves -/

/-- Behind its guard, or before it, a guarded sequence holds its samples. -/
theorem getElem?_giInsert_sample {g k : ℕ} {md : GuardMode} (hg : md = .cyclicPrefix → g ≤ xs.length)
    (hk : k < xs.length) : (giInsert xs g md)[if md = .cyclicPrefix then g + k else k]? = xs[k]? := by
  cases md with
  | none => rfl
  | zeroPad => exact getElem?_giInsert_zeroPad_of_lt hk
  | cyclicPrefix =>
    rw [if_pos rfl, getElem?_giInsert_cyclicPrefix_of_le (hg rfl) (Nat.le_add_right g k), Nat.add_sub_cancel_left]

/-- Under CyclicPrefix the guard repeats the end of the sequence. -/
theorem getElem?_giInsert_cyclicPrefix_eq {g k : ℕ} (hg : g ≤ xs.length) (hk : k < g) :
    (giInsert xs g .cyclicPrefix)[k]? = (giInsert xs g .cyclicPrefix)[xs.length + k]? := by
  rw [getElem?_giInsert_cyclicPrefix_of_lt hg hk, getElem?_giInsert_cyclicPrefix_of_le hg (by omega),
    show xs.length + k - g = xs.length - g + k by omega]

/-- The samples that MOD makes of a grid, before the guard. -/
def State.gridSamples (s : State) (src : Sel) : List NumK :=
  modSamples s.num s.m.toNat s.n.toNat (s.grid src s.m.toNat s.n.toNat)

/-- The sequence that MOD leaves: the samples of the grid with their guard. -/
def State.modSequence (s : State) (src : Sel) : List NumK := giInsert (s.gridSamples src) s.glen.toNat s.mode

variable {s : State} {src : Sel}

@[simp] theorem State.length_gridSamples (s : State) (src : Sel) : (s.gridSamples src).length = s.cells :=
  length_modSamples ..

theorem State.length_modSequence (hguard : s.mode = .cyclicPrefix → s.glen.toNat ≤ s.cells) :
    (s.modSequence src).length = guardedLength s.cells s.glen.toNat s.mode := by
  rw [State.modSequence, length_giInsert (by rwa [State.length_gridSamples]), State.length_gridSamples]

/-- A MOD whose checks pass leaves its sequence. -/
theorem exec_mod_of_completes (dst : Sel) (h0 : s.errcode = 0) (hc : modCheck s = none) :
    ∃ t, exec (.mod src dst) s = .next t ∧ t.succeeded ∧ t.tlen dst = lengthWord (s.modSequence src).length ∧
      ∀ k < (s.modSequence src).length, (s.modSequence src)[k]? = some (t.element (tBuf dst) k) := by
  obtain ⟨t, ht, hsucc, htlen, hel⟩ := exec_of_stores (i := .mod src dst) (dst := dst) (vs := s.modSequence src) h0 hc
    (by simp [commandParts, modEffect, State.modSequence, State.gridSamples])
  refine ⟨t, ht, hsucc, htlen, fun k hk => ?_⟩
  rw [hel (List.getElem?_eq_getElem hk), List.getElem?_eq_getElem hk]

theorem State.getD_grid {m n k : ℕ} (hk : k < m * n) :
    (s.grid src m n).getD k NumK.zero = s.element (gBuf src) k := by
  simp [State.grid, List.getD_eq_getElem?_getD, hk]

/-- Under the reference the samples of a finite grid are those of its inverse transform. -/
theorem State.value_getD_gridSamples (href : s.num = .reference) (hfin : s.gridFinite v src) {k : ℕ}
    (hk : k < s.cells) : ((s.gridSamples src).getD k NumK.zero).value v = s.modulatedSample v src k := by
  rw [State.gridSamples, href, value_getD_modSamples (State.finite_grid hfin) _ hk, Num.tolerance, Rat.cast_zero,
    zero_mul, add_zero]
  obtain ⟨r, hr, c, hc, rfl⟩ := exists_cellIndex hk
  rw [value_getD_modulate v _ hr hc, State.modulatedSample, cellIndex_mod hr, cellIndex_div hr]
  congr 1
  refine Finset.sum_congr rfl fun l hl => Finset.sum_congr rfl fun d hd => ?_
  rw [State.getD_grid (cellIndex_lt (Finset.mem_range.1 hd) (Finset.mem_range.1 hl)), State.cellValue]

/-! ## What DEMOD leaves -/

/-- The sequence that DEMOD transforms: the core of its source, reconciled to `M*N` samples. -/
def State.demodInput (s : State) (src : Sel) : List NumK :=
  reconcile (giRemove (s.seq src) s.glen.toNat s.mode) s.cells

/-- A DEMOD whose checks pass leaves the cells of its sequence. -/
theorem exec_demod_of_completes (dst : Sel) (h0 : s.errcode = 0) (hc : demodCheck src s = none) :
    ∃ t, exec (.demod src dst) s = .next t ∧ t.succeeded ∧ ∀ k < s.cells,
      t.element (gBuf dst) k = (demodCells s.num s.m.toNat s.n.toNat (s.demodInput src)).getD k NumK.zero := by
  have hcheck := (demodCheck_accept src s).trans hc
  refine ⟨_, exec_of_completes (i := .demod src dst) h0 hcheck, ⟨rfl, ?_⟩, fun k hk => ?_⟩
  · rw [State.complete_errcode, commandEffect_errcode, State.accept_errcode, h0]
  · have hout : s.accept.output (.demod src dst) (gBuf dst) =
        demodCells s.num s.m.toNat s.n.toNat (s.demodInput src) := by
      simp [State.output, State.demodInput, State.cells]
    rw [State.element_complete, element_commandEffect, hout, if_pos ((length_demodCells ..).symm ▸ hk)]

/-- Sample `k` of the sequence that DEMOD transforms is that of the core, 0 past its end. -/
theorem State.value_getD_demodInput {k : ℕ} (hk : k < s.cells) :
    ((s.demodInput src).getD k NumK.zero).value v = s.coreSample v src k := by
  rw [State.demodInput, getD_reconcile _ hk, List.getD_eq_getElem?_getD, State.getElem?_core, State.coreSample]
  split <;> rfl

/-- Under the reference the cells of a finite sequence are those of its forward transform. -/
theorem State.value_getD_demodCells_demodInput (hfin : s.coreFinite v src) {d l : ℕ} (hd : d < s.m.toNat)
    (hl : l < s.n.toNat) :
    ((demodCells .reference s.m.toNat s.n.toNat (s.demodInput src)).getD (d + s.m.toNat * l) NumK.zero).value v =
      s.demodulatedCell v src d l := by
  have hcore : ∀ x ∈ s.demodInput src, x.finite v := State.finite_core hfin
  rw [value_getD_demodCells hcore _ (cellIndex_lt hd hl), Num.tolerance, Rat.cast_zero, zero_mul, add_zero,
    value_getD_demodulate v _ hd hl, State.demodulatedCell]
  refine Finset.sum_congr rfl fun c hc => Finset.sum_congr rfl fun r hr => ?_
  rw [State.value_getD_demodInput (cellIndex_lt (Finset.mem_range.1 hr) (Finset.mem_range.1 hc))]

/-! ## DEMOD of the output of MOD -/

/-- A buffer that holds the elements of a sequence of its length holds that sequence. -/
theorem State.seq_eq_of_elements {sel : Sel} (hlen : (s.tlen sel).toNat = xs.length)
    (hel : ∀ k < xs.length, xs[k]? = some (s.element (tBuf sel) k)) : s.seq sel = xs := by
  refine List.ext_getElem ((State.length_seq s sel).trans hlen) fun k hk hk' => ?_
  rw [← Option.some_inj, ← List.getElem?_eq_getElem, ← List.getElem?_eq_getElem, hel k hk',
    State.getElem?_seq_of_lt (hlen ▸ hk')]

/-- On the sequence that MOD left of a grid, DEMOD of the same configuration transforms the samples of that grid. -/
theorem State.demodInput_modSequence {t : State} {b : Sel} (hcells : t.cells = s.cells) (hglen : t.glen = s.glen)
    (hmode : t.mode = s.mode) (hguard : s.mode = .cyclicPrefix → s.glen.toNat ≤ s.cells)
    (hseq : t.seq b = s.modSequence src) : t.demodInput b = s.gridSamples src := by
  rw [State.demodInput, hseq, hcells, hglen, hmode, State.modSequence,
    giRemove_giInsert (by rwa [State.length_gridSamples]), ← State.length_gridSamples s src, reconcile_length]

/-- A sequence with its guard passes the checks of DEMOD on its source. -/
theorem giRemCheck_guarded {cells : ℕ} (hlen : (s.tlen src).toNat = guardedLength cells s.glen.toNat s.mode)
    (hfits : guardedLength cells s.glen.toNat s.mode ≤ s.caps.tcap) : giRemCheck src s = none := by
  refine giRemCheck_eq_none (hlen ▸ hfits) fun hmode => ?_
  rw [hlen]
  cases hm : s.mode with
  | none => exact absurd hm hmode
  | zeroPad => exact Nat.le_add_left ..
  | cyclicPrefix => exact Nat.le_add_left ..

end Machine

end

namespace Machine

/-- Settles O24: the sequence is that of the samples with their guard. -/
theorem modWritesTheInverseTransform : Obligations.ModWritesTheInverseTransform := by
  intro v src dst s h0 hgrid hguard hfits
  obtain ⟨t, ht, hsucc, htlen, hel⟩ :=
    exec_mod_of_completes (src := src) dst h0 (modCheck_eq_none_iff.2 ⟨hgrid, hguard, hfits⟩)
  have hsamples : (s.gridSamples src).length = s.cells := State.length_gridSamples s src
  have hlen := State.length_modSequence (src := src) hguard
  refine ⟨t, ht, hsucc, fun h32 => by rw [htlen, hlen, toNat_lengthWord h32], fun href hfin k hk => ?_,
    fun hm k hk => ?_, fun hm k hk => ?_⟩
  · have hk' : k < (s.gridSamples src).length := hsamples ▸ hk
    have hsample := (getElem?_giInsert_sample (hsamples ▸ hguard) hk').trans (List.getElem?_eq_getElem hk')
    obtain ⟨hpos, -⟩ := List.getElem?_eq_some_iff.1 hsample
    rw [Option.some_inj.1 ((hel _ hpos).symm.trans hsample), ← List.getD_eq_getElem _ NumK.zero hk',
      State.value_getD_gridSamples href hfin hk]
  · rw [hm] at hlen
    rw [← Option.some_inj, ← hel _ (hlen ▸ Nat.add_lt_add_left hk s.cells), State.modSequence, hm,
      getElem?_giInsert_zeroPad_of_le (by omega) (by omega)]
  · rw [hm] at hlen
    have hend : s.cells + k < (s.modSequence src).length := hlen ▸ Nat.add_lt_add_left hk s.cells
    rw [← Option.some_inj, ← hel _ (by omega), ← hel _ hend, State.modSequence, hm, ← hsamples]
    exact getElem?_giInsert_cyclicPrefix_eq (hsamples ▸ hguard hm) hk

/-- Settles O26. -/
theorem demodWritesTheForwardTransform : Obligations.DemodWritesTheForwardTransform := by
  intro v src dst s h0 hgrid hguard hsrc hcore
  obtain ⟨t, ht, hsucc, hel⟩ := exec_demod_of_completes (src := src) dst h0
    ((demodCheck_of_guard_le hgrid hguard).trans (giRemCheck_eq_none hsrc hcore))
  obtain ⟨-, htlen, -⟩ := commandsWriteOnlyTheirOutputs _ s t ht
  refine ⟨t, ht, hsucc, htlen .zero rfl, htlen .one rfl, fun href hfin d hd l hl => ?_⟩
  rw [hel _ (cellIndex_lt hd hl), href, State.value_getD_demodCells_demodInput hfin hd hl]

/-- Settles O30: DEMOD removes the guard that MOD inserted and transforms the very samples of MOD. -/
theorem demodulationInvertsModulation : Obligations.DemodulationInvertsModulation := by
  intro v a b c s t t' h0 hcap ht htcode ht'code hm hn hglen hgmode hcaps hnum hsame
  have hmode : t'.mode = s.mode := State.mode_congr hgmode
  have hcells : t'.cells = s.cells := by rw [State.cells, hm, hn, State.cells]
  -- MOD has passed its checks and left the guarded samples.
  have hc : modCheck s = none := (exec_completes h0 ht htcode).1
  obtain ⟨hgrid, hguard, hfits⟩ := modCheck_eq_none_iff.1 hc
  obtain ⟨t₁, ht₁, -, htlen, hel⟩ := exec_mod_of_completes (src := a) b h0 hc
  obtain rfl : t = t₁ := by simpa [ht] using ht₁
  have hlen := State.length_modSequence (src := a) hguard
  have htlen : (t.tlen b).toNat = (s.modSequence a).length := by rw [htlen, toNat_lengthWord (by omega)]
  have hseq : t'.seq b = s.modSequence a := (State.seq_congr hsame).symm.trans (State.seq_eq_of_elements htlen hel)
  -- DEMOD passes its checks on them and transforms the samples.
  have hcheck : demodCheck b t' = none := by
    rw [demodCheck_of_guard_le (by rwa [State.gridValid, hm, hn, hcaps]) (by rwa [hmode, hglen, hcells])]
    exact giRemCheck_guarded (by rw [← hsame.1, htlen, hlen, hglen, hmode]) (by rwa [hglen, hmode, hcaps])
  obtain ⟨u, hu, husucc, huel⟩ := exec_demod_of_completes (src := b) c ht'code hcheck
  rw [State.demodInput_modSequence hcells hglen hmode hguard hseq, hcells, hm, hn, hnum] at huel
  refine ⟨u, hu, husucc, fun hfin => ?_⟩
  have hagree : s.num.agree s.cells (fun k => (u.element (gBuf c) k).value v) fun k => (s.element (gBuf a) k).value v :=
    Num.agree_congr (fun k hk => by rw [huel k hk, State.gridSamples]) (fun k hk => by rw [State.getD_grid hk])
      (agree_round_trip (State.finite_grid hfin) s.num (State.length_grid s a s.m.toNat s.n.toNat))
  refine ⟨fun href d hd l hl => ?_, hagree⟩
  obtain ⟨⟨hum, -⟩, -⟩ := commandsWriteOnlyTheirOutputs _ t' u hu
  rw [State.cellValue, State.cellValue, hum, hm]
  exact Num.eq_of_agree_reference (href ▸ hagree) (cellIndex_lt hd hl)

end Machine

end Sys2Proof

/-! PROOFS. The Multipath Doppler Channel (42_channel.md): the delay line element by element, the channel's output as complex
numbers and what R73 says of it, and the command CHAN: what its checks answer, the errors it raises and what it leaves. -/

namespace Sys2Proof

/-- The number that stands for a non-finite value is 0, in the data as in the meaning. -/
theorem RVal.value_toReal (v : Valuation) (r : RVal) : r.toReal.value v = r.value v := by
  cases r with
  | real x => rfl
  | special s => exact (NumR.value_ofRat v 0).trans Rat.cast_zero

namespace Machine

/-! ## The delay line -/

section
variable {tx : List NumK} {tau k : ℕ}

/-- The delay line begins with zeros. -/
theorem getElem?_delayed_of_lt (hk : k < min tau tx.length) : (delayed tx tau)[k]? = some NumK.zero := by
  have hzeros : k < (NumK.zeros (min tau tx.length)).length := by rwa [NumK.zeros, List.length_replicate]
  exact (List.getElem?_append_left hzeros).trans (List.getElem?_replicate_of_lt hk)

/-- Behind its zeros the delay line has the samples in their order. -/
theorem getElem?_delayed_of_le (htau : tau ≤ k) (hk : k < tx.length) : (delayed tx tau)[k]? = tx[k - tau]? := by
  have hzeros : (NumK.zeros tau).length = tau := List.length_replicate
  rw [delayed, min_eq_left (htau.trans hk.le), List.getElem?_append_right (hzeros.trans_le htau), hzeros,
    List.getElem?_take_of_lt (Nat.sub_lt_sub_right htau hk)]

/-- A delay of the length of the sequence or more shifts all of it out. -/
theorem delayed_of_length_le (h : tx.length ≤ tau) : delayed tx tau = NumK.zeros tx.length := by
  rw [delayed, min_eq_right h, Nat.sub_self, List.take_zero, List.append_nil]

@[simp] theorem delayed_zero (tx : List NumK) : delayed tx 0 = tx := by
  rw [delayed, Nat.zero_min, Nat.sub_zero, List.take_length]
  rfl

end

/-- Settles O33. -/
theorem delayShiftsRightLinearly : Obligations.DelayShiftsRightLinearly :=
  fun tx tau => ⟨length_delayed tx tau, fun _ => getElem?_delayed_of_lt, fun _ => getElem?_delayed_of_le,
    delayed_of_length_le, delayed_zero tx⟩

/-! ## The output of the channel as complex numbers -/

section
variable (v : Valuation) (fs : NumR)

/-- What a path adds to sample `k`: the delayed sample, scaled by the gain and rotated (42_channel.md R68 to R70). -/
theorem value_channelTerm (tx : List NumK) (k : ℕ) (p : Path) :
    (channelTerm tx fs k p).value v =
      if p.delay ≤ k then
        (p.gain.value v : ℂ) * (tx.getD (k - p.delay) NumK.zero).value v * phase (p.doppler.value v * k / fs.value v)
      else 0 := by
  unfold channelTerm
  split
  · rw [NumK.value_mul, NumK.value_scale, value_rot]
  · exact NumK.value_zero v

/-- Sample `k` of the output is the sum of what the paths add to it (42_channel.md R71). -/
theorem value_getD_applyChannel {tx : List NumK} {k : ℕ} (hk : k < tx.length) (paths : List Path) :
    ((applyChannel tx fs paths).getD k NumK.zero).value v =
      (paths.map fun p => (channelTerm tx fs k p).value v).sum := by
  rw [List.getD_eq_getElem?_getD, getElem?_applyChannel hk, Option.getD_some, NumK.value_sum, List.map_map]
  rfl

/-- What a path adds to a sample is linear in the sequence. -/
theorem value_channelTerm_linear {xs ys zs : List NumK} {a b : ℂ}
    (h : ∀ k < xs.length, (zs.getD k NumK.zero).value v =
      a * (xs.getD k NumK.zero).value v + b * (ys.getD k NumK.zero).value v)
    {k : ℕ} (hk : k < xs.length) (p : Path) :
    (channelTerm zs fs k p).value v = a * (channelTerm xs fs k p).value v + b * (channelTerm ys fs k p).value v := by
  simp only [value_channelTerm]
  split
  · rw [h _ ((Nat.sub_le ..).trans_lt hk)]
    ring
  · ring

/-- The order of the paths does not matter to a sum of what they add. -/
theorem value_getD_applyChannel_perm (tx : List NumK) {paths paths' : List Path} (h : paths.Perm paths') (k : ℕ) :
    ((applyChannel tx fs paths).getD k NumK.zero).value v = ((applyChannel tx fs paths').getD k NumK.zero).value v := by
  rcases Nat.lt_or_ge k tx.length with hk | hk
  · rw [value_getD_applyChannel v fs hk, value_getD_applyChannel v fs hk]
    exact (h.map _).sum_eq
  · rw [List.getD_eq_default _ _ (by simpa using hk), List.getD_eq_default _ _ (by simpa using hk)]

end

/-- Settles O34: each path is linear in the sequence, and so is the sum over the paths. -/
theorem channelIsLinear : Obligations.ChannelIsLinear := by
  intro v xs ys zs a b fs paths hys hzs h k hk
  rw [value_getD_applyChannel v fs (hzs ▸ hk), value_getD_applyChannel v fs hk, value_getD_applyChannel v fs (hys ▸ hk),
    ← List.sum_map_mul_left, ← List.sum_map_mul_left, ← List.sum_map_add]
  simp only [value_channelTerm_linear v fs h hk]

/-- Settles O35. -/
theorem pathOrderDoesNotMatter : Obligations.PathOrderDoesNotMatter := by
  refine fun v tx fs => ⟨fun g nu k hnu hk => ?_, fun paths paths' hperm => ⟨?_, fun k => ?_⟩⟩
  · exact value_applyChannel_single (p := ⟨0, g, nu⟩) hk (Nat.zero_le k) hnu fs
  · exact length_applyChannel tx fs paths
  · exact value_getD_applyChannel_perm v fs tx hperm k

/-! ## The checks of CHAN -/

section
variable {v : Valuation} {src : Sel} {s : State}

theorem chanCheck_accept (src : Sel) (s : State) : chanCheck src s.accept = chanCheck src s := by
  cases src <;> rfl

theorem chanCheck_eq_fs (h : ¬ s.fs.positive v) : chanCheck src s = some (configError .fs) := by
  rw [← RVal.isPositive_iff, Bool.not_eq_true] at h
  exact if_pos h

theorem chanCheck_eq_npath (hfs : s.fs.positive v) (h : s.caps.pcap < s.npath.toNat) :
    chanCheck src s = some (configError .npath) := by
  rw [chanCheck, (RVal.isPositive_iff v _).2 hfs, if_neg nofun, if_pos h]

theorem chanCheck_eq_pathGain (hfs : s.fs.positive v) (hnpath : s.npath.toNat ≤ s.caps.pcap) {j : ℕ}
    (hj : j < s.npath.toNat) (hneg : ¬ (s.gainAt j).nonneg v) (hfirst : ∀ i < j, (s.gainAt i).nonneg v) :
    chanCheck src s = some (tableError .pathGain j) := by
  have hindex : firstIndex s.npath.toNat (fun j => !(s.gainAt j).isNonneg) = some j := by
    simp only [← RVal.isNonneg_iff, Bool.not_eq_true] at hneg hfirst
    exact firstIndex_eq_some.2 ⟨hj, by rw [hneg]; rfl, fun i hi => by rw [hfirst i hi]; rfl⟩
  rw [chanCheck, (RVal.isPositive_iff v _).2 hfs, if_neg nofun, if_neg hnpath.not_gt, hindex]

/-- Past the checks of the configuration, CHAN checks the length of its source. -/
theorem chanCheck_of_gains_nonneg (hfs : s.fs.positive v) (hnpath : s.npath.toNat ≤ s.caps.pcap)
    (hgain : ∀ j < s.npath.toNat, (s.gainAt j).nonneg v) :
    chanCheck src s = if s.caps.tcap < (s.tlen src).toNat then some (shapeError .srcLen) else none := by
  have hindex : firstIndex s.npath.toNat (fun j => !(s.gainAt j).isNonneg) = none :=
    firstIndex_eq_none.2 fun j hj => by rw [(RVal.isNonneg_iff v _).2 (hgain j hj)]; rfl
  rw [chanCheck, (RVal.isPositive_iff v _).2 hfs, if_neg nofun, if_neg hnpath.not_gt, hindex]

theorem exec_chan_of_raises {e : CmdError} (dst : Sel) (h0 : s.errcode = 0) (hc : chanCheck src s = some e) :
    exec (.chan src dst) s = .next (s.accept.raise (encode (.chan src dst)) e) :=
  exec_of_raises h0 ((chanCheck_accept src s).trans hc)

end

/-- Settles O32. -/
theorem chanErrorsInOrder : Obligations.ChanErrorsInOrder := by
  refine fun v src dst s h0 => ⟨fun hfs => ?_, fun hfs hfull => ?_, fun hfs hnpath j hj hneg hfirst => ?_,
    fun hfs hnpath hgain hlong => ?_⟩
  · exact exec_chan_of_raises dst h0 (chanCheck_eq_fs hfs)
  · exact exec_chan_of_raises dst h0 (chanCheck_eq_npath hfs hfull)
  · exact exec_chan_of_raises dst h0 (chanCheck_eq_pathGain hfs hnpath hj hneg hfirst)
  · exact exec_chan_of_raises dst h0 ((chanCheck_of_gains_nonneg hfs hnpath hgain).trans (if_pos hlong))

/-! ## What CHAN leaves -/

section
variable {v : Valuation} {src : Sel} {s : State}

/-- The length that a length register holds is written back as it was. -/
theorem lengthWord_toNat (w : Word) : lengthWord w.toNat = w :=
  BitVec.eq_of_toNat_eq (toNat_lengthWord w.isLt)

theorem State.getD_seq_of_lt {k : ℕ} (hk : k < (s.tlen src).toNat) :
    (s.seq src).getD k NumK.zero = s.element (tBuf src) k := by
  rw [List.getD_eq_getElem?_getD, State.getElem?_seq_of_lt hk, Option.getD_some]

/-- Under the reference a sample of CHAN that depends on finite inputs is that of the channel. -/
theorem value_getD_chanSamples_reference {tx : List NumK} {fs : RVal} {paths : List PathEntry} {k : ℕ}
    (hk : k < tx.length) (hin : ∀ x ∈ channelInputs tx fs paths k, x.finite v) :
    ((chanSamples .reference tx fs paths).getD k NumK.zero).value v =
      ((applyChannel tx fs.toReal (paths.map PathEntry.path)).getD k NumK.zero).value v := by
  rw [List.getD_eq_getElem _ _ (by simpa using hk), List.getD_eq_getElem _ _ (by simpa using hk)]
  simp only [chanSamples]
  rw [Num.value_getElem_results_reference (by simpa using hk) (by simpa using hin), List.getElem_mapIdx]

/-- The channel of the state's paths, on the sequence of its source, has the samples of the reference (42_channel.md R71). -/
theorem State.value_getD_applyChannel_seq {k : ℕ} (hk : k < (s.tlen src).toNat) :
    ((applyChannel (s.seq src) s.fs.toReal (s.paths.map PathEntry.path)).getD k NumK.zero).value v =
      s.channelSample v src k := by
  have hsum := value_getD_applyChannel v s.fs.toReal (tx := s.seq src) (by simpa using hk)
    (s.paths.map PathEntry.path)
  rw [hsum, State.paths, List.map_map, List.map_map, sum_map_range_eq, State.channelSample]
  refine Finset.sum_congr rfl fun j _ => ?_
  simp only [Function.comp_apply, value_channelTerm, PathEntry.path, RVal.value_toReal]
  rw [State.getD_seq_of_lt ((Nat.sub_le ..).trans_lt hk)]

end

/-- Settles O31: CHAN stores its samples, which under the reference are those of the channel. -/
theorem chanWritesTheSumOfPaths : Obligations.ChanWritesTheSumOfPaths := by
  intro v src dst s h0 hfs hnpath hgain hsrc
  have hcheck : chanCheck src s = none := (chanCheck_of_gains_nonneg hfs hnpath hgain).trans (if_neg hsrc.not_gt)
  obtain ⟨t, ht, hsucc, htlen, -⟩ := exec_of_stores (i := .chan src dst) (dst := dst)
    (vs := chanSamples s.num (s.seq src) s.fs s.paths) h0 ((chanCheck_accept src s).trans hcheck)
    (by simp [commandParts, chanEffect])
  refine ⟨t, ht, hsucc, ?_, fun href k hk hfin => ?_⟩
  · rw [htlen, length_chanSamples, State.length_seq, lengthWord_toNat]
  · rw [element_exec_chan h0 ht hsucc.2 hk, href,
      value_getD_chanSamples_reference (by simpa using hk) (State.finite_channelInputs hk hfin),
      State.value_getD_applyChannel_seq hk]

end Machine

end Sys2Proof

/-! PROOFS. The rational plane: `orient` on rational points, affine forms, barycentric coordinates and the exchange of a
vertex of a triangle (43_estimator.md R77, R82). -/

namespace Sys2Proof

namespace Machine

/-! ## Points, lines and affine forms -/

/-- `orient` on rational points (43_estimator.md R77). -/
def cross (a b c : ℚ × ℚ) : ℚ := (b.1 - a.1) * (c.2 - a.2) - (b.2 - a.2) * (c.1 - a.1)

/-- The squared distance from the origin, the height that the points are lifted to. -/
def normSq (z : ℚ × ℚ) : ℚ := z.1 ^ 2 + z.2 ^ 2

/-- The affine form `x * d + y * l + c` on the plane. -/
structure AffineForm where
  x : ℚ
  y : ℚ
  c : ℚ

/-- The value of an affine form at a point. -/
def AffineForm.eval (f : AffineForm) (z : ℚ × ℚ) : ℚ := f.x * z.1 + f.y * z.2 + f.c

/-- The difference of two affine forms. -/
def AffineForm.sub (f g : AffineForm) : AffineForm := ⟨f.x - g.x, f.y - g.y, f.c - g.c⟩

@[simp] theorem AffineForm.eval_sub (f g : AffineForm) (z : ℚ × ℚ) : (f.sub g).eval z = f.eval z - g.eval z := by
  simp only [AffineForm.eval, AffineForm.sub]
  ring

@[simp] theorem AffineForm.eval_const (k : ℚ) (z : ℚ × ℚ) : (⟨0, 0, k⟩ : AffineForm).eval z = k := by
  simp [AffineForm.eval]

/-- An affine form with the opposite sign. -/
def AffineForm.neg (f : AffineForm) : AffineForm := ⟨-f.x, -f.y, -f.c⟩

@[simp] theorem AffineForm.eval_neg (f : AffineForm) (z : ℚ × ℚ) : f.neg.eval z = -f.eval z := by
  simp only [AffineForm.eval, AffineForm.neg]
  ring

/-- The side of the line through `a` and `b` that a point is on, as an affine form with the factor `k`. -/
def lineForm (k : ℚ) (a b : ℚ × ℚ) : AffineForm :=
  ⟨-k * (b.2 - a.2), k * (b.1 - a.1), k * ((b.2 - a.2) * a.1 - (b.1 - a.1) * a.2)⟩

@[simp] theorem eval_lineForm (k : ℚ) (a b z : ℚ × ℚ) : (lineForm k a b).eval z = k * cross a b z := by
  simp only [AffineForm.eval, lineForm, cross]
  ring

section
variable (a b c : ℚ × ℚ)

theorem cross_rotate : cross b c a = cross a b c := by
  simp only [cross]
  ring

theorem cross_swap : cross a c b = -cross a b c := by
  simp only [cross]
  ring

@[simp] theorem cross_self_left : cross a a c = 0 := by
  simp only [cross]
  ring

@[simp] theorem cross_self_right : cross a b b = 0 := by
  simp only [cross]
  ring

@[simp] theorem cross_self_outer : cross a b a = 0 := by
  simp only [cross]
  ring

end

/-- An affine form at a point from its values at three points: Cramer's rule. -/
theorem AffineForm.eval_mul_cross (f : AffineForm) (a b c z : ℚ × ℚ) :
    f.eval z * cross a b c = f.eval a * cross z b c + f.eval b * cross a z c + f.eval c * cross a b z := by
  simp only [AffineForm.eval, cross]
  ring

/-- The affine form with the values `u`, `v`, `w` at the points `a`, `b`, `c`. -/
def cramerForm (a b c : ℚ × ℚ) (u v w : ℚ) : AffineForm :=
  ⟨(u * (b.2 - c.2) + v * (c.2 - a.2) + w * (a.2 - b.2)) / cross a b c,
    (u * (c.1 - b.1) + v * (a.1 - c.1) + w * (b.1 - a.1)) / cross a b c,
    (u * (b.1 * c.2 - b.2 * c.1) + v * (c.1 * a.2 - c.2 * a.1) + w * (a.1 * b.2 - a.2 * b.1)) / cross a b c⟩

theorem eval_cramerForm (a b c z : ℚ × ℚ) (u v w : ℚ) : (cramerForm a b c u v w).eval z =
    (u * cross z b c + v * cross a z c + w * cross a b z) / cross a b c := by
  simp only [cramerForm, AffineForm.eval, cross]
  ring

/-- There is an affine form with given values at three points that are not on one line. -/
theorem exists_affineForm {a b c : ℚ × ℚ} (h : cross a b c ≠ 0) (u v w : ℚ) :
    ∃ f : AffineForm, f.eval a = u ∧ f.eval b = v ∧ f.eval c = w :=
  ⟨cramerForm a b c u v w, by simp [eval_cramerForm, h], by simp [eval_cramerForm, h], by simp [eval_cramerForm, h]⟩

/-- An affine form that is 0 at three points on no line is 0. -/
theorem AffineForm.eval_eq_zero {f : AffineForm} {a b c : ℚ × ℚ} (h : cross a b c ≠ 0) (ha : f.eval a = 0)
    (hb : f.eval b = 0) (hc : f.eval c = 0) (z : ℚ × ℚ) : f.eval z = 0 := by
  have e := f.eval_mul_cross a b c z
  rw [ha, hb, hc] at e
  exact (mul_eq_zero.1 (by linarith)).resolve_right h

/-- The points where an affine form that is not 0 everywhere is 0 are on one line. -/
theorem AffineForm.cross_eq_zero {f : AffineForm} {z : ℚ × ℚ} (hz : f.eval z ≠ 0) {a b c : ℚ × ℚ} (ha : f.eval a = 0)
    (hb : f.eval b = 0) (hc : f.eval c = 0) : cross a b c = 0 := by
  by_contra h
  exact hz (f.eval_eq_zero h ha hb hc z)

/-- Not every point is on the line through two points. -/
theorem exists_cross_ne_zero {a b : ℚ × ℚ} (h : a ≠ b) : ∃ z, cross a b z ≠ 0 := by
  by_contra hnone
  push Not at hnone
  have h1 := hnone (a.1, a.2 + 1)
  have h2 := hnone (a.1 + 1, a.2)
  simp only [cross] at h1 h2
  exact h (Prod.ext (by linarith) (by linarith))

/-- A line meets a circle in at most two points: the points where an affine form is the squared distance from the origin are
those of a circle. -/
theorem eq_of_collinear_of_circle {f : AffineForm} {a b c : ℚ × ℚ} (hline : cross a b c = 0) (ha : f.eval a = normSq a)
    (hb : f.eval b = normSq b) (hc : f.eval c = normSq c) (hab : a ≠ b) : c = a ∨ c = b := by
  obtain ⟨a1, a2⟩ := a
  obtain ⟨b1, b2⟩ := b
  obtain ⟨c1, c2⟩ := c
  simp only [AffineForm.eval, normSq, cross] at *
  have hN : 0 < (b1 - a1) ^ 2 + (b2 - a2) ^ 2 := by
    rcases eq_or_ne b1 a1 with h1 | h1
    · have h2 : b2 - a2 ≠ 0 := fun h2 => hab (by rw [h1, sub_eq_zero.1 h2])
      positivity
    · have h1 := sub_ne_zero.2 h1
      positivity
  obtain ⟨s, hs⟩ : ∃ s, s * ((b1 - a1) ^ 2 + (b2 - a2) ^ 2) = (b1 - a1) * (c1 - a1) + (b2 - a2) * (c2 - a2) :=
    ⟨_, div_mul_cancel₀ _ hN.ne'⟩
  have h1 : c1 - a1 = s * (b1 - a1) := mul_left_cancel₀ hN.ne' (by linear_combination (a1 - b1) * hs - (b2 - a2) * hline)
  have h2 : c2 - a2 = s * (b2 - a2) := mul_left_cancel₀ hN.ne' (by linear_combination (a2 - b2) * hs + (b1 - a1) * hline)
  obtain rfl : c1 = a1 + s * (b1 - a1) := by linarith
  obtain rfl : c2 = a2 + s * (b2 - a2) := by linarith
  have hprod : s * (s - 1) * ((b1 - a1) ^ 2 + (b2 - a2) ^ 2) = 0 := by linear_combination s * hb - hc - (s - 1) * ha
  rcases mul_eq_zero.1 ((mul_eq_zero.1 hprod).resolve_right hN.ne') with h | h
  · left
    simp [h]
  · right
    simp [sub_eq_zero.1 h]

/-! ## Triangles and barycentric coordinates -/

section
variable (P : ℕ → ℚ × ℚ) (t : Tri)

/-- Twice the signed area of the triangle. -/
def Tri.area : ℚ := cross (P t.a) (P t.b) (P t.c)

/-- The barycentric coordinate of a point at an index, 0 at an index that is no vertex (43_estimator.md R82). -/
def Tri.coord (z : ℚ × ℚ) (i : ℕ) : ℚ :=
  if i = t.a then cross z (P t.b) (P t.c) / t.area P
  else if i = t.b then cross (P t.a) z (P t.c) / t.area P
  else if i = t.c then cross (P t.a) (P t.b) z / t.area P
  else 0

/-- The point lies in the closed triangle. -/
def Tri.covers (z : ℚ × ℚ) : Prop := ∀ i, 0 ≤ t.coord P z i

end

section
variable {P : ℕ → ℚ × ℚ} {t : Tri} (h : t.area P ≠ 0)
include h

theorem Tri.ne_of_area : t.a ≠ t.b ∧ t.a ≠ t.c ∧ t.b ≠ t.c := by
  refine ⟨fun e => h ?_, fun e => h ?_, fun e => h ?_⟩ <;> simp [Tri.area, e]

theorem Tri.coord_vertices (z : ℚ × ℚ) :
    t.coord P z t.a = cross z (P t.b) (P t.c) / t.area P ∧ t.coord P z t.b = cross (P t.a) z (P t.c) / t.area P ∧
      t.coord P z t.c = cross (P t.a) (P t.b) z / t.area P := by
  obtain ⟨hab, hac, hbc⟩ := Tri.ne_of_area h
  simp [Tri.coord, hab.symm, hac.symm, hbc.symm]

/-- An affine form at a point is the combination of its values at the vertices. -/
theorem Tri.eval_eq (f : AffineForm) (z : ℚ × ℚ) :
    f.eval z = t.coord P z t.a * f.eval (P t.a) + t.coord P z t.b * f.eval (P t.b) + t.coord P z t.c * f.eval (P t.c) := by
  obtain ⟨ha, hb, hc⟩ := Tri.coord_vertices h z
  rw [ha, hb, hc]
  have e := f.eval_mul_cross (P t.a) (P t.b) (P t.c) z
  rw [← Tri.area] at e
  field_simp
  linarith

theorem Tri.sum_coord (z : ℚ × ℚ) : t.coord P z t.a + t.coord P z t.b + t.coord P z t.c = 1 := by
  have e := Tri.eval_eq h ⟨0, 0, 1⟩ z
  simp only [AffineForm.eval] at e
  linarith

theorem Tri.covers_iff (z : ℚ × ℚ) :
    t.covers P z ↔ 0 ≤ cross z (P t.b) (P t.c) * t.area P ∧ 0 ≤ cross (P t.a) z (P t.c) * t.area P ∧
      0 ≤ cross (P t.a) (P t.b) z * t.area P := by
  obtain ⟨ha, hb, hc⟩ := Tri.coord_vertices h z
  have hdiv : ∀ x : ℚ, 0 ≤ x / t.area P ↔ 0 ≤ x * t.area P := fun x => div_nonneg_iff.trans mul_nonneg_iff.symm
  rw [← hdiv, ← hdiv, ← hdiv, ← ha, ← hb, ← hc]
  refine ⟨fun hcov => ⟨hcov _, hcov _, hcov _⟩, fun ⟨h1, h2, h3⟩ i => ?_⟩
  by_cases hia : i = t.a
  · exact hia ▸ h1
  by_cases hib : i = t.b
  · exact hib ▸ h2
  by_cases hic : i = t.c
  · exact hic ▸ h3
  simp [Tri.coord, hia, hib, hic]

/-- A vertex with a positive coordinate exists. -/
theorem Tri.exists_coord_ne_zero (z : ℚ × ℚ) : ∃ i ∈ t.indices, t.coord P z i ≠ 0 := by
  by_contra hnone
  push Not at hnone
  have hsum := Tri.sum_coord h z
  rw [hnone t.a (by simp [Tri.indices]), hnone t.b (by simp [Tri.indices]), hnone t.c (by simp [Tri.indices])] at hsum
  norm_num at hsum

end

theorem Tri.mem_indices {t : Tri} {i : ℕ} : i ∈ t.indices ↔ i = t.a ∨ i = t.b ∨ i = t.c := by simp [Tri.indices]

theorem Tri.forall_mem_indices {t : Tri} {p : ℕ → Prop} : (∀ i ∈ t.indices, p i) ↔ p t.a ∧ p t.b ∧ p t.c := by
  simp [Tri.indices]

theorem Tri.coord_of_notMem {P : ℕ → ℚ × ℚ} {t : Tri} {z : ℚ × ℚ} {i : ℕ} (h : i ∉ t.indices) : t.coord P z i = 0 := by
  rw [Tri.mem_indices] at h
  push Not at h
  simp [Tri.coord, h]

theorem Tri.mem_indices_of_coord {P : ℕ → ℚ × ℚ} {t : Tri} {z : ℚ × ℚ} {i : ℕ} (h : t.coord P z i ≠ 0) :
    i ∈ t.indices := by
  by_contra hi
  exact h (Tri.coord_of_notMem hi)

/-- The coordinates are the only weights on the vertices with which every affine form at the point is the combination of its
values at the vertices. -/
theorem Tri.coord_unique {P : ℕ → ℚ × ℚ} {t : Tri} (h : t.area P ≠ 0) {w : ℕ → ℚ} {z : ℚ × ℚ}
    (hw : ∀ f : AffineForm, f.eval z = w t.a * f.eval (P t.a) + w t.b * f.eval (P t.b) + w t.c * f.eval (P t.c))
    (h0 : ∀ i ∉ t.indices, w i = 0) : w = t.coord P z := by
  obtain ⟨ha, hb, hc⟩ := Tri.coord_vertices h z
  have ea : cross (P t.b) (P t.c) z = w t.a * cross (P t.b) (P t.c) (P t.a) := by
    simpa using hw (lineForm 1 (P t.b) (P t.c))
  have eb : cross (P t.c) (P t.a) z = w t.b * cross (P t.c) (P t.a) (P t.b) := by
    simpa using hw (lineForm 1 (P t.c) (P t.a))
  have ec : cross (P t.a) (P t.b) z = w t.c * cross (P t.a) (P t.b) (P t.c) := by
    simpa using hw (lineForm 1 (P t.a) (P t.b))
  rw [cross_rotate z, cross_rotate (P t.a)] at ea
  rw [← cross_rotate (P t.c), ← cross_rotate (P t.c)] at eb
  funext i
  by_cases hi : i ∈ t.indices
  · rcases Tri.mem_indices.1 hi with rfl | rfl | rfl
    · rw [ha, eq_div_iff h, Tri.area, ea]
    · rw [hb, eq_div_iff h, Tri.area, eb]
    · rw [hc, eq_div_iff h, Tri.area, ec]
  · rw [h0 i hi, Tri.coord_of_notMem hi]

/-! ## Listing the vertices in another order -/

section
variable (P : ℕ → ℚ × ℚ) (a b c : ℕ)

theorem Tri.area_rotate : (Tri.mk b c a).area P = (Tri.mk a b c).area P := cross_rotate ..

theorem Tri.area_swap : (Tri.mk a c b).area P = -(Tri.mk a b c).area P := cross_swap ..

variable {P a b c}

/-- The coordinates do not depend on the order in which the vertices are listed. -/
theorem Tri.coord_rotate (h : (Tri.mk a b c).area P ≠ 0) (z : ℚ × ℚ) :
    (Tri.mk b c a).coord P z = (Tri.mk a b c).coord P z := by
  refine (Tri.coord_unique (by rwa [Tri.area_rotate]) (fun f => ?_) fun i hi => Tri.coord_of_notMem ?_).symm
  · rw [Tri.eval_eq h f z]
    ring
  · simp only [Tri.mem_indices] at *
    tauto

theorem Tri.coord_swap (h : (Tri.mk a b c).area P ≠ 0) (z : ℚ × ℚ) :
    (Tri.mk a c b).coord P z = (Tri.mk a b c).coord P z := by
  refine (Tri.coord_unique (by rwa [Tri.area_swap, neg_ne_zero]) (fun f => ?_) fun i hi => Tri.coord_of_notMem ?_).symm
  · rw [Tri.eval_eq h f z]
    ring
  · simp only [Tri.mem_indices] at *
    tauto

end

/-- A property of triangles that does not depend on the order of the vertices holds of one whose indices rise. -/
theorem exists_sorted {p : Tri → Prop} (hrot : ∀ a b c, p ⟨a, b, c⟩ → p ⟨b, c, a⟩)
    (hswap : ∀ a b c, p ⟨a, b, c⟩ → p ⟨a, c, b⟩) {t : Tri} (hp : p t) (hab : t.a ≠ t.b) (hac : t.a ≠ t.c)
    (hbc : t.b ≠ t.c) : ∃ u : Tri, p u ∧ u.a < u.b ∧ u.b < u.c := by
  have hfirst : ∀ a b c : ℕ, p ⟨a, b, c⟩ → a < b → a < c → b ≠ c → ∃ u : Tri, p u ∧ u.a < u.b ∧ u.b < u.c :=
    fun a b c habc h1 h2 h3 => by
      rcases lt_or_gt_of_ne h3 with h | h
      · exact ⟨_, habc, h1, h⟩
      · exact ⟨_, hswap _ _ _ habc, h2, h⟩
  obtain ⟨a, b, c⟩ := t
  dsimp only at hab hac hbc
  by_cases h1 : a < b ∧ a < c
  · exact hfirst a b c hp h1.1 h1.2 hbc
  by_cases h2 : b < c ∧ b < a
  · exact hfirst b c a (hrot _ _ _ hp) h2.1 h2.2 hac.symm
  · exact hfirst c a b (hrot _ _ _ (hrot _ _ _ hp)) (by omega) (by omega) hab

end Machine

end Sys2Proof

/-! PROOFS. The lower hull of lifted points: for a point in general position a triangle whose plane has every lifted point on
it or above it, found by exchanging vertices; and the move of a point into general position. -/

namespace Sys2Proof

namespace Machine

section
variable {P : ℕ → ℚ × ℚ} {S : Finset ℕ} {h : ℕ → ℚ} {z : ℚ × ℚ}

/-! ## Candidates -/

/-- A triangle on points of `S` that has the point. -/
structure IsCandidate (P : ℕ → ℚ × ℚ) (S : Finset ℕ) (z : ℚ × ℚ) (t : Tri) : Prop where
  mem : ∀ i ∈ t.indices, i ∈ S
  area : t.area P ≠ 0
  covers : t.covers P z

/-- The point is on no line through two of the points. -/
def InGeneralPosition (P : ℕ → ℚ × ℚ) (S : Finset ℕ) (z : ℚ × ℚ) : Prop :=
  ∀ i ∈ S, ∀ j ∈ S, i ≠ j → cross (P i) (P j) z ≠ 0

/-- The height over a point of the plane through a lifted triangle. -/
def liftedHeight (P : ℕ → ℚ × ℚ) (h : ℕ → ℚ) (z : ℚ × ℚ) (t : Tri) : ℚ :=
  t.coord P z t.a * h t.a + t.coord P z t.b * h t.b + t.coord P z t.c * h t.c

theorem eval_eq_liftedHeight {t : Tri} (harea : t.area P ≠ 0) {f : AffineForm}
    (hf : ∀ i ∈ t.indices, f.eval (P i) = h i) : f.eval z = liftedHeight P h z t := by
  obtain ⟨ha, hb, hc⟩ := Tri.forall_mem_indices.1 hf
  rw [Tri.eval_eq harea, ha, hb, hc, liftedHeight]

theorem IsCandidate.rotate {a b c : ℕ} (ht : IsCandidate P S z ⟨a, b, c⟩) : IsCandidate P S z ⟨b, c, a⟩ where
  mem := by
    obtain ⟨ha, hb, hc⟩ := Tri.forall_mem_indices.1 ht.mem
    exact Tri.forall_mem_indices.2 ⟨hb, hc, ha⟩
  area := by
    rw [Tri.area_rotate]
    exact ht.area
  covers := by
    rw [Tri.covers, Tri.coord_rotate ht.area]
    exact ht.covers

theorem IsCandidate.swap {a b c : ℕ} (ht : IsCandidate P S z ⟨a, b, c⟩) : IsCandidate P S z ⟨a, c, b⟩ where
  mem := by
    obtain ⟨ha, hb, hc⟩ := Tri.forall_mem_indices.1 ht.mem
    exact Tri.forall_mem_indices.2 ⟨ha, hc, hb⟩
  area := by
    rw [Tri.area_swap, neg_ne_zero]
    exact ht.area
  covers := by
    rw [Tri.covers, Tri.coord_swap ht.area]
    exact ht.covers

/-- In general position every coordinate in a triangle is positive. -/
theorem IsCandidate.coord_pos {t : Tri} (ht : IsCandidate P S z t) (hz : InGeneralPosition P S z) {i : ℕ}
    (hi : i ∈ t.indices) : 0 < t.coord P z i := by
  refine (ht.covers i).lt_of_ne' fun h0 => ?_
  obtain ⟨ha, hb, hc⟩ := Tri.forall_mem_indices.1 ht.mem
  obtain ⟨hab, hac, hbc⟩ := Tri.ne_of_area ht.area
  obtain ⟨ea, eb, ec⟩ := Tri.coord_vertices ht.area z
  rcases Tri.mem_indices.1 hi with rfl | rfl | rfl
  · rw [ea, div_eq_zero_iff, ← cross_rotate] at h0
    exact hz _ hb _ hc hbc (h0.resolve_right ht.area)
  · rw [eb, div_eq_zero_iff, cross_swap, neg_eq_zero] at h0
    exact hz _ ha _ hc hac (h0.resolve_right ht.area)
  · rw [ec, div_eq_zero_iff] at h0
    exact hz _ ha _ hb hab (h0.resolve_right ht.area)

/-! ## The exchange of a vertex -/

/-- The coordinates of `z` in the triangle with `e` in the place of the first vertex. -/
def exchangeCoord (P : ℕ → ℚ × ℚ) (z : ℚ × ℚ) (a b c e i : ℕ) : ℚ :=
  if i = e then (Tri.mk a b c).coord P z a / (Tri.mk a b c).coord P (P e) a
  else if i = b ∨ i = c then (Tri.mk a b c).coord P z i -
    (Tri.mk a b c).coord P (P e) i * ((Tri.mk a b c).coord P z a / (Tri.mk a b c).coord P (P e) a)
  else 0

theorem coord_exchange {a b c e : ℕ} (ht : (Tri.mk a b c).area P ≠ 0) (harea : (Tri.mk e b c).area P ≠ 0)
    (hpos : 0 < (Tri.mk a b c).coord P (P e) a) : (Tri.mk e b c).coord P z = exchangeCoord P z a b c e := by
  obtain ⟨heb, hec, -⟩ := Tri.ne_of_area harea
  refine (Tri.coord_unique harea (fun f => ?_) fun i hi => ?_).symm
  · have hz := Tri.eval_eq ht f z
    have hPe := Tri.eval_eq ht f (P e)
    have hr := div_mul_cancel₀ ((Tri.mk a b c).coord P z a) hpos.ne'
    simp only [exchangeCoord, if_neg heb.symm, if_neg hec.symm, if_true, true_or, or_true]
    dsimp only at hz hPe
    linear_combination hz - (Tri.mk a b c).coord P z a / (Tri.mk a b c).coord P (P e) a * hPe - f.eval (P a) * hr
  · simp only [Tri.mem_indices, not_or] at hi
    simp [exchangeCoord, hi]

/-- A further point `e` takes the place of the first vertex, if its coordinate there is positive and the greatest relative to
the coordinates of `z`. -/
theorem IsCandidate.exchange_first {a b c e : ℕ} (ht : IsCandidate P S z ⟨a, b, c⟩) (he : e ∈ S)
    (hpos : 0 < (Tri.mk a b c).coord P (P e) a)
    (hmax : ∀ i ∈ [a, b, c], (Tri.mk a b c).coord P (P e) i * (Tri.mk a b c).coord P z a ≤
      (Tri.mk a b c).coord P (P e) a * (Tri.mk a b c).coord P z i) :
    IsCandidate P S z ⟨e, b, c⟩ := by
  obtain ⟨-, hb, hc⟩ := Tri.forall_mem_indices.1 ht.mem
  obtain ⟨ea, -, -⟩ := Tri.coord_vertices ht.area (P e)
  have harea : (Tri.mk e b c).area P ≠ 0 := fun h0 => by
    rw [ea, show cross (P e) (P b) (P c) = 0 from h0, zero_div] at hpos
    exact lt_irrefl _ hpos
  refine ⟨Tri.forall_mem_indices.2 ⟨he, hb, hc⟩, harea, fun i => ?_⟩
  rw [coord_exchange ht.area harea hpos, exchangeCoord]
  split_ifs with hie hibc
  · exact div_nonneg (ht.covers a) hpos.le
  · rw [sub_nonneg, mul_div_assoc', div_le_iff₀ hpos]
    linarith [hmax i (by simp [hibc])]
  · exact le_rfl

/-- A property of triangles that does not depend on the vertex they are listed from holds of one listed from a given vertex. -/
theorem exists_rotation {p : Tri → Prop} (hrot : ∀ a b c, p ⟨a, b, c⟩ → p ⟨b, c, a⟩) {t : Tri} (hp : p t) {i : ℕ}
    (hi : i ∈ t.indices) : ∃ b c, p ⟨i, b, c⟩ := by
  rcases Tri.mem_indices.1 hi with rfl | rfl | rfl
  · exact ⟨_, _, hp⟩
  · exact ⟨_, _, hrot _ _ _ hp⟩
  · exact ⟨_, _, hrot _ _ _ (hrot _ _ _ hp)⟩

/-- Any further point is a vertex of a triangle that has `z`, on it and two vertices of a given one. -/
theorem IsCandidate.exists_exchange {t : Tri} (ht : IsCandidate P S z t) (hz : InGeneralPosition P S z) {e : ℕ}
    (he : e ∈ S) : ∃ b ∈ t.indices, ∃ c ∈ t.indices, IsCandidate P S z ⟨e, b, c⟩ := by
  obtain ⟨i, hi, hmax⟩ := Finset.exists_max_image t.indices.toFinset (fun i => t.coord P (P e) i / t.coord P z i)
    ⟨t.a, by simp [Tri.indices]⟩
  simp only [List.mem_toFinset] at hi hmax
  have hratio : ∀ j ∈ t.indices, t.coord P (P e) j * t.coord P z i ≤ t.coord P (P e) i * t.coord P z j := fun j hj =>
    (div_le_div_iff₀ (ht.coord_pos hz hj) (ht.coord_pos hz hi)).1 (hmax j hj)
  have hpos : 0 < t.coord P (P e) i := by
    by_contra hneg
    have hnone : ∀ j ∈ t.indices, t.coord P (P e) j ≤ 0 := fun j hj => by
      by_contra hj0
      have := mul_pos (not_le.1 hj0) (ht.coord_pos hz hi)
      have := mul_nonneg (neg_nonneg.2 (not_lt.1 hneg)) (ht.coord_pos hz hj).le
      linarith [hratio j hj]
    obtain ⟨ha, hb, hc⟩ := Tri.forall_mem_indices.1 hnone
    linarith [Tri.sum_coord ht.area (P e)]
  obtain ⟨b, c, hcand, hsub, hcoord⟩ := exists_rotation (p := fun u => IsCandidate P S z u ∧ u.indices ⊆ t.indices ∧
      ∀ w, u.coord P w = t.coord P w) (fun a b c ⟨hcand, hsub, hcoord⟩ => ⟨hcand.rotate, fun i hi => hsub (by
        simp only [Tri.mem_indices] at hi ⊢
        tauto), fun w => by rw [Tri.coord_rotate hcand.area, hcoord]⟩) ⟨ht, List.Subset.refl _, fun _ => rfl⟩ hi
  obtain ⟨-, hb, hc⟩ := Tri.forall_mem_indices.1 hsub
  refine ⟨b, hb, c, hc, hcand.exchange_first he (by rwa [hcoord]) fun j hj => ?_⟩
  rw [hcoord, hcoord]
  exact hratio j (hsub hj)

/-! ## Facets of the lower hull -/

/-- The lifted triangle is a facet of the lower hull of the points `P i`, `i` in `S`, lifted to the heights `h i`: the plane
`f` through it has every lifted point on it or above it. -/
structure LowerFacet (P : ℕ → ℚ × ℚ) (S : Finset ℕ) (h : ℕ → ℚ) (f : AffineForm) (t : Tri) : Prop where
  mem : ∀ i ∈ t.indices, i ∈ S
  area : t.area P ≠ 0
  tight : ∀ i ∈ t.indices, f.eval (P i) = h i
  below : ∀ i ∈ S, f.eval (P i) ≤ h i

/-- The candidate that is lowest over the point is a facet: exchanging a vertex for a point below its plane would give a lower
one. -/
theorem exists_lowerFacet (h : ℕ → ℚ) (hz : InGeneralPosition P S z) (hex : ∃ t, IsCandidate P S z t) :
    ∃ t f, IsCandidate P S z t ∧ LowerFacet P S h f t := by
  have hfinite : {t | IsCandidate P S z t}.Finite := by
    refine ((S ×ˢ S ×ˢ S).image fun x => Tri.mk x.1 x.2.1 x.2.2).finite_toSet.subset fun t ht => ?_
    obtain ⟨ha, hb, hc⟩ := Tri.forall_mem_indices.1 ht.mem
    simp only [Finset.coe_image, Set.mem_image, Finset.mem_coe, Finset.mem_product]
    exact ⟨(t.a, t.b, t.c), ⟨ha, hb, hc⟩, rfl⟩
  obtain ⟨t, ht, hmin⟩ := Set.exists_min_image _ (liftedHeight P h z) hfinite hex
  obtain ⟨f, hfa, hfb, hfc⟩ := exists_affineForm ht.area (h t.a) (h t.b) (h t.c)
  have htight := Tri.forall_mem_indices (p := fun i => f.eval (P i) = h i).2 ⟨hfa, hfb, hfc⟩
  refine ⟨t, f, ht, ht.mem, ht.area, htight, fun e he => not_lt.1 fun hlt => ?_⟩
  obtain ⟨b, hb, c, hc, hu⟩ := ht.exists_exchange hz he
  have hle : f.eval z ≤ liftedHeight P h z ⟨e, b, c⟩ := (eval_eq_liftedHeight ht.area htight).trans_le (hmin _ hu)
  have hlower := mul_lt_mul_of_pos_left hlt (hu.coord_pos hz (i := e) (by simp [Tri.indices]))
  rw [Tri.eval_eq hu.area] at hle
  simp only [liftedHeight, htight b hb, htight c hc] at hle
  linarith

end

end Machine

end Sys2Proof

/-! PROOFS. A point of a triangle is the limit of points of it in general position, so a finite list of closed triangles that
has all of these has the point too. -/

namespace Sys2Proof

namespace Machine

open Filter Topology

/-- The point that lies `s` of the way from `z` to `g`. -/
def lerp (z g : ℚ × ℚ) (s : ℚ) : ℚ × ℚ := ((1 - s) * z.1 + s * g.1, (1 - s) * z.2 + s * g.2)

@[simp] theorem AffineForm.eval_lerp (f : AffineForm) (z g : ℚ × ℚ) (s : ℚ) :
    f.eval (lerp z g s) = (1 - s) * f.eval z + s * f.eval g := by
  simp only [AffineForm.eval, lerp]
  ring

/-- Close to a point where an affine form is negative it is negative. -/
theorem AffineForm.eventually_neg {f : AffineForm} {z : ℚ × ℚ} (h : f.eval z < 0) (g : ℚ × ℚ) :
    ∀ᶠ s in 𝓝[>] (0 : ℚ), f.eval (lerp z g s) < 0 := by
  have hcont : Continuous fun s : ℚ => f.eval (lerp z g s) := by
    simp only [AffineForm.eval_lerp]
    fun_prop
  exact nhdsWithin_le_nhds ((hcont.tendsto 0).eventually_lt_const (by simpa using h))

/-- On a segment that is not inside a line, the points close to one end are not on the line. -/
theorem AffineForm.eventually_ne_zero {f : AffineForm} {z g : ℚ × ℚ} (h : f.eval z ≠ 0 ∨ f.eval g ≠ 0) :
    ∀ᶠ s in 𝓝[>] (0 : ℚ), f.eval (lerp z g s) ≠ 0 := by
  by_cases hz : f.eval z = 0
  · filter_upwards [self_mem_nhdsWithin] with s hs
    rw [AffineForm.eval_lerp, hz, mul_zero, zero_add]
    exact mul_ne_zero (ne_of_gt hs) (h.resolve_left (not_not.2 hz))
  · have hcont : Continuous fun s : ℚ => f.eval (lerp z g s) := by
      simp only [AffineForm.eval_lerp]
      fun_prop
    exact nhdsWithin_le_nhds ((hcont.tendsto 0).eventually_ne (by simpa using hz))

theorem eventually_lt_one : ∀ᶠ s in 𝓝[>] (0 : ℚ), s < 1 := nhdsWithin_le_nhds (eventually_lt_nhds zero_lt_one)

/-- Each barycentric coordinate is an affine form. -/
theorem Tri.exists_coordForm (P : ℕ → ℚ × ℚ) (t : Tri) (i : ℕ) : ∃ f : AffineForm, ∀ z, t.coord P z i = f.eval z := by
  unfold Tri.coord
  split_ifs
  · refine ⟨lineForm (t.area P)⁻¹ (P t.b) (P t.c), fun z => ?_⟩
    rw [eval_lineForm, cross_rotate z, div_eq_inv_mul]
  · refine ⟨lineForm (t.area P)⁻¹ (P t.c) (P t.a), fun z => ?_⟩
    rw [eval_lineForm, ← cross_rotate (P t.c), div_eq_inv_mul]
  · refine ⟨lineForm (t.area P)⁻¹ (P t.a) (P t.b), fun z => ?_⟩
    rw [eval_lineForm, div_eq_inv_mul]
  · exact ⟨⟨0, 0, 0⟩, fun z => by simp [AffineForm.eval]⟩

section
variable {P : ℕ → ℚ × ℚ} {S : Finset ℕ} {t : Tri}

/-- A closed triangle is convex. -/
theorem Tri.covers_lerp {z g : ℚ × ℚ} (hz : t.covers P z) (hg : t.covers P g) {s : ℚ} (h0 : 0 < s) (h1 : s < 1) :
    t.covers P (lerp z g s) := fun i => by
  obtain ⟨f, hf⟩ := t.exists_coordForm P i
  have hzi := hz i
  have hgi := hg i
  rw [hf] at hzi hgi ⊢
  rw [AffineForm.eval_lerp]
  exact add_nonneg (mul_nonneg (sub_nonneg.2 h1.le) hzi) (mul_nonneg h0.le hgi)

/-- The vertices are in their triangle. -/
theorem Tri.covers_vertex (h : t.area P ≠ 0) {i : ℕ} (hi : i ∈ t.indices) : t.covers P (P i) := by
  have hD := mul_self_nonneg (t.area P)
  rw [Tri.covers_iff h]
  unfold Tri.area at *
  rcases Tri.mem_indices.1 hi with rfl | rfl | rfl <;> simpa using hD

/-- Of the points of a segment close to one end, those on no line between two of the points and inside a triangle that has both
ends. -/
theorem eventually_segment {z g : ℚ × ℚ} (hz : t.covers P z) (hg : t.covers P g) :
    ∀ᶠ s in 𝓝[>] (0 : ℚ), t.covers P (lerp z g s) ∧ ∀ i ∈ S, ∀ j ∈ S,
      (cross (P i) (P j) z ≠ 0 ∨ cross (P i) (P j) g ≠ 0) → cross (P i) (P j) (lerp z g s) ≠ 0 := by
  have hlines : ∀ᶠ s in 𝓝[>] (0 : ℚ), ∀ i ∈ S, ∀ j ∈ S,
      (cross (P i) (P j) z ≠ 0 ∨ cross (P i) (P j) g ≠ 0) → cross (P i) (P j) (lerp z g s) ≠ 0 := by
    refine (eventually_all_finset S).2 fun i _ => (eventually_all_finset S).2 fun j _ => eventually_imp_distrib_left.2 fun h => ?_
    simpa only [eval_lineForm, one_mul] using
      AffineForm.eventually_ne_zero (f := lineForm 1 (P i) (P j)) (by simpa only [eval_lineForm, one_mul] using h)
  filter_upwards [hlines, eventually_lt_one, self_mem_nhdsWithin] with s hs h1 h0
  exact ⟨Tri.covers_lerp hz hg h0 h1, hs⟩

/-- A triangle has a point in general position. -/
theorem Tri.exists_inGeneralPosition (hinj : Set.InjOn P S) (h : t.area P ≠ 0) :
    ∃ g, t.covers P g ∧ InGeneralPosition P S g := by
  have hvertex : ∀ i ∈ t.indices, t.covers P (P i) := fun i => Tri.covers_vertex h
  obtain ⟨ha, hb, hc⟩ := Tri.forall_mem_indices.1 hvertex
  obtain ⟨s, hcov, hs⟩ := (eventually_segment (S := S) hb hc).exists
  obtain ⟨r, hcov', hr⟩ := (eventually_segment (S := S) ha hcov).exists
  refine ⟨_, hcov', fun i hi j hj hij => hr i hi j hj ?_⟩
  by_contra hnone
  rw [not_or, not_not, not_not] at hnone
  obtain ⟨hza, hzs⟩ := hnone
  have hbc : ¬ (cross (P i) (P j) (P t.b) ≠ 0 ∨ cross (P i) (P j) (P t.c) ≠ 0) := fun h => hs i hi j hj h hzs
  rw [not_or, not_not, not_not] at hbc
  obtain ⟨z, hz⟩ := exists_cross_ne_zero fun e => hij (hinj hi hj e)
  have hline := AffineForm.eval_eq_zero (f := lineForm 1 (P i) (P j)) h (by simpa using hza) (by simpa using hbc.1)
    (by simpa using hbc.2) z
  exact hz (by simpa using hline)

/-- Triangles that have every point of a triangle in general position have every point of it. -/
theorem exists_covers_of_general {ts : List Tri} (hinj : Set.InjOn P S) (harea : t.area P ≠ 0)
    (hts : ∀ g, t.covers P g → InGeneralPosition P S g → ∃ u ∈ ts, u.covers P g) {z : ℚ × ℚ} (hz : t.covers P z) :
    ∃ u ∈ ts, u.covers P z := by
  by_contra hnone
  obtain ⟨g, hg, hgen⟩ := Tri.exists_inGeneralPosition hinj harea
  have hout : ∀ᶠ s in 𝓝[>] (0 : ℚ), ∀ u ∈ ts, ¬ u.covers P (lerp z g s) := by
    refine (eventually_all_finite (List.finite_toSet ts)).2 fun u hu => ?_
    obtain ⟨i, hi⟩ := not_forall.1 fun hcov => hnone ⟨u, hu, hcov⟩
    obtain ⟨f, hf⟩ := u.exists_coordForm P i
    rw [hf, not_le] at hi
    filter_upwards [AffineForm.eventually_neg hi g] with s hs hcov
    have := hcov i
    rw [hf] at this
    linarith
  obtain ⟨s, ⟨hcov, hs⟩, hout⟩ := ((eventually_segment (S := S) hz hg).and hout).exists
  obtain ⟨u, hu, hucov⟩ := hts _ hcov fun i hi j hj hij => hs i hi j hj (.inr (hgen i hi j hj hij))
  exact hout u hu hucov

end

end Machine

end Sys2Proof

/-! PROOFS. Triangles whose circle is empty: they are the facets of the points lifted to the paraboloid. Two of them that a line
separates have a common point at a common vertex or on a common edge alone (43_estimator.md R79, R80). -/

namespace Sys2Proof

namespace Machine

section
variable {P : ℕ → ℚ × ℚ} {S : Finset ℕ} {h : ℕ → ℚ} {f g : AffineForm} {t u : Tri} {z : ℚ × ℚ}

/-! ## Separated triangles -/

/-- A line has the vertices of the one triangle on it or on its one side, those of the other on it or on its other side. -/
def Separated (P : ℕ → ℚ × ℚ) (t u : Tri) : Prop :=
  ∃ L : AffineForm, (∃ z, L.eval z ≠ 0) ∧ (∀ i ∈ t.indices, 0 ≤ L.eval (P i)) ∧ ∀ i ∈ u.indices, L.eval (P i) ≤ 0

theorem Separated.symm (hsep : Separated P t u) : Separated P u t := by
  obtain ⟨L, ⟨z, hz⟩, ht, hu⟩ := hsep
  refine ⟨L.neg, ⟨z, by rwa [AffineForm.eval_neg, neg_ne_zero]⟩, fun i hi => ?_, fun i hi => ?_⟩ <;>
    rw [AffineForm.eval_neg]
  · exact neg_nonneg.2 (hu i hi)
  · exact neg_nonpos.2 (ht i hi)

/-- Two facets of one lower hull are separated, unless they are in one plane. -/
theorem LowerFacet.separated_or_eq (hf : LowerFacet P S h f t) (hg : LowerFacet P S h g u) :
    Separated P t u ∨ ∀ z, f.eval z = g.eval z := by
  by_cases heq : ∀ z, f.eval z = g.eval z
  · exact .inr heq
  · obtain ⟨z, hz⟩ := not_forall.1 heq
    refine .inl ⟨f.sub g, ⟨z, by rwa [AffineForm.eval_sub, sub_ne_zero]⟩, fun i hi => ?_, fun i hi => ?_⟩ <;>
      rw [AffineForm.eval_sub]
    · rw [hf.tight i hi, sub_nonneg]
      exact hg.below i (hf.mem i hi)
    · rw [hg.tight i hi, sub_nonpos]
      exact hf.below i (hg.mem i hi)

/-- If an affine form is at most 0 at the vertices and at least 0 at a point of the triangle, it is 0 there and at each vertex
whose coordinate is not 0. -/
theorem Tri.eval_eq_zero_of_nonneg (ht : t.area P ≠ 0) (hz : t.covers P z) (hvert : ∀ i ∈ t.indices, f.eval (P i) ≤ 0)
    (h0 : 0 ≤ f.eval z) : ∀ i, t.coord P z i ≠ 0 → f.eval (P i) = 0 := by
  intro i hi
  have hmul : ∀ i ∈ t.indices, t.coord P z i * f.eval (P i) ≤ 0 := fun i hi =>
    mul_nonpos_of_nonneg_of_nonpos (hz i) (hvert i hi)
  obtain ⟨ha, hb, hc⟩ := Tri.forall_mem_indices.1 hmul
  rw [Tri.eval_eq ht] at h0
  have hzero : ∀ i ∈ t.indices, t.coord P z i * f.eval (P i) = 0 :=
    Tri.forall_mem_indices.2 ⟨by linarith, by linarith, by linarith⟩
  exact (mul_eq_zero.1 (hzero i (Tri.mem_indices_of_coord hi))).resolve_left hi

/-- An affine form that is at least 0 at the vertices is at least 0 in the triangle. -/
theorem Tri.eval_nonneg (ht : t.area P ≠ 0) (hz : t.covers P z) (hvert : ∀ i ∈ t.indices, 0 ≤ f.eval (P i)) :
    0 ≤ f.eval z := by
  obtain ⟨ha, hb, hc⟩ := Tri.forall_mem_indices.1 hvert
  rw [Tri.eval_eq ht]
  exact add_nonneg (add_nonneg (mul_nonneg (hz _) ha) (mul_nonneg (hz _) hb)) (mul_nonneg (hz _) hc)

/-! ## Common points -/

/-- At a common point of two facets, the vertices of the one with a coordinate other than 0 are in the plane of the other. -/
theorem LowerFacet.tight_of_common (hf : LowerFacet P S h f t) (hg : LowerFacet P S h g u) (ht : t.covers P z)
    (hu : u.covers P z) : ∀ i, t.coord P z i ≠ 0 → g.eval (P i) = h i := by
  have hfg : 0 ≤ (g.sub f).eval z := Tri.eval_nonneg hg.area hu fun i hi => by
    rw [AffineForm.eval_sub, hg.tight i hi, sub_nonneg]
    exact hf.below i (hg.mem i hi)
  intro i hi
  have hzero := Tri.eval_eq_zero_of_nonneg hf.area ht (fun j hj => by
    rw [AffineForm.eval_sub, hf.tight j hj, sub_nonpos]
    exact hg.below j (hf.mem j hj)) hfg i hi
  rw [AffineForm.eval_sub, hf.tight i (Tri.mem_indices_of_coord hi)] at hzero
  exact sub_eq_zero.1 hzero

/-- At a common point of two separated triangles, the vertices with a coordinate other than 0 are on the line. -/
theorem exists_common_line (hft : t.area P ≠ 0) (hgu : u.area P ≠ 0) (hsep : Separated P t u) (ht : t.covers P z)
    (hu : u.covers P z) : ∃ L : AffineForm, (∃ w, L.eval w ≠ 0) ∧
      ∀ i, t.coord P z i ≠ 0 ∨ u.coord P z i ≠ 0 → L.eval (P i) = 0 := by
  obtain ⟨L, hL, hLt, hLu⟩ := hsep
  have hnonneg := Tri.eval_nonneg hft ht hLt
  have hnonpos := Tri.eval_nonneg (f := L.neg) hgu hu fun i hi => by
    rw [AffineForm.eval_neg]
    exact neg_nonneg.2 (hLu i hi)
  refine ⟨L, hL, fun i hi => hi.elim (fun hi => ?_) fun hi => Tri.eval_eq_zero_of_nonneg hgu hu hLu hnonneg i hi⟩
  have hzero := Tri.eval_eq_zero_of_nonneg (f := L.neg) hft ht (fun j hj => by
    rw [AffineForm.eval_neg]
    exact neg_nonpos.2 (hLt j hj)) hnonpos i hi
  rwa [AffineForm.eval_neg, neg_eq_zero] at hzero

end

/-! ## The paraboloid -/

section
variable {P : ℕ → ℚ × ℚ} {S : Finset ℕ} {f g : AffineForm} {t u : Tri} {z : ℚ × ℚ}

/-- A point all of whose coordinates but one are 0 is that vertex. -/
theorem Tri.eq_vertex (ht : t.area P ≠ 0) {i : ℕ} (hi : ∀ j, t.coord P z j ≠ 0 → j = i) : z = P i := by
  have heval : ∀ f : AffineForm, f.eval z = f.eval (P i) := fun f => by
    have hterm : ∀ j, t.coord P z j * f.eval (P j) = t.coord P z j * f.eval (P i) := fun j => by
      by_cases h0 : t.coord P z j = 0
      · simp [h0]
      · rw [hi j h0]
    rw [Tri.eval_eq ht f z, hterm, hterm, hterm, ← add_mul, ← add_mul, Tri.sum_coord ht, one_mul]
  have h1 := heval ⟨1, 0, 0⟩
  have h2 := heval ⟨0, 1, 0⟩
  simp only [AffineForm.eval, one_mul, zero_mul, add_zero, zero_add] at h1 h2
  exact Prod.ext h1 h2

/-- The plane that touches the paraboloid over a point. -/
def tangentForm (z : ℚ × ℚ) : AffineForm := ⟨2 * z.1, 2 * z.2, -normSq z⟩

theorem normSq_sub_eval_tangentForm (z w : ℚ × ℚ) : normSq w - (tangentForm z).eval w = (w.1 - z.1) ^ 2 + (w.2 - z.2) ^ 2 := by
  simp only [normSq, tangentForm, AffineForm.eval]
  ring

/-- A facet of the points on the paraboloid has no point but its vertices: under the touching plane over such a point there is
no vertex, and the facet is not above it there. -/
theorem LowerFacet.eq_of_coord_ne_zero (hinj : Set.InjOn P S) (hf : LowerFacet P S (fun i => normSq (P i)) f t) {e : ℕ}
    (he : e ∈ S) (hcov : t.covers P (P e)) : ∀ i, t.coord P (P e) i ≠ 0 → i = e := by
  intro i hi
  have hmem := Tri.mem_indices_of_coord hi
  have hzero := Tri.eval_eq_zero_of_nonneg (f := (tangentForm (P e)).sub f) hf.area hcov (fun j hj => ?_) ?_ i hi
  · rw [AffineForm.eval_sub, hf.tight i hmem] at hzero
    have hdist := normSq_sub_eval_tangentForm (P e) (P i)
    have h1 := sq_nonneg ((P i).1 - (P e).1)
    have h2 := sq_nonneg ((P i).2 - (P e).2)
    refine hinj (hf.mem i hmem) he (Prod.ext ?_ ?_)
    · exact sub_eq_zero.1 (pow_eq_zero_iff two_ne_zero |>.1 (by linarith))
    · exact sub_eq_zero.1 (pow_eq_zero_iff two_ne_zero |>.1 (by linarith))
  · have hdist := normSq_sub_eval_tangentForm (P e) (P j)
    rw [AffineForm.eval_sub, hf.tight j hj]
    nlinarith [sq_nonneg ((P j).1 - (P e).1), sq_nonneg ((P j).2 - (P e).2)]
  · have hdist := normSq_sub_eval_tangentForm (P e) (P e)
    have hbelow := hf.below e he
    rw [AffineForm.eval_sub]
    simp only [sub_self] at hdist
    linarith

theorem LowerFacet.mem_indices_of_covers (hinj : Set.InjOn P S) (hf : LowerFacet P S (fun i => normSq (P i)) f t) {e : ℕ}
    (he : e ∈ S) (hcov : t.covers P (P e)) : e ∈ t.indices := by
  obtain ⟨i, hi, h0⟩ := Tri.exists_coord_ne_zero hf.area (P e)
  exact hf.eq_of_coord_ne_zero hinj he hcov i h0 ▸ hi

/-- At a common point of two separated facets of the paraboloid, the vertices of the one with a coordinate other than 0 are such
of the other: they are on the separating line and on the circle of the other, which meet in two points at most. -/
theorem coord_ne_zero_of_separated (hinj : Set.InjOn P S) (hf : LowerFacet P S (fun i => normSq (P i)) f t)
    (hg : LowerFacet P S (fun i => normSq (P i)) g u) (hsep : Separated P t u) (ht : t.covers P z) (hu : u.covers P z) {i : ℕ}
    (hi : t.coord P z i ≠ 0) : u.coord P z i ≠ 0 := by
  intro h0
  obtain ⟨L, ⟨w, hw⟩, hL⟩ := exists_common_line hf.area hg.area hsep ht hu
  obtain ⟨k, hk, hk0⟩ := Tri.exists_coord_ne_zero hg.area z
  have hmem : ∀ {j}, u.coord P z j ≠ 0 → j ∈ S := fun h => hg.mem _ (Tri.mem_indices_of_coord h)
  have hone : ∀ j, u.coord P z j ≠ 0 → j = k := fun j hj => by
    by_contra hjk
    have hline := AffineForm.cross_eq_zero hw (hL j (.inr hj)) (hL k (.inr hk0)) (hL i (.inl hi))
    have hiS := hf.mem i (Tri.mem_indices_of_coord hi)
    rcases eq_of_collinear_of_circle hline (hg.tight j (Tri.mem_indices_of_coord hj)) (hg.tight k hk)
      (hf.tight_of_common hg ht hu i hi) (fun e => hjk (hinj (hmem hj) (hmem hk0) e)) with e | e
    · exact hj (hinj hiS (hmem hj) e ▸ h0)
    · exact hk0 (hinj hiS (hmem hk0) e ▸ h0)
  obtain rfl := Tri.eq_vertex hg.area hone
  exact hk0 (hf.eq_of_coord_ne_zero hinj (hmem hk0) ht i hi ▸ h0)

/-- A sum over indices of what is 0 but at the vertices. -/
theorem Tri.sum_eq_of_vertices {M : Type} [AddCommMonoid M] (ht : t.area P ≠ 0) (hmem : ∀ i ∈ t.indices, i ∈ S)
    {F : ℕ → M} (h0 : ∀ i ∉ t.indices, F i = 0) : ∑ i ∈ S, F i = F t.a + F t.b + F t.c := by
  obtain ⟨hab, hac, hbc⟩ := Tri.ne_of_area ht
  have hsub : ({t.a, t.b, t.c} : Finset ℕ) ⊆ S := fun i hi => hmem i (by simpa [Tri.mem_indices] using hi)
  rw [← Finset.sum_subset hsub fun i _ hi => h0 i (by simpa [Tri.mem_indices] using hi),
    Finset.sum_insert (by simp [hab, hac]), Finset.sum_pair hbc, add_assoc]

/-- At a common point two separated facets of the paraboloid have the same coordinates. -/
theorem coord_eq_of_separated (hinj : Set.InjOn P S) (hf : LowerFacet P S (fun i => normSq (P i)) f t)
    (hg : LowerFacet P S (fun i => normSq (P i)) g u) (hsep : Separated P t u) (ht : t.covers P z) (hu : u.covers P z) :
    u.coord P z = t.coord P z := by
  have hout : ∀ i ∉ t.indices, u.coord P z i = 0 := fun i hi => not_not.1 fun h0 =>
    hi (Tri.mem_indices_of_coord (coord_ne_zero_of_separated hinj hg hf hsep.symm hu ht h0))
  refine Tri.coord_unique hf.area (fun F => ?_) hout
  rw [Tri.eval_eq hg.area, ← Tri.sum_eq_of_vertices hf.area hf.mem (F := fun i => u.coord P z i * F.eval (P i)) fun i hi => by
      rw [hout i hi, zero_mul],
    ← Tri.sum_eq_of_vertices hg.area hg.mem (F := fun i => u.coord P z i * F.eval (P i)) fun i hi => by
      rw [Tri.coord_of_notMem hi, zero_mul]]

/-- No point is inside both of two separated triangles. -/
theorem Separated.not_interior (ht : t.area P ≠ 0) (hu : u.area P ≠ 0) (hsep : Separated P t u)
    (hti : ∀ i ∈ t.indices, 0 < t.coord P z i) (hui : ∀ i ∈ u.indices, 0 < u.coord P z i) : False := by
  have hcov : ∀ {s : Tri}, (∀ i ∈ s.indices, 0 < s.coord P z i) → s.covers P z := fun {s} hs i => by
    by_cases hi : i ∈ s.indices
    · exact (hs i hi).le
    · exact (Tri.coord_of_notMem hi).ge
  obtain ⟨L, ⟨w, hw⟩, hL⟩ := exists_common_line ht hu hsep (hcov hti) (hcov hui)
  obtain ⟨ha, hb, hc⟩ := Tri.forall_mem_indices.1 fun i hi => hL i (.inl (hti i hi).ne')
  exact hw (L.eval_eq_zero ht ha hb hc w)

end

end Machine

end Sys2Proof

/-! PROOFS. The predicates of the model on the rational plane (43_estimator.md R77 to R80): what they say of areas, coordinates
and facets. -/

namespace Sys2Proof

namespace Machine

/-! ## Points -/

/-- The point in the rational plane. -/
def Point.rat (p : Point) : ℚ × ℚ := (p.d, p.l)

/-- The point of index `i` in the rational plane. -/
def ratPoint (pts : List Point) (i : ℕ) : ℚ × ℚ := (pointAt pts i).rat

theorem Point.rat_injective : Function.Injective Point.rat := fun p q h => by
  obtain ⟨h1, h2⟩ := Prod.mk.inj h
  cases p
  cases q
  simp_all

theorem pointAt_of_lt {pts : List Point} {i : ℕ} (h : i < pts.length) : pointAt pts i = pts[i] := by
  rw [pointAt, List.getD_eq_getElem _ _ h]

theorem pointAt_inj {pts : List Point} (h : pts.Nodup) {i j : ℕ} (hi : i < pts.length) (hj : j < pts.length) :
    pointAt pts i = pointAt pts j ↔ i = j := by
  rw [pointAt_of_lt hi, pointAt_of_lt hj, h.getElem_inj_iff]

theorem ratPoint_injOn {pts : List Point} (h : pts.Nodup) : Set.InjOn (ratPoint pts) (Finset.range pts.length) :=
  fun _ hi _ hj e => (pointAt_inj h (Finset.mem_range.1 hi) (Finset.mem_range.1 hj)).1 (Point.rat_injective e)

theorem orient_cast (a b c : Point) : ((orient a b c : ℤ) : ℚ) = cross a.rat b.rat c.rat := by
  simp [orient, cross, Point.rat]

theorem orient_eq_zero_iff (a b c : Point) : orient a b c = 0 ↔ cross a.rat b.rat c.rat = 0 := by
  rw [← orient_cast, Int.cast_eq_zero]

/-! ## Triangles -/

section
variable {pts : List Point} {t : Tri}

theorem Tri.det_cast (pts : List Point) (t : Tri) : ((t.det pts : ℤ) : ℚ) = t.area (ratPoint pts) := orient_cast ..

theorem Tri.det_ne_zero_iff : t.det pts ≠ 0 ↔ t.area (ratPoint pts) ≠ 0 := by rw [← Tri.det_cast, Int.cast_ne_zero]

/-- The weights over the determinant are the barycentric coordinates. -/
theorem Tri.weights_div_det (h : t.det pts ≠ 0) (q : Point) :
    ((t.weights pts q).1 : ℚ) / t.det pts = t.coord (ratPoint pts) q.rat t.a ∧
      ((t.weights pts q).2.1 : ℚ) / t.det pts = t.coord (ratPoint pts) q.rat t.b ∧
      ((t.weights pts q).2.2 : ℚ) / t.det pts = t.coord (ratPoint pts) q.rat t.c := by
  obtain ⟨ha, hb, hc⟩ := Tri.coord_vertices (Tri.det_ne_zero_iff.1 h) q.rat
  rw [ha, hb, hc, Tri.det_cast]
  simp only [Tri.weights, orient_cast]
  exact ⟨rfl, rfl, rfl⟩

theorem Tri.contains_iff (h : t.det pts ≠ 0) (q : Point) :
    t.contains pts q = true ↔ t.covers (ratPoint pts) q.rat := by
  rw [Tri.covers_iff (Tri.det_ne_zero_iff.1 h), ← Tri.det_cast]
  unfold Tri.contains
  simp only [Bool.and_eq_true, decide_eq_true_eq, and_assoc]
  simp only [Tri.weights, ratPoint, ← orient_cast]
  norm_cast

theorem Tri.proper_iff : t.proper pts = true ↔ t.a < t.b ∧ t.b < t.c ∧ t.c < pts.length := by
  simp [Tri.proper, and_assoc]

theorem Tri.lt_length (h : t.proper pts = true) : ∀ i ∈ t.indices, i < pts.length := by
  obtain ⟨hab, hbc, hc⟩ := Tri.proper_iff.1 h
  exact Tri.forall_mem_indices.2 ⟨by omega, by omega, hc⟩

theorem Tri.mem_allTriples : t ∈ allTriples pts ↔ t.a < pts.length ∧ t.b < pts.length ∧ t.c < pts.length := by
  simp only [allTriples, List.mem_flatMap, List.mem_map, List.mem_range]
  constructor
  · rintro ⟨a, ha, b, hb, c, hc, rfl⟩
    exact ⟨ha, hb, hc⟩
  · exact fun ⟨ha, hb, hc⟩ => ⟨t.a, ha, t.b, hb, t.c, hc, rfl⟩

theorem nodup_allTriples (pts : List Point) : (allTriples pts).Nodup := by
  have hmap : ∀ a b, ((List.range pts.length).map fun c => Tri.mk a b c).Nodup := fun a b =>
    List.nodup_range.map fun c c' e => by simpa using e
  refine List.nodup_flatMap.2 ⟨fun a _ => List.nodup_flatMap.2 ⟨fun b _ => hmap a b, ?_⟩, ?_⟩
  · refine List.nodup_range.imp fun hne => ?_
    simp only [Function.onFun, List.disjoint_left, List.mem_map]
    rintro t ⟨c, -, rfl⟩ ⟨c', -, e⟩
    simp_all
  · refine List.nodup_range.imp fun hne => ?_
    simp only [Function.onFun, List.disjoint_left, List.mem_flatMap, List.mem_map]
    rintro t ⟨b, -, c, -, rfl⟩ ⟨b', -, c', -, e⟩
    simp_all

end

/-! ## Circles -/

/-- The height of a point on the paraboloid. -/
def paraboloid (pts : List Point) (i : ℕ) : ℚ := normSq (ratPoint pts i)

/-- `incircle` compares the plane through the lifted triangle with the paraboloid. -/
theorem incircle_cast {f : AffineForm} {a b c : Point} (ha : f.eval a.rat = normSq a.rat) (hb : f.eval b.rat = normSq b.rat)
    (hc : f.eval c.rat = normSq c.rat) (e : Point) :
    ((incircle a b c e : ℤ) : ℚ) = cross a.rat b.rat c.rat * (f.eval e.rat - normSq e.rat) := by
  have h := f.eval_mul_cross a.rat b.rat c.rat e.rat
  rw [ha, hb, hc] at h
  rw [mul_sub, mul_comm _ (f.eval e.rat), h]
  simp only [incircle, normSq, cross, Point.rat]
  push_cast
  ring

section
variable {pts : List Point} {t : Tri} {f : AffineForm}

theorem Tri.incircle_cast (hf : ∀ i ∈ t.indices, f.eval (ratPoint pts i) = paraboloid pts i) (e : ℕ) :
    ((incircle (pointAt pts t.a) (pointAt pts t.b) (pointAt pts t.c) (pointAt pts e) : ℤ) : ℚ) =
      t.area (ratPoint pts) * (f.eval (ratPoint pts e) - paraboloid pts e) := by
  obtain ⟨ha, hb, hc⟩ := Tri.forall_mem_indices.1 hf
  exact Machine.incircle_cast ha hb hc _

/-- The points on the circle that the paraboloid and the plane have in common. -/
def circlePoints (pts : List Point) (f : AffineForm) : Finset ℕ :=
  (Finset.range pts.length).filter fun i => f.eval (ratPoint pts i) = paraboloid pts i

theorem mem_circlePoints {e : ℕ} : e ∈ circlePoints pts f ↔ e < pts.length ∧ f.eval (ratPoint pts e) = paraboloid pts e := by
  rw [circlePoints, Finset.mem_filter, Finset.mem_range]

/-- The plane through the lifted triangle. -/
theorem Tri.exists_plane (h : t.det pts ≠ 0) (F : ℕ → ℚ) :
    ∃ f : AffineForm, ∀ i ∈ t.indices, f.eval (ratPoint pts i) = F i := by
  obtain ⟨f, ha, hb, hc⟩ := exists_affineForm (Tri.det_ne_zero_iff.1 h) (F t.a) (F t.b) (F t.c)
  exact ⟨f, Tri.forall_mem_indices.2 ⟨ha, hb, hc⟩⟩

/-- A triangle satisfies (T5) exactly where it is a facet of the points on the paraboloid. -/
theorem Tri.delaunay_iff (hproper : t.proper pts = true) (h : t.det pts ≠ 0)
    (hf : ∀ i ∈ t.indices, f.eval (ratPoint pts i) = paraboloid pts i) :
    t.delaunay pts = true ↔ LowerFacet (ratPoint pts) (Finset.range pts.length) (paraboloid pts) f t := by
  have hsq : 0 < t.area (ratPoint pts) ^ 2 := sq_pos_of_ne_zero (Tri.det_ne_zero_iff.1 h)
  have hbelow : ∀ e, incircle (pointAt pts t.a) (pointAt pts t.b) (pointAt pts t.c) (pointAt pts e) * t.det pts ≤ 0 ↔
      f.eval (ratPoint pts e) ≤ paraboloid pts e := fun e => by
    have key : t.area (ratPoint pts) * (f.eval (ratPoint pts e) - paraboloid pts e) * t.area (ratPoint pts) =
        -(t.area (ratPoint pts) ^ 2 * (paraboloid pts e - f.eval (ratPoint pts e))) := by ring
    rw [← Int.cast_nonpos (R := ℚ), Int.cast_mul, Tri.incircle_cast hf, Tri.det_cast, key, neg_nonpos,
      mul_nonneg_iff_of_pos_left hsq, sub_nonneg]
  simp only [Tri.delaunay, List.all_eq_true, List.mem_range, Bool.or_eq_true, List.contains_iff_mem, decide_eq_true_eq,
    hbelow]
  refine ⟨fun hall => ⟨fun i hi => Finset.mem_range.2 (Tri.lt_length hproper i hi), Tri.det_ne_zero_iff.1 h, hf,
    fun e he => ?_⟩, fun hfacet e he => .inr (hfacet.below e (Finset.mem_range.2 he))⟩
  exact (hall e (Finset.mem_range.1 he)).elim (fun hmem => (hf e hmem).le) id

/-- The heights of the points on a circle of which the first is lowered. -/
def fanHeight (m i : ℕ) : ℚ := if i = m then -1 else 0

theorem fanHeight_nonpos (m i : ℕ) : fanHeight m i ≤ 0 := by
  unfold fanHeight
  split <;> norm_num

/-- A point is on the side of the first vertex from the two others where the plane of that one lowered is not above 0. -/
theorem Tri.fan_side_iff (h : t.det pts ≠ 0) {g : AffineForm}
    (hg : ∀ i ∈ t.indices, g.eval (ratPoint pts i) = fanHeight t.a i) (e : ℕ) :
    0 ≤ orient (pointAt pts t.b) (pointAt pts t.c) (pointAt pts e) *
      orient (pointAt pts t.b) (pointAt pts t.c) (pointAt pts t.a) ↔ g.eval (ratPoint pts e) ≤ 0 := by
  have harea := Tri.det_ne_zero_iff.1 h
  obtain ⟨hab, hac, -⟩ := Tri.ne_of_area harea
  obtain ⟨ga, gb, gc⟩ := Tri.forall_mem_indices.1 hg
  have hval := g.eval_mul_cross (ratPoint pts t.a) (ratPoint pts t.b) (ratPoint pts t.c) (ratPoint pts e)
  rw [ga, gb, gc, fanHeight, fanHeight, fanHeight, if_pos rfl, if_neg hab.symm, if_neg hac.symm, ← Tri.area] at hval
  have hrot : cross (pointAt pts t.b).rat (pointAt pts t.c).rat (pointAt pts t.a).rat = t.area (ratPoint pts) :=
    cross_rotate ..
  have hrot' : cross (pointAt pts t.b).rat (pointAt pts t.c).rat (pointAt pts e).rat =
    cross (ratPoint pts e) (ratPoint pts t.b) (ratPoint pts t.c) := cross_rotate ..
  have key : cross (ratPoint pts e) (ratPoint pts t.b) (ratPoint pts t.c) * t.area (ratPoint pts) =
      t.area (ratPoint pts) ^ 2 * -g.eval (ratPoint pts e) := by
    linear_combination t.area (ratPoint pts) * hval
  rw [← Int.cast_nonneg_iff (R := ℚ), Int.cast_mul, orient_cast, orient_cast, hrot, hrot', key,
    mul_nonneg_iff_of_pos_left (sq_pos_of_ne_zero harea), neg_nonneg]

/-- A triangle on an empty circle is one of the fan exactly where its first vertex is the first point of the circle and it is a
facet of the points of the circle with that one lowered. -/
theorem Tri.inFan_iff (h : t.det pts ≠ 0) (hf : LowerFacet (ratPoint pts) (Finset.range pts.length) (paraboloid pts) f t)
    {g : AffineForm} (hg : ∀ i ∈ t.indices, g.eval (ratPoint pts i) = fanHeight t.a i) :
    t.inFan pts = true ↔ (∀ e ∈ circlePoints pts f, t.a ≤ e) ∧
      LowerFacet (ratPoint pts) (circlePoints pts f) (fanHeight t.a) g t := by
  have harea := Tri.det_ne_zero_iff.1 h
  have hcircle : ∀ e, incircle (pointAt pts t.a) (pointAt pts t.b) (pointAt pts t.c) (pointAt pts e) = 0 ↔
      f.eval (ratPoint pts e) = paraboloid pts e := fun e => by
    rw [← Int.cast_eq_zero (α := ℚ), Tri.incircle_cast hf.tight, mul_eq_zero, sub_eq_zero, or_iff_right harea]
  have hside := Tri.fan_side_iff h hg
  simp only [Tri.inFan, List.all_eq_true, List.mem_range, Bool.or_eq_true, Bool.and_eq_true, decide_eq_true_eq, ne_eq,
    hcircle, hside]
  constructor
  · intro hall
    have hfan : ∀ e ∈ circlePoints pts f, t.a ≤ e ∧ g.eval (ratPoint pts e) ≤ 0 := fun e he => by
      obtain ⟨hlt, hon⟩ := mem_circlePoints.1 he
      exact (hall e hlt).resolve_left (not_not.2 hon)
    refine ⟨fun e he => (hfan e he).1, fun i hi => mem_circlePoints.2 ⟨Finset.mem_range.1 (hf.mem i hi), hf.tight i hi⟩,
      harea, hg, fun e he => ?_⟩
    by_cases hea : e = t.a
    · rw [hea]
      exact (hg t.a (Tri.mem_indices.2 (.inl rfl))).le
    · rw [fanHeight, if_neg hea]
      exact (hfan e he).2
  · rintro ⟨hmin, hfacet⟩ e he
    by_cases hon : f.eval (ratPoint pts e) = paraboloid pts e
    · have hmem := mem_circlePoints.2 ⟨he, hon⟩
      exact .inr ⟨hmin e hmem, (hfacet.below e hmem).trans (fanHeight_nonpos _ _)⟩
    · exact .inl hon

end

end Machine

end Sys2Proof

/-! PROOFS. The triangulation EST uses (43_estimator.md R79 to R81): its triangles are facets of the paraboloid, a line separates
any two of them, and they cover the hull. -/

namespace Sys2Proof

namespace Machine

section
variable {pts : List Point} {t u : Tri} {f g : AffineForm}

/-! ## The triangles as facets -/

/-- A triangle of `TRI` is a facet of the paraboloid. -/
theorem lowerFacet_of_mem_triangulation (ht : t ∈ triangulation pts) : t.proper pts = true ∧ t.det pts ≠ 0 ∧
    ∃ f, LowerFacet (ratPoint pts) (Finset.range pts.length) (paraboloid pts) f t := by
  obtain ⟨hproper, hdet, hdel⟩ := mem_triangulation ht
  have hdet := of_decide_eq_true hdet
  obtain ⟨f, hf⟩ := Tri.exists_plane hdet (paraboloid pts)
  exact ⟨hproper, hdet, f, (Tri.delaunay_iff hproper hdet hf).1 hdel⟩

/-- What a triangle of the fans is: a facet of the paraboloid, and of the points of its circle with the first one lowered. -/
theorem mem_firstTriangulation_iff : t ∈ firstTriangulation pts ↔ t.proper pts = true ∧ t.det pts ≠ 0 ∧
    ∃ f g, LowerFacet (ratPoint pts) (Finset.range pts.length) (paraboloid pts) f t ∧
      (∀ e ∈ circlePoints pts f, t.a ≤ e) ∧ LowerFacet (ratPoint pts) (circlePoints pts f) (fanHeight t.a) g t := by
  simp only [firstTriangulation, delaunayTriangles, List.mem_filter, Bool.and_eq_true, Tri.nondegenerate, decide_eq_true_eq]
  constructor
  · rintro ⟨⟨-, ⟨hproper, hdet⟩, hdel⟩, hfan⟩
    obtain ⟨f, hf⟩ := Tri.exists_plane hdet (paraboloid pts)
    obtain ⟨g, hg⟩ := Tri.exists_plane hdet (fanHeight t.a)
    have hfacet := (Tri.delaunay_iff hproper hdet hf).1 hdel
    exact ⟨hproper, hdet, f, g, hfacet, (Tri.inFan_iff hdet hfacet hg).1 hfan⟩
  · rintro ⟨hproper, hdet, f, g, hf, hfan⟩
    obtain ⟨ha, hb, hc⟩ := Tri.forall_mem_indices.1 (Tri.lt_length hproper)
    exact ⟨⟨Tri.mem_allTriples.2 ⟨ha, hb, hc⟩, ⟨hproper, hdet⟩, (Tri.delaunay_iff hproper hdet hf.tight).2 hf⟩,
      (Tri.inFan_iff hdet hf hfan.2.tight).2 hfan⟩

/-! ## Separation -/

/-- A side of one triangle that the other lies beyond separates them. -/
theorem separated_of_separates {i j k : ℕ} (hcross : cross (ratPoint pts i) (ratPoint pts j) (ratPoint pts k) ≠ 0)
    (ht : ∀ v ∈ t.indices, v = i ∨ v = j ∨ v = k) (hsep : separates pts i j k u = true) :
    Separated (ratPoint pts) t u := by
  refine ⟨lineForm (cross (ratPoint pts i) (ratPoint pts j) (ratPoint pts k)) (ratPoint pts i) (ratPoint pts j),
    ⟨ratPoint pts k, by simpa using hcross⟩, fun v hv => ?_, fun v hv => ?_⟩ <;> rw [eval_lineForm]
  · rcases ht v hv with rfl | rfl | rfl
    · simp
    · simp
    · exact mul_self_nonneg _
  · have hle := of_decide_eq_true (List.all_eq_true.1 hsep v hv)
    rw [← Int.cast_nonpos (R := ℚ), Int.cast_mul, orient_cast, orient_cast, mul_comm] at hle
    exact hle

theorem separated_of_hasSideAgainst (hdet : t.det pts ≠ 0) (h : t.hasSideAgainst pts u = true) :
    Separated (ratPoint pts) t u := by
  have harea := Tri.det_ne_zero_iff.1 hdet
  simp only [Tri.hasSideAgainst, Bool.or_eq_true] at h
  rcases h with (h | h) | h
  · exact separated_of_separates harea (fun v hv => Tri.mem_indices.1 hv) h
  · refine separated_of_separates ?_ (fun v hv => ?_) h
    · rwa [cross_rotate]
    · rcases Tri.mem_indices.1 hv with e | e | e <;> simp [e]
  · refine separated_of_separates ?_ (fun v hv => ?_) h
    · rwa [cross_swap, neg_ne_zero]
    · rcases Tri.mem_indices.1 hv with e | e | e <;> simp [e]

/-- The test of (T3) finds a separating line. -/
theorem separated_of_disjoint (ht : t.det pts ≠ 0) (hu : u.det pts ≠ 0) (h : t.disjoint pts u = true) :
    Separated (ratPoint pts) t u := by
  simp only [Tri.disjoint, Bool.or_eq_true] at h
  exact h.elim (separated_of_hasSideAgainst ht) fun h => (separated_of_hasSideAgainst hu h).symm

theorem pairwise_of_pairwiseDisjoint {ts : List Tri} (h : pairwiseDisjoint pts ts = true) :
    ts.Pairwise fun t u => t.disjoint pts u = true := by
  induction ts with
  | nil => exact List.Pairwise.nil
  | cons t ts ih =>
    simp only [pairwiseDisjoint, Bool.and_eq_true, List.all_eq_true] at h
    exact List.pairwise_cons.2 ⟨h.1, ih h.2⟩

/-- Two triangles of the fans are separated: by the line that the circles of both have in common, and on one circle by the line
on which the planes of the lowered points meet. -/
theorem separated_of_mem_firstTriangulation (hnodup : pts.Nodup) (ht : t ∈ firstTriangulation pts)
    (hu : u ∈ firstTriangulation pts) (hne : t ≠ u) : Separated (ratPoint pts) t u := by
  obtain ⟨hproper, -, f, g, hf, hmin, hg⟩ := mem_firstTriangulation_iff.1 ht
  obtain ⟨hproper', -, f', g', hf', hmin', hg'⟩ := mem_firstTriangulation_iff.1 hu
  obtain ⟨hab, hbc, -⟩ := Tri.proper_iff.1 hproper
  obtain ⟨hab', hbc', -⟩ := Tri.proper_iff.1 hproper'
  rcases hf.separated_or_eq hf' with hsep | hff
  · exact hsep
  have hcircle : circlePoints pts f = circlePoints pts f' := by
    simp only [circlePoints, hff]
  rw [← hcircle] at hmin' hg'
  have ha : t.a = u.a := le_antisymm (hmin _ (hg'.mem _ (Tri.mem_indices.2 (.inl rfl))))
    (hmin' _ (hg.mem _ (Tri.mem_indices.2 (.inl rfl))))
  rw [← ha] at hg'
  rcases hg.separated_or_eq hg' with hsep | hgg
  · exact hsep
  refine absurd ?_ hne
  obtain ⟨gta, gtb, gtc⟩ := Tri.forall_mem_indices.1 hg.tight
  rw [fanHeight, if_pos rfl] at gta
  rw [fanHeight, if_neg hab.ne'] at gtb
  rw [fanHeight, if_neg (hab.trans hbc).ne'] at gtc
  have hsame : ∀ k ∈ u.indices, k ≠ t.a → k = t.b ∨ k = t.c := fun k hk hka => by
    have gk : g.eval (ratPoint pts k) = 0 := by rw [hgg, hg'.tight k hk, fanHeight, if_neg hka]
    have hline := AffineForm.cross_eq_zero (f := g) (z := ratPoint pts t.a) (by rw [gta]; norm_num) gtb gtc gk
    have hinj := ratPoint_injOn hnodup
    have hb := hf.mem t.b (by simp [Tri.indices])
    have hc := hf.mem t.c (by simp [Tri.indices])
    have hkS := hf'.mem k hk
    refine (eq_of_collinear_of_circle hline (hf.tight t.b (by simp [Tri.indices])) (hf.tight t.c (by simp [Tri.indices]))
      (mem_circlePoints.1 (hg'.mem k hk)).2 fun e => hbc.ne (hinj hb hc e)).imp ?_ ?_
    · exact fun e => hinj hkS hb e
    · exact fun e => hinj hkS hc e
  have hb := hsame u.b (by simp [Tri.indices]) (by omega)
  have hc := hsame u.c (by simp [Tri.indices]) (by omega)
  obtain ⟨a, b, c⟩ := t
  obtain ⟨a', b', c'⟩ := u
  simp only [Tri.mk.injEq]
  dsimp only at *
  omega

/-- A line separates any two triangles of `TRI`. -/
theorem pairwise_separated (hnodup : pts.Nodup) : (triangulation pts).Pairwise (Separated (ratPoint pts)) := by
  have hdet : ∀ t ∈ triangulation pts, t.det pts ≠ 0 := fun t ht => (lowerFacet_of_mem_triangulation ht).2.1
  unfold triangulation at *
  split
  · rename_i hc
    rw [if_pos hc] at hdet
    simp only [admissible, Bool.and_eq_true] at hc
    exact (pairwise_of_pairwiseDisjoint hc.2.1.2).imp_of_mem fun ht hu h =>
      separated_of_disjoint (hdet _ ht) (hdet _ hu) h
  · exact List.Nodup.pairwise_of_forall_ne (((nodup_allTriples pts).filter _).filter _) fun t ht u hu hne =>
      separated_of_mem_firstTriangulation hnodup ht hu hne

/-! ## The hull -/

/-- The coordinates of a point in two triangles of `TRI` that have it are the same (43_estimator.md R79, R83). -/
theorem coord_eq_of_mem_triangulation (hnodup : pts.Nodup) (ht : t ∈ triangulation pts) (hu : u ∈ triangulation pts)
    {z : ℚ × ℚ} (htz : t.covers (ratPoint pts) z) (huz : u.covers (ratPoint pts) z) :
    u.coord (ratPoint pts) z = t.coord (ratPoint pts) z := by
  by_cases hne : t = u
  · rw [hne]
  · obtain ⟨-, -, f, hf⟩ := lowerFacet_of_mem_triangulation ht
    obtain ⟨-, -, g, hg⟩ := lowerFacet_of_mem_triangulation hu
    have : Std.Symm (Separated (ratPoint pts)) := ⟨fun _ _ h => h.symm⟩
    have hsep := (pairwise_separated hnodup).forall ht hu hne
    exact coord_eq_of_separated (ratPoint_injOn hnodup) hf hg hsep htz huz

/-- A point in general position in a triangle on the points is in a triangle of the fans: of the lowest facet of the paraboloid
over it, and then of the points of its circle with the first one lowered. -/
theorem exists_mem_firstTriangulation_covers {z : ℚ × ℚ}
    (hz : InGeneralPosition (ratPoint pts) (Finset.range pts.length) z)
    (hex : ∃ t, IsCandidate (ratPoint pts) (Finset.range pts.length) z t) :
    ∃ t ∈ firstTriangulation pts, t.covers (ratPoint pts) z := by
  obtain ⟨t, f, ht, hf⟩ := exists_lowerFacet (paraboloid pts) hz hex
  have hsub : circlePoints pts f ⊆ Finset.range pts.length := Finset.filter_subset _ _
  have hmem : ∀ i ∈ t.indices, i ∈ circlePoints pts f := fun i hi =>
    mem_circlePoints.2 ⟨Finset.mem_range.1 (hf.mem i hi), hf.tight i hi⟩
  obtain ⟨m, hm, hmin⟩ := Finset.exists_min_image (circlePoints pts f) id ⟨t.a, hmem _ (by simp [Tri.indices])⟩
  obtain ⟨t', g, ht', hg⟩ := exists_lowerFacet (fanHeight m) (fun i hi j hj => hz i (hsub hi) j (hsub hj))
    ⟨t, hmem, ht.area, ht.covers⟩
  obtain ⟨hab, hac, hbc⟩ := Tri.ne_of_area hg.area
  obtain ⟨u, ⟨hu, hgu⟩, huab, hubc⟩ := exists_sorted (p := fun u => IsCandidate (ratPoint pts) (circlePoints pts f) z u ∧
      ∀ i ∈ u.indices, g.eval (ratPoint pts i) = fanHeight m i)
    (fun a b c ⟨h, hi⟩ => ⟨h.rotate, fun i him => hi i (by
      simp only [Tri.mem_indices] at him ⊢
      tauto)⟩)
    (fun a b c ⟨h, hi⟩ => ⟨h.swap, fun i him => hi i (by
      simp only [Tri.mem_indices] at him ⊢
      tauto)⟩) ⟨ht', hg.tight⟩ hab hac hbc
  have hmu : m ∈ u.indices := by
    by_contra hnot
    have hzero : ∀ i ∈ u.indices, g.eval (ratPoint pts i) = 0 := fun i hi => by
      rw [hgu i hi, fanHeight, if_neg (ne_of_mem_of_not_mem hi hnot)]
    obtain ⟨ha, hb, hc⟩ := Tri.forall_mem_indices.1 hzero
    have hbelow := hg.below m hm
    rw [AffineForm.eval_eq_zero hu.area ha hb hc, fanHeight, if_pos rfl] at hbelow
    norm_num at hbelow
  have ha : u.a = m := by
    have := hmin u.a (hu.mem _ (by simp [Tri.indices]))
    rcases Tri.mem_indices.1 hmu with e | e | e <;> simp only [id] at this <;> omega
  have hlen : u.c < pts.length := Finset.mem_range.1 (hsub (hu.mem _ (by simp [Tri.indices])))
  refine ⟨u, mem_firstTriangulation_iff.2 ⟨Tri.proper_iff.2 ⟨huab, hubc, hlen⟩, Tri.det_ne_zero_iff.2 hu.area, f, g, ?_, ?_,
    ?_⟩, hu.covers⟩
  · exact ⟨fun i hi => hsub (hu.mem i hi), hu.area, fun i hi => (mem_circlePoints.1 (hu.mem i hi)).2, hf.below⟩
  · exact fun e he => ha ▸ hmin e he
  · exact ha.symm ▸ ⟨hu.mem, hu.area, hgu, hg.below⟩

/-- The triangles of the fans cover the hull. -/
theorem exists_mem_firstTriangulation_of_inHull (hnodup : pts.Nodup) {q : Point} (hq : inHull pts q) :
    ∃ t ∈ firstTriangulation pts, t.contains pts q = true := by
  obtain ⟨t, ha, hb, hc, hdet, hcont⟩ := hq
  have hmem : ∀ i ∈ t.indices, i ∈ Finset.range pts.length := by
    simpa [Tri.forall_mem_indices] using And.intro ha ⟨hb, hc⟩
  have harea := Tri.det_ne_zero_iff.1 hdet
  obtain ⟨u, hu, hcov⟩ := exists_covers_of_general (ts := firstTriangulation pts) (ratPoint_injOn hnodup) harea
    (fun g hg hgen => exists_mem_firstTriangulation_covers hgen ⟨t, hmem, harea, hg⟩) ((Tri.contains_iff hdet q).1 hcont)
  exact ⟨u, hu, (Tri.contains_iff (mem_firstTriangulation_iff.1 hu).2.1 q).2 hcov⟩

/-- A triangle of `TRI` is in the hull. -/
theorem inHull_of_mem_triangulation {q : Point} (ht : t ∈ triangulation pts) (hq : t.contains pts q = true) : inHull pts q := by
  obtain ⟨hproper, hdet, -⟩ := lowerFacet_of_mem_triangulation ht
  obtain ⟨ha, hb, hc⟩ := Tri.forall_mem_indices.1 (Tri.lt_length hproper)
  exact ⟨t, ha, hb, hc, hdet, hq⟩

theorem mem_integerSpan {xs : List ℤ} {x lo hi : ℤ} (hlo : lo ∈ xs) (hhi : hi ∈ xs) (h1 : lo ≤ x) (h2 : x ≤ hi) :
    x ∈ integerSpan xs := by
  unfold integerSpan
  cases hmin : xs.min? with
  | none => simp_all
  | some m =>
    cases hmax : xs.max? with
    | none => simp_all
    | some n =>
      have hm := (List.min?_eq_some_iff.1 hmin).2 lo hlo
      have hn := (List.max?_eq_some_iff.1 hmax).2 hi hhi
      refine List.mem_map.2 ⟨((x - m).toNat : ℤ), ?_, by omega⟩
      simp only [List.bind_eq_flatMap, List.pure_def, List.mem_flatMap, List.mem_singleton]
      exact ⟨(x - m).toNat, List.mem_range.2 (by omega), rfl⟩

/-- A point of a triangle is not beyond all its vertices in any direction. -/
theorem exists_vertex_le {P : ℕ → ℚ × ℚ} {z : ℚ × ℚ} (ht : t.area P ≠ 0) (hz : t.covers P z) (F : AffineForm) :
    ∃ i ∈ t.indices, F.eval (P i) ≤ F.eval z := by
  by_contra hnone
  push Not at hnone
  obtain ⟨i, hi, hi0⟩ := Tri.exists_coord_ne_zero ht z
  have hzero := Tri.eval_eq_zero_of_nonneg (f := (⟨0, 0, F.eval z⟩ : AffineForm).sub F) ht hz (fun j hj => by
    simpa using (hnone j hj).le) (by simp) i hi0
  rw [AffineForm.eval_sub, AffineForm.eval_const, sub_eq_zero] at hzero
  exact (hnone i hi).ne hzero

/-- The integer points of the hull are in the least box around the points. -/
theorem mem_hullPoints {q : Point} (hq : inHull pts q) : q ∈ hullPoints pts := by
  obtain ⟨t, ha, hb, hc, hdet, hcont⟩ := hq
  have harea := Tri.det_ne_zero_iff.1 hdet
  have hcov := (Tri.contains_iff hdet q).1 hcont
  have hmem : ∀ i ∈ t.indices, pointAt pts i ∈ pts := fun i hi => by
    have hlt := Tri.forall_mem_indices (p := fun i => i < pts.length).2 ⟨ha, hb, hc⟩ i hi
    rw [pointAt_of_lt hlt]
    exact List.getElem_mem hlt
  have hspan : ∀ (x y : ℤ) (F : Point → ℤ), (∀ p, F p = x * p.d + y * p.l) → F q ∈ integerSpan (pts.map F) :=
    fun x y F hF => by
      have hcast : ∀ (k : ℚ) p, (⟨k * x, k * y, 0⟩ : AffineForm).eval p.rat = k * F p := fun k p => by
        simp only [AffineForm.eval, Point.rat, hF]
        push_cast
        ring
      obtain ⟨i, hi, hle⟩ := exists_vertex_le harea hcov ⟨1 * x, 1 * y, 0⟩
      obtain ⟨j, hj, hge⟩ := exists_vertex_le harea hcov ⟨-1 * x, -1 * y, 0⟩
      rw [ratPoint, hcast, hcast] at hle hge
      refine mem_integerSpan (List.mem_map_of_mem (hmem i hi)) (List.mem_map_of_mem (hmem j hj)) ?_ ?_
      · exact_mod_cast (by linarith : ((F (pointAt pts i) : ℤ) : ℚ) ≤ F q)
      · exact_mod_cast (by linarith : ((F q : ℤ) : ℚ) ≤ F (pointAt pts j))
  simp only [hullPoints, List.mem_filter, List.mem_flatMap, List.mem_map, List.any_eq_true, Bool.and_eq_true,
    decide_eq_true_eq]
  refine ⟨⟨q.d, hspan 1 0 Point.d (by simp), q.l, hspan 0 1 Point.l (by simp), rfl⟩, t, Tri.mem_allTriples.2 ⟨ha, hb, hc⟩,
    hdet, hcont⟩

/-- The points of the hull are those of the triangles of `TRI`. -/
theorem inHull_iff (hnodup : pts.Nodup) (q : Point) :
    inHull pts q ↔ ∃ t ∈ triangulation pts, t.contains pts q = true := by
  refine ⟨fun hq => ?_, fun ⟨t, ht, hq⟩ => inHull_of_mem_triangulation ht hq⟩
  unfold triangulation
  split
  · rename_i hc
    simp only [admissible, coversHull, Bool.and_eq_true, List.all_eq_true, List.any_eq_true] at hc
    exact hc.2.2.1 q (mem_hullPoints hq)
  · exact exists_mem_firstTriangulation_of_inHull hnodup hq

end

/-- Inside a triangle every coordinate of a vertex is positive. -/
theorem Tri.coord_pos_of_interior {pts : List Point} {t : Tri} (h : t.det pts ≠ 0) {x y : ℚ} (hint : t.interior pts x y) :
    ∀ i ∈ t.indices, 0 < t.coord (ratPoint pts) (x, y) i := by
  have harea := Tri.det_ne_zero_iff.1 h
  obtain ⟨ea, eb, ec⟩ := Tri.coord_vertices harea (x, y)
  obtain ⟨ha, hb, hc⟩ := hint
  have hside : ∀ i j, lineSide (pointAt pts i) (pointAt pts j) x y = cross (ratPoint pts i) (ratPoint pts j) (x, y) :=
    fun _ _ => rfl
  rw [hside, Tri.det_cast] at ha hb hc
  refine Tri.forall_mem_indices.2 ⟨?_, ?_, ?_⟩
  · rw [ea, ← cross_rotate]
    exact div_pos_iff.2 (mul_pos_iff.1 ha)
  · rw [eb, cross_rotate (ratPoint pts t.c)]
    exact div_pos_iff.2 (mul_pos_iff.1 hb)
  · rw [ec]
    exact div_pos_iff.2 (mul_pos_iff.1 hc)

/-- Settles O59: the lower hull of the points on the paraboloid, cut into fans, covers the hull, and an implementation's choice
is tested for it. -/
theorem trianglesCoverTheConvexHull : Obligations.TrianglesCoverTheConvexHull :=
  fun _ hnodup _ q => inHull_iff hnodup q

/-- Settles O41: the triangles are lower facets of the points on the paraboloid, and a line separates any two. -/
theorem triangulationSatisfiesDelaunay : Obligations.TriangulationSatisfiesDelaunay := by
  intro pts hnodup
  refine ⟨fun t ht => ?_, (pairwise_separated hnodup).imp_of_mem fun {t u} ht hu hsep x y ⟨hti, hui⟩ => ?_⟩
  · obtain ⟨hproper, hdet, f, hf⟩ := lowerFacet_of_mem_triangulation ht
    obtain ⟨-, -, hdel⟩ := mem_triangulation ht
    refine ⟨hproper, hdet, fun e he hcont => ?_, fun e he hnot => ?_⟩
    · exact hf.mem_indices_of_covers (ratPoint_injOn hnodup) (Finset.mem_range.2 he) ((Tri.contains_iff hdet _).1 hcont)
    · simp only [Tri.delaunay, List.all_eq_true, List.mem_range, Bool.or_eq_true, List.contains_iff_mem,
        decide_eq_true_eq] at hdel
      exact (hdel e he).resolve_left hnot
  · have hpos : ∀ {s : Tri}, s ∈ triangulation pts → s.interior pts x y →
        ∀ i ∈ s.indices, 0 < s.coord (ratPoint pts) (x, y) i := fun {s} hs hint =>
      Tri.coord_pos_of_interior (lowerFacet_of_mem_triangulation hs).2.1 hint
    exact hsep.not_interior (Tri.det_ne_zero_iff.1 (lowerFacet_of_mem_triangulation ht).2.1)
      (Tri.det_ne_zero_iff.1 (lowerFacet_of_mem_triangulation hu).2.1) (hpos ht hti) (hpos hu hui)

end Machine

end Sys2Proof

/-! PROOFS. Collinearity, and what the signs of `orient` and `incircle` decide (43_estimator.md R77, R78). -/

namespace Sys2Proof

namespace Machine

/-! ## Collinearity -/

theorem allCollinear_iff (pts : List Point) :
    allCollinear pts = true ↔ ∀ c < pts.length, orient (pointAt pts 0) (pointAt pts 1) (pointAt pts c) = 0 := by
  simp [allCollinear]

/-- Three points in line with two distinct ones are in line. -/
theorem orient_eq_zero_of_line {p q a b c : Point} (hpq : p ≠ q) (ha : orient p q a = 0) (hb : orient p q b = 0)
    (hc : orient p q c = 0) : orient a b c = 0 := by
  rw [orient_eq_zero_iff] at *
  obtain ⟨z, hz⟩ := exists_cross_ne_zero fun e => hpq (Point.rat_injective e)
  exact AffineForm.cross_eq_zero (f := lineForm 1 p.rat q.rat) (z := z) (by simpa using hz) (by simpa using ha)
    (by simpa using hb) (by simpa using hc)

/-- Settles O44: three points are in line with the first two, which are distinct, or there are fewer than three. -/
theorem collinearityIsDecidedFromTheFirstTwo : Obligations.CollinearityIsDecidedFromTheFirstTwo := by
  intro pts hnodup
  rw [allCollinear_iff]
  rcases Nat.lt_or_ge pts.length 2 with hlen | hlen
  · have hself : ∀ a b : Point, orient a b a = 0 := fun a b => by
      simp only [orient]
      ring
    refine ⟨fun _ a ha b hb c hc => ?_, fun _ c hc => ?_⟩
    · obtain ⟨rfl, rfl, rfl⟩ : a = 0 ∧ b = 0 ∧ c = 0 := by omega
      exact hself _ _
    · obtain rfl : c = 0 := by omega
      exact hself _ _
  · refine ⟨fun h a ha b hb c hc => ?_, fun h => h 0 (by omega) 1 (by omega)⟩
    have h01 : pointAt pts 0 ≠ pointAt pts 1 := fun e => by
      have := (pointAt_inj hnodup (by omega) (by omega)).1 e
      omega
    exact orient_eq_zero_of_line h01 (h a ha) (h b hb) (h c hc)

/-! ## The line and the circle -/

/-- The line through two distinct points has the points in line with them. -/
theorem exists_line_of_ne {p q r : Point} (hpq : p ≠ q) (h : orient p q r = 0) : ∃ u v w : ℤ, (u ≠ 0 ∨ v ≠ 0) ∧
    u * p.d + v * p.l = w ∧ u * q.d + v * q.l = w ∧ u * r.d + v * r.l = w := by
  refine ⟨-(q.l - p.l), q.d - p.d, -(q.l - p.l) * p.d + (q.d - p.d) * p.l, ?_, rfl, by ring, ?_⟩
  · by_contra hzero
    cases p
    cases q
    simp only [ne_eq, Point.mk.injEq] at hpq
    dsimp only at hzero
    omega
  · simp only [orient] at h
    linarith

/-- Three points are on one line exactly where `orient` is 0. -/
theorem orient_eq_zero_iff_exists_line (a b c : Point) : orient a b c = 0 ↔ ∃ u v w : ℤ, (u ≠ 0 ∨ v ≠ 0) ∧
    u * a.d + v * a.l = w ∧ u * b.d + v * b.l = w ∧ u * c.d + v * c.l = w := by
  constructor
  · intro h
    by_cases hab : a = b
    · by_cases hac : a = c
      · exact ⟨1, 0, a.d, .inl one_ne_zero, by ring, by rw [← hab]; ring, by rw [← hac]; ring⟩
      · have hacb : orient a c b = 0 := by
          rw [← hab]
          simp only [orient]
          ring
        obtain ⟨u, v, w, huv, ha, hc, hb⟩ := exists_line_of_ne hac hacb
        exact ⟨u, v, w, huv, ha, hb, hc⟩
    · exact exists_line_of_ne hab h
  · rintro ⟨u, v, w, huv, ha, hb, hc⟩
    have hu : u * orient a b c = 0 := by
      simp only [orient]
      linear_combination (c.l - a.l) * (hb - ha) - (b.l - a.l) * (hc - ha)
    have hv : v * orient a b c = 0 := by
      simp only [orient]
      linear_combination (b.d - a.d) * (hc - ha) - (c.d - a.d) * (hb - ha)
    rcases huv with h | h
    · exact (mul_eq_zero.1 hu).resolve_left h
    · exact (mul_eq_zero.1 hv).resolve_left h

/-- The plane over the circle with this centre and this square of its radius. -/
def circleForm (x y r : ℚ) : AffineForm := ⟨2 * x, 2 * y, r - x ^ 2 - y ^ 2⟩

theorem eval_circleForm_sub (x y r : ℚ) (p : Point) :
    (circleForm x y r).eval p.rat - normSq p.rat = r - (((p.d : ℚ) - x) ^ 2 + ((p.l : ℚ) - y) ^ 2) := by
  simp only [circleForm, AffineForm.eval, normSq, Point.rat]
  ring

/-- `incircle * orient` is a positive multiple of how far the point is inside the circle. -/
theorem incircle_mul_orient_cast {a b c : Point} {x y r : ℚ} (ha : ((a.d : ℚ) - x) ^ 2 + ((a.l : ℚ) - y) ^ 2 = r)
    (hb : ((b.d : ℚ) - x) ^ 2 + ((b.l : ℚ) - y) ^ 2 = r) (hc : ((c.d : ℚ) - x) ^ 2 + ((c.l : ℚ) - y) ^ 2 = r) (e : Point) :
    ((incircle a b c e * orient a b c : ℤ) : ℚ) =
      ((orient a b c : ℤ) : ℚ) ^ 2 * (r - (((e.d : ℚ) - x) ^ 2 + ((e.l : ℚ) - y) ^ 2)) := by
  have hon : ∀ p : Point, ((p.d : ℚ) - x) ^ 2 + ((p.l : ℚ) - y) ^ 2 = r → (circleForm x y r).eval p.rat = normSq p.rat :=
    fun p hp => by rw [← sub_eq_zero, eval_circleForm_sub, hp, sub_self]
  rw [Int.cast_mul, incircle_cast (hon a ha) (hon b hb) (hon c hc), eval_circleForm_sub, orient_cast]
  ring

/-- Settles O45, by the plane over the circle. -/
theorem orientAndIncircleDecideLineAndCircle : Obligations.OrientAndIncircleDecideLineAndCircle := by
  refine fun a b c => ⟨rfl, fun e => ?_, orient_eq_zero_iff_exists_line a b c, ?_, fun h0 x y r ha hb hc e => ?_⟩
  · rw [Matrix.det_fin_three]
    simp [incircle]
    ring
  · simp only [orient]
    ring
  · have hsq : 0 < ((orient a b c : ℤ) : ℚ) ^ 2 := sq_pos_of_ne_zero (Int.cast_ne_zero.2 h0)
    have hval := incircle_mul_orient_cast ha hb hc e
    refine ⟨?_, ?_, ?_⟩
    · rw [← Int.cast_pos (R := ℚ), hval, mul_pos_iff_of_pos_left hsq, sub_pos]
    · rw [← Int.cast_eq_zero (α := ℚ), hval, mul_eq_zero, or_iff_right hsq.ne', sub_eq_zero, eq_comm]
    · rw [← Int.cast_lt_zero (R := ℚ), hval, ← neg_pos, ← mul_neg, mul_pos_iff_of_pos_left hsq, neg_sub, sub_pos]

end Machine

end Sys2Proof

/-! PROOFS. The checks of EST (43_estimator.md R74, R86): what each answers, and that they pass exactly on a valid grid size and
a valid pilot set. -/

namespace Sys2Proof

namespace Machine

/-! ## The points of the pilots -/

section
variable (s : State)

@[simp] theorem State.length_pilotPoints : (pilotPoints s.pilots).length = s.npilot.toNat := by simp [pilotPoints]

theorem State.pointAt_pilotPoints {j : ℕ} (hj : j < s.npilot.toNat) : pointAt (pilotPoints s.pilots) j = s.pilotPoint j := by
  rw [pointAt_of_lt (by simpa using hj)]
  simp [pilotPoints, State.pilots, State.pilotPoint]

theorem State.nodup_pilotPoints_iff : (pilotPoints s.pilots).Nodup ↔
    ∀ i < s.npilot.toNat, ∀ j < s.npilot.toNat, s.pilotPoint i = s.pilotPoint j → i = j := by
  constructor
  · intro h i hi j hj e
    rw [← s.pointAt_pilotPoints hi, ← s.pointAt_pilotPoints hj] at e
    exact (pointAt_inj h (by simpa using hi) (by simpa using hj)).1 e
  · intro h
    refine List.nodup_iff_injective_get.2 fun i j e => Fin.ext ?_
    have hi : i.1 < s.npilot.toNat := by simpa using i.2
    have hj : j.1 < s.npilot.toNat := by simpa using j.2
    refine h i hi j hj ?_
    rw [← s.pointAt_pilotPoints hi, ← s.pointAt_pilotPoints hj, pointAt_of_lt i.2, pointAt_of_lt j.2]
    exact e

/-- The pilots are in line exactly where every three of them are. -/
theorem State.allCollinear_pilotPoints_iff
    (hdistinct : ∀ i < s.npilot.toNat, ∀ j < s.npilot.toNat, s.pilotPoint i = s.pilotPoint j → i = j) :
    allCollinear (pilotPoints s.pilots) = true ↔ ∀ a < s.npilot.toNat, ∀ b < s.npilot.toNat, ∀ c < s.npilot.toNat,
      orient (s.pilotPoint a) (s.pilotPoint b) (s.pilotPoint c) = 0 := by
  rw [collinearityIsDecidedFromTheFirstTwo _ (s.nodup_pilotPoints_iff.2 hdistinct), s.length_pilotPoints]
  refine forall₂_congr fun a ha => forall₂_congr fun b hb => forall₂_congr fun c hc => ?_
  rw [s.pointAt_pilotPoints ha, s.pointAt_pilotPoints hb, s.pointAt_pilotPoints hc]

end

/-! ## The checks -/

section
variable {v : Valuation} {s : State} {src : Sel}

/-- Pilot `j` is outside the grid. -/
def State.pilotOutside (s : State) (j : ℕ) : Bool :=
  decide (s.m.toNat ≤ (s.pilotAt j).d) || decide (s.n.toNat ≤ (s.pilotAt j).l)

/-- The value of pilot `j` is 0. -/
def State.pilotZero (s : State) (j : ℕ) : Bool := (s.pilotAt j).value.isZero

/-- Pilot `j` is at the place of an earlier one. -/
def State.pilotRepeats (s : State) (j : ℕ) : Bool :=
  (List.range j).any fun i => decide ((s.pilotAt i).point = (s.pilotAt j).point)

theorem State.pilotOutside_iff (j : ℕ) :
    s.pilotOutside j = true ↔ s.m.toNat ≤ (s.pilotAt j).d ∨ s.n.toNat ≤ (s.pilotAt j).l := by simp [State.pilotOutside]

theorem State.pilotOutside_eq_false_iff (j : ℕ) :
    s.pilotOutside j = false ↔ (s.pilotAt j).d < s.m.toNat ∧ (s.pilotAt j).l < s.n.toNat := by
  simp [State.pilotOutside]

theorem State.pilotZero_iff (v : Valuation) (j : ℕ) : s.pilotZero j = true ↔ (s.pilotAt j).value.zero v :=
  InputVal.isZero_iff v _

theorem State.pilotZero_eq_false_iff (v : Valuation) (j : ℕ) : s.pilotZero j = false ↔ ¬ (s.pilotAt j).value.zero v := by
  rw [← State.pilotZero_iff, Bool.not_eq_true]

theorem State.pilotRepeats_iff (j : ℕ) : s.pilotRepeats j = true ↔ ∃ i < j, s.pilotPoint i = s.pilotPoint j := by
  simp [State.pilotRepeats, State.pilotPoint]

theorem State.pilotRepeats_eq_false_iff (j : ℕ) : s.pilotRepeats j = false ↔ ∀ i < j, s.pilotPoint i ≠ s.pilotPoint j := by
  rw [← Bool.not_eq_true, State.pilotRepeats_iff]
  push Not
  rfl

/-- No pilot repeats another exactly where they are at distinct places. -/
theorem State.pilots_distinct_iff : (∀ j < s.npilot.toNat, s.pilotRepeats j = false) ↔
    ∀ i < s.npilot.toNat, ∀ j < s.npilot.toNat, s.pilotPoint i = s.pilotPoint j → i = j := by
  simp only [State.pilotRepeats_eq_false_iff]
  refine ⟨fun h i hi j hj e => ?_, fun h j hj i hij e => hij.ne (h i (hij.trans hj) j hj e)⟩
  rcases lt_trichotomy i j with hij | hij | hij
  · exact absurd e (h j hj i hij)
  · exact hij
  · exact absurd e.symm (h i hi j hij)

theorem estCheck_accept : estCheck s.accept = estCheck s := rfl

theorem estCheck_of_gridCheck {e : CmdError} (h : gridCheck s = some e) : estCheck s = some e := by
  rw [estCheck, h]

theorem estCheck_of_gridValid (h : s.gridValid) : estCheck s = pilotCheck s := by
  rw [estCheck, gridCheck_eq_none_iff.2 h]

theorem pilotCheck_eq_npilot (h : s.caps.qcap < s.npilot.toNat) : pilotCheck s = some (configError .npilot) := if_pos h

section
variable (hq : s.npilot.toNat ≤ s.caps.qcap)
include hq

theorem pilotCheck_eq_pilotIndex {j : ℕ} (h : firstIndex s.npilot.toNat s.pilotOutside = some j) :
    pilotCheck s = some (tableError .pilotIndex j) := by
  unfold State.pilotOutside at h
  simp only [pilotCheck, if_neg hq.not_gt, h]

variable (hin : firstIndex s.npilot.toNat s.pilotOutside = none)
include hin

theorem pilotCheck_eq_pilotValue {j : ℕ} (h : firstIndex s.npilot.toNat s.pilotZero = some j) :
    pilotCheck s = some (tableError .pilotValue j) := by
  unfold State.pilotOutside at hin
  unfold State.pilotZero at h
  simp only [pilotCheck, if_neg hq.not_gt, hin, h]

variable (hnonzero : firstIndex s.npilot.toNat s.pilotZero = none)
include hnonzero

theorem pilotCheck_eq_pilotDup {j : ℕ} (h : firstIndex s.npilot.toNat s.pilotRepeats = some j) :
    pilotCheck s = some (tableError .pilotDup j) := by
  unfold State.pilotOutside at hin
  unfold State.pilotZero at hnonzero
  unfold State.pilotRepeats at h
  simp only [pilotCheck, if_neg hq.not_gt, hin, hnonzero, h]

/-- Past the checks of each pilot, EST checks that there are three of them that are not on one line. -/
theorem pilotCheck_of_distinct (h : firstIndex s.npilot.toNat s.pilotRepeats = none) :
    pilotCheck s = if s.npilot.toNat < 3 ∨ allCollinear (pilotPoints s.pilots) = true then some (configError .pilotGeom)
      else none := by
  unfold State.pilotOutside at hin
  unfold State.pilotZero at hnonzero
  unfold State.pilotRepeats at h
  simp only [pilotCheck, if_neg hq.not_gt, hin, hnonzero, h]

end

/-- Of a table scan the lowest index: `p` is found at `j` and nowhere before it. -/
theorem firstIndex_of_first {n j : ℕ} {p : ℕ → Bool} (hj : j < n) (hp : p j = true) (hfirst : ∀ i < j, p i = false) :
    firstIndex n p = some j :=
  firstIndex_eq_some.2 ⟨hj, hp, hfirst⟩

theorem exec_est_of_raises {e : CmdError} (h0 : s.errcode = 0) (hc : estCheck s = some e) :
    exec (.est src) s = .next (s.accept.raise (encode (.est src)) e) :=
  exec_of_raises h0 (estCheck_accept.trans hc)

/-- Settles O40: each check is reached where those before it pass. -/
theorem estErrorsInOrder : Obligations.EstErrorsInOrder := by
  refine fun v src s h0 => ⟨fun hm => ?_, fun hm hn => ?_, fun hm hn hcap => ?_, fun hgrid hfull => ?_, fun hgrid hq => ?_⟩
  · exact exec_est_of_raises h0 (estCheck_of_gridCheck (gridCheck_eq_m hm))
  · exact exec_est_of_raises h0 (estCheck_of_gridCheck (gridCheck_eq_n hm hn))
  · exact exec_est_of_raises h0 (estCheck_of_gridCheck (gridCheck_eq_gridCap hm hn hcap))
  · exact exec_est_of_raises h0 ((estCheck_of_gridValid hgrid).trans (pilotCheck_eq_npilot hfull))
  have hraise : ∀ {e}, pilotCheck s = some e → exec (.est src) s = .next (s.accept.raise (encode (.est src)) e) :=
    fun he => exec_est_of_raises h0 ((estCheck_of_gridValid hgrid).trans he)
  refine ⟨fun j hj hout hfirst => hraise (pilotCheck_eq_pilotIndex hq ?_), fun hin => ?_⟩
  · exact firstIndex_of_first hj ((State.pilotOutside_iff j).2 hout) fun i hi =>
      (State.pilotOutside_eq_false_iff i).2 (hfirst i hi)
  have hin := firstIndex_eq_none.2 fun j hj => (State.pilotOutside_eq_false_iff j).2 (hin j hj)
  refine ⟨fun j hj hzero hfirst => hraise (pilotCheck_eq_pilotValue hq hin ?_), fun hnonzero => ?_⟩
  · exact firstIndex_of_first hj ((State.pilotZero_iff v j).2 hzero) fun i hi =>
      (State.pilotZero_eq_false_iff v i).2 (hfirst i hi)
  have hnonzero := firstIndex_eq_none.2 fun j hj => (State.pilotZero_eq_false_iff v j).2 (hnonzero j hj)
  refine ⟨fun j hj hdup hfirst => hraise (pilotCheck_eq_pilotDup hq hin hnonzero ?_), fun hdistinct hline => ?_⟩
  · exact firstIndex_of_first hj ((State.pilotRepeats_iff j).2 hdup) fun k hk =>
      (State.pilotRepeats_eq_false_iff k).2 (hfirst k hk)
  · rw [← s.allCollinear_pilotPoints_iff hdistinct] at hline
    exact hraise ((pilotCheck_of_distinct hq hin hnonzero (firstIndex_eq_none.2 (State.pilots_distinct_iff.2 hdistinct))).trans
      (if_pos hline))

/-- Of pilots at distinct places the last check of EST passes exactly where three of them are not on one line. -/
theorem State.not_collinear_iff
    (hdistinct : ∀ i < s.npilot.toNat, ∀ j < s.npilot.toNat, s.pilotPoint i = s.pilotPoint j → i = j) :
    ¬ (s.npilot.toNat < 3 ∨ allCollinear (pilotPoints s.pilots) = true) ↔ ∃ a < s.npilot.toNat, ∃ b < s.npilot.toNat,
      ∃ c < s.npilot.toNat, orient (s.pilotPoint a) (s.pilotPoint b) (s.pilotPoint c) ≠ 0 := by
  rw [s.allCollinear_pilotPoints_iff hdistinct]
  constructor
  · intro hline
    push Not at hline
    exact hline.2
  · rintro ⟨a, ha, b, hb, c, hc, habc⟩ (hlt | hline)
    · have hsame : a = b ∨ a = c ∨ b = c := by omega
      rcases hsame with rfl | rfl | rfl <;> exact habc (by simp [orient_eq_zero_iff])
    · exact habc (hline a ha b hb c hc)

theorem gridValid_of_estCheck (h : estCheck s = none) : s.gridValid :=
  gridCheck_eq_none_iff.1 (by
    cases hg : gridCheck s with
    | none => rfl
    | some e => exact absurd (h.symm.trans (estCheck_of_gridCheck hg)) nofun)

/-- The checks of EST pass exactly on a valid grid size and a valid pilot set (43_estimator.md R74, R86). -/
theorem estCheck_eq_none_iff (v : Valuation) : estCheck s = none ↔ s.gridValid ∧ s.pilotsValid v := by
  constructor
  · intro h
    have hgrid := gridValid_of_estCheck h
    have hq := (estCheck_range h).2
    obtain ⟨hin, hnonzero, hdup⟩ := estCheck_eq_none h
    have hdup := fun j hj => (State.pilotRepeats_eq_false_iff (s := s) j).2 (hdup j hj)
    have hdistinct := State.pilots_distinct_iff.1 hdup
    rw [estCheck_of_gridValid hgrid, pilotCheck_of_distinct hq
      (firstIndex_eq_none.2 fun j hj => (State.pilotOutside_eq_false_iff j).2 (hin j hj)) (firstIndex_eq_none.2 hnonzero)
      (firstIndex_eq_none.2 hdup)] at h
    exact ⟨hgrid, hq, hin, fun j hj => (State.pilotZero_eq_false_iff v j).1 (hnonzero j hj), hdistinct,
      (State.not_collinear_iff hdistinct).1 fun hline => absurd ((if_pos hline).symm.trans h) nofun⟩
  · rintro ⟨hgrid, hv⟩
    rw [estCheck_of_gridValid hgrid, pilotCheck_of_distinct hv.count
      (firstIndex_eq_none.2 fun j hj => (State.pilotOutside_eq_false_iff j).2 (hv.inGrid j hj))
      (firstIndex_eq_none.2 fun j hj => (State.pilotZero_eq_false_iff v j).2 (hv.nonzero j hj))
      (firstIndex_eq_none.2 (State.pilots_distinct_iff.2 hv.distinct)),
      if_neg ((State.not_collinear_iff hv.distinct).2 hv.notCollinear)]

end

end Machine

end Sys2Proof

/-! PROOFS. The interpolation over `TRI` (43_estimator.md R82, R83): its value is that of any triangle that has the point, at a
pilot it is the estimate there, and outside the hull it is 0. -/

namespace Sys2Proof

namespace Machine

/-! ## Barycentric combinations -/

section
variable {pts : List Point} {t u : Tri} {q : Point} (H H' : ℕ → ℂ)

/-- The combination, with the coordinates as rational numbers. -/
theorem barycentric_eq_coord (ht : t ∈ triangulation pts) : barycentric pts H t q =
    (t.coord (ratPoint pts) q.rat t.a : ℂ) * H t.a + (t.coord (ratPoint pts) q.rat t.b : ℂ) * H t.b +
      (t.coord (ratPoint pts) q.rat t.c : ℂ) * H t.c := by
  obtain ⟨ha, hb, hc⟩ := Tri.weights_div_det (lowerFacet_of_mem_triangulation ht).2.1 q
  rw [← ha, ← hb, ← hc, barycentric]
  push_cast
  rfl

/-- The combination as a sum over all points. -/
theorem barycentric_eq_sum (ht : t ∈ triangulation pts) :
    barycentric pts H t q = ∑ i ∈ Finset.range pts.length, (t.coord (ratPoint pts) q.rat i : ℂ) * H i := by
  obtain ⟨-, -, f, hf⟩ := lowerFacet_of_mem_triangulation ht
  rw [Tri.sum_eq_of_vertices hf.area hf.mem fun i hi => by rw [Tri.coord_of_notMem hi, Rat.cast_zero, zero_mul],
    barycentric_eq_coord H ht]

variable {H H'}

/-- The combination is one of the values at the vertices whose coordinate is not 0. -/
theorem barycentric_congr (ht : t ∈ triangulation pts)
    (h : ∀ i, t.coord (ratPoint pts) q.rat i ≠ 0 → H i = H' i) : barycentric pts H t q = barycentric pts H' t q := by
  rw [barycentric_eq_sum H ht, barycentric_eq_sum H' ht]
  refine Finset.sum_congr rfl fun i _ => ?_
  by_cases h0 : t.coord (ratPoint pts) q.rat i = 0
  · rw [h0, Rat.cast_zero, zero_mul, zero_mul]
  · rw [h i h0]

/-- Of one value the combination is that value: the coordinates sum to 1. -/
theorem barycentric_const (ht : t ∈ triangulation pts) (c : ℂ) : barycentric pts (fun _ => c) t q = c := by
  have hsum := Tri.sum_coord (Tri.det_ne_zero_iff.1 (lowerFacet_of_mem_triangulation ht).2.1) q.rat
  have hsum : ((_ : ℚ) : ℂ) = ((1 : ℚ) : ℂ) := congrArg _ hsum
  push_cast at hsum
  rw [barycentric_eq_coord _ ht, ← add_mul, ← add_mul, hsum, one_mul]

/-- The combination is linear in the values. -/
theorem barycentric_linear {F : ℕ → ℂ} {x y : ℂ} (ht : t ∈ triangulation pts)
    (h : ∀ i < pts.length, F i = x * H i + y * H' i) :
    barycentric pts F t q = x * barycentric pts H t q + y * barycentric pts H' t q := by
  rw [barycentric_eq_sum F ht, barycentric_eq_sum H ht, barycentric_eq_sum H' ht, Finset.mul_sum, Finset.mul_sum,
    ← Finset.sum_add_distrib]
  refine Finset.sum_congr rfl fun i hi => ?_
  rw [h i (Finset.mem_range.1 hi)]
  ring

variable (hnodup : pts.Nodup)
include hnodup

theorem coord_eq_of_contains (ht : t ∈ triangulation pts) (hu : u ∈ triangulation pts) (htq : t.contains pts q = true)
    (huq : u.contains pts q = true) : u.coord (ratPoint pts) q.rat = t.coord (ratPoint pts) q.rat :=
  coord_eq_of_mem_triangulation hnodup ht hu ((Tri.contains_iff (lowerFacet_of_mem_triangulation ht).2.1 q).1 htq)
    ((Tri.contains_iff (lowerFacet_of_mem_triangulation hu).2.1 q).1 huq)

/-- All triangles that have a point give one combination (43_estimator.md R83). -/
theorem barycentric_eq_of_contains (ht : t ∈ triangulation pts) (hu : u ∈ triangulation pts)
    (htq : t.contains pts q = true) (huq : u.contains pts q = true) : barycentric pts H u q = barycentric pts H t q := by
  rw [barycentric_eq_sum H ht, barycentric_eq_sum H hu, coord_eq_of_contains hnodup ht hu htq huq]

/-- At a point of the set the only coordinate other than 0 is its own. -/
theorem coord_pointAt (ht : t ∈ triangulation pts) {j : ℕ} (hj : j < pts.length)
    (hq : t.contains pts (pointAt pts j) = true) {i : ℕ} (hi : t.coord (ratPoint pts) (pointAt pts j).rat i ≠ 0) : i = j := by
  obtain ⟨-, hdet, f, hf⟩ := lowerFacet_of_mem_triangulation ht
  exact hf.eq_of_coord_ne_zero (ratPoint_injOn hnodup) (Finset.mem_range.2 hj) ((Tri.contains_iff hdet _).1 hq) i hi

/-- At a point of the set the combination is the value there. -/
theorem barycentric_pointAt (ht : t ∈ triangulation pts) {j : ℕ} (hj : j < pts.length)
    (hq : t.contains pts (pointAt pts j) = true) : barycentric pts H t (pointAt pts j) = H j := by
  rw [barycentric_congr (H' := fun _ => H j) ht fun i hi => by rw [coord_pointAt hnodup ht hj hq hi], barycentric_const ht]

end

/-! ## The hull -/

section
variable {pts : List Point} (hnodup : pts.Nodup) (hline : ∃ a < pts.length, ∃ b < pts.length, ∃ c < pts.length,
  orient (pointAt pts a) (pointAt pts b) (pointAt pts c) ≠ 0)
include hline

/-- The points are in their hull, if they are not all on one line: each is a vertex of a triangle. -/
theorem inHull_pointAt {j : ℕ} (hj : j < pts.length) : inHull pts (pointAt pts j) := by
  obtain ⟨a, ha, b, hb, c, hc, habc⟩ := hline
  have hvertex : ∀ {b c}, b < pts.length → c < pts.length → orient (pointAt pts j) (pointAt pts b) (pointAt pts c) ≠ 0 →
      inHull pts (pointAt pts j) := fun {b c} hb hc h => by
    have hdet : (Tri.mk j b c).det pts ≠ 0 := h
    exact ⟨⟨j, b, c⟩, hj, hb, hc, hdet, (Tri.contains_iff hdet _).2
      (Tri.covers_vertex (Tri.det_ne_zero_iff.1 hdet) (Tri.mem_indices.2 (.inl rfl)))⟩
  have hsplit : orient (pointAt pts a) (pointAt pts b) (pointAt pts c) = orient (pointAt pts j) (pointAt pts b) (pointAt pts c) +
      orient (pointAt pts j) (pointAt pts c) (pointAt pts a) + orient (pointAt pts j) (pointAt pts a) (pointAt pts b) := by
    simp only [orient]
    ring
  by_contra hnot
  have h1 := not_not.1 fun h => hnot (hvertex hb hc h)
  have h2 := not_not.1 fun h => hnot (hvertex hc ha h)
  have h3 := not_not.1 fun h => hnot (hvertex ha hb h)
  exact habc (by rw [hsplit, h1, h2, h3]; rfl)

include hnodup

theorem exists_contains_pointAt {j : ℕ} (hj : j < pts.length) :
    ∃ t ∈ triangulation pts, t.contains pts (pointAt pts j) = true :=
  (inHull_iff hnodup _).1 (inHull_pointAt hline hj)

end

/-! ## The interpolation -/

section
variable {v : Valuation} {pts : List Point} {h : List NumK} {t : Tri} {q : Point}

/-- The interpolation is the combination of any triangle of `TRI` that has the point. -/
theorem value_interp_of_contains (hnodup : pts.Nodup) (ht : t ∈ triangulation pts) (hq : t.contains pts q = true) :
    (interp pts h (triangulation pts) q).value v = barycentric pts (fun j => (h.getD j NumK.zero).value v) t q := by
  unfold interp
  split
  · rename_i u hu
    have huq := List.find?_some hu
    rw [value_triValue, barycentric_eq_of_contains hnodup ht (List.mem_of_find?_eq_some hu) hq huq]
  · rename_i hnone
    exact absurd hq (List.find?_eq_none.1 hnone t ht)

theorem find?_contains_eq_none (hout : ∀ t ∈ triangulation pts, t.contains pts q = false) :
    ((triangulation pts).find? fun t => t.contains pts q) = none :=
  List.find?_eq_none.2 fun t ht => by rw [hout t ht]; nofun

/-- If all estimates are one value, the interpolation is that value in the triangles and 0 elsewhere. -/
theorem value_interp_const {c : ℂ} (hc : ∀ x ∈ h, x.value v = c) (hlen : h.length = pts.length) :
    (interp pts h (triangulation pts) q).value v =
      if (triangulation pts).any (fun t => t.contains pts q) then c else 0 := by
  unfold interp
  split
  · rename_i u hfind
    have hu := List.mem_of_find?_eq_some hfind
    have huq := List.find?_some hfind
    rw [if_pos (List.any_eq_true.2 ⟨u, hu, huq⟩), value_triValue, barycentric_congr (H' := fun _ => c) hu,
      barycentric_const hu]
    intro i hi
    have hlt := Tri.lt_length (lowerFacet_of_mem_triangulation hu).1 i (Tri.mem_indices_of_coord hi)
    rw [List.getD_eq_getElem _ _ (hlen.symm ▸ hlt)]
    exact hc _ (List.getElem_mem _)
  · rename_i hnone
    rw [if_neg, NumK.value_zero]
    rw [List.any_eq_true]
    exact fun ⟨t, ht, hq⟩ => List.find?_eq_none.1 hnone t ht hq

/-- The value at a point of the set is the estimate there. -/
theorem value_interp_pointAt (hnodup : pts.Nodup) (hline : ∃ a < pts.length, ∃ b < pts.length, ∃ c < pts.length,
    orient (pointAt pts a) (pointAt pts b) (pointAt pts c) ≠ 0) {j : ℕ} (hj : j < pts.length) :
    (interp pts h (triangulation pts) (pointAt pts j)).value v = (h.getD j NumK.zero).value v := by
  obtain ⟨t, ht, hq⟩ := exists_contains_pointAt hnodup hline hj
  rw [value_interp_of_contains hnodup ht hq, barycentric_pointAt hnodup ht hj hq]

end

end Machine

end Sys2Proof

/-! PROOFS. What EST leaves on a valid pilot set (43_estimator.md R83 to R87): HP and HG by the per-pilot estimate and the grid
cells, the zeros outside the hull, the cells of the pilots, and under the reference `NUM` the interpolation of the ratios. -/

namespace Sys2Proof

namespace Machine

/-! ## What EST leaves -/

/-- HP and HG hold the estimates of what the pilots of `s` received. -/
structure EstLeaves (src : Sel) (s t : State) : Prop where
  hp : ∀ j < s.npilot.toNat, t.element .hp j = (perPilotEstimate s.num (s.received src)).getD j NumK.zero
  hg : ∀ d l : ℕ, d < s.m.toNat → l < s.n.toNat → t.element .hg (d + s.m.toNat * l) =
    fullGridCell s.num (s.received src) (pilotPoints s.pilots) (triangulation (pilotPoints s.pilots)) ⟨d, l⟩

section
variable {v : Valuation} {src : Sel} {s t : State}

theorem State.map_fst_received : ((s.received src).map fun r => r.1) = s.pilots := by
  simp [State.received, Function.comp_def]

theorem estLeaves_of_completes (h0 : s.errcode = 0) (ht : exec (.est src) s = .next t) (hcode : t.errcode = 0) :
    EstLeaves src s t := by
  obtain ⟨hhp, hhg⟩ := element_exec_est h0 ht hcode
  simp only [State.map_fst_received] at hhg
  exact ⟨hhp, hhg⟩

theorem pilotsValid_of_completes (v : Valuation) (h0 : s.errcode = 0) (ht : exec (.est src) s = .next t)
    (hcode : t.errcode = 0) : s.pilotsValid v :=
  ((estCheck_eq_none_iff v).1 (estCheck_accept.symm.trans (exec_completes h0 ht hcode).1)).2

/-- EST completes on a valid pilot set. -/
theorem exec_est_of_valid (h0 : s.errcode = 0) (hgrid : s.gridValid) (hv : s.pilotsValid v) :
    exec (.est src) s = .next (estEffect src s.accept).complete :=
  exec_of_completes h0 (estCheck_accept.trans ((estCheck_eq_none_iff v).2 ⟨hgrid, hv⟩))

theorem errcode_estEffect (h0 : s.errcode = 0) : (estEffect src s.accept).complete.errcode = 0 :=
  (commandEffect_errcode (.est src) s.accept).trans h0

theorem estLeaves_of_valid (h0 : s.errcode = 0) (hgrid : s.gridValid) (hv : s.pilotsValid v)
    (ht : exec (.est src) s = .next t) : EstLeaves src s t := by
  have he := exec_est_of_valid (src := src) h0 hgrid hv
  obtain rfl : t = _ := Host.Outcome.next.inj (ht.symm.trans he)
  exact estLeaves_of_completes h0 he (errcode_estEffect h0)

/-! ## The pilots of a valid set -/

theorem State.pilotsValid.nodup (hv : s.pilotsValid v) : (pilotPoints s.pilots).Nodup :=
  s.nodup_pilotPoints_iff.2 hv.distinct

theorem State.pilotsValid.not_line (hv : s.pilotsValid v) :
    ∃ a < (pilotPoints s.pilots).length, ∃ b < (pilotPoints s.pilots).length, ∃ c < (pilotPoints s.pilots).length,
      orient (pointAt (pilotPoints s.pilots) a) (pointAt (pilotPoints s.pilots) b) (pointAt (pilotPoints s.pilots) c) ≠ 0 := by
  obtain ⟨a, ha, b, hb, c, hc, habc⟩ := hv.notCollinear
  rw [← s.pointAt_pilotPoints ha, ← s.pointAt_pilotPoints hb, ← s.pointAt_pilotPoints hc] at habc
  exact ⟨a, by simpa using ha, b, by simpa using hb, c, by simpa using hc, habc⟩

/-- The pilot at a point is the first at it, as no other is. -/
theorem State.pilotsValid.firstIndex_eq (hv : s.pilotsValid v) {j : ℕ} (hj : j < s.npilot.toNat) :
    (firstIndex (pilotPoints s.pilots).length fun i => decide (pointAt (pilotPoints s.pilots) i = s.pilotPoint j)) =
      some j := by
  refine firstIndex_of_first (by simpa using hj) (decide_eq_true (s.pointAt_pilotPoints hj)) fun i hi => decide_eq_false ?_
  rw [s.pointAt_pilotPoints (hi.trans hj)]
  exact fun e => hi.ne (hv.distinct i (hi.trans hj) j hj e)

/-- At the cell of a pilot HG holds the per-pilot estimate, passed through `fix`. -/
theorem EstLeaves.hg_pilot (hl : EstLeaves src s t) (hv : s.pilotsValid v) {j : ℕ} (hj : j < s.npilot.toNat) :
    t.element .hg ((s.pilotAt j).d + s.m.toNat * (s.pilotAt j).l) = (t.element .hp j).fix := by
  obtain ⟨hd, hlt⟩ := hv.inGrid j hj
  rw [hl.hg _ _ hd hlt, hl.hp j hj, fullGridCell]
  exact congrArg NumK.fix (by simp only [show (⟨(s.pilotAt j).d, (s.pilotAt j).l⟩ : Point) = s.pilotPoint j from rfl,
    hv.firstIndex_eq hj])

/-- A point in no triangle is no pilot. -/
theorem State.pilotsValid.firstIndex_eq_none (hv : s.pilotsValid v) {q : Point}
    (hout : ∀ tri ∈ triangulation (pilotPoints s.pilots), tri.contains (pilotPoints s.pilots) q = false) :
    (firstIndex (pilotPoints s.pilots).length fun i => decide (pointAt (pilotPoints s.pilots) i = q)) = none := by
  refine Machine.firstIndex_eq_none.2 fun j hj => decide_eq_false ?_
  rintro rfl
  obtain ⟨tri, htri, hcont⟩ := exists_contains_pointAt hv.nodup hv.not_line hj
  rw [hout tri htri] at hcont
  cases hcont

/-- Where no triangle has the grid point the cell is an exact 0. -/
theorem EstLeaves.hg_outside (hl : EstLeaves src s t) (hv : s.pilotsValid v) {d l : ℕ} (hd : d < s.m.toNat)
    (hlt : l < s.n.toNat)
    (hout : ∀ tri ∈ triangulation (pilotPoints s.pilots), tri.contains (pilotPoints s.pilots) ⟨d, l⟩ = false) :
    t.element .hg (d + s.m.toNat * l) = NumK.zero := by
  rw [hl.hg d l hd hlt]
  simp only [fullGridCell, interpVal, hv.firstIndex_eq_none hout, find?_contains_eq_none hout]
  rfl

end

/-- Settles O36: the checks pass on a valid set, and no triangle has a point outside the hull. -/
theorem estCompletesOnValidPilots : Obligations.EstCompletesOnValidPilots := by
  intro v src s h0 hgrid hv
  have he := exec_est_of_valid (src := src) h0 hgrid hv
  have hl := estLeaves_of_valid h0 hgrid hv he
  refine ⟨_, he, ⟨rfl, errcode_estEffect h0⟩, ?_, ?_, ?_, fun k hk => ?_, fun d hd l hlt hout => ?_⟩
  · exact hplen_estEffect src s.accept
  · simp [estEffect]
  · simp [estEffect]
  · obtain ⟨d, hd, l, hlt, rfl⟩ := exists_cellIndex hk
    rw [hl.hg d l hd hlt]
    exact finite_fullGridCell ..
  · rw [inHull_iff hv.nodup] at hout
    exact hl.hg_outside hv hd hlt fun tri htri => Bool.eq_false_iff.2 fun hcont => hout ⟨tri, htri, hcont⟩

/-- Settles O42: every pilot is a vertex of a triangle, and there its own coordinate is the only one other than 0. -/
theorem interpolationReproducesThePilots : Obligations.InterpolationReproducesThePilots :=
  ⟨fun _ _ _ _ hnodup hline _ hj => value_interp_pointAt hnodup hline hj,
    fun _ _ _ _ h0 hgrid hv ht _ hj => (estLeaves_of_valid h0 hgrid hv ht).hg_pilot hv hj⟩

/-! ## The ratios of the pilots -/

section
variable {v : Valuation} {src : Sel} {s t : State} {num : Num} {j : ℕ}

theorem State.getElem_received (hj : j < (s.received src).length) :
    (s.received src)[j] = (s.pilotAt j, s.pilotCell src (s.pilotAt j)) := by
  simp [State.received, State.pilots]

/-- The value of a pilot of a valid set is not 0. -/
theorem State.pilotsValid.value_ne_zero (hv : s.pilotsValid v) (hj : j < s.npilot.toNat)
    (hfin : (s.pilotAt j).value.isFinite = true) : (s.pilotAt j).value.val.value v ≠ 0 := by
  rw [InputVal.value_val]
  exact fun h0 => hv.nonzero j hj ⟨hfin, h0⟩

/-- The ratio of a pilot before rounding. -/
def State.ratioAt (s : State) (src : Sel) (j : ℕ) : NumK := (pilotRatios s.num (s.received src)).getD j NumK.zero

/-- The name of what `NUM` makes of the ratio of a pilot. -/
def State.ratioName (s : State) (src : Sel) (j : ℕ) : ℕ := estimateName s.num .pilotRatio (s.received src) [j]

theorem State.ratioAt_eq (hj : j < s.npilot.toNat) : s.ratioAt src j =
    NumK.choose (s.pilotAt j).value.val
      (NumK.choose (s.pilotCell src (s.pilotAt j))
        (s.num.divide (s.ratioName src j) (s.pilotCell src (s.pilotAt j)) (s.pilotAt j).value.val)
        (.nonFinite (s.ratioName src j)))
      (.unspecified (s.ratioName src j)) := by
  have hlen : j < (s.received src).length := by simpa using hj
  rw [State.ratioAt, List.getD_eq_getElem _ _ (by simpa using hj)]
  simp only [pilotRatios, List.getElem_mapIdx, State.getElem_received hlen]
  rfl

/-- Over a finite pilot value a non-finite cell gives a non-finite ratio (43_estimator.md R84). -/
theorem State.finite_cell_of_ratioAt (hj : j < s.npilot.toNat) (hp : (s.pilotAt j).value.isFinite = true)
    (h : (s.ratioAt src j).finite v) : (s.pilotCell src (s.pilotAt j)).finite v := by
  classical
  by_contra hcell
  rw [s.ratioAt_eq hj, NumK.finite, NumK.meaning_choose_of_finite ((InputVal.finite_val_iff v _).2 hp), NumK.meaning_choose,
    if_neg hcell] at h
  exact h

/-- Over a finite pilot value a finite cell gives what the division makes of them. -/
theorem State.meaning_ratioAt (hj : j < s.npilot.toNat) (hp : (s.pilotAt j).value.isFinite = true)
    (hcell : (s.pilotCell src (s.pilotAt j)).finite v) : (s.ratioAt src j).meaning v =
      (s.num.divide (s.ratioName src j) (s.pilotCell src (s.pilotAt j)) (s.pilotAt j).value.val).meaning v := by
  rw [s.ratioAt_eq hj, NumK.meaning_choose_of_finite ((InputVal.finite_val_iff v _).2 hp),
    NumK.meaning_choose_of_finite hcell]

/-- A finite ratio is that of the cell to the pilot value. -/
theorem State.value_ratioAt (hv : s.pilotsValid v) (hj : j < s.npilot.toNat) (hp : (s.pilotAt j).value.isFinite = true)
    (h : (s.ratioAt src j).finite v) : (s.ratioAt src j).value v = s.pilotRatio v src j := by
  have hmeaning := s.meaning_ratioAt hj hp (s.finite_cell_of_ratioAt hj hp h)
  rw [NumK.finite, hmeaning] at h
  rw [NumK.value, hmeaning, ← NumK.value, Num.value_divide (hv.value_ne_zero hj hp) h, InputVal.value_val, State.pilotRatio]

theorem State.finite_ratioAt_reference (href : s.num = .reference) (hj : j < s.npilot.toNat)
    (hp : (s.pilotAt j).value.isFinite = true) (hcell : (s.pilotCell src (s.pilotAt j)).finite v) :
    (s.ratioAt src j).finite v := by
  rw [NumK.finite, s.meaning_ratioAt hj hp hcell, href]
  exact Num.finite_divide_reference ..

/-- A division with the quotient 0 or 1 does not overflow (43_estimator.md R87 (a), U24). -/
theorem Num.meaning_divide {name : ℕ} {x y : NumK} (hy : y.value v ≠ 0) (h : x.value v = 0 ∨ x.value v = y.value v) :
    (num.divide name x y).meaning v = .number (x.value v / y.value v) := by
  have hfin : (num.divide name x y).finite v := by
    unfold Num.divide
    split
    · rw [NumK.finite, NumK.meaning_quotient, (quotientValue_spec _ _ _).1 h]
      trivial
    · exact NumK.finite_div x y
  rw [NumK.meaning_eq_number hfin, Num.value_divide hy hfin]

end

end Machine

end Sys2Proof

/-! PROOFS. The estimates of EST in numbers (43_estimator.md R75, R82 to R84, R87): HP as the ratios, HG as their barycentric
combinations. -/

namespace Sys2Proof

namespace Machine

/-! ## The per-pilot estimate -/

section
variable {v : Valuation} {src : Sel} {s t : State} {j : ℕ}

/-- The largest finite ratio, which rounding is relative to. -/
def State.ratioSize (s : State) (src : Sel) : NumK := estimateSize (pilotRatios s.num (s.received src))

/-- That magnitude is 0 or that of a finite ratio. -/
theorem State.value_ratioSize (v : Valuation) (s : State) (src : Sel) : (s.ratioSize src).value v = 0 ∨
    ∃ j < s.npilot.toNat, (s.ratioAt src j).finite v ∧ (s.ratioSize src).value v = (s.ratioAt src j).value v := by
  classical
  rcases (NumK.largest_spec v ((pilotRatios s.num (s.received src)).map NumK.fix)).2 with h0 | ⟨x, hx, hval⟩
  · exact .inl h0
  obtain ⟨h, hh, rfl⟩ := List.mem_map.1 hx
  by_cases hfin : h.finite v
  · obtain ⟨j, hj, rfl⟩ := List.mem_iff_getElem.1 hh
    have hat : s.ratioAt src j = (pilotRatios s.num (s.received src))[j] := List.getD_eq_getElem _ _ hj
    refine .inr ⟨j, by simpa using hj, hat ▸ hfin, ?_⟩
    rw [hat, ← NumK.value_fix hfin]
    exact hval
  · have hzero : h.fix.value v = 0 := by
      rw [NumK.value, NumK.meaning_fix, if_neg hfin]
      rfl
    exact .inl (hval.trans hzero)

/-- An exact 0 is kept by rounding (43_estimator.md R86, U24). -/
theorem Num.meaning_roundNonzero_of_zero {num : Num} {name : ℕ} {size x : NumK} (h : x.meaning v = .number 0) :
    (num.roundNonzero name size x).meaning v = .number 0 := by
  classical
  cases num with
  | reference => exact h
  | finite _ tol _ =>
    have hfin : x.finite v := (NumK.finite_iff v x).2 ⟨0, h⟩
    have hval : x.value v = 0 := by rw [NumK.value, h, KValue.toComplex]
    exact (NumK.meaning_unlessZero v x _).trans (if_pos ⟨hfin, hval⟩)

variable (hl : EstLeaves src s t) (hj : j < s.npilot.toNat)
include hl hj

/-- HP holds the rounded ratio, or a ratio that is not finite. -/
theorem EstLeaves.hp_eq : t.element .hp j = NumK.choose (s.ratioAt src j)
    (s.num.roundNonzero (s.ratioName src j) (s.ratioSize src) (s.ratioAt src j)) (s.ratioAt src j) := by
  have hlen : j < (pilotRatios s.num (s.received src)).length := by simpa using hj
  rw [hl.hp j hj, List.getD_eq_getElem _ _ (by simpa using hj), State.ratioAt, List.getD_eq_getElem _ _ hlen]
  simp only [perPilotEstimate, List.getElem_mapIdx, State.ratioSize, State.ratioName]

theorem EstLeaves.finite_hp_iff : (t.element .hp j).finite v ↔ (s.ratioAt src j).finite v := by
  classical
  rw [hl.hp_eq hj]
  by_cases hfin : (s.ratioAt src j).finite v
  · rw [NumK.finite, NumK.meaning_choose_of_finite hfin]
    exact iff_of_true (Num.roundNonzero_spec hfin).1 hfin
  · rw [NumK.finite, NumK.meaning_choose, if_neg hfin, ← NumK.finite]

theorem EstLeaves.norm_hp_sub_le (hfin : (s.ratioAt src j).finite v) :
    ‖(t.element .hp j).value v - (s.ratioAt src j).value v‖ ≤ (s.num.tolerance : ℝ) * ‖(s.ratioSize src).value v‖ := by
  rw [hl.hp_eq hj, NumK.value_choose_of_finite hfin]
  exact (Num.roundNonzero_spec hfin).2

/-- Under the reference `NUM` HP holds the ratio. -/
theorem EstLeaves.meaning_hp_reference (hv : s.pilotsValid v) (href : s.num = .reference)
    (hp : (s.pilotAt j).value.isFinite = true) (hcell : (s.pilotCell src (s.pilotAt j)).finite v) :
    (t.element .hp j).meaning v = .number (s.pilotRatio v src j) := by
  have hfin := s.finite_ratioAt_reference href hj hp hcell
  have hle := hl.norm_hp_sub_le hj hfin
  rw [href, Num.tolerance, Rat.cast_zero, zero_mul, norm_le_zero_iff, sub_eq_zero] at hle
  rw [NumK.meaning_eq_number ((hl.finite_hp_iff hj).2 hfin), hle, s.value_ratioAt hv hj hp hfin]

/-- A cell of 0 gives an estimate of 0 (43_estimator.md R86, U24). -/
theorem EstLeaves.meaning_hp_of_zero (hv : s.pilotsValid v) (hp : (s.pilotAt j).value.isFinite = true)
    (hzero : (s.pilotCell src (s.pilotAt j)).meaning v = .number 0) : (t.element .hp j).meaning v = .number 0 := by
  have hcell : (s.pilotCell src (s.pilotAt j)).finite v := (NumK.finite_iff v _).2 ⟨0, hzero⟩
  have hval : (s.pilotCell src (s.pilotAt j)).value v = 0 := by rw [NumK.value, hzero, KValue.toComplex]
  have hratio : (s.ratioAt src j).meaning v = .number 0 := by
    rw [s.meaning_ratioAt hj hp hcell, Num.meaning_divide (hv.value_ne_zero hj hp) (.inl hval), hval, zero_div]
  rw [hl.hp_eq hj, NumK.meaning_choose_of_finite ((NumK.finite_iff v _).2 ⟨0, hratio⟩),
    Num.meaning_roundNonzero_of_zero hratio]

end

section
variable {v : Valuation} {src : Sel} {s t : State} {j : ℕ}

/-- A cell that holds the pilot value gives a ratio of 1 (43_estimator.md R87 (a)). -/
theorem State.meaning_ratioAt_of_eq (hv : s.pilotsValid v) (hj : j < s.npilot.toNat)
    (hp : (s.pilotAt j).value.isFinite = true) (hsame : (s.pilotCell src (s.pilotAt j)).sameValue v (s.pilotAt j).value.val) :
    (s.ratioAt src j).meaning v = .number 1 := by
  have hcell := (NumK.finite_congr hsame).2 ((InputVal.finite_val_iff v _).2 hp)
  have h0 := hv.value_ne_zero hj hp
  rw [s.meaning_ratioAt hj hp hcell, Num.meaning_divide h0 (.inr (NumK.value_congr hsame)), NumK.value_congr hsame,
    div_self h0]

/-- Where every cell holds its pilot value, every estimate is finite and within the tolerance of 1. -/
theorem EstLeaves.norm_hp_sub_one_le (hl : EstLeaves src s t) (hv : s.pilotsValid v)
    (hsame : ∀ j < s.npilot.toNat, (s.pilotAt j).value.isFinite = true ∧
      (s.pilotCell src (s.pilotAt j)).sameValue v (s.pilotAt j).value.val) (hj : j < s.npilot.toNat) :
    (t.element .hp j).finite v ∧ ‖(t.element .hp j).value v - 1‖ ≤ (s.num.tolerance : ℝ) := by
  have hone : ∀ k < s.npilot.toNat, (s.ratioAt src k).meaning v = .number 1 := fun k hk =>
    s.meaning_ratioAt_of_eq hv hk (hsame k hk).1 (hsame k hk).2
  have hval : ∀ k < s.npilot.toNat, (s.ratioAt src k).value v = 1 := fun k hk => by
    rw [NumK.value, hone k hk, KValue.toComplex]
  have hfin : (s.ratioAt src j).finite v := (NumK.finite_iff v _).2 ⟨1, hone j hj⟩
  have hsize : ‖(s.ratioSize src).value v‖ ≤ 1 := by
    rcases s.value_ratioSize v src with h0 | ⟨k, hk, -, hk1⟩
    · simp [h0]
    · simp [hk1, hval k hk]
  have hle := hl.norm_hp_sub_le hj hfin
  rw [hval j hj] at hle
  exact ⟨(hl.finite_hp_iff hj).2 hfin, hle.trans (mul_le_of_le_one_right s.num.tolerance_nonneg hsize)⟩

end

/-- Settles O37: HP is the rounded ratio, and the quotients 0 and 1 are exact. -/
theorem estWritesThePilotRatios : Obligations.EstWritesThePilotRatios := by
  intro v src s t h0 hgrid hv ht
  have hl := estLeaves_of_valid h0 hgrid hv ht
  refine ⟨fun j hj hp => ⟨fun href hcell => ?_, fun hzero => ?_, fun hcell hfin => ?_⟩, fun hsame j hj => ?_⟩
  · exact hl.meaning_hp_reference hj hv href hp hcell
  · exact hl.meaning_hp_of_zero hj hv hp hzero
  · exact hcell (s.finite_cell_of_ratioAt hj hp ((hl.finite_hp_iff hj).1 hfin))
  · exact hl.norm_hp_sub_one_le hv hsame hj

/-! ## The cells of the full-grid estimate -/

/-- What holds at the vertices with a weight other than 0 holds at the indices with a coordinate other than 0. -/
theorem Tri.forall_weightedVertices_iff {pts : List Point} {tri : Tri} (hdet : tri.det pts ≠ 0) (q : Point) (p : ℕ → Prop) :
    (∀ w ∈ tri.weightedVertices pts q, w.2 ≠ 0 → p w.1) ↔ ∀ i, tri.coord (ratPoint pts) q.rat i ≠ 0 → p i := by
  obtain ⟨ha, hb, hc⟩ := Tri.weights_div_det hdet q
  have hne : ∀ x : ℤ, (x : ℚ) / tri.det pts ≠ 0 ↔ x ≠ 0 := fun x => by
    rw [div_ne_zero_iff, Int.cast_ne_zero, Int.cast_ne_zero, and_iff_left hdet]
  have hvert : (∀ i, tri.coord (ratPoint pts) q.rat i ≠ 0 → p i) ↔
      ∀ i ∈ tri.indices, tri.coord (ratPoint pts) q.rat i ≠ 0 → p i :=
    ⟨fun h i _ => h i, fun h i hi => h i (Tri.mem_indices_of_coord hi) hi⟩
  rw [hvert, Tri.forall_mem_indices, ← ha, ← hb, ← hc, hne, hne, hne]
  simp [Tri.weightedVertices]

theorem Tri.forall_usedEstimates_iff {pts : List Point} {tri : Tri} (hdet : tri.det pts ≠ 0) (hs : List NumK) (q : Point)
    (p : NumK → Prop) : (∀ x ∈ tri.usedEstimates pts hs q, p x) ↔
      ∀ i, tri.coord (ratPoint pts) q.rat i ≠ 0 → p (hs.getD i NumK.zero) := by
  rw [← Tri.forall_weightedVertices_iff hdet q fun i => p (hs.getD i NumK.zero)]
  simp only [Tri.usedEstimates, List.forall_mem_map, List.mem_filter, decide_eq_true_eq, and_imp]

section
variable {v : Valuation} {src : Sel} {s t : State} {tri : Tri} {q : Point}

/-- The interpolation at a point as `NUM` has it. -/
def State.interpolation (s : State) (src : Sel) (q : Point) : NumK :=
  interpVal s.num (s.received src) (pilotPoints s.pilots) (triangulation (pilotPoints s.pilots)) q

/-- The interpolation of the ratios before rounding. -/
def State.exactInterpolation (s : State) (src : Sel) (q : Point) : NumK :=
  interp (pilotPoints s.pilots) (pilotRatios s.num (s.received src)) (triangulation (pilotPoints s.pilots)) q

/-- In a triangle the interpolation is rounded, and non-finite where a ratio that it uses is. -/
theorem State.interpolation_eq (htri : tri ∈ triangulation (pilotPoints s.pilots))
    (hq : tri.contains (pilotPoints s.pilots) q = true) : ∃ u ∈ triangulation (pilotPoints s.pilots),
      u.contains (pilotPoints s.pilots) q = true ∧ ∃ name, s.interpolation src q =
        NumK.whenFinite (u.usedEstimates (pilotPoints s.pilots) (pilotRatios s.num (s.received src)) q)
          (s.num.round name (s.ratioSize src) (s.exactInterpolation src q)) (.nonFinite name) := by
  cases hfind : (triangulation (pilotPoints s.pilots)).find? fun u => u.contains (pilotPoints s.pilots) q with
  | none => exact absurd hq (List.find?_eq_none.1 hfind tri htri)
  | some u =>
    refine ⟨u, List.mem_of_find?_eq_some hfind,
      List.find?_some (p := fun u => Tri.contains (pilotPoints s.pilots) u q) hfind,
      estimateName s.num .gridEstimate (s.received src) [q.d.toNat, q.l.toNat], ?_⟩
    simp only [State.interpolation, interpVal, hfind]
    rfl

variable (hv : s.pilotsValid v) (htri : tri ∈ triangulation (pilotPoints s.pilots))
  (hq : tri.contains (pilotPoints s.pilots) q = true)
include hv htri hq

theorem State.value_exactInterpolation : (s.exactInterpolation src q).value v =
    barycentric (pilotPoints s.pilots) (fun i => (s.ratioAt src i).value v) tri q :=
  value_interp_of_contains hv.nodup htri hq

/-- The ratios that count are the same in every triangle that has the point. -/
theorem State.forall_usedEstimates_iff {u : Tri} (hu : u ∈ triangulation (pilotPoints s.pilots))
    (huq : u.contains (pilotPoints s.pilots) q = true) :
    (∀ x ∈ u.usedEstimates (pilotPoints s.pilots) (pilotRatios s.num (s.received src)) q, x.finite v) ↔
      ∀ i, tri.coord (ratPoint (pilotPoints s.pilots)) q.rat i ≠ 0 → (s.ratioAt src i).finite v := by
  rw [← coord_eq_of_contains hv.nodup htri hu hq huq]
  exact Tri.forall_usedEstimates_iff (lowerFacet_of_mem_triangulation hu).2.1 _ q (NumK.finite v)

/-- Where a ratio with a coordinate other than 0 is not finite, the interpolation is not (43_estimator.md R84). -/
theorem State.not_finite_interpolation
    (hnot : ¬ ∀ i, tri.coord (ratPoint (pilotPoints s.pilots)) q.rat i ≠ 0 → (s.ratioAt src i).finite v) :
    ¬ (s.interpolation src q).finite v := by
  obtain ⟨u, hu, huq, name, he⟩ := State.interpolation_eq (src := src) htri hq
  rw [← State.forall_usedEstimates_iff hv htri hq hu huq] at hnot
  push Not at hnot
  rw [NumK.finite, he, (NumK.meaning_whenFinite v _ _ _).2 hnot]
  exact NumK.not_finite_nonFinite v name

/-- Of finite ratios the interpolation is their combination within the tolerance. -/
theorem State.norm_interpolation_sub_le
    (hfin : ∀ i, tri.coord (ratPoint (pilotPoints s.pilots)) q.rat i ≠ 0 → (s.ratioAt src i).finite v) :
    (s.interpolation src q).finite v ∧ ‖(s.interpolation src q).value v -
        barycentric (pilotPoints s.pilots) (fun i => (s.ratioAt src i).value v) tri q‖ ≤
      (s.num.tolerance : ℝ) * ‖(s.ratioSize src).value v‖ := by
  obtain ⟨u, hu, huq, name, he⟩ := State.interpolation_eq (src := src) htri hq
  have hused := (State.forall_usedEstimates_iff hv htri hq hu huq).2 hfin
  rw [he, NumK.value_whenFinite hused, NumK.finite, (NumK.meaning_whenFinite v _ _ _).1 hused,
    ← State.value_exactInterpolation hv htri hq]
  exact ⟨Num.finite_round (finite_interp ..), Num.norm_round_sub_le v ..⟩

omit hv htri hq in
/-- A cell of HG is `fix` of the estimate of the pilot that is there, or of the interpolation. -/
theorem EstLeaves.hg_cases (hl : EstLeaves src s t) {d l : ℕ} (hd : d < s.m.toNat) (hlt : l < s.n.toNat) :
    (∃ j < s.npilot.toNat, (⟨d, l⟩ : Point) = pointAt (pilotPoints s.pilots) j ∧
      t.element .hg (d + s.m.toNat * l) = (t.element .hp j).fix) ∨
    t.element .hg (d + s.m.toNat * l) = (s.interpolation src ⟨d, l⟩).fix := by
  rw [hl.hg d l hd hlt, fullGridCell]
  cases hfirst : firstIndex (pilotPoints s.pilots).length
      fun j => decide (pointAt (pilotPoints s.pilots) j = (⟨d, l⟩ : Point)) with
  | some j =>
    obtain ⟨hj, hat, -⟩ := firstIndex_eq_some.1 hfirst
    rw [s.length_pilotPoints] at hj
    exact .inl ⟨j, hj, (of_decide_eq_true hat).symm, by rw [hl.hp j hj]⟩
  | none => exact .inr rfl

end

section
variable {v : Valuation} {src : Sel} {s t : State} {tri : Tri} {d l : ℕ} (hl : EstLeaves src s t) (hv : s.pilotsValid v)
  (hd : d < s.m.toNat) (hlt : l < s.n.toNat) (htri : tri ∈ triangulation (pilotPoints s.pilots))
  (hq : tri.contains (pilotPoints s.pilots) ⟨d, l⟩ = true)
include hl hv hd hlt htri hq

/-- Where a ratio with a coordinate other than 0 is not finite, the cell is 0 (43_estimator.md R84). -/
theorem EstLeaves.hg_of_not_finite
    (hnot : ¬ ∀ i, tri.coord (ratPoint (pilotPoints s.pilots)) (⟨d, l⟩ : Point).rat i ≠ 0 → (s.ratioAt src i).finite v) :
    (t.element .hg (d + s.m.toNat * l)).meaning v = .number 0 := by
  classical
  rcases hl.hg_cases hd hlt with ⟨j, hj, hat, he⟩ | he <;> rw [he, NumK.meaning_fix, if_neg]
  · rw [hl.finite_hp_iff hj]
    refine fun hfin => hnot fun i hi => ?_
    rw [hat] at hi hq
    rwa [coord_pointAt hv.nodup htri (by simpa using hj) hq hi]
  · exact State.not_finite_interpolation hv htri hq hnot

/-- Where the ratios with a coordinate other than 0 are finite, the cell is their combination within the tolerance. -/
theorem EstLeaves.norm_hg_sub_le
    (hfin : ∀ i, tri.coord (ratPoint (pilotPoints s.pilots)) (⟨d, l⟩ : Point).rat i ≠ 0 → (s.ratioAt src i).finite v) :
    ‖(t.element .hg (d + s.m.toNat * l)).value v -
        barycentric (pilotPoints s.pilots) (fun i => (s.ratioAt src i).value v) tri ⟨d, l⟩‖ ≤
      (s.num.tolerance : ℝ) * ‖(s.ratioSize src).value v‖ := by
  rcases hl.hg_cases hd hlt with ⟨j, hj, hat, he⟩ | he
  · have hlen : j < (pilotPoints s.pilots).length := by simpa using hj
    rw [hat] at hfin hq ⊢
    obtain ⟨i, -, hi⟩ := Tri.exists_coord_ne_zero (Tri.det_ne_zero_iff.1 (lowerFacet_of_mem_triangulation htri).2.1)
      (pointAt (pilotPoints s.pilots) j).rat
    have hratio : (s.ratioAt src j).finite v := coord_pointAt hv.nodup htri hlen hq hi ▸ hfin i hi
    rw [he, NumK.value_fix ((hl.finite_hp_iff hj).2 hratio), barycentric_pointAt hv.nodup htri hlen hq]
    exact hl.norm_hp_sub_le hj hratio
  · obtain ⟨hinterp, hle⟩ := State.norm_interpolation_sub_le hv htri hq hfin
    rwa [he, NumK.value_fix hinterp]

omit hl hd hlt hq in
/-- The combination of the ratios is that of the quotients of cells and pilot values. -/
theorem barycentric_ratioAt (hp : ∀ j < s.npilot.toNat, (s.pilotAt j).value.isFinite = true)
    (hfin : ∀ i, tri.coord (ratPoint (pilotPoints s.pilots)) (⟨d, l⟩ : Point).rat i ≠ 0 → (s.ratioAt src i).finite v) :
    barycentric (pilotPoints s.pilots) (fun i => (s.ratioAt src i).value v) tri ⟨d, l⟩ =
      barycentric (pilotPoints s.pilots) (s.pilotRatio v src) tri ⟨d, l⟩ :=
  barycentric_congr htri fun i hi => by
    have hlt := Tri.lt_length (lowerFacet_of_mem_triangulation htri).1 i (Tri.mem_indices_of_coord hi)
    rw [s.length_pilotPoints] at hlt
    exact s.value_ratioAt hv hlt (hp i hlt) (hfin i hi)

/-- Under the reference `NUM` and on finite pilots the cell is the combination of the ratios (43_estimator.md R82). -/
theorem EstLeaves.value_hg_reference (href : s.num = .reference) (hfin : s.pilotsFinite v src) :
    (t.element .hg (d + s.m.toNat * l)).value v = barycentric (pilotPoints s.pilots) (s.pilotRatio v src) tri ⟨d, l⟩ := by
  have hratio : ∀ i, tri.coord (ratPoint (pilotPoints s.pilots)) (⟨d, l⟩ : Point).rat i ≠ 0 → (s.ratioAt src i).finite v :=
    fun i hi => by
      have hlt := Tri.lt_length (lowerFacet_of_mem_triangulation htri).1 i (Tri.mem_indices_of_coord hi)
      rw [s.length_pilotPoints] at hlt
      exact s.finite_ratioAt_reference href hlt (hfin i hlt).1 (hfin i hlt).2
  have hle := hl.norm_hg_sub_le hv hd hlt htri hq hratio
  rw [href, Num.tolerance, Rat.cast_zero, zero_mul, norm_le_zero_iff, sub_eq_zero] at hle
  rw [hle, barycentric_ratioAt hv htri (fun j hj => (hfin j hj).1) hratio]

end

/-- Settles O38: all triangles that have a point give one combination of the ratios. -/
theorem estInterpolatesInATriangle : Obligations.EstInterpolatesInATriangle := by
  intro v src s t h0 hgrid hv ht d hd l hlt
  have hl := estLeaves_of_valid h0 hgrid hv ht
  refine ⟨?_, fun tri htri hq => ?_⟩
  · by_cases hin : ∃ tri ∈ triangulation (pilotPoints s.pilots), tri.contains (pilotPoints s.pilots) ⟨d, l⟩ = true
    · obtain ⟨tri, htri, hq⟩ := hin
      exact .inl ⟨tri, htri, hq, hl.value_hg_reference hv hd hlt htri hq⟩
    · have hout : ∀ tri ∈ triangulation (pilotPoints s.pilots), tri.contains (pilotPoints s.pilots) ⟨d, l⟩ = false :=
        fun tri htri => Bool.eq_false_iff.2 fun hq => hin ⟨tri, htri, hq⟩
      exact .inr ⟨hout, hl.hg_outside hv hd hlt hout⟩
  have hdet := (lowerFacet_of_mem_triangulation htri).2.1
  have hlength : ∀ i ∈ tri.indices, i < s.npilot.toNat := fun i hi =>
    s.length_pilotPoints ▸ Tri.lt_length (lowerFacet_of_mem_triangulation htri).1 i hi
  have hiff : (∀ w ∈ tri.weightedVertices (pilotPoints s.pilots) ⟨d, l⟩, w.2 ≠ 0 → (t.element .hp w.1).finite v) ↔
      ∀ i, tri.coord (ratPoint (pilotPoints s.pilots)) (⟨d, l⟩ : Point).rat i ≠ 0 → (s.ratioAt src i).finite v := by
    rw [Tri.forall_weightedVertices_iff hdet _ fun i => (t.element .hp i).finite v]
    exact forall₂_congr fun i hi => hl.finite_hp_iff (hlength i (Tri.mem_indices_of_coord hi))
  refine ⟨fun ⟨w, hw, hw0, hnot⟩ => ?_, fun hp hfin => ?_⟩
  · exact hl.hg_of_not_finite hv hd hlt htri hq fun hfin => hnot (hiff.2 hfin w hw hw0)
  · have hratio := hiff.1 hfin
    have hle := hl.norm_hg_sub_le hv hd hlt htri hq hratio
    rw [barycentric_ratioAt hv htri hp hratio] at hle
    rcases s.value_ratioSize v src with hsize | ⟨j, hj, hjfin, hsize⟩
    · obtain ⟨i, hi, hi0⟩ := Tri.exists_coord_ne_zero (Tri.det_ne_zero_iff.1 hdet) (⟨d, l⟩ : Point).rat
      refine ⟨i, hlength i hi, (hl.finite_hp_iff (hlength i hi)).2 (hratio i hi0), hle.trans ?_⟩
      rw [hsize, norm_zero, mul_zero]
      exact mul_nonneg s.num.tolerance_nonneg (norm_nonneg _)
    · rw [hsize, s.value_ratioAt hv hj (hp j hj) hjfin] at hle
      exact ⟨j, hj, (hl.finite_hp_iff hj).2 hjfin, hle⟩

/-! ## Three pilots -/

/-- A triangle is not separated from itself. -/
theorem not_separated_self {P : ℕ → ℚ × ℚ} {t : Tri} (h : t.area P ≠ 0) : ¬ Separated P t t := by
  rintro ⟨L, ⟨w, hw⟩, hpos, hneg⟩
  have hzero : ∀ i ∈ t.indices, L.eval (P i) = 0 := fun i hi => le_antisymm (hneg i hi) (hpos i hi)
  obtain ⟨ha, hb, hc⟩ := Tri.forall_mem_indices.1 hzero
  exact hw (L.eval_eq_zero h ha hb hc w)

/-- No triangle is listed twice. -/
theorem nodup_triangulation {pts : List Point} (hnodup : pts.Nodup) : (triangulation pts).Nodup :=
  (pairwise_separated hnodup).imp_of_mem fun {t u} ht _ hsep => by
    rintro rfl
    exact not_separated_self (Tri.det_ne_zero_iff.1 (lowerFacet_of_mem_triangulation ht).2.1) hsep

/-- On three points there is one triangle (43_estimator.md R81). -/
theorem triangulation_of_three {pts : List Point} (hnodup : pts.Nodup) (hline : ∃ a < pts.length, ∃ b < pts.length,
    ∃ c < pts.length, orient (pointAt pts a) (pointAt pts b) (pointAt pts c) ≠ 0) (hlen : pts.length = 3) :
    triangulation pts = [⟨0, 1, 2⟩] := by
  obtain ⟨t, ht, -⟩ := exists_contains_pointAt (j := 0) hnodup hline (by omega)
  have hone : ∀ u ∈ triangulation pts, u = ⟨0, 1, 2⟩ := fun u hu => by
    obtain ⟨hab, hbc, hc⟩ := Tri.proper_iff.1 (lowerFacet_of_mem_triangulation hu).1
    obtain ⟨a, b, c⟩ := u
    simp only [Tri.mk.injEq]
    dsimp only at hab hbc hc
    omega
  refine List.perm_singleton.1 ((List.perm_ext_iff_of_nodup (nodup_triangulation hnodup) (List.nodup_singleton _)).2
    fun u => ?_)
  rw [List.mem_singleton]
  exact ⟨hone u, fun e => e ▸ hone t ht ▸ ht⟩

/-- Settles O39: on three points there is one sorted triangle, and some triangle has each pilot. -/
theorem threePilotsDetermineTheEstimate : Obligations.ThreePilotsDetermineTheEstimate := by
  intro v src s t h0 hgrid hv hthree ht
  have hl := estLeaves_of_valid h0 hgrid hv ht
  have htri := triangulation_of_three hv.nodup hv.not_line (by rw [s.length_pilotPoints, hthree]; rfl)
  refine ⟨htri, fun d hd l hlt => ?_⟩
  split
  · rename_i hq
    exact hl.value_hg_reference hv hd hlt (by rw [htri]; exact List.mem_singleton.2 rfl) hq
  · rename_i hq
    refine hl.hg_outside hv hd hlt fun tri hmem => ?_
    rw [htri, List.mem_singleton] at hmem
    rw [hmem, Bool.eq_false_iff]
    exact hq

/-! ## Linearity -/

theorem State.pilots_eq {s u : State} (hn : u.npilot = s.npilot) (h : ∀ j < s.npilot.toNat, u.pilotAt j = s.pilotAt j) :
    u.pilots = s.pilots := by
  rw [State.pilots, State.pilots, hn]
  exact List.map_congr_left fun j hj => h j (List.mem_range.1 hj)

section
variable {v : Valuation} {src : Sel} {s t : State}

/-- An execution of EST that latches no error, under the reference `NUM` and on finite pilots. -/
structure ReferenceRun (v : Valuation) (src : Sel) (s t : State) : Prop where
  leaves : EstLeaves src s t
  valid : s.pilotsValid v
  num : s.num = .reference
  finite : s.pilotsFinite v src

theorem referenceRun_of_completes (h0 : s.errcode = 0) (ht : exec (.est src) s = .next t) (hcode : t.errcode = 0)
    (href : s.num = .reference) (hfin : s.pilotsFinite v src) : ReferenceRun v src s t :=
  ⟨estLeaves_of_completes h0 ht hcode, pilotsValid_of_completes v h0 ht hcode, href, hfin⟩

/-- The first triangle that has a point gives the value there, and 0 where there is none. -/
noncomputable def gridValue (pts : List Point) (H : ℕ → ℂ) (q : Point) : ℂ :=
  ((triangulation pts).find? fun tri => tri.contains pts q).elim 0 fun tri => barycentric pts H tri q

/-- HG holds these values of the ratios. -/
theorem ReferenceRun.value_hg (h : ReferenceRun v src s t) {d l : ℕ} (hd : d < s.m.toNat) (hlt : l < s.n.toNat) :
    (t.element .hg (d + s.m.toNat * l)).value v = gridValue (pilotPoints s.pilots) (s.pilotRatio v src) ⟨d, l⟩ := by
  unfold gridValue
  cases hfind : (triangulation (pilotPoints s.pilots)).find? fun tri => tri.contains (pilotPoints s.pilots) ⟨d, l⟩ with
  | some tri =>
    exact h.leaves.value_hg_reference h.valid hd hlt (List.mem_of_find?_eq_some hfind)
      (List.find?_some (p := fun u => Tri.contains (pilotPoints s.pilots) u ⟨d, l⟩) hfind) h.num h.finite
  | none =>
    rw [h.leaves.hg_outside h.valid hd hlt fun tri htri => by simpa using List.find?_eq_none.1 hfind tri htri,
      NumK.value_zero, Option.elim_none]

theorem gridValue_linear {pts : List Point} {H H' F : ℕ → ℂ} {x y : ℂ} (q : Point)
    (h : ∀ i < pts.length, F i = x * H i + y * H' i) :
    gridValue pts F q = x * gridValue pts H q + y * gridValue pts H' q := by
  unfold gridValue
  cases hfind : (triangulation pts).find? fun tri => tri.contains pts q with
  | some tri => exact barycentric_linear (List.mem_of_find?_eq_some hfind) h
  | none => simp

end

/-- Settles O43: the coordinates sum to 1, and the combination is linear in the ratios. -/
theorem equalEstimatesInterpolateToThemselves : Obligations.EqualEstimatesInterpolateToThemselves := by
  refine ⟨fun v pts h c q hc hlen => value_interp_const hc hlen, ?_⟩
  intro v src x y s s' u t t' w hs0 hs'0 hu0 hsref hs'ref huref hs hs' hu ht ht' hw hm' hn' hmu hnu hnp' hnpu hpilots hsfin
    hs'fin hufin hcells k hk
  obtain ⟨d, hd, l, hlt, rfl⟩ := exists_cellIndex hk
  have hrs := referenceRun_of_completes hs0 hs ht hsref hsfin
  have hrs' := referenceRun_of_completes hs'0 hs' ht' hs'ref hs'fin
  have hru := referenceRun_of_completes hu0 hu hw huref hufin
  have hsame' := State.pilots_eq hnp' fun j hj => (hpilots j hj).1
  have hsameu := State.pilots_eq hnpu fun j hj => (hpilots j hj).2
  have hgrid' := hrs'.value_hg (hm'.symm ▸ hd) (hn'.symm ▸ hlt)
  have hgridu := hru.value_hg (hmu.symm ▸ hd) (hnu.symm ▸ hlt)
  rw [hm', hsame'] at hgrid'
  rw [hmu, hsameu] at hgridu
  rw [hrs.value_hg hd hlt, hgrid', hgridu]
  refine gridValue_linear _ fun j hj => ?_
  rw [s.length_pilotPoints] at hj
  obtain ⟨hj', hju⟩ := hpilots j hj
  rw [State.pilotRatio, State.pilotRatio, State.pilotRatio, hcells j hj, hju, hj']
  ring

end Machine

end Sys2Proof

/-! PROOFS. The system operations (44_system.md): what a write to CMD can do, what STATUS shows after it, NOP, and the error
clear. -/

namespace Sys2Proof

namespace Machine

/-! ## The write to CMD -/

/-- The word an error of a command latches in ERRCMD is the command's own. -/
theorem commandParts_word (i : Instr) : (commandParts i).1 = encode i := by cases i <;> rfl

/-- While an error is latched any write to CMD is dropped, one of a legal word or of another (60_exceptions.md R97). -/
theorem writeCmd_of_latched {s : State} (h : s.errcode ≠ 0) (w : Word) : writeCmd w s = .next s := by
  rcases writeCmd_cases w s with ⟨i, -, hw⟩ | ⟨e, -, hw⟩
  · rw [hw, exec_eq, commandState_latched h]
  · rw [hw, commandState_latched h]

/-- With no error latched a write to CMD raises an error under the written word, or it is of a legal word and completes the
command of that word (30_encoding.md R53). -/
theorem writeCmd_raises_or_completes {s t : State} {w : Word} (h0 : s.errcode = 0) (ht : writeCmd w s = .next t) :
    (∃ e, t = s.accept.raise w e) ∨
      ∃ i, decode w = .ok i ∧ t = ((commandParts i).2.2 s.accept).complete := by
  rcases writeCmd_cases w s with ⟨i, hi, hw⟩ | ⟨e, he, -⟩
  · rcases exec_cases h0 (hw ▸ ht) with ⟨e, -, rfl⟩ | ⟨-, rfl⟩
    · exact .inl ⟨e, by rw [commandParts_word, encode_of_decode hi]⟩
    · exact .inr ⟨i, hi, rfl⟩
  · rw [writeCmd_of_refused h0 he] at ht
    cases ht
    exact .inl ⟨_, rfl⟩

/-! ## Status polling -/

theorem State.err_iff (s : State) : s.err = true ↔ s.errcode ≠ 0 := decide_eq_true_iff

/-- A STATUS read between commands (10_state.md R23): 2 for DONE and 4 for ERR. -/
theorem State.readStatus_of_idle {s : State} (hb : s.busy = false) :
    s.readReg 1 = .u32 ((0 : BitVec 29) ++ flagBit s.err ++ flagBit s.done ++ flagBit false) := by
  rw [State.readReg, State.status, hb]

/-- Success shows DONE alone. -/
theorem State.readStatus_complete {s : State} (h0 : s.errcode = 0) : s.complete.readReg 1 = .u32 2 := by
  have herr : s.complete.err = false := by simp [State.err, h0]
  rw [State.readStatus_of_idle s.complete_busy, herr, s.complete_done]
  rfl

/-- A raised error shows ERR alone: acceptance has cleared DONE. -/
theorem State.readStatus_raise (s : State) (w : Word) (e : CmdError) : (s.accept.raise w e).readReg 1 = .u32 4 := by
  have herr : (s.accept.raise w e).err = true := (State.err_iff _).2 (ErrCode.code_ne_zero e.cls)
  rw [State.readStatus_of_idle (State.raise_busy ..), herr, State.raise_done, State.accept_done]
  rfl

/-- Settles O8: the write raises an error, completes its command, or is dropped. -/
theorem statusTellsTheOutcome : Obligations.StatusTellsTheOutcome := by
  intro s t w ht
  refine ⟨fun h0 => ?_, fun hlatched => ?_⟩
  · rcases writeCmd_raises_or_completes h0 ht with ⟨e, rfl⟩ | ⟨i, -, rfl⟩
    · exact .inr ⟨rfl, ErrCode.code_ne_zero e.cls, State.readStatus_raise s w e, rfl⟩
    · have hcode : ((commandParts i).2.2 s.accept).errcode = 0 := (commandEffect_errcode i s.accept).trans h0
      exact .inl ⟨rfl, hcode, State.readStatus_complete hcode⟩
  · rw [writeCmd_of_latched hlatched] at ht
    cases ht
    exact ⟨rfl, s.err_iff.2 hlatched⟩

/-! ## NOP -/

/-- The words of OPC 0 with a non-zero selector (44_system.md R88) are refused for their selector. -/
theorem decode_nop_with_selector {w : Word} (hw : w = 0x10 ∨ w = 0x20 ∨ w = 0x30) : decode w = .error .selector := by
  obtain ⟨-, -, hselector, -⟩ := decodeRefusesInTheListedOrder w
  rcases hw with rfl | rfl | rfl <;> exact hselector (by decide) (by decide) (by decide)

/-- Settles O14: NOP has no check and no effect of its own, so that acceptance and completion are all that it does. -/
theorem nopSetsDoneOnly : Obligations.NopSetsDoneOnly := by
  refine ⟨rfl, rfl, fun s h0 hb => ?_, fun s hlatched => ?_, fun s w hw => ?_⟩
  · rw [exec_of_completes (i := .nop) h0 rfl]
    simp only [commandParts, State.accept, State.complete, ← hb]
  · rw [exec_eq, commandState_latched hlatched]
  · have hrefused := decode_nop_with_selector hw
    exact ⟨hrefused, fun h0 => ⟨_, writeCmd_of_refused h0 hrefused, rfl, rfl⟩⟩

/-! ## The error clear -/

/-- The two states have the same latch: ERRCODE, ERRINFO and ERRCMD. -/
def State.sameLatch (s t : State) : Prop := t.errcode = s.errcode ∧ t.errinfo = s.errinfo ∧ t.errcmd = s.errcmd

theorem State.sameLatch_refl (s : State) : s.sameLatch s := ⟨rfl, rfl, rfl⟩

/-- A write to a register other than CMD and ERRCODE keeps the latch. -/
theorem State.sameLatch_writeReg (s : State) {no : Nat} (h2 : no ≠ 2) (v : Word) : s.sameLatch (s.writeReg no v) := by
  unfold State.writeReg
  split
  case h_1 => exact absurd rfl h2
  all_goals exact ⟨rfl, rfl, rfl⟩

theorem State.sameLatch_writePath (s : State) (j : Nat) (x : PathValue) : s.sameLatch (s.writePath j x) := by
  cases x <;> exact ⟨rfl, rfl, rfl⟩

theorem State.sameLatch_writePilot (s : State) (j : Nat) (x : PilotValue) : s.sameLatch (s.writePilot j x) := by
  cases x <;> exact ⟨rfl, rfl, rfl⟩

theorem State.sameLatch_writeBuf (s : State) (b : Buf) (i : Nat) (x : InputVal) : s.sameLatch (s.writeBuf b i x) :=
  ⟨State.setBuf_errcode .., State.setBuf_errinfo .., State.setBuf_errcmd ..⟩

/-- No access but a write to ERRCODE and reset changes a latch that holds an error (44_system.md R89, 60_exceptions.md
R97). -/
theorem performAccess_keeps_latch {a : HostAction} {s t : State} (hlatched : s.errcode ≠ 0)
    (hclear : ∀ v, a ≠ .writeReg 2 v) (hreset : a ≠ .reset) (ht : performAccess a s = .next t) : s.sameLatch t := by
  cases a with
  | writeReg no x =>
    have h2 : no ≠ 2 := fun h => hclear x (h ▸ rfl)
    cases x with
    | u32 w =>
      by_cases hcmd : no = 0
      · rw [performAccess, if_pos hcmd, writeCmd_of_latched hlatched] at ht
        cases ht
        exact s.sameLatch_refl
      · rw [performAccess, if_neg hcmd] at ht
        cases ht
        exact s.sameLatch_writeReg h2 w
    | real r => cases ht; exact ⟨rfl, rfl, rfl⟩
  | writePath j x => cases ht; exact s.sameLatch_writePath j x
  | writePilot j x => cases ht; exact s.sameLatch_writePilot j x
  | writeBuf b i x => cases ht; exact s.sameLatch_writeBuf b i x
  | reset => exact absurd rfl hreset
  | readReg _ | readPath _ _ | readPilot _ _ | readBuf _ _ => cases ht; exact s.sameLatch_refl

/-- A host action that answers a next state is an admitted access, so it keeps the latch as that access does. -/
theorem hostStep_keeps_latch {a : HostAction} {s t : State} (hlatched : s.errcode ≠ 0)
    (hclear : ∀ v, a ≠ .writeReg 2 v) (hreset : a ≠ .reset) (ht : hostStep a s = .next t) : s.sameLatch t := by
  obtain ⟨-, -, -, hp⟩ := hostStep_next ht
  exact performAccess_keeps_latch hlatched hclear hreset hp

/-- Settles O15: the write is `State.clearError`, and any other action but reset keeps the latch. -/
theorem errorClearClearsTheLatchOnly : Obligations.ErrorClearClearsTheLatchOnly := by
  refine ⟨rfl, fun s v hb => ⟨hostStep_writeReg hb (by decide) (by decide) v, rfl⟩, ?_⟩
  intro s t a hlatched ht hcode
  by_contra hother
  obtain ⟨hclear, hreset⟩ := not_or.1 hother
  obtain ⟨hkept, -, -⟩ := hostStep_keeps_latch hlatched (not_exists.1 hclear) hreset ht
  exact hlatched (hkept ▸ hcode)

end Machine

end Sys2Proof

/-! PROOFS. Errors (60_exceptions.md): what the numbers of the latch hold, the state a raised error leaves, the row of errors of
each command, and what goes on while an error is latched. -/

namespace Sys2Proof

namespace Machine

/-! ## The latch while it holds an error -/

/-- Settles O7: the frame of a command drops it, and any other action is an admitted access, of which only the error clear and
reset write the latch. -/
theorem latchedErrorDropsCommands : Obligations.LatchedErrorDropsCommands := by
  intro s hlatched
  refine ⟨writeCmd_of_latched hlatched, fun i => ?_, fun hb a hw => ?_, fun t a ht hclear hreset => ?_⟩
  · rw [exec_eq, commandState_latched hlatched]
  · obtain ⟨hrange, htyped⟩ := Bool.and_eq_true_iff.1 hw
    rw [hostStep_of_admitted hb hrange htyped]
    exact performAccess_total a s
  · exact hostStep_keeps_latch hlatched hclear hreset ht

/-! ## ERRINFO -/

/-- An index that ERRINFO.INDEX holds is its field (10_state.md R23). -/
theorem toNat_indexField {index : Nat} (h : index < 2 ^ 24) : (indexField index).toNat = index := by
  rw [indexField, if_pos h, BitVec.toNat_ofNat, Nat.mod_eq_of_lt h]

/-- The number in ERRINFO (60_exceptions.md R95). -/
theorem CmdError.toNat_info (e : CmdError) :
    e.info.toNat = e.param.ident.toNat + 256 * (indexField e.index).toNat := by
  rw [CmdError.info, BitVec.toNat_append, ← Nat.shiftLeft_add_eq_or_of_lt e.param.ident.isLt, Nat.shiftLeft_eq]
  omega

/-- ERRINFO.PARAM is the identifier of the parameter, whatever the index is (10_state.md R23). -/
theorem CmdError.toNat_info_mod (e : CmdError) : e.info.toNat % 256 = e.param.ident.toNat := by
  rw [e.toNat_info, Nat.add_mul_mod_self_left, Nat.mod_eq_of_lt e.param.ident.isLt]

/-! ## The state after an error -/

/-- A command that completes latches nothing. -/
theorem errcode_of_completed {s : State} (h0 : s.errcode = 0) (i : Instr) :
    ((commandParts i).2.2 s.accept).complete.errcode = 0 :=
  (commandEffect_errcode i s.accept).trans h0

/-- With no error latched before, one that is latched after a write to CMD was raised by that write. -/
theorem writeCmd_raises {s t : State} {w : Word} (h0 : s.errcode = 0) (ht : writeCmd w s = .next t) (hcode : t.errcode ≠ 0) :
    ∃ e, t = s.accept.raise w e := by
  rcases writeCmd_raises_or_completes h0 ht with he | ⟨i, -, rfl⟩
  · exact he
  · exact absurd (errcode_of_completed h0 i) hcode

/-- With no error latched before, one that is latched after a command was raised by its checks. -/
theorem exec_raises {s t : State} {i : Instr} (h0 : s.errcode = 0) (ht : exec i s = .next t) (hcode : t.errcode ≠ 0) :
    ∃ e, (commandParts i).2.1 s.accept = some e ∧ t = s.accept.raise (commandParts i).1 e := by
  rcases exec_cases h0 ht with he | ⟨-, rfl⟩
  · exact he
  · exact absurd (errcode_of_completed h0 i) hcode

/-- Settles O9: the write raised the error, and `State.raise` after acceptance writes DONE, BUSY and the latch. -/
theorem raisedErrorIsPrecise : Obligations.RaisedErrorIsPrecise := by
  refine ⟨fun s t w h0 ht hcode => ?_, fun s w e => rfl, fun e hindex => ?_, rfl, rfl, fun p j => ⟨rfl, rfl, rfl⟩⟩
  · obtain ⟨e, rfl⟩ := writeCmd_raises h0 ht hcode
    exact ⟨(State.err_iff _).2 hcode, e, rfl⟩
  · rw [e.toNat_info, toNat_indexField hindex]

/-! ## The errors of each command -/

/-- What an error is but for its index: the class and the parameter. -/
def CmdError.kind (e : CmdError) : ErrCode × Param := (e.cls, e.param)

@[simp] theorem kind_shapeError (p : Param) : (shapeError p).kind = (.shapeError, p) := rfl

@[simp] theorem kind_configError (p : Param) : (configError p).kind = (.configurationError, p) := rfl

@[simp] theorem kind_tableError (p : Param) (j : Nat) : (tableError p j).kind = (.configurationError, p) := rfl

/-- ERRCODE and ERRINFO.PARAM of an error of a kind (60_exceptions.md R92, R93). -/
def kindNumbers (k : ErrCode × Param) : Nat × Nat := (k.1.code.toNat, k.2.ident.toNat)

/-- A raised error shows the numbers of its kind. -/
theorem State.numbers_raise (s : State) (w : Word) (e : CmdError) :
    ((s.raise w e).errcode.toNat, (s.raise w e).errinfo.toNat % 256) = kindNumbers e.kind := by
  rw [State.raise_errcode, State.raise_errinfo, e.toNat_info_mod]
  rfl

/-- The errors of the grid dimensions, which MOD, DEMOD and EST share. -/
def gridErrors : List (ErrCode × Param) :=
  [(.configurationError, .m), (.configurationError, .n), (.configurationError, .gridCap)]

/-- The errors of the pilots. -/
def pilotErrors : List (ErrCode × Param) :=
  [(.configurationError, .npilot), (.configurationError, .pilotIndex), (.configurationError, .pilotValue),
    (.configurationError, .pilotDup), (.configurationError, .pilotGeom)]

/-- The row of a command in the table of 60_exceptions.md R94. -/
def commandErrors : Instr → List (ErrCode × Param)
  | .nop => []
  | .giIns _ _ => [(.configurationError, .glen), (.shapeError, .srcLen), (.shapeError, .dstLen)]
  | .giRem _ _ => [(.shapeError, .srcLen), (.shapeError, .glen)]
  | .mod _ _ => gridErrors ++ [(.configurationError, .glen), (.shapeError, .dstLen)]
  | .demod _ _ => gridErrors ++ [(.configurationError, .glen), (.shapeError, .srcLen), (.shapeError, .glen)]
  | .chan _ _ =>
    [(.configurationError, .fs), (.configurationError, .npath), (.configurationError, .pathGain), (.shapeError, .srcLen)]
  | .est _ => gridErrors ++ pilotErrors

section
variable {s : State} {e : CmdError}

theorem kind_mem_of_gridCheck (h : gridCheck s = some e) : e.kind ∈ gridErrors := by
  unfold gridCheck at h
  split_ifs at h <;> cases h <;> simp [gridErrors]

theorem kind_mem_of_pilotCheck (h : pilotCheck s = some e) : e.kind ∈ pilotErrors := by
  simp only [pilotCheck] at h
  repeat' split at h
  all_goals cases h
  all_goals simp [pilotErrors]

/-- The checks of a command answer only errors of its row. -/
theorem kind_mem_commandErrors {i : Instr} (h : (commandParts i).2.1 s = some e) : e.kind ∈ commandErrors i := by
  cases i with
  | nop => cases h
  | giIns src dst =>
    simp only [commandParts, giInsCheck] at h
    split_ifs at h <;> cases h <;> simp [commandErrors]
  | giRem src dst =>
    simp only [commandParts, giRemCheck] at h
    split_ifs at h <;> cases h <;> simp [commandErrors]
  | mod src dst =>
    cases hgrid : gridCheck s with
    | some e' =>
      cases (modCheck_of_gridCheck hgrid).symm.trans h
      exact List.mem_append_left _ (kind_mem_of_gridCheck hgrid)
    | none =>
      simp only [commandParts, modCheck, hgrid] at h
      split_ifs at h <;> cases h <;> simp [commandErrors]
  | demod src dst =>
    cases hgrid : gridCheck s with
    | some e' =>
      cases (demodCheck_of_gridCheck hgrid).symm.trans h
      exact List.mem_append_left _ (kind_mem_of_gridCheck hgrid)
    | none =>
      simp only [commandParts, demodCheck, hgrid] at h
      split_ifs at h <;> cases h <;> simp [commandErrors]
  | chan src dst =>
    simp only [commandParts, chanCheck] at h
    repeat' split at h
    all_goals cases h
    all_goals simp [commandErrors]
  | est src =>
    cases hgrid : gridCheck s with
    | some e' =>
      cases (estCheck_of_gridCheck hgrid).symm.trans h
      exact List.mem_append_left _ (kind_mem_of_gridCheck hgrid)
    | none =>
      have hpilot : pilotCheck s = some e := (estCheck_of_gridValid (gridCheck_eq_none_iff.1 hgrid)).symm.trans h
      exact List.mem_append_right _ (kind_mem_of_pilotCheck hpilot)

end

/-- Settles O10: an illegal word raises the error of its refusal, a command one of its row, and the rows are those of the
table. -/
theorem eachCommandRaisesOnlyItsErrors : Obligations.EachCommandRaisesOnlyItsErrors := by
  intro s t h0
  refine ⟨fun w hillegal ht => ?_, fun i ht hcode => ?_⟩
  · rw [writeCmd_of_refused h0 (decode_of_illegal hillegal)] at ht
    cases ht
    rw [State.numbers_raise]
    cases firstRefusal w <;> decide
  · obtain ⟨e, hc, rfl⟩ := exec_raises h0 ht hcode
    have hrow : kindNumbers e.kind ∈ (commandErrors i).map kindNumbers := List.mem_map_of_mem (kind_mem_commandErrors hc)
    rw [State.numbers_raise]
    cases i <;> exact hrow

end Machine

end Sys2Proof

/-! PROOFS. Reset, and progress between commands (70_reset_and_hazards.md R105, R107). -/

namespace Sys2Proof

namespace Machine

/-- Settles O50: reset names no place and stores no value, so it is admitted between commands, and its access is
`State.doReset`. -/
theorem resetActionRestoresResetValues : Obligations.ResetActionRestoresResetValues := fun s hb =>
  calc hostStep .reset s
    _ = performAccess .reset s := hostStep_of_admitted hb rfl rfl
    _ = .next s.doReset := rfl

/-- Between commands every admitted action of the host answers a next state. -/
theorem hostStep_total {a : HostAction} {s : State} (hb : s.busy = false) (ha : a.wellFormed s.caps s.num = true) :
    ∃ t, hostStep a s = .next t := by
  obtain ⟨hr, ht⟩ := Bool.and_eq_true_iff.1 ha
  rw [hostStep_of_admitted hb hr ht]
  exact performAccess_total a s

/-- With no action of the host left a step retains all state (60_exceptions.md R103; log entry 7). -/
theorem step_of_idle {s : State} (h : s.host = []) : step s = .next s := by
  rw [step, h]

/-- With an action of the host left a step is that action. -/
theorem step_of_action {s : State} {a : HostAction} {rest : List HostAction} (h : s.host = a :: rest) :
    step s = hostStep a { s with host := rest } := by
  rw [step, h]

/-- A step has a successor where none of the host's actions is left or the next one is admitted between commands. -/
theorem step_total {s : State} (hb : s.busy = false)
    (hadmitted : ∀ a rest, s.host = a :: rest → a.wellFormed s.caps s.num = true) : ∃ t, step s = .next t := by
  cases hhost : s.host with
  | nil => exact ⟨s, step_of_idle hhost⟩
  | cons a rest =>
    rw [step_of_action hhost]
    exact hostStep_total (s := { s with host := rest }) hb (hadmitted a rest hhost)

/-- Settles O58: the invariant says that no command is in progress, so the step has a successor, and every successor keeps the
invariant. -/
theorem everyAdmittedStepHasASuccessor : Obligations.EveryAdmittedStepHasASuccessor := by
  intro s hinv hadmitted
  obtain ⟨t, ht⟩ := step_total hinv.1 hadmitted
  exact ⟨t, ht, everyStepKeepsTheInvariant s t hinv ht⟩

end Machine

end Sys2Proof
